-- ==== Sys2Proof/Word.lean ====
section
/-! DEFINITION. The word types of the part, the plainest arithmetic on them, and tables of a fixed number of rows. -/

namespace Sys2Proof

/-- One byte of a frame or payload. -/
abbrev Byte := BitVec 8

/-- A 16-bit quantity: event IDs, close numbers, period numbers, frame checks (00_scope.md, Conventions). -/
abbrev Word16 := BitVec 16

/-- A row time in milliseconds, modulo 2^32 (R85). -/
abbrev RowTime := BitVec 32

/-- A table of exactly `n` rows, kept with the proof of its length. -/
structure Table (α : Type) (n : Nat) where
  /-- The rows in index order. -/
  rows : List α
  /-- There are exactly `n` of them. -/
  size : rows.length = n
  deriving DecidableEq, Repr

namespace Table

/-- A table whose rows all hold `x`. -/
def fill {α : Type} (n : Nat) (x : α) : Table α n :=
  ⟨List.replicate n x, List.length_replicate⟩

/-- The row at an index. -/
def get {α : Type} {n : Nat} (t : Table α n) (i : Fin n) : α :=
  t.rows.get ⟨i.val, by rw [t.size]; exact i.isLt⟩

/-- The table with one row replaced. -/
def set {α : Type} {n : Nat} (t : Table α n) (i : Fin n) (x : α) : Table α n :=
  ⟨t.rows.set i.val x, by rw [List.length_set]; exact t.size⟩

/-- The table with one row changed by `f`. -/
def modify {α : Type} {n : Nat} (t : Table α n) (i : Fin n) (f : α → α) : Table α n :=
  t.set i (f (t.get i))

/-- The table with every row changed by `f`. -/
def map {α : Type} {n : Nat} (t : Table α n) (f : α → α) : Table α n :=
  ⟨t.rows.map f, by rw [List.length_map]; exact t.size⟩

end Table

/-- A quantity held for each of the two feeds A and B. -/
structure PerFeed (α : Type) where
  /-- The quantity on feed A. -/
  a : α
  /-- The quantity on feed B. -/
  b : α
  deriving DecidableEq, Repr

/-- One of the two independent power feeds. -/
inductive Feed where
  | a
  | b
  deriving DecidableEq, Repr

/-- The quantity on one feed. -/
def PerFeed.get {α : Type} (p : PerFeed α) : Feed → α
  | .a => p.a
  | .b => p.b

/-- The pair with the quantity of one feed changed by `f`. -/
def PerFeed.modify {α : Type} (p : PerFeed α) (f : Feed) (g : α → α) : PerFeed α :=
  match f with
  | .a => ⟨g p.a, p.b⟩
  | .b => ⟨p.a, g p.b⟩

/-- Addition that stops at `top` (Conventions: saturating quantities). -/
def satAdd (top a b : Nat) : Nat := min top (a + b)

/-- One more, stopping at 65,535: the rise of a 16-bit saturating count. -/
def bump16 (n : Nat) : Nat := satAdd 65535 n 1

end Sys2Proof
end

