-- ==== Sys2Proof/Syntax.lean ====
section
/-! DEFINITION. The commands of the part: one constructor of `Instr` per row of spec/opcode_table.json, with the row's operands. -/

namespace Sys2Proof

/-- A metering node by index: node address `n` of the spec (1..32) is index `n - 1`. -/
abbrev NodeIx := Fin 32

/-- The two meter link ports (R161). -/
inductive Port where
  | node
  | uplink
  deriving DecidableEq, Repr

/-- The header address and sequence and the payload of a good frame; its length and check follow from them (R161). -/
structure NodeFrame where
  /-- The node address byte of the header. -/
  addr : Byte
  /-- The sequence byte of the header. -/
  seq : Byte
  /-- The payload bytes. -/
  payload : List Byte
  deriving DecidableEq, Repr

/-- The two frame kinds that are passed down from the uplink to a node (Table 9.3). -/
inductive DownKind where
  | request
  | through
  deriving DecidableEq, Repr

/-- What a REQUEST payload carries beside its unit and op, which the row itself names (Table 9.7). -/
structure Request where
  /-- The tag byte. -/
  tag : Byte
  /-- The flags byte; bit 0 is ACK_WANTED. -/
  flags : Byte
  /-- The argument bytes, as received. -/
  args : List Byte
  deriving DecidableEq, Repr

/-- The poster of an event from outside a chain (R87, R98): events of one poster keep their order (R88). The six tick
generators are one poster, the time base; ticks that fall together may be posted either first (R86), by the order of their
TICK_EXPIRY commands (log entry 16). -/
inductive EventSource where
  | timeBase
  | review
  | tenants
  | roster
  | report
  deriving DecidableEq, Repr

/-- The commands, one per row of the opcode table. -/
inductive Instr where
  /-- COLD_RESET: power-on or the RESET line (R182). -/
  | coldReset
  /-- NODE_READINGS: a good READINGS frame on the node port (R132). -/
  | nodeReadings (f : NodeFrame)
  /-- NODE_JOIN: a good JOIN frame on the node port (R131). -/
  | nodeJoin (f : NodeFrame)
  /-- NODE_ORDER_DONE: a good ORDER_DONE frame on the node port (R110). -/
  | nodeOrderDone (f : NodeFrame)
  /-- NODE_THROUGH: a good THROUGH frame on the node port (R129). -/
  | nodeThrough (f : NodeFrame)
  /-- PASS_DOWN: a good REQUEST or THROUGH frame on the uplink port for a node (R168). -/
  | passDown (kind : DownKind) (f : NodeFrame)
  /-- FRAME_DISCARD: a good frame that its port does not take (R163). -/
  | frameDiscard (port : Port) (kind : Byte) (f : NodeFrame)
  /-- FRAME_ERROR: bytes taken by a receiver that end no good frame (R162). -/
  | frameError (port : Port) (bytes : List Byte)
  /-- BYTE_GAP_TIMEOUT: bytes taken by a receiver and then a gap of more than 0.2 ms (R162). -/
  | byteGapTimeout (port : Port) (bytes : List Byte)
  /-- REQUEST_UNSERVED: a REQUEST payload to 0x00 that names nothing to serve (R173). -/
  | requestUnserved (payload : List Byte)
  /-- NODE_SEND_DONE: the node transmitter finishes its frame (R168). -/
  | nodeSendDone
  /-- LIMIT_NOTE_OWED_SENT: a place of the node transmit queue goes to an owed LIMIT note (R138). -/
  | limitNoteOwedSent
  /-- UPLINK_SEND_DONE: the uplink transmitter becomes idle (R169). -/
  | uplinkSendDone
  /-- VISIT_RETRY: the review engine takes a freed place of the record buffer (R80). -/
  | visitRetry
  /-- EXPORT_RESUME: the RECORD unit takes a freed place of the record buffer (R157). -/
  | exportResume
  /-- TICK_EXPIRY: one of the six tick generators expires (R86). -/
  | tickExpiry (g : Fin 6)
  /-- REVIEW_TICK: the review tick expires (R65). -/
  | reviewTick
  /-- ORDER_TIMEOUT: the outstanding order of this number expires (R112). -/
  | orderTimeout (number : Byte)
  /-- NODE_SILENCE: the node expires as silent (R134). -/
  | nodeSilence (node : NodeIx)
  /-- REVIEW_VISIT: the review engine takes the slot at its position (R70). -/
  | reviewVisit
  /-- PASS_END: the position would pass 128 (R81). -/
  | passEnd
  /-- EVENT_SCAN: the link table takes the next event; among blocks, `prefer` says whose (R88, R90). -/
  | eventScan (prefer : Option EventSource)
  /-- SHED_REPORT: the link table takes the report of an ended request (R98). -/
  | shedReport
  /-- SHED_REQUEST_TAKE: the idle shed engine takes the head request (R115). -/
  | shedRequestTake
  /-- SHED_SEARCH_STEP: the search reads the entry at its position (R117). -/
  | shedSearchStep
  /-- SHED_SEARCH_END: the search ends after index 1535 (R118). -/
  | shedSearchEnd
  /-- ASSIGN_ENTRY: a long ASSIGN handles its next entry (R16). -/
  | assignEntry
  /-- ALTER_FLAGS_ENTRY: a long ALTER_FLAGS handles its next entry (R19). -/
  | alterFlagsEntry
  /-- READ_ENTRIES (R14). -/
  | readEntries (r : Request)
  /-- ASSIGN (R16). -/
  | assign (r : Request)
  /-- SET_OUTLET (R18). -/
  | setOutlet (r : Request)
  /-- ALTER_FLAGS (R19). -/
  | alterFlags (r : Request)
  /-- SET_PROFILE (R36). -/
  | setProfile (r : Request)
  /-- READ_PROFILE (R38). -/
  | readProfile (r : Request)
  /-- CREATE (R51). -/
  | create (r : Request)
  /-- SET_CONTRACT (R52). -/
  | setContract (r : Request)
  /-- ACTIVATE (R54). -/
  | activate (r : Request)
  /-- SUSPEND (R55). -/
  | suspend (r : Request)
  /-- REMOVE (R56). -/
  | remove (r : Request)
  /-- SET_PRESET (R57). -/
  | setPreset (r : Request)
  /-- READ_TENANT (R58). -/
  | readTenant (r : Request)
  /-- SET_LINK (R102). -/
  | setLink (r : Request)
  /-- READ_LINK (R103). -/
  | readLink (r : Request)
  /-- REARM (R103). -/
  | rearm (r : Request)
  /-- SWITCH_ORDER: the SWITCH unit's ORDER (R124). -/
  | switchOrder (r : Request)
  /-- SHED_TENANT (R125). -/
  | shedTenant (r : Request)
  /-- RESTORE_TENANT (R125). -/
  | restoreTenant (r : Request)
  /-- SET_NODE_DISABLE: SET_NODE with enabled no (R135). -/
  | setNodeDisable (r : Request)
  /-- SET_NODE_ENABLE: SET_NODE with enabled yes (R136). -/
  | setNodeEnable (r : Request)
  /-- SET_LIMIT (R142). -/
  | setLimit (r : Request)
  /-- READ_NODE (R143). -/
  | readNode (r : Request)
  /-- READ_STATES (R143). -/
  | readStates (r : Request)
  /-- CLOSE: the RECORD unit's CLOSE (R156). -/
  | close (r : Request)
  /-- EXPORT (R157). -/
  | exportTenant (r : Request)
  /-- IMPORT (R159). -/
  | importTenant (r : Request)
  /-- READ_IDENT (R179). -/
  | readIdent (r : Request)
  /-- SET_STATE (R177). -/
  | setState (r : Request)
  /-- SET_TIMING (R179). -/
  | setTiming (r : Request)
  /-- SET_FORWARD (R179). -/
  | setForward (r : Request)
  /-- READ_STATUS (R178). -/
  | readStatus (r : Request)
  /-- READ_TAGS (R179). -/
  | readTags (r : Request)
  /-- RESTART (R180). -/
  | restart (r : Request)
  /-- RESET_UNIT (R181). -/
  | resetUnit (r : Request)
  deriving DecidableEq, Repr

/-- The eight request units in unit code order (Table 10.1). -/
inductive RequestUnit where
  | control
  | map
  | tenant
  | links
  | roster
  | calib
  | switch
  | record
  deriving DecidableEq, Repr

/-- The request a command carries, with its unit and op byte (Table 9.7); none for a command that is no served request. -/
def Instr.served : Instr → Option (RequestUnit × Nat × Request)
  | .coldReset => none
  | .nodeReadings _ => none
  | .nodeJoin _ => none
  | .nodeOrderDone _ => none
  | .nodeThrough _ => none
  | .passDown _ _ => none
  | .frameDiscard _ _ _ => none
  | .frameError _ _ => none
  | .byteGapTimeout _ _ => none
  | .requestUnserved _ => none
  | .nodeSendDone => none
  | .limitNoteOwedSent => none
  | .uplinkSendDone => none
  | .visitRetry => none
  | .exportResume => none
  | .tickExpiry _ => none
  | .reviewTick => none
  | .orderTimeout _ => none
  | .nodeSilence _ => none
  | .reviewVisit => none
  | .passEnd => none
  | .eventScan _ => none
  | .shedReport => none
  | .shedRequestTake => none
  | .shedSearchStep => none
  | .shedSearchEnd => none
  | .assignEntry => none
  | .alterFlagsEntry => none
  | .readEntries r => some (.map, 1, r)
  | .assign r => some (.map, 2, r)
  | .setOutlet r => some (.map, 3, r)
  | .alterFlags r => some (.map, 4, r)
  | .setProfile r => some (.calib, 1, r)
  | .readProfile r => some (.calib, 2, r)
  | .create r => some (.tenant, 1, r)
  | .setContract r => some (.tenant, 2, r)
  | .activate r => some (.tenant, 3, r)
  | .suspend r => some (.tenant, 4, r)
  | .remove r => some (.tenant, 5, r)
  | .setPreset r => some (.tenant, 6, r)
  | .readTenant r => some (.tenant, 7, r)
  | .setLink r => some (.links, 1, r)
  | .readLink r => some (.links, 2, r)
  | .rearm r => some (.links, 3, r)
  | .switchOrder r => some (.switch, 1, r)
  | .shedTenant r => some (.switch, 2, r)
  | .restoreTenant r => some (.switch, 3, r)
  | .setNodeDisable r => some (.roster, 1, r)
  | .setNodeEnable r => some (.roster, 1, r)
  | .setLimit r => some (.roster, 2, r)
  | .readNode r => some (.roster, 3, r)
  | .readStates r => some (.roster, 4, r)
  | .close r => some (.record, 1, r)
  | .exportTenant r => some (.record, 2, r)
  | .importTenant r => some (.record, 3, r)
  | .readIdent r => some (.control, 1, r)
  | .setState r => some (.control, 2, r)
  | .setTiming r => some (.control, 3, r)
  | .setForward r => some (.control, 4, r)
  | .readStatus r => some (.control, 5, r)
  | .readTags r => some (.control, 6, r)
  | .restart r => some (.control, 7, r)
  | .resetUnit r => some (.control, 8, r)

end Sys2Proof
end

