-- ==== Sys2Proof/Decode.lean ====
section
/-! DEFINITION. Decoding of table words. The opcode table gives no row any bits, so no word spells a command. -/

namespace Sys2Proof

/-- The command that a word spells by the table's bits: none, as the table gives no bits to any row (log entry 19). -/
def decodeTableWord (_nbits _w : Nat) : Option Instr := none

end Sys2Proof
end

