-- ==== Sys2Proof/Config.lean ====
section
/-! DEFINITION. What the part fixes (the scale of Table 0.1) and the one value the spec leaves open. -/

namespace Sys2Proof.Config

/-- Frames the transit queue holds (R167). -/
def transitDepth : Nat := 16

/-- Frames the node transmit queue holds (R168). -/
def nodeQueueDepth : Nat := 16

/-- Replies the reply queue holds (R175). -/
def replyDepth : Nat := 8

/-- Notices the notice queue holds (R176). -/
def noticeDepth : Nat := 32

/-- Account records the record buffer holds (R152). -/
def recordDepth : Nat := 4

/-- Entries the shed request queue holds (R97). -/
def shedQueueDepth : Nat := 8

/-- Events the event store of the link table holds (R90). -/
def eventStoreDepth : Nat := 64

/-- Orders that may be outstanding at once (R106). -/
def orderDepth : Nat := 32

/-- Entries a tenant's shed stack holds (R49). -/
def stackDepth : Nat := 16

/-- Largest payload of a frame in bytes (R161). -/
def maxPayload : Nat := 200

/-- Largest value of a lifetime energy, 2^64 - 1 µJ (R42). -/
def energyTop : Nat := 2 ^ 64 - 1

/-- Largest value of a 32-bit duration, 2^32 - 1 ms. -/
def durationTop : Nat := 2 ^ 32 - 1

/-- FREE VALUE (log entry 7): the relay status byte in the answer of a SHED_TENANT or RESTORE_TENANT that placed
no order. R125 says the data gives "the relay status the ending wrote"; without an order no ending wrote one. The
argument is the model's counter of such draws, `Uplink.freeCount`. Nothing can be proved of the value. -/
opaque freeByte : Nat → Byte

end Sys2Proof.Config
end

