-- ==== Sys2Proof/Machine/State.lean ====
section
/-! DEFINITION. The state of the part as plain data, block by block, and its value after cold reset. -/

namespace Sys2Proof.Machine

/-! ### Indices -/

/-- An outlet by its map index, (node - 1) * 48 + (outlet - 1) (R1). -/
abbrev OutletIx := Fin 1536

/-- A tenant slot by index: slot `t` of the spec (1..128) is index `t - 1` (R42). -/
abbrev Slot := Fin 128

/-- A link of the event link table (R89). -/
abbrev LinkIx := Fin 64

/-! ### The outlet map (01_the_outlet_map.md) -/

/-- The three fields by which an outlet is counted (section 1.2). -/
structure Membership where
  /-- The tenant; none is tenant 0, unassigned. -/
  tenant : Option Slot
  /-- The feed. -/
  feed : Feed
  /-- The excluded mark. -/
  excluded : Bool
  deriving DecidableEq, Repr

/-- What is known of an outlet relay (Table 1.1). -/
inductive RelayStatus where
  | unknown
  | on
  | off
  | offShed
  deriving DecidableEq, Repr

/-- What is known of an outlet indicator (Table 1.1). -/
inductive Indicator where
  | unknown
  | dark
  | steady
  | blink
  deriving DecidableEq, Repr

/-- The four sticky conversion flags (R33). -/
inductive ConvFlag where
  | malformed
  | saturated
  | negative
  | noMeasurement
  deriving DecidableEq, Repr

/-- One outlet entry (R2, Table 1.1). -/
structure Outlet where
  /-- Effective tenant, feed and excluded mark. -/
  effective : Membership
  /-- The pending change, when present. -/
  pending : Option Membership
  /-- Calibration profile. -/
  profile : Fin 16
  /-- Shed rank; 0 is never shed. -/
  rank : Fin 16
  /-- Last applied calibrated power, mW. -/
  reading : Nat
  /-- Row time at which the reading was applied. -/
  readingTime : RowTime
  /-- A reading has been applied since freshness was last lost. -/
  fresh : Bool
  /-- The six flags as Table 9.6 places them: bit 5 SWITCHABLE, 4 NOTIFY, 3 MALFORMED, 2 SATURATED, 1 NEGATIVE,
  0 NO_MEASUREMENT. -/
  flags : BitVec 6
  /-- Relay status. -/
  relay : RelayStatus
  /-- Indicator. -/
  indicator : Indicator
  deriving DecidableEq, Repr

/-- An outlet entry after cold reset (Table 1.1). -/
def Outlet.cold : Outlet :=
  { effective := ⟨none, .a, false⟩, pending := none, profile := 0, rank := 0, reading := 0, readingTime := 0,
    fresh := false, flags := 0, relay := .unknown, indicator := .unknown }

/-- The outlet map with its two counts (R1, R2). -/
structure OutletMap where
  /-- The 1536 entries. -/
  entries : Table Outlet 1536
  /-- Entries with a pending change present. -/
  pendingCount : Nat
  /-- Entries with at least one sticky conversion flag set. -/
  attention : Nat
  deriving DecidableEq, Repr

/-! ### Calibration profiles (02_reading_intake_and_conversion.md) -/

/-- A coefficient k * 2^(x - 40) (Table 2.3). -/
structure Coefficient where
  /-- Mantissa, signed 16 bits. -/
  k : BitVec 16
  /-- Exponent, 0..63. -/
  x : BitVec 6
  deriving DecidableEq, Repr

/-- One calibration profile (R30, Table 2.3). The degree is 2 exactly when c2 is present (R36), so it is computed. -/
structure Profile where
  /-- Constant term, mW, signed 24 bits. -/
  c0 : BitVec 24
  /-- Linear coefficient. -/
  c1 : Coefficient
  /-- Square coefficient, present for degree 2. -/
  c2 : Option Coefficient
  /-- Results below it are taken as zero, mW. -/
  deadband : BitVec 16
  /-- Largest result applied, mW. -/
  ceiling : BitVec 24
  deriving DecidableEq, Repr

/-- A profile after cold reset (Table 2.3). -/
def Profile.cold : Profile :=
  { c0 := 0, c1 := ⟨1, 36⟩, c2 := none, deadband := 0, ceiling := 16777215 }

/-! ### Tenant accounts (03_tenant_accounts_and_contracts.md) -/

/-- A capacity or limit: a value 0..1023 and a scale code 0..3 (R43, R128). -/
structure Capacity where
  /-- The value. -/
  value : BitVec 10
  /-- The scale code: ×1, ×10, ×100 or ×1000 W. -/
  scale : BitVec 2
  deriving DecidableEq, Repr

/-- How the feeds are judged (Table 3.2). -/
inductive Basis where
  | combined
  | perFeed
  deriving DecidableEq, Repr

/-- The burst part of a contract (Table 3.2). -/
structure Burst where
  /-- Burst energy, kJ. -/
  allowance : Nat
  /-- Refill rate, W. -/
  refill : Nat
  deriving DecidableEq, Repr

/-- The contract of a tenant (R43, Table 3.2). -/
structure Contract where
  basis : Basis
  /-- Capacities A and B. -/
  capacity : PerFeed Capacity
  /-- Warn percent. -/
  warn : Nat
  /-- Stale tolerance. -/
  tolerance : Nat
  /-- Release visits. -/
  release : Nat
  /-- The burst part, when present. -/
  burst : Option Burst
  deriving DecidableEq, Repr

/-- The contract of a cleared record (Table 3.1). -/
def Contract.cleared : Contract :=
  { basis := .combined, capacity := ⟨⟨0, 0⟩, ⟨0, 0⟩⟩, warn := 100, tolerance := 0, release := 1, burst := none }

/-- Tenant states (section 3.3). -/
inductive TenantState where
  | free
  | active
  | suspended
  deriving DecidableEq, Repr

/-- Verdicts (R79). -/
inductive Verdict where
  | within
  | near
  | excursion
  | breach
  | stale
  | held
  deriving DecidableEq, Repr

/-- One entry of a shed stack (R49). -/
structure StackEntry where
  outlet : OutletIx
  confirmed : Bool
  deriving DecidableEq, Repr

/-- One tenant record (R42, Table 3.1). -/
structure Tenant where
  state : TenantState
  /-- The contract in force. -/
  contract : Contract
  /-- The pending contract, when present. -/
  pendingContract : Option Contract
  /-- Draws, mW. -/
  draw : PerFeed Nat
  /-- Member counts. -/
  members : PerFeed Nat
  /-- Stale count. -/
  stale : Nat
  /-- Pending-in. -/
  pendingIn : Nat
  /-- Lifetime energies, µJ. -/
  lifetime : PerFeed Nat
  /-- Baselines, µJ. -/
  baseline : PerFeed Nat
  /-- Preset, signed µJ. -/
  preset : BitVec 64
  /-- Budget, µJ. -/
  budget : Nat
  verdict : Verdict
  /-- Release streak. -/
  streak : Nat
  lastVisit : RowTime
  /-- Unmetered time, ms. -/
  unmetered : Nat
  periodNumber : Word16
  periodStart : RowTime
  /-- Peak q, mW. -/
  peak : Nat
  /-- Breach time, ms. -/
  breachTime : Nat
  /-- Excursion time, ms. -/
  excursionTime : Nat
  /-- Last close number. -/
  lastClose : Word16
  /-- The shed stack, bottom first. -/
  stack : List StackEntry
  deriving DecidableEq, Repr

/-- A cleared record (R42, Table 3.1). -/
def Tenant.cleared : Tenant :=
  { state := .free, contract := .cleared, pendingContract := none, draw := ⟨0, 0⟩, members := ⟨0, 0⟩, stale := 0,
    pendingIn := 0, lifetime := ⟨0, 0⟩, baseline := ⟨0, 0⟩, preset := 0, budget := 0, verdict := .held, streak := 0,
    lastVisit := 0, unmetered := 0, periodNumber := 0, periodStart := 0, peak := 0, breachTime := 0,
    excursionTime := 0, lastClose := 0, stack := [] }

/-! ### The review engine (04_the_review_pass.md) and the time base (05_event_links_and_the_time_base.md) -/

/-- Pass states (R63). -/
inductive PassState where
  | idle
  | visiting
  | waiting
  deriving DecidableEq, Repr

/-- The review engine (R63, Table 4.1). -/
structure Review where
  pass : PassState
  /-- The slot visited next, or waited at. -/
  position : Slot
  /-- The walk has handled slot 128, so the position would pass 128 and the pass end is due (R81; log entry 4). -/
  walked : Bool
  /-- The closing mark. -/
  closing : Bool
  closeNumber : Word16
  closePending : Bool
  deriving DecidableEq, Repr

/-- The review engine after cold reset (Table 4.1). -/
def Review.cold : Review :=
  { pass := .idle, position := 0, walked := false, closing := false, closeNumber := 0, closePending := false }

/-- The time base (R64, R85, R86). -/
structure TimeBase where
  /-- The row time, ms. -/
  rowTime : RowTime
  /-- Due times of the six tick generators (Table 5.1). -/
  due : Table RowTime 6
  /-- The review period as its code (R179): 100 ms, 250 ms, 500 ms, 1 s, 2 s, 5 s, 10 s. -/
  reviewPeriod : Fin 7
  /-- Due time of the review tick. -/
  reviewDue : RowTime
  deriving DecidableEq, Repr

/-- The time base after cold reset (R64, Table 5.1). -/
def TimeBase.cold : TimeBase :=
  { rowTime := 0, due := ⟨[100, 1000, 10000, 60000, 900000, 3600000], rfl⟩, reviewPeriod := 3, reviewDue := 1000 }

/-! ### The event link table (05_event_links_and_the_time_base.md) -/

/-- An event with its depth (R88). -/
structure Event where
  id : Word16
  depth : Nat
  deriving DecidableEq, Repr

/-- An event from a block, waiting in the store, with its poster. -/
structure Arrival where
  source : EventSource
  event : Event
  deriving DecidableEq, Repr

/-- Link modes (R89). -/
inductive LinkMode where
  | off
  | once
  | onChange
  | every
  deriving DecidableEq, Repr

/-- Link actions with their targets; NOTIFY and CLOSE have target 0 (Table 5.3). -/
inductive LinkAction where
  | shed (target : Slot)
  | restore (target : Slot)
  | notify
  | latch (target : Slot)
  | close
  deriving DecidableEq, Repr

/-- A link's condition: a tenant and a set of verdicts, bit v for verdict code v (Table 9.6). -/
structure Condition where
  tenant : Slot
  verdicts : BitVec 6
  deriving DecidableEq, Repr

/-- One link record (R89, Table 5.3). -/
structure Link where
  mode : LinkMode
  trigger : Word16
  condition : Option Condition
  action : LinkAction
  guard : Bool
  /-- The arm state is ARMED. -/
  armed : Bool
  lastCondition : Bool
  guardSet : Bool
  fireCount : Nat
  deriving DecidableEq, Repr

/-- A link after cold reset (Table 5.3). -/
def Link.cold : Link :=
  { mode := .off, trigger := 0, condition := none, action := .notify, guard := false, armed := true,
    lastCondition := false, guardSet := false, fireCount := 0 }

/-- The two kinds of shed request (R97). -/
inductive ShedKind where
  | shed
  | restore
  deriving DecidableEq, Repr

/-- The origin of a shed request (R97, R123). -/
inductive RequestOrigin where
  | link (index : LinkIx) (depth : Nat)
  | management (tag : Byte) (replyOwed : Bool)
  deriving DecidableEq, Repr

/-- One entry of the shed request queue (R97). -/
structure ShedRequest where
  kind : ShedKind
  tenant : Slot
  origin : RequestOrigin
  deriving DecidableEq, Repr

/-- The report of an ended request of LINK origin (R98). -/
structure ShedReport where
  link : LinkIx
  depth : Nat
  done : Bool
  /-- An order was placed. -/
  placed : Bool
  deriving DecidableEq, Repr

/-- The event link table with its event store and the shed request queue (R89, R90, R97). -/
structure LinkTable where
  links : Table Link 64
  /-- Outcome events of the chain in hand, oldest first. -/
  chain : List Event
  /-- Events from other blocks, oldest first. -/
  arrivals : List Arrival
  /-- Reports that wait to be taken, oldest first. -/
  reports : List ShedReport
  /-- The shed request queue, head first. -/
  shedQueue : List ShedRequest
  deriving DecidableEq, Repr

/-! ### The order table and the shed engine (06_outlet_orders_and_shedding.md) -/

/-- Relay actions (Table 6.1). -/
inductive RelayAction where
  | noChange
  | on
  | off
  | cycle
  deriving DecidableEq, Repr

/-- Indicator actions (Table 6.1). -/
inductive IndicatorAction where
  | noChange
  | dark
  | steady
  | blink
  deriving DecidableEq, Repr

/-- Who placed an order, with what Table 6.1 says is present for it. -/
inductive OrderOrigin where
  | management (tag : Byte) (replyOwed : Bool)
  | shed (tenant : Slot) (origin : RequestOrigin)
  | restore (tenant : Slot) (origin : RequestOrigin)
  deriving DecidableEq, Repr

/-- One order record (R106, Table 6.1). -/
structure Order where
  number : Byte
  outlet : OutletIx
  relay : RelayAction
  indicator : IndicatorAction
  origin : OrderOrigin
  issued : RowTime
  expires : RowTime
  deriving DecidableEq, Repr

/-- A shed search in flight (R115, Table 6.2). -/
structure Search where
  tenant : Slot
  origin : RequestOrigin
  /-- The map index read next; 1536 when the walk has read index 1535 (log entry 4). -/
  position : Nat
  /-- The best candidate so far: map index and shed rank. -/
  best : Option (OutletIx × Fin 16)
  deriving DecidableEq, Repr

/-- The order table and the shed engine (R106, R109, R115). -/
structure OrderTable where
  /-- The outstanding orders, in the order they were placed. -/
  orders : List Order
  /-- The next order number. -/
  next : Byte
  /-- The order timeout, ms. -/
  timeout : Nat
  /-- The shed search; none is IDLE. -/
  search : Option Search
  deriving DecidableEq, Repr

/-! ### The node roster (07_metering_nodes.md) -/

/-- Node states (Table 7.2). Enabled is "not DISABLED" (R128; log entry 11). -/
inductive NodeState where
  | disabled
  | absent
  | up
  | silent
  deriving DecidableEq, Repr

/-- One node record (R128, Table 7.1). -/
structure Node where
  state : NodeState
  /-- Fitted outlets. -/
  fitted : Nat
  /-- Last sequence, when present. -/
  lastSeq : Option Byte
  /-- Last heard. -/
  lastHeard : RowTime
  accepted : Nat
  gaps : Nat
  duplicates : Nat
  outOfOrder : Nat
  badEntries : Nat
  lateCompletions : Nat
  limit : Capacity
  noteOwed : Bool
  deriving DecidableEq, Repr

/-- A node record after cold reset (Table 7.1). -/
def Node.cold : Node :=
  { state := .absent, fitted := 48, lastSeq := none, lastHeard := 0, accepted := 0, gaps := 0, duplicates := 0,
    outOfOrder := 0, badEntries := 0, lateCompletions := 0, limit := ⟨0, 0⟩, noteOwed := false }

/-- The roster with the silence timeout in force (R128, R133). -/
structure Roster where
  nodes : Table Node 32
  /-- The silence timeout, s. -/
  timeout : Nat
  deriving DecidableEq, Repr

/-! ### What waits for the management controller (08, 10) -/

/-- A PERIOD record (R149, Table 8.1); its record check is computed from the other fields. -/
structure PeriodRecord where
  tenant : Slot
  closeNumber : Word16
  periodNumber : Word16
  periodStart : RowTime
  periodEnd : RowTime
  lifetime : PerFeed Nat
  baseline : PerFeed Nat
  preset : BitVec 64
  /-- Period energies, signed µJ, held within the signed 64-bit range (R150). -/
  energy : PerFeed Int
  peak : Nat
  breachTime : Nat
  excursionTime : Nat
  unmetered : Nat
  verdict : Verdict
  basis : Basis
  deriving DecidableEq, Repr

/-- A TRANSFER record (R158, Table 8.3); its record check is computed from the other fields. -/
structure TransferRecord where
  source : Slot
  exportTime : RowTime
  state : TenantState
  contract : Contract
  pendingContract : Option Contract
  lifetime : PerFeed Nat
  baseline : PerFeed Nat
  preset : BitVec 64
  budget : Nat
  verdict : Verdict
  streak : Nat
  lastVisit : RowTime
  unmetered : Nat
  periodNumber : Word16
  periodStart : RowTime
  peak : Nat
  breachTime : Nat
  excursionTime : Nat
  lastClose : Word16
  deriving DecidableEq, Repr

/-- An account record (R152). -/
inductive AccountRecord where
  | period (r : PeriodRecord)
  | transfer (r : TransferRecord)
  deriving DecidableEq, Repr

/-- The statuses a request ends with (Table 9.8). -/
inductive Status where
  | ok
  | staged
  | applied
  | superseded
  | badUnit
  | badOp
  | badArg
  | badTag
  | busy
  | wrongState
  | notFound
  | tableFull
  | queueFull
  | nodeNotUp
  | inShed
  | hasMembers
  | stackFull
  | alreadyPending
  | done
  | refused
  | fault
  | timeout
  | nodeLost
  deriving DecidableEq, Repr

/-- The subject of a notice by kind (Table 9.9). -/
inductive NoticeSubject where
  /-- LINK (R99): link, event, its depth, the value of c, performed as a counter-action. -/
  | link (index : LinkIx) (event : Word16) (depth : Nat) (c : Bool) (counter : Bool)
  /-- CONVERSION (R34): the outlet and the flag newly set. -/
  | conversion (outlet : OutletIx) (flag : ConvFlag)
  /-- ORDER (R122): order number and outlet when an order was placed; the reason; the reported relay state. -/
  | order (kind : ShedKind) (tenant : Slot) (number : Option Byte) (outlet : Option OutletIx) (reason : Status)
      (reported : Option Bool)
  /-- CHAIN (R91): the ID of the discarded event. -/
  | chain (event : Word16)
  /-- OVERRUN (R67): the slot at which the pass stands, and whether it is WAITING. -/
  | overrun (slot : Slot) (waiting : Bool)
  deriving DecidableEq, Repr

/-- A notice with the row time at which it was queued (R176). -/
structure Notice where
  time : RowTime
  subject : NoticeSubject
  deriving DecidableEq, Repr

/-- Operating states (R177). -/
inductive OpState where
  | transparent
  | hold
  | run
  deriving DecidableEq, Repr

/-- The five sticky flags of the summary status (R178). -/
structure Sticky where
  noticeLost : Bool
  replyLost : Bool
  transitDrop : Bool
  chainLimit : Bool
  passOverrun : Bool
  deriving DecidableEq, Repr

/-- The five sticky flags clear. -/
def Sticky.clear : Sticky := ⟨false, false, false, false, false⟩

/-- The counts that both ports hold (Table 9.4). -/
structure PortCounts where
  good : Nat
  lengthError : Nat
  checkError : Nat
  truncated : Nat
  unknownKind : Nat
  wrongPort : Nat
  badAddress : Nat
  deriving DecidableEq, Repr

/-- The counts at 0. -/
def PortCounts.zero : PortCounts := ⟨0, 0, 0, 0, 0, 0, 0⟩

/-- The counts of both ports (R164, Table 9.4): the last three belong to one port each. -/
structure Counts where
  node : PortCounts
  uplink : PortCounts
  /-- Node port. -/
  disabledDrop : Nat
  /-- Node port. -/
  transitDrop : Nat
  /-- Uplink port. -/
  throughDrop : Nat
  deriving DecidableEq, Repr

/-- All port counts at 0. -/
def Counts.zero : Counts := ⟨.zero, .zero, 0, 0, 0⟩

/-- What READ_STATUS returns (R178). -/
structure StatusReport where
  opState : OpState
  passInFlight : Bool
  sticky : Sticky
  /-- MAP_ATTENTION. -/
  mapAttention : Bool
  transit : Nat
  nodeQueue : Nat
  replies : Nat
  notices : Nat
  records : Nat
  shedQueue : Nat
  orders : Nat
  pendingChanges : Nat
  counts : Counts
  rowTime : RowTime
  deriving DecidableEq, Repr

/-- The data of a reply, by operation; its bytes are laid out by Table 9.6. -/
inductive ReplyData where
  /-- No data. -/
  | none
  /-- READ_ENTRIES (R14). -/
  | entries (es : List Outlet)
  /-- ASSIGN: entries applied, staged, superseded (R17). -/
  | assigned (applied staged superseded : Nat)
  /-- ALTER_FLAGS: entries changed (R20). -/
  | changed (n : Nat)
  /-- READ_PROFILE (R38). -/
  | profile (p : Profile)
  /-- READ_TENANT (R58). -/
  | tenant (t : Tenant)
  /-- READ_LINK (R103). -/
  | link (l : Link)
  /-- ORDER (R124): order number (none when no order was placed), relay status, indicator. -/
  | order (number : Option Byte) (relay : RelayStatus) (indicator : Indicator)
  /-- SHED_TENANT, RESTORE_TENANT (R125): outlet, order number and relay status written, none without an order. -/
  | shed (outlet : Option OutletIx) (number : Option Byte) (relay : Option RelayStatus)
  /-- READ_NODE (R143). -/
  | node (n : Node)
  /-- READ_STATES (R143): state and note owed mark of nodes 1 to 32. -/
  | states (ns : List (NodeState × Bool))
  /-- CLOSE (R156). -/
  | closeNumber (n : Word16)
  /-- EXPORT, IMPORT (R157, R159): slot and period number. -/
  | slotPeriod (slot : Slot) (period : Word16)
  /-- READ_IDENT (R179). -/
  | ident
  /-- READ_STATUS (R178). -/
  | status (r : StatusReport)
  /-- READ_TAGS (R179). -/
  | tags (ts : List Byte)
  deriving DecidableEq, Repr

/-- A reply in the reply queue (R174). -/
structure Reply where
  /-- The unit byte, as received for BAD_TAG and BAD_UNIT (R173). -/
  unit : Byte
  tag : Byte
  status : Status
  data : ReplyData
  deriving DecidableEq, Repr

/-! ### The link interface (09_the_meter_link.md) -/

/-- A frame as it stands on the wire less its start byte and length byte, which follow from it (R161). -/
structure Frame where
  kind : Byte
  addr : Byte
  seq : Byte
  payload : List Byte
  check : Word16
  deriving DecidableEq, Repr

/-- An entry of the node transmit queue (R168). -/
inductive NodeItem where
  /-- An ORDER frame to be (R108). -/
  | order (node : NodeIx) (number : Byte) (outlet : Byte) (relay : RelayAction) (indicator : IndicatorAction)
  /-- A LIMIT frame to be (R137). -/
  | limit (node : NodeIx) (limit : Capacity)
  /-- A frame passed down, unchanged. -/
  | down (f : Frame)
  deriving DecidableEq, Repr

/-- The node transmit path (R168, R170). -/
structure NodeTx where
  /-- The node transmit queue, head first. -/
  queue : List NodeItem
  /-- The frame the node transmitter is sending; none when idle. -/
  tx : Option Frame
  /-- The node port's originated-frame sequence. -/
  seq : Byte
  deriving DecidableEq, Repr

/-- The source the arbiter's turn names (R169). -/
inductive Turn where
  | transit
  | record
  deriving DecidableEq, Repr

/-- The uplink arbiter with its four sources and the uplink transmitter (R169, R170). -/
structure Uplink where
  /-- The reply queue (R175). -/
  replies : List Reply
  /-- The notice queue (R176). -/
  notices : List Notice
  /-- The transit queue (R167). -/
  transit : List Frame
  /-- The record buffer (R152). -/
  records : List AccountRecord
  turn : Turn
  /-- The frame the uplink transmitter is sending; none when idle. -/
  tx : Option Frame
  /-- The uplink port's originated-frame sequence. -/
  seq : Byte
  /-- The model's own: the counter that the free value is applied to (log entry 7). -/
  freeCount : Nat
  /-- The model's own: a place of the record buffer has become free since a visit last found the buffer full, which is what
  ends a wait by R80 (log entry 32). -/
  recordFreed : Bool
  deriving DecidableEq, Repr

/-- A port's receiver (R162). -/
inductive Receiver where
  /-- HUNT. -/
  | hunt
  /-- A frame in progress: the bytes taken after its start byte. -/
  | inFrame (got : List Byte)
  deriving DecidableEq, Repr

/-- Forward modes (R165). -/
inductive ForwardMode where
  | plain
  | tagged
  | absorb
  deriving DecidableEq, Repr

/-- The receiving side of both ports and the forward mode (R162, R164, R165). -/
structure Ports where
  nodeRx : Receiver
  uplinkRx : Receiver
  counts : Counts
  forward : ForwardMode
  deriving DecidableEq, Repr

/-! ### The management unit (10_management_requests_and_notices.md) -/

/-- Flag operations of ALTER_FLAGS (R19). -/
inductive FlagOp where
  | and
  | or
  | xor
  deriving DecidableEq, Repr

/-- The long MAP operation in execution (R13): its request, the entry it handles next and how many are left. -/
inductive MapJob where
  | assign (tag : Byte) (ack : Bool) (change : Membership) (next : OutletIx) (left : Nat)
      (applied staged superseded : Nat)
  | alterFlags (tag : Byte) (ack : Bool) (op : FlagOp) (mask : BitVec 6) (next : OutletIx) (left : Nat) (changed : Nat)
  deriving DecidableEq, Repr

/-- The SWITCH request in execution (R123). -/
structure SwitchJob where
  tag : Byte
  /-- ACK_WANTED. -/
  ack : Bool
  deriving DecidableEq, Repr

/-- The EXPORT waiting for a place (R157). -/
structure ExportJob where
  tag : Byte
  /-- ACK_WANTED. -/
  ack : Bool
  slot : Slot
  deriving DecidableEq, Repr

/-- The management unit less its queues, which stand with the uplink arbiter (R174, R177, R178). -/
structure Management where
  opState : OpState
  sticky : Sticky
  /-- Last accepted tags in unit code order. -/
  tags : Table Byte 8
  mapJob : Option MapJob
  switchJob : Option SwitchJob
  exportJob : Option ExportJob
  deriving DecidableEq, Repr

/-! ### The whole state -/

/-- The state of the part, block by block, and the queue of waiting commands. -/
structure State where
  /-- Commands that wait, first in first out. -/
  pending : List Instr
  time : TimeBase
  map : OutletMap
  profiles : Table Profile 16
  tenants : Table Tenant 128
  review : Review
  links : LinkTable
  orders : OrderTable
  roster : Roster
  down : NodeTx
  up : Uplink
  ports : Ports
  mgmt : Management
  deriving DecidableEq, Repr

/-- The state right after cold reset (R182 and the cold-reset values of each chapter). -/
def State.reset : State where
  pending := []
  time := .cold
  map := { entries := .fill 1536 .cold, pendingCount := 0, attention := 0 }
  profiles := .fill 16 .cold
  tenants := .fill 128 .cleared
  review := .cold
  links := { links := .fill 64 .cold, chain := [], arrivals := [], reports := [], shedQueue := [] }
  orders := { orders := [], next := 1, timeout := 2000, search := none }
  roster := { nodes := .fill 32 .cold, timeout := 5 }
  down := { queue := [], tx := none, seq := 0 }
  up := { replies := [], notices := [], transit := [], records := [], turn := .transit, tx := none, seq := 0,
          freeCount := 0, recordFreed := false }
  ports := { nodeRx := .hunt, uplinkRx := .hunt, counts := .zero, forward := .plain }
  mgmt := { opState := .transparent, sticky := .clear, tags := .fill 8 0, mapJob := none, switchJob := none,
            exportJob := none }

/-! ### One block replaced -/

/-- The state with its queue replaced. -/
def State.withPending (s : State) (x : List Instr) : State := { s with pending := x }
/-- The state with its time base replaced. -/
def State.withTime (s : State) (x : TimeBase) : State := { s with time := x }
/-- The state with its outlet map replaced. -/
def State.withMap (s : State) (x : OutletMap) : State := { s with map := x }
/-- The state with its calibration profiles replaced. -/
def State.withProfiles (s : State) (x : Table Profile 16) : State := { s with profiles := x }
/-- The state with its tenant table replaced. -/
def State.withTenants (s : State) (x : Table Tenant 128) : State := { s with tenants := x }
/-- The state with its review engine replaced. -/
def State.withReview (s : State) (x : Review) : State := { s with review := x }
/-- The state with its event link table replaced. -/
def State.withLinks (s : State) (x : LinkTable) : State := { s with links := x }
/-- The state with its order table replaced. -/
def State.withOrders (s : State) (x : OrderTable) : State := { s with orders := x }
/-- The state with its roster replaced. -/
def State.withRoster (s : State) (x : Roster) : State := { s with roster := x }
/-- The state with its node transmit path replaced. -/
def State.withDown (s : State) (x : NodeTx) : State := { s with down := x }
/-- The state with its uplink side replaced. -/
def State.withUp (s : State) (x : Uplink) : State := { s with up := x }
/-- The state with its receiving side replaced. -/
def State.withPorts (s : State) (x : Ports) : State := { s with ports := x }
/-- The state with its management unit replaced. -/
def State.withMgmt (s : State) (x : Management) : State := { s with mgmt := x }

/-- Why the machine stops with a fault: nothing does. The spec gives every command an effect in every state and
calls no behaviour undefined, so no meaning ever raises one. -/
inductive Fault
  deriving DecidableEq, Repr

/-- Why a command has no meaning. -/
inductive Refusal where
  /-- The command is not modelled yet; raised by exec's arms alone, safe. Every row of the table is modelled, so no
  arm raises it. -/
  | notModelled (mnemonic : String)
  deriving DecidableEq, Repr

end Sys2Proof.Machine
end

