-- ==== Sys2Proof/Machine/Bytes.lean ====
section
/-! DEFINITION. Multi-byte fields, the frame check, frames and the receiver of a port (R161, R162, R171). -/

namespace Sys2Proof.Machine

/-- The `k` bytes of a field, most significant byte first (R161). -/
def beBytes : Nat → Nat → List Byte
  | 0, _ => []
  | k + 1, v => BitVec.ofNat 8 (v / 256 ^ k) :: beBytes k v

/-- The number that bytes spell, most significant byte first (R161). -/
def beNat (bs : List Byte) : Nat := bs.foldl (fun acc b => acc * 256 + b.toNat) 0

/-- The `k` bytes of a signed field in two's complement (R171). -/
def beInt (k : Nat) (i : Int) : List Byte := beBytes k (i % (256 : Int) ^ k).toNat

/-- The field of `len` bytes at offset `off`. -/
def fieldBytes (bs : List Byte) (off len : Nat) : List Byte := (bs.drop off).take len

/-- The number in the field of `len` bytes at offset `off`. -/
def fieldAt (bs : List Byte) (off len : Nat) : Nat := beNat (fieldBytes bs off len)

/-- A yes or no field (R171). -/
def boolByte (b : Bool) : Byte := if b then 1 else 0

/-- The value of a yes or no field; another code is outside its values (R171, R173). -/
def boolOf : Nat → Option Bool
  | 0 => some false
  | 1 => some true
  | _ => none

/-! ### The frame check (R161) -/

/-- One bit step of the CRC with generator x^16 + x^15 + x^2 + 1. -/
def crcBit (c : Word16) : Word16 := if c.msb then (c <<< 1) ^^^ 0x8005#16 else c <<< 1

/-- One byte of the CRC, most significant bit first. -/
def crcByte (c : Word16) (b : Byte) : Word16 :=
  crcBit (crcBit (crcBit (crcBit (crcBit (crcBit (crcBit (crcBit (c ^^^ (b.setWidth 16 <<< 8)))))))))

/-- `k c`, with `c` brought to a numeral first, so that a long fold evaluates step by step. -/
def onNumeral {α : Type} (c : Word16) (k : Word16 → α) : α :=
  match c.toNat with
  | 0 => k 0#16
  | n + 1 => k (BitVec.ofNat 16 (n + 1))

theorem onNumeral_eq {α : Type} (c : Word16) (k : Word16 → α) : onNumeral c k = k c := by
  have back : BitVec.ofNat 16 c.toNat = c := by simp
  unfold onNumeral
  cases h : c.toNat with
  | zero => rw [h] at back; exact congrArg k back
  | succ n => rw [h] at back; exact congrArg k back

/-- The CRC carried on over bytes. -/
def crcFrom : List Byte → Word16 → Word16
  | [], c => c
  | b :: bs, c => onNumeral (crcByte c b) (crcFrom bs)

theorem crcFrom_eq (bs : List Byte) (c : Word16) : crcFrom bs c = bs.foldl crcByte c := by
  induction bs generalizing c with
  | nil => rfl
  | cons b bs ih => rw [crcFrom, onNumeral_eq, ih]; rfl

/-- The CRC-16 of R161: initial value 0xFFFF, no final inversion. -/
def crc16 (bs : List Byte) : Word16 := crcFrom bs 0xFFFF#16

/-! ### Frames (R161, Table 9.1, Table 9.2) -/

/-- The start byte. -/
def startByte : Byte := 0xC5

/-- The frame kind codes of Table 9.2. -/
def kindReadings : Byte := 0x21
def kindJoin : Byte := 0x22
def kindOrderDone : Byte := 0x23
def kindThrough : Byte := 0x30
def kindOrder : Byte := 0x41
def kindLimit : Byte := 0x42
def kindRequest : Byte := 0x51
def kindReply : Byte := 0x52
def kindNotice : Byte := 0x53
def kindAccount : Byte := 0x54

/-- The codes of Table 9.2. -/
def knownKinds : List Byte :=
  [kindReadings, kindJoin, kindOrderDone, kindThrough, kindOrder, kindLimit, kindRequest, kindReply, kindNotice,
    kindAccount]

/-- The frame with the check formed over its four header bytes and payload (R161). -/
def Frame.make (kind addr seq : Byte) (payload : List Byte) : Frame :=
  { kind, addr, seq, payload,
    check := crc16 ([kind, addr, seq, BitVec.ofNat 8 payload.length] ++ payload) }

/-- The bytes of a frame on the wire (Table 9.1). -/
def Frame.wire (f : Frame) : List Byte :=
  [startByte, f.kind, f.addr, f.seq, BitVec.ofNat 8 f.payload.length] ++ f.payload ++ beBytes 2 f.check.toNat

/-! ### The receiver (R162) -/

/-- What a byte can bring to an end in a receiver. -/
inductive RxEvent where
  | lengthError
  | checkError
  | good
  deriving DecidableEq, Repr

/-- The receiver takes one byte (R162): in HUNT it looks for the start byte; in a frame it reads the four header
bytes, then payload and check; it returns to HUNT when the length is above 200 or the check has been read. -/
def Receiver.take (r : Receiver) (b : Byte) : Receiver × Option RxEvent :=
  match r with
  | .hunt => if b = startByte then (.inFrame [], none) else (.hunt, none)
  | .inFrame got =>
    let got := got ++ [b]
    if got.length < 4 then (.inFrame got, none)
    else
      let len := fieldAt got 3 1
      if Config.maxPayload < len then (.hunt, some .lengthError)
      else if got.length < 4 + len + 2 then (.inFrame got, none)
      else if fieldAt got (4 + len) 2 = (crc16 (got.take (4 + len))).toNat then (.hunt, some .good)
      else (.hunt, some .checkError)

/-- The receiver takes bytes one at a time; the events they bring stand in order. -/
def Receiver.takeAll (r : Receiver) : List Byte → Receiver × List RxEvent
  | [] => (r, [])
  | b :: bs =>
    let one := r.take b
    let rest := one.1.takeAll bs
    (rest.1, one.2.toList ++ rest.2)

end Sys2Proof.Machine
end

