-- ==== Sys2Proof/Machine/Operands.lean ====
section
/-! DEFINITION. The operands of the commands and the payloads the part sends: field encodings (Table 9.6), request
arguments (Table 9.7), reply data, notices (Table 9.9), account records (Table 9.10), node frames (Table 9.5). -/

namespace Sys2Proof.Machine

/-! ### Indices and their numbers -/

/-- The node of a header or argument number 1..32. -/
def nodeOf (n : Nat) : Option NodeIx :=
  if h : 1 ≤ n ∧ n ≤ 32 then some ⟨n - 1, by omega⟩ else none

/-- A node's address, 1..32. -/
def nodeByte (n : NodeIx) : Byte := BitVec.ofNat 8 (n.val + 1)

/-- The slot of a number 1..128. -/
def slotOf (n : Nat) : Option Slot :=
  if h : 1 ≤ n ∧ n ≤ 128 then some ⟨n - 1, by omega⟩ else none

/-- A slot's number, 1..128. -/
def slotByte (t : Slot) : Byte := BitVec.ofNat 8 (t.val + 1)

/-- The tenant field 0..128: none is tenant 0; the outer none is a number outside the range. -/
def tenantOf (n : Nat) : Option (Option Slot) :=
  if n = 0 then some none else (slotOf n).map some

/-- A tenant field, 0..128. -/
def tenantByte : Option Slot → Byte
  | none => 0
  | some t => slotByte t

/-- The outlet within a node of a number 1..48, as an index from 0. -/
def outletOf (n : Nat) : Option (Fin 48) :=
  if h : 1 ≤ n ∧ n ≤ 48 then some ⟨n - 1, by omega⟩ else none

/-- The map index of an outlet address (R1). -/
def mapIndex (n : NodeIx) (o : Fin 48) : OutletIx := ⟨n.val * 48 + o.val, by omega⟩

/-- The node of a map index (R1). -/
def nodeOfOutlet (i : OutletIx) : NodeIx := ⟨i.val / 48, by omega⟩

/-- The outlet number byte 1..48 of a map index (R1). -/
def outletByte (i : OutletIx) : Byte := BitVec.ofNat 8 (i.val % 48 + 1)

/-- The outlet address of a map index, or 0, 0 for none (Table 9.6). -/
def addressBytes : Option OutletIx → List Byte
  | none => [0, 0]
  | some i => [nodeByte (nodeOfOutlet i), outletByte i]

/-! ### Codes (Table 9.6, Table 9.8) -/

/-- The unit code 0x1..0x8 (Table 10.1). -/
def unitCode : RequestUnit → Byte
  | .control => 1
  | .map => 2
  | .tenant => 3
  | .links => 4
  | .roster => 5
  | .calib => 6
  | .switch => 7
  | .record => 8

/-- The unit of a code. -/
def unitOf : Nat → Option RequestUnit
  | 1 => some .control
  | 2 => some .map
  | 3 => some .tenant
  | 4 => some .links
  | 5 => some .roster
  | 6 => some .calib
  | 7 => some .switch
  | 8 => some .record
  | _ => none

/-- The unit's place in unit code order. -/
def unitIndex : RequestUnit → Fin 8
  | .control => 0
  | .map => 1
  | .tenant => 2
  | .links => 3
  | .roster => 4
  | .calib => 5
  | .switch => 6
  | .record => 7

/-- How many operations the unit's table has; op bytes count from 1 (Table 9.7). -/
def unitOps : RequestUnit → Nat
  | .control => 8
  | .map => 4
  | .tenant => 7
  | .links => 3
  | .roster => 4
  | .calib => 2
  | .switch => 3
  | .record => 3

/-- Status codes (Table 9.8). -/
def Status.code : Status → Byte
  | .ok => 0x00
  | .staged => 0x01
  | .applied => 0x02
  | .superseded => 0x03
  | .badUnit => 0x10
  | .badOp => 0x11
  | .badArg => 0x12
  | .badTag => 0x13
  | .busy => 0x14
  | .wrongState => 0x15
  | .notFound => 0x16
  | .tableFull => 0x17
  | .queueFull => 0x18
  | .nodeNotUp => 0x19
  | .inShed => 0x1A
  | .hasMembers => 0x1B
  | .stackFull => 0x1C
  | .alreadyPending => 0x1D
  | .done => 0x20
  | .refused => 0x21
  | .fault => 0x22
  | .timeout => 0x23
  | .nodeLost => 0x24

/-- A request that ends with one of these sets its unit's last accepted tag (R174). -/
def Status.accepts : Status → Bool
  | .ok => true
  | .staged => true
  | .applied => true
  | .superseded => true
  | _ => false

def feedByte : Feed → Byte
  | .a => 0
  | .b => 1

def feedOf : Nat → Option Feed
  | 0 => some .a
  | 1 => some .b
  | _ => none

/-- Verdict codes (R79, Table 9.6). -/
def Verdict.code : Verdict → Nat
  | .within => 0
  | .near => 1
  | .excursion => 2
  | .breach => 3
  | .stale => 4
  | .held => 5

def verdictOf : Nat → Option Verdict
  | 0 => some .within
  | 1 => some .near
  | 2 => some .excursion
  | 3 => some .breach
  | 4 => some .stale
  | 5 => some .held
  | _ => none

def tenantStateByte : TenantState → Byte
  | .free => 0
  | .active => 1
  | .suspended => 2

/-- The state a TRANSFER record may show: ACTIVE or SUSPENDED (Table 8.3). -/
def exportStateOf : Nat → Option TenantState
  | 1 => some .active
  | 2 => some .suspended
  | _ => none

def relayByte : RelayStatus → Byte
  | .unknown => 0
  | .on => 1
  | .off => 2
  | .offShed => 3

def indicatorByte : Indicator → Byte
  | .unknown => 0
  | .dark => 1
  | .steady => 2
  | .blink => 3

def relayActionByte : RelayAction → Byte
  | .noChange => 0
  | .on => 1
  | .off => 2
  | .cycle => 3

def relayActionOf : Nat → Option RelayAction
  | 0 => some .noChange
  | 1 => some .on
  | 2 => some .off
  | 3 => some .cycle
  | _ => none

def indicatorActionByte : IndicatorAction → Byte
  | .noChange => 0
  | .dark => 1
  | .steady => 2
  | .blink => 3

def indicatorActionOf : Nat → Option IndicatorAction
  | 0 => some .noChange
  | 1 => some .dark
  | 2 => some .steady
  | 3 => some .blink
  | _ => none

def opStateByte : OpState → Byte
  | .transparent => 0
  | .hold => 1
  | .run => 2

def opStateOf : Nat → Option OpState
  | 0 => some .transparent
  | 1 => some .hold
  | 2 => some .run
  | _ => none

def nodeStateByte : NodeState → Byte
  | .disabled => 0
  | .absent => 1
  | .up => 2
  | .silent => 3

def linkModeByte : LinkMode → Byte
  | .off => 0
  | .once => 1
  | .onChange => 2
  | .every => 3

def linkModeOf : Nat → Option LinkMode
  | 0 => some .off
  | 1 => some .once
  | 2 => some .onChange
  | 3 => some .every
  | _ => none

/-- Action code and target of a link's action (Table 9.6). -/
def linkActionBytes : LinkAction → List Byte
  | .shed t => [0, slotByte t]
  | .restore t => [1, slotByte t]
  | .notify => [2, 0]
  | .latch t => [3, slotByte t]
  | .close => [4, 0]

/-- The action of a code and a target; a target that the action does not take is refused (R102). -/
def linkActionOf (code target : Nat) : Option LinkAction :=
  match code with
  | 0 => (slotOf target).map .shed
  | 1 => (slotOf target).map .restore
  | 2 => if target = 0 then some .notify else none
  | 3 => (slotOf target).map .latch
  | 4 => if target = 0 then some .close else none
  | _ => none

def flagOpOf : Nat → Option FlagOp
  | 0 => some .and
  | 1 => some .or
  | 2 => some .xor
  | _ => none

/-- The bit of a sticky conversion flag (Table 9.6). -/
def ConvFlag.bit : ConvFlag → BitVec 6
  | .malformed => 0b001000#6
  | .saturated => 0b000100#6
  | .negative => 0b000010#6
  | .noMeasurement => 0b000001#6

/-- The flags as a byte (Table 9.6): bits 7 and 6 zero. -/
def flagsByte (f : BitVec 6) : Byte := f.setWidth 8

/-- Six flags from a byte whose bits 7 and 6 must be zero (Table 9.6, R173). -/
def sixBitsOf (n : Nat) : Option (BitVec 6) := if n < 64 then some (BitVec.ofNat 6 n) else none

/-- A power value: scale code in the upper 2 bits, bits 13..10 zero, value in the lower 10 (Table 9.5). -/
def capacityBytes (c : Capacity) : List Byte := beBytes 2 (c.scale.toNat * 2 ^ 14 + c.value.toNat)

/-- A capacity or limit from its two bytes; bits 13..10 must be zero (R173). -/
def capacityOf (n : Nat) : Option Capacity :=
  if n / 2 ^ 10 % 2 ^ 4 = 0 then some ⟨BitVec.ofNat 10 n, BitVec.ofNat 2 (n / 2 ^ 14)⟩ else none

/-- A capacity in mW: value × scale × 1000 (R44). -/
def Capacity.mW (c : Capacity) : Nat := c.value.toNat * 10 ^ c.scale.toNat * 1000

/-! ### Contracts (R43, Table 9.6) -/

def basisByte : Basis → Byte
  | .combined => 0
  | .perFeed => 1

def basisOf : Nat → Option Basis
  | 0 => some .combined
  | 1 => some .perFeed
  | _ => none

/-- The 13 bytes of a contract; an absent burst part is sent as 0x00 (R171). -/
def Contract.bytes (c : Contract) : List Byte :=
  [basisByte c.basis] ++ capacityBytes c.capacity.a ++ capacityBytes c.capacity.b
    ++ beBytes 1 c.warn ++ beBytes 1 c.tolerance ++ beBytes 1 c.release
    ++ (match c.burst with
        | none => [0, 0, 0, 0, 0]
        | some b => [1] ++ beBytes 2 b.allowance ++ beBytes 2 b.refill)

/-- The checks of R43, with the ranges the encoding gives the burst part. -/
def Contract.valid (c : Contract) : Bool :=
  decide (50 ≤ c.warn ∧ c.warn ≤ 100 ∧ c.tolerance ≤ 15 ∧ 1 ≤ c.release ∧ c.release ≤ 15) &&
  (match c.burst with
    | none => true
    | some b => decide (1 ≤ b.allowance ∧ b.allowance ≤ 65535 ∧ b.refill ≤ 65535))

/-- The contract of 13 bytes, none where R43 refuses it or a code is outside its values. -/
def contractOf (bs : List Byte) : Option Contract := do
  let basis ← basisOf (fieldAt bs 0 1)
  let capA ← capacityOf (fieldAt bs 1 2)
  let capB ← capacityOf (fieldAt bs 3 2)
  let present ← boolOf (fieldAt bs 8 1)
  let c : Contract :=
    { basis, capacity := ⟨capA, capB⟩, warn := fieldAt bs 5 1, tolerance := fieldAt bs 6 1, release := fieldAt bs 7 1,
      burst := if present then some ⟨fieldAt bs 9 2, fieldAt bs 11 2⟩ else none }
  if bs.length = 13 ∧ c.valid then some c else none

/-- A pending contract: present and then 13 bytes, sent as 0x00 when absent (R171). -/
def pendingContractBytes : Option Contract → List Byte
  | none => List.replicate 14 0
  | some c => [1] ++ c.bytes

/-- A pending contract of 14 bytes; an absent one is not checked (R173). -/
def pendingContractOf (bs : List Byte) : Option (Option Contract) := do
  let present ← boolOf (fieldAt bs 0 1)
  if present then (contractOf (bs.drop 1)).map some else some none

/-! ### Profiles (Table 2.3, Table 9.6) -/

/-- The degree: 2 exactly when c2 is present (R36). -/
def Profile.degree (p : Profile) : Nat := if p.c2.isSome then 2 else 1

def coefficientBytes (c : Coefficient) : List Byte := beBytes 2 c.k.toNat ++ beBytes 1 c.x.toNat

/-- The 16 bytes of a profile. -/
def Profile.bytes (p : Profile) : List Byte :=
  beBytes 1 p.degree ++ beBytes 3 p.c0.toNat ++ coefficientBytes p.c1
    ++ (match p.c2 with
        | none => [0, 0, 0, 0]
        | some c => [1] ++ coefficientBytes c)
    ++ beBytes 2 p.deadband.toNat ++ beBytes 3 p.ceiling.toNat

/-- A coefficient of 3 bytes; an exponent above 63 is refused (R36). -/
def coefficientOf (bs : List Byte) : Option Coefficient :=
  if fieldAt bs 2 1 ≤ 63 then some ⟨BitVec.ofNat 16 (fieldAt bs 0 2), BitVec.ofNat 6 (fieldAt bs 2 1)⟩ else none

/-- The profile of 16 bytes, none where R36 refuses it. -/
def profileOf (bs : List Byte) : Option Profile := do
  let c1 ← coefficientOf (fieldBytes bs 4 3)
  let present ← boolOf (fieldAt bs 7 1)
  let c2 ← if present then (coefficientOf (fieldBytes bs 8 3)).map some else some none
  if bs.length = 16 ∧ fieldAt bs 0 1 = (if present then 2 else 1) ∧ 1 ≤ fieldAt bs 13 3 then
    some { c0 := BitVec.ofNat 24 (fieldAt bs 1 3), c1, c2, deadband := BitVec.ofNat 16 (fieldAt bs 11 2),
           ceiling := BitVec.ofNat 24 (fieldAt bs 13 3) }
  else none

/-! ### Account records (Table 9.10) -/

def feedBytes (k : Nat) (p : PerFeed Nat) : List Byte := beBytes k p.a ++ beBytes k p.b

/-- The bytes of a record with its record check: the CRC over the bytes before it (R149). -/
def withRecordCheck (bs : List Byte) : List Byte := bs ++ beBytes 2 (crc16 bs).toNat

/-- The 91 bytes of a PERIOD record. -/
def PeriodRecord.bytes (r : PeriodRecord) : List Byte :=
  withRecordCheck
    ([0x01, slotByte r.tenant] ++ beBytes 2 r.closeNumber.toNat ++ beBytes 2 r.periodNumber.toNat
      ++ beBytes 4 r.periodStart.toNat ++ beBytes 4 r.periodEnd.toNat ++ feedBytes 8 r.lifetime ++ feedBytes 8 r.baseline
      ++ beBytes 8 r.preset.toNat ++ beInt 8 r.energy.a ++ beInt 8 r.energy.b ++ beBytes 5 r.peak
      ++ beBytes 4 r.breachTime ++ beBytes 4 r.excursionTime ++ beBytes 4 r.unmetered
      ++ beBytes 1 r.verdict.code ++ [basisByte r.basis])

/-- The 113 bytes of a TRANSFER record before its record check. -/
def TransferRecord.body (r : TransferRecord) : List Byte :=
  [0x02, slotByte r.source] ++ beBytes 4 r.exportTime.toNat ++ [tenantStateByte r.state] ++ r.contract.bytes
    ++ pendingContractBytes r.pendingContract ++ feedBytes 8 r.lifetime ++ feedBytes 8 r.baseline
    ++ beBytes 8 r.preset.toNat ++ beBytes 8 r.budget ++ beBytes 1 r.verdict.code ++ beBytes 1 r.streak
    ++ beBytes 4 r.lastVisit.toNat ++ beBytes 4 r.unmetered ++ beBytes 2 r.periodNumber.toNat
    ++ beBytes 4 r.periodStart.toNat ++ beBytes 5 r.peak ++ beBytes 4 r.breachTime ++ beBytes 4 r.excursionTime
    ++ beBytes 2 r.lastClose.toNat

/-- The 115 bytes of a TRANSFER record. -/
def TransferRecord.bytes (r : TransferRecord) : List Byte := withRecordCheck r.body

/-- The account record as an ACCOUNT payload (Table 9.10). -/
def AccountRecord.bytes : AccountRecord → List Byte
  | .period r => r.bytes
  | .transfer r => r.bytes

/-- The TRANSFER record of 115 bytes, none where R159 refuses it with BAD_ARG. -/
def transferOf (bs : List Byte) : Option TransferRecord := do
  let source ← slotOf (fieldAt bs 1 1)
  let state ← exportStateOf (fieldAt bs 6 1)
  let contract ← contractOf (fieldBytes bs 7 13)
  let pendingContract ← pendingContractOf (fieldBytes bs 20 14)
  let verdict ← verdictOf (fieldAt bs 82 1)
  let r : TransferRecord :=
    { source, exportTime := BitVec.ofNat 32 (fieldAt bs 2 4), state, contract, pendingContract,
      lifetime := ⟨fieldAt bs 34 8, fieldAt bs 42 8⟩, baseline := ⟨fieldAt bs 50 8, fieldAt bs 58 8⟩,
      preset := BitVec.ofNat 64 (fieldAt bs 66 8), budget := fieldAt bs 74 8, verdict, streak := fieldAt bs 83 1,
      lastVisit := BitVec.ofNat 32 (fieldAt bs 84 4), unmetered := fieldAt bs 88 4,
      periodNumber := BitVec.ofNat 16 (fieldAt bs 92 2), periodStart := BitVec.ofNat 32 (fieldAt bs 94 4),
      peak := fieldAt bs 98 5, breachTime := fieldAt bs 103 4, excursionTime := fieldAt bs 107 4,
      lastClose := BitVec.ofNat 16 (fieldAt bs 111 2) }
  if bs.length = 115 ∧ fieldAt bs 0 1 = 2 ∧ fieldAt bs 113 2 = (crc16 (bs.take 113)).toNat
      ∧ r.baseline.a ≤ r.lifetime.a ∧ r.baseline.b ≤ r.lifetime.b ∧ r.streak ≤ 15 then
    some r
  else none

/-! ### Reply data (Table 9.6, in the order the operations' rules list it) -/

def membershipBytes (m : Membership) : List Byte := [tenantByte m.tenant, feedByte m.feed, boolByte m.excluded]

/-- The fields of an entry as READ_ENTRIES lists them (R14). -/
def Outlet.bytes (e : Outlet) : List Byte :=
  membershipBytes e.effective
    ++ (match e.pending with
        | none => [0, 0, 0, 0]
        | some m => [1] ++ membershipBytes m)
    ++ beBytes 1 e.profile.val ++ beBytes 1 e.rank.val ++ beBytes 3 e.reading ++ beBytes 4 e.readingTime.toNat
    ++ [boolByte e.fresh, flagsByte e.flags, relayByte e.relay, indicatorByte e.indicator]

/-- The record as READ_TENANT lists it (R58). -/
def Tenant.bytes (t : Tenant) : List Byte :=
  [tenantStateByte t.state] ++ t.contract.bytes ++ pendingContractBytes t.pendingContract
    ++ feedBytes 5 t.draw ++ feedBytes 2 t.members ++ beBytes 2 t.stale ++ beBytes 2 t.pendingIn
    ++ feedBytes 8 t.lifetime ++ feedBytes 8 t.baseline ++ beBytes 8 t.preset.toNat ++ beBytes 8 t.budget
    ++ beBytes 1 t.verdict.code ++ beBytes 1 t.streak ++ beBytes 4 t.lastVisit.toNat ++ beBytes 4 t.unmetered
    ++ beBytes 2 t.periodNumber.toNat ++ beBytes 4 t.periodStart.toNat ++ beBytes 5 t.peak
    ++ beBytes 4 t.breachTime ++ beBytes 4 t.excursionTime ++ beBytes 2 t.lastClose.toNat
    ++ t.stack.flatMap (fun e => addressBytes (some e.outlet) ++ [boolByte e.confirmed])

/-- Every field of Table 5.3 for one link (R103); the three bytes of the condition are the model's choice (log entry 30). -/
def Link.bytes (l : Link) : List Byte :=
  [linkModeByte l.mode] ++ beBytes 2 l.trigger.toNat
    ++ (match l.condition with
        | none => [0, 0, 0]
        | some c => [1, slotByte c.tenant, flagsByte c.verdicts])
    ++ linkActionBytes l.action ++ [boolByte l.guard, boolByte (!l.armed), boolByte l.lastCondition, boolByte l.guardSet]
    ++ beBytes 2 l.fireCount

/-- The record as READ_NODE lists it (R143). -/
def Node.bytes (n : Node) : List Byte :=
  [boolByte (decide (n.state ≠ .disabled)), nodeStateByte n.state] ++ beBytes 1 n.fitted
    ++ (match n.lastSeq with
        | none => [0, 0]
        | some q => [1, q])
    ++ beBytes 4 n.lastHeard.toNat ++ beBytes 2 n.accepted ++ beBytes 2 n.gaps ++ beBytes 2 n.duplicates
    ++ beBytes 2 n.outOfOrder ++ beBytes 2 n.badEntries ++ beBytes 2 n.lateCompletions ++ capacityBytes n.limit
    ++ [boolByte n.noteOwed]

def PortCounts.bytes (c : PortCounts) : List Byte :=
  beBytes 2 c.good ++ beBytes 2 c.lengthError ++ beBytes 2 c.checkError ++ beBytes 2 c.truncated
    ++ beBytes 2 c.unknownKind ++ beBytes 2 c.wrongPort ++ beBytes 2 c.badAddress

/-- ANY: one of the five sticky flags is set (R178). -/
def Sticky.any (f : Sticky) : Bool :=
  f.noticeLost || f.replyLost || f.transitDrop || f.chainLimit || f.passOverrun

/-- The summary status byte (Table 9.6). -/
def summaryByte (f : Sticky) (mapAttention : Bool) : Byte :=
  BitVec.ofNat 8
    (f.noticeLost.toNat + 2 * f.replyLost.toNat + 4 * f.transitDrop.toNat + 8 * f.chainLimit.toNat
      + 16 * f.passOverrun.toNat + 32 * f.any.toNat + 64 * mapAttention.toNat)

/-- READ_STATUS data: fill levels are counts of 1 byte but for the pending-change count; the node port's counts come
before the uplink port's (R178, Table 9.4; log entry 9). -/
def StatusReport.bytes (r : StatusReport) : List Byte :=
  [opStateByte r.opState, boolByte r.passInFlight, summaryByte r.sticky r.mapAttention]
    ++ beBytes 1 r.transit ++ beBytes 1 r.nodeQueue ++ beBytes 1 r.replies ++ beBytes 1 r.notices ++ beBytes 1 r.records
    ++ beBytes 1 r.shedQueue ++ beBytes 1 r.orders ++ beBytes 2 r.pendingChanges
    ++ r.counts.node.bytes ++ beBytes 2 r.counts.disabledDrop ++ beBytes 2 r.counts.transitDrop
    ++ r.counts.uplink.bytes ++ beBytes 2 r.counts.throughDrop
    ++ beBytes 4 r.rowTime.toNat

/-- The data bytes of a reply. `free` is the free value of log entry 7, used where no relay status was written. -/
def ReplyData.bytes (free : Byte) : ReplyData → List Byte
  | .none => []
  | .entries es => es.flatMap Outlet.bytes
  | .assigned a st su => beBytes 1 a ++ beBytes 1 st ++ beBytes 1 su
  | .changed n => beBytes 2 n
  | .profile p => p.bytes
  | .tenant t => t.bytes
  | .link l => l.bytes
  | .order number relay indicator => [number.getD 0, relayByte relay, indicatorByte indicator]
  | .shed outlet number relay => addressBytes outlet ++ [number.getD 0, (relay.map relayByte).getD free]
  | .node n => n.bytes
  | .states ns => ns.flatMap (fun n => [nodeStateByte n.1, boolByte n.2])
  | .closeNumber n => beBytes 2 n.toNat
  | .slotPeriod t p => [slotByte t] ++ beBytes 2 p.toNat
  | .ident => [0x06, 0x40, 0x01]
  | .status r => r.bytes
  | .tags ts => ts

/-- A REPLY payload (Table 9.7). -/
def Reply.payload (free : Byte) (r : Reply) : List Byte := [r.unit, r.tag, r.status.code] ++ r.data.bytes free

/-! ### Notices (Table 9.9) -/

def shedKindByte : ShedKind → Byte
  | .shed => 0
  | .restore => 1

/-- The notice kind code (Table 9.9). -/
def NoticeSubject.code : NoticeSubject → Byte
  | .link .. => 0x01
  | .conversion .. => 0x02
  | .order .. => 0x03
  | .chain .. => 0x04
  | .overrun .. => 0x05

/-- The subject of a notice (Table 9.9). -/
def NoticeSubject.bytes : NoticeSubject → List Byte
  | .link l e d c k => beBytes 1 l.val ++ beBytes 2 e.toNat ++ beBytes 1 d ++ [boolByte c, boolByte k]
  | .conversion i f => addressBytes (some i) ++ [flagsByte f.bit]
  | .order k t number outlet reason reported =>
    [shedKindByte k, slotByte t, number.getD 0] ++ addressBytes outlet ++ [reason.code]
      ++ [match reported with
          | none => 0xFF
          | some on => boolByte on]
  | .chain e => beBytes 2 e.toNat
  | .overrun t w => [slotByte t, if w then 2 else 1]

/-- A NOTICE payload: kind, tag 0x00, row time, subject (Table 9.9). -/
def Notice.payload (n : Notice) : List Byte :=
  [n.subject.code, 0x00] ++ beBytes 4 n.time.toNat ++ n.subject.bytes

/-! ### Request arguments (Table 9.7). Each answers none where R173.7 or the operation's own check gives BAD_ARG. -/

namespace Args

/-- No arguments. -/
def nothing (a : List Byte) : Option Unit := if a = [] then some () else none

/-- One slot 1..128. -/
def slot (a : List Byte) : Option Slot := if a.length = 1 then slotOf (fieldAt a 0 1) else none

/-- READ_ENTRIES: node, first outlet, count 1..8 within the node (R14); the map index of the first and the count. -/
def readEntries (a : List Byte) : Option (OutletIx × Nat) := do
  let n ← nodeOf (fieldAt a 0 1)
  let o ← outletOf (fieldAt a 1 1)
  let count := fieldAt a 2 1
  if a.length = 3 ∧ 1 ≤ count ∧ count ≤ 8 ∧ o.val + count ≤ 48 then some (mapIndex n o, count) else none

/-- ASSIGN: node, first outlet, count 1..48 within the node, tenant, feed, excluded (R15). -/
def assign (a : List Byte) : Option (OutletIx × Nat × Membership) := do
  let n ← nodeOf (fieldAt a 0 1)
  let o ← outletOf (fieldAt a 1 1)
  let count := fieldAt a 2 1
  let tenant ← tenantOf (fieldAt a 3 1)
  let feed ← feedOf (fieldAt a 4 1)
  let excluded ← boolOf (fieldAt a 5 1)
  if a.length = 6 ∧ 1 ≤ count ∧ o.val + count ≤ 48 then some (mapIndex n o, count, ⟨tenant, feed, excluded⟩) else none

/-- SET_OUTLET: node, outlet, profile, shed rank (R18). -/
def setOutlet (a : List Byte) : Option (OutletIx × Fin 16 × Fin 16) := do
  let n ← nodeOf (fieldAt a 0 1)
  let o ← outletOf (fieldAt a 1 1)
  if h : fieldAt a 2 1 < 16 ∧ fieldAt a 3 1 < 16 then
    if a.length = 4 then some (mapIndex n o, ⟨fieldAt a 2 1, h.1⟩, ⟨fieldAt a 3 1, h.2⟩) else none
  else none

/-- ALTER_FLAGS: first map index (2), count (2), flag mask, operation (R19). -/
def alterFlags (a : List Byte) : Option (OutletIx × Nat × BitVec 6 × FlagOp) := do
  let count := fieldAt a 2 2
  let mask ← sixBitsOf (fieldAt a 4 1)
  let op ← flagOpOf (fieldAt a 5 1)
  if h : fieldAt a 0 2 < 1536 then
    if a.length = 6 ∧ 1 ≤ count ∧ fieldAt a 0 2 + count ≤ 1536 then some (⟨fieldAt a 0 2, h⟩, count, mask, op) else none
  else none

/-- A profile number 0..15. -/
def profileIndex (n : Nat) : Option (Fin 16) := if h : n < 16 then some ⟨n, h⟩ else none

/-- SET_PROFILE: profile number and the 16 bytes of a profile (R36). -/
def setProfile (a : List Byte) : Option (Fin 16 × Profile) := do
  let i ← profileIndex (fieldAt a 0 1)
  let p ← profileOf (a.drop 1)
  some (i, p)

/-- READ_PROFILE: profile number (R38). -/
def readProfile (a : List Byte) : Option (Fin 16) := if a.length = 1 then profileIndex (fieldAt a 0 1) else none

/-- CREATE, SET_CONTRACT: slot and contract (R43, R50). -/
def slotContract (a : List Byte) : Option (Slot × Contract) := do
  let t ← slotOf (fieldAt a 0 1)
  let c ← contractOf (a.drop 1)
  some (t, c)

/-- SET_PRESET: slot and signed preset (R57). -/
def setPreset (a : List Byte) : Option (Slot × BitVec 64) := do
  let t ← slotOf (fieldAt a 0 1)
  if a.length = 9 then some (t, BitVec.ofNat 64 (fieldAt a 1 8)) else none

/-- A link index 0..63. -/
def linkIndex (n : Nat) : Option LinkIx := if h : n < 64 then some ⟨n, h⟩ else none

/-- A condition: present, tenant, verdict set; an absent one is not checked (R102, R173). The three bytes and their order
are the model's choice: the spec encodes no condition (log entry 30). -/
def condition (bs : List Byte) : Option (Option Condition) := do
  let present ← boolOf (fieldAt bs 0 1)
  if present then do
    let t ← slotOf (fieldAt bs 1 1)
    let v ← sixBitsOf (fieldAt bs 2 1)
    some (some ⟨t, v⟩)
  else some none

/-- SET_LINK: link, mode, trigger (2), condition (3, log entry 30), action, target, guard (R102); the link as written, with its
running state reset. -/
def setLink (a : List Byte) : Option (LinkIx × Link) := do
  let l ← linkIndex (fieldAt a 0 1)
  let mode ← linkModeOf (fieldAt a 1 1)
  let condition ← condition (fieldBytes a 4 3)
  let action ← linkActionOf (fieldAt a 7 1) (fieldAt a 8 1)
  let guard ← boolOf (fieldAt a 9 1)
  if a.length = 10 then
    some (l, { mode, trigger := BitVec.ofNat 16 (fieldAt a 2 2), condition, action, guard, armed := true,
               lastCondition := false, guardSet := false, fireCount := 0 })
  else none

/-- READ_LINK, REARM: link (R103). -/
def link (a : List Byte) : Option LinkIx := if a.length = 1 then linkIndex (fieldAt a 0 1) else none

/-- ORDER: node, outlet, relay action, indicator action (R123). -/
def order (a : List Byte) : Option (OutletIx × RelayAction × IndicatorAction) := do
  let n ← nodeOf (fieldAt a 0 1)
  let o ← outletOf (fieldAt a 1 1)
  let r ← relayActionOf (fieldAt a 2 1)
  let i ← indicatorActionOf (fieldAt a 3 1)
  if a.length = 4 then some (mapIndex n o, r, i) else none

/-- SET_NODE: node, enabled (R140). -/
def setNode (a : List Byte) : Option (NodeIx × Bool) := do
  let n ← nodeOf (fieldAt a 0 1)
  let e ← boolOf (fieldAt a 1 1)
  if a.length = 2 then some (n, e) else none

/-- SET_LIMIT: node, limit as a power value (R140, R142). -/
def setLimit (a : List Byte) : Option (NodeIx × Capacity) := do
  let n ← nodeOf (fieldAt a 0 1)
  let c ← capacityOf (fieldAt a 1 2)
  if a.length = 3 then some (n, c) else none

/-- READ_NODE: node, clear counts (R143). -/
def readNode (a : List Byte) : Option (NodeIx × Bool) := setNode a

/-- IMPORT: target slot and TRANSFER record (R159). -/
def importRecord (a : List Byte) : Option (Slot × TransferRecord) := do
  let t ← slotOf (fieldAt a 0 1)
  let r ← transferOf (a.drop 1)
  some (t, r)

/-- SET_STATE: operating state (R177). -/
def setState (a : List Byte) : Option OpState := if a.length = 1 then opStateOf (fieldAt a 0 1) else none

/-- SET_TIMING: review period code 0..6, order timeout 250..8,000 ms, silence timeout 1..60 s (R179). -/
def setTiming (a : List Byte) : Option (Fin 7 × Nat × Nat) :=
  if h : fieldAt a 0 1 < 7 then
    if a.length = 4 ∧ 250 ≤ fieldAt a 1 2 ∧ fieldAt a 1 2 ≤ 8000 ∧ 1 ≤ fieldAt a 3 1 ∧ fieldAt a 3 1 ≤ 60 then
      some (⟨fieldAt a 0 1, h⟩, fieldAt a 1 2, fieldAt a 3 1)
    else none
  else none

/-- SET_FORWARD: forward mode (R179). -/
def setForward (a : List Byte) : Option ForwardMode :=
  match a.map BitVec.toNat with
  | [0] => some .plain
  | [1] => some .tagged
  | [2] => some .absorb
  | _ => none

/-- READ_STATUS: clear, yes or no (R178). -/
def readStatus (a : List Byte) : Option Bool := if a.length = 1 then boolOf (fieldAt a 0 1) else none

/-- RESET_UNIT: unit code (R181). -/
def resetUnit (a : List Byte) : Option RequestUnit := if a.length = 1 then unitOf (fieldAt a 0 1) else none

end Args

/-- ACK_WANTED is bit 0 of the flags byte (Table 9.7). -/
def ackWanted (r : Request) : Bool := r.flags.getLsbD 0

end Sys2Proof.Machine
end

