-- ==== Sys2Proof/Machine/Flags.lean ====
section
/-! DEFINITION. The flag and verdict computations: conversion of scaled readings and its flags (R28 to R33), the
sticky flags of an entry (R7, R19), and the judgement of a tenant at a visit (R53, R70 to R78). -/

namespace Sys2Proof.Machine

/-! ### Time -/

/-- The time from `t` to `now`, modulo 2^32 ms (R85). -/
def elapsed (now t : RowTime) : Nat := (now - t).toNat

/-- The row time has reached a due time: it lies less than half the range past it (R64, R86, R112; log entry 3). -/
def reached (now due : RowTime) : Bool := decide (elapsed now due < 2 ^ 31)

/-! ### Scaled readings (R28 to R32) -/

/-- The classes of Table 2.1; NORMAL and TRUE ZERO carry the value r in sixteenths of a milliwatt. -/
inductive ReadingClass where
  | noMeasurement
  | malformed
  | value (r : Nat)
  deriving DecidableEq, Repr

/-- The class of a scaled reading (R28); the test for 0xFFFF comes first. -/
def classify (code : Nat) : ReadingClass :=
  if code = 0xFFFF then .noMeasurement
  else
    let e := code / 4096
    let m := code % 4096
    if 1 ≤ e ∧ m < 2048 then .malformed else .value (m * 2 ^ e)

/-- A coefficient times 2^40: k * 2^x (Table 2.3). -/
def Coefficient.scaled (c : Coefficient) : Int := c.k.toInt * 2 ^ c.x.toNat

/-- The profile's polynomial at r, exactly, times 2^40 (R31). -/
def Profile.exactScaled (p : Profile) (r : Nat) : Int :=
  p.c0.toInt * 2 ^ 40 + p.c1.scaled * r
    + (match p.c2 with
        | none => 0
        | some c => c.scaled * (r * r))

/-- The guarded value g in sixteenths of a milliwatt: the exact sum truncated toward zero (R31). -/
def Profile.guarded (p : Profile) (r : Nat) : Int := (p.exactScaled r).tdiv (2 ^ 36)

/-- The result tests of R32 in their order, on g in sixteenths of a milliwatt. -/
def Profile.clip (p : Profile) (g : Int) : Nat × Option ConvFlag :=
  if g < 0 then (0, some .negative)
  else if g < 16 * p.deadband.toNat then (0, none)
  else if 16 * p.ceiling.toNat < g then (p.ceiling.toNat, some .saturated)
  else (g.toNat / 16, none)

/-- The calibrated result of a raw value and the flag it sets (R31, R32). -/
def Profile.convert (p : Profile) (r : Nat) : Nat × Option ConvFlag := p.clip (p.guarded r)

/-- The three kinds of reading update (R5). -/
inductive MapUpdate where
  | apply (mW : Nat)
  | hold
  | flagOnly
  deriving DecidableEq, Repr

/-- The update and the flag of an entry's scaled reading (R29, R33). -/
def Profile.updateOf (p : Profile) (code : Nat) : MapUpdate × Option ConvFlag :=
  match classify code with
  | .noMeasurement => (.hold, some .noMeasurement)
  | .malformed => (.flagOnly, some .malformed)
  | .value r => (.apply (p.convert r).1, (p.convert r).2)

/-! ### The flags of an entry (R7, R19, R33) -/

/-- SWITCHABLE is set. -/
def Outlet.switchable (e : Outlet) : Bool := e.flags.getLsbD 5

/-- NOTIFY is set. -/
def Outlet.notify (e : Outlet) : Bool := e.flags.getLsbD 4

/-- At least one sticky conversion flag is set (R7). -/
def anySticky (f : BitVec 6) : Bool := decide (f &&& 0b001111#6 ≠ 0#6)

/-- The attention count after an entry's flags go from `old` to `new` (R7). -/
def attentionStep (old new : BitVec 6) (n : Nat) : Nat :=
  match anySticky old, anySticky new with
  | false, true => n + 1
  | true, false => n - 1
  | _, _ => n

/-- The flags with a sticky flag raised (R33). -/
def raiseFlag (f : BitVec 6) : Option ConvFlag → BitVec 6
  | none => f
  | some c => f ||| c.bit

/-- The flag an update newly sets: clear before it (R33). -/
def newlySet (f : BitVec 6) (c : ConvFlag) : Bool := decide (f &&& c.bit = 0#6)

/-- ALTER_FLAGS at one entry, position by position (R19). -/
def FlagOp.combine : FlagOp → BitVec 6 → BitVec 6 → BitVec 6
  | .and, f, m => f &&& m
  | .or, f, m => f ||| m
  | .xor, f, m => f ^^^ m

/-- The entry after a reading update at row time `now` (R5). -/
def Outlet.updated (e : Outlet) (now : RowTime) (u : MapUpdate) (flag : Option ConvFlag) : Outlet :=
  let f := raiseFlag e.flags flag
  match u with
  | .apply mW => { e with reading := mW, readingTime := now, fresh := true, flags := f }
  | .hold => { e with fresh := false, flags := f }
  | .flagOnly => { e with flags := f }

/-! ### Membership (R3) -/

/-- The tenant and feed of which an outlet under this membership is a member (R3). -/
def Membership.memberOf (m : Membership) : Option (Slot × Feed) :=
  if m.excluded then none else m.tenant.map (fun t => (t, m.feed))

/-! ### Contracts and budgets (R44, R53) -/

/-- The burst allowance in µJ, 0 without a burst part (R44). -/
def Contract.allowance (c : Contract) : Nat :=
  match c.burst with
  | none => 0
  | some b => b.allowance * 10 ^ 9

/-- The budget after a new contract is taken up (R53). -/
def budgetAfter (old new : Contract) (budget : Nat) : Nat :=
  match old.burst, new.burst with
  | none, some _ => new.allowance
  | some _, some _ => min budget new.allowance
  | _, none => 0

/-- The basis and both capacities in mW are unchanged, so the release streak is kept (R53). -/
def sameCapacity (old new : Contract) : Bool :=
  decide (old.basis = new.basis ∧ old.capacity.a.mW = new.capacity.a.mW ∧ old.capacity.b.mW = new.capacity.b.mW)

/-- The pending contract, when present, is taken up (R53). -/
def Tenant.takeUp (t : Tenant) : Tenant :=
  match t.pendingContract with
  | none => t
  | some c =>
    { t with
      contract := c, pendingContract := none, budget := budgetAfter t.contract c t.budget,
      streak := if sameCapacity t.contract c then t.streak else 0 }

/-! ### The visit (R70 to R78) -/

/-- Steps 1 and 2: time and energy (R70). -/
def Tenant.integrate (t : Tenant) (now : RowTime) : Tenant :=
  let dt := elapsed now t.lastVisit
  { t with
    lastVisit := now,
    lifetime := ⟨satAdd Config.energyTop t.lifetime.a (t.draw.a * dt), satAdd Config.energyTop t.lifetime.b (t.draw.b * dt)⟩ }

/-- q (R73, R74). -/
def Tenant.q (t : Tenant) : Nat :=
  match t.contract.basis with
  | .combined => t.draw.a + t.draw.b
  | .perFeed => max t.draw.a t.draw.b

/-- The excess (R73, R74); it is 0 when the tenant is not over. -/
def Tenant.excess (t : Tenant) : Nat :=
  match t.contract.basis with
  | .combined => t.draw.a + t.draw.b - t.contract.capacity.a.mW
  | .perFeed => (t.draw.a - t.contract.capacity.a.mW) + (t.draw.b - t.contract.capacity.b.mW)

/-- The tenant is over (R73, R74). -/
def Tenant.over (t : Tenant) : Bool :=
  match t.contract.basis with
  | .combined => decide (t.contract.capacity.a.mW < t.draw.a + t.draw.b)
  | .perFeed => decide (t.contract.capacity.a.mW < t.draw.a ∨ t.contract.capacity.b.mW < t.draw.b)

/-- The warning test (R76). -/
def Tenant.warned (t : Tenant) : Verdict :=
  let near : Bool :=
    match t.contract.basis with
    | .combined => decide (t.contract.warn * t.contract.capacity.a.mW ≤ t.q * 100)
    | .perFeed =>
      decide (t.contract.warn * t.contract.capacity.a.mW ≤ t.draw.a * 100
        ∨ t.contract.warn * t.contract.capacity.b.mW ≤ t.draw.b * 100)
  if near then .near else .within

/-- The budget after the refill of a visit not over (R75). -/
def Tenant.refilled (t : Tenant) (dt : Nat) : Nat :=
  match t.contract.burst with
  | none => 0
  | some b => min (t.budget + b.refill * dt * 1000) t.contract.allowance

/-- Step 6 for a tenant not over (R75, R76). -/
def Tenant.notOver (t : Tenant) (dt : Nat) : Tenant :=
  let t := { t with budget := t.refilled dt }
  if t.verdict = .breach ∧ t.streak + 1 < t.contract.release then { t with streak := t.streak + 1 }
  else { t with verdict := t.warned, streak := 0 }

/-- Step 7 for a tenant over (R77). -/
def Tenant.isOver (t : Tenant) (dt : Nat) : Tenant :=
  let cost := t.excess * dt
  match t.contract.burst with
  | none => { t with streak := 0, budget := 0, verdict := .breach }
  | some _ =>
    if cost ≤ t.budget then { t with streak := 0, budget := t.budget - cost, verdict := .excursion }
    else { t with streak := 0, budget := 0, verdict := .breach }

/-- Step 8: the period fields (R78). -/
def Tenant.periodFields (t : Tenant) (dt : Nat) : Tenant :=
  { t with
    peak := max t.peak t.q,
    breachTime := if t.verdict = .breach then satAdd Config.durationTop t.breachTime dt else t.breachTime,
    excursionTime := if t.verdict = .excursion then satAdd Config.durationTop t.excursionTime dt else t.excursionTime }

/-- Steps 4 to 8 for an ACTIVE tenant whose visit has the elapsed time `dt` (R72 to R78). -/
def Tenant.judge (t : Tenant) (dt : Nat) : Tenant :=
  if t.contract.tolerance < t.stale then { t with verdict := .stale, streak := 0 }
  else if t.over then (t.isOver dt).periodFields dt
  else (t.notOver dt).periodFields dt

/-- The take-up and steps 1 to 8 of a visit at row time `now` (R70 to R78). -/
def Tenant.visit (t : Tenant) (now : RowTime) : Tenant :=
  let dt := elapsed now t.lastVisit
  let t := t.takeUp.integrate now
  if t.state = .active then t.judge dt else t

/-! ### The period close (R149 to R151) -/

/-- A result held within the signed 64-bit range (R150). -/
def clamp64 (i : Int) : Int := max (-(2 ^ 63)) (min (2 ^ 63 - 1) i)

/-- The PERIOD record of a closing visit (R149, R150). -/
def Tenant.periodRecord (t : Tenant) (slot : Slot) (close : Word16) (now : RowTime) : PeriodRecord :=
  { tenant := slot, closeNumber := close, periodNumber := t.periodNumber, periodStart := t.periodStart, periodEnd := now,
    lifetime := t.lifetime, baseline := t.baseline, preset := t.preset,
    energy := ⟨clamp64 ((t.lifetime.a : Int) - t.baseline.a + t.preset.toInt),
               clamp64 ((t.lifetime.b : Int) - t.baseline.b + t.preset.toInt)⟩,
    peak := t.peak, breachTime := t.breachTime, excursionTime := t.excursionTime, unmetered := t.unmetered,
    verdict := t.verdict, basis := t.contract.basis }

/-- The period reset of a closing visit (R151). -/
def Tenant.periodReset (t : Tenant) (close : Word16) (now : RowTime) : Tenant :=
  { t with
    baseline := t.lifetime, peak := 0, breachTime := 0, excursionTime := 0, unmetered := 0,
    periodNumber := t.periodNumber + 1, periodStart := now, lastClose := close }

/-- The TRANSFER record of a tenant (R158). -/
def Tenant.transferRecord (t : Tenant) (slot : Slot) (now : RowTime) : TransferRecord :=
  { source := slot, exportTime := now, state := t.state, contract := t.contract, pendingContract := t.pendingContract,
    lifetime := t.lifetime, baseline := t.baseline, preset := t.preset, budget := t.budget, verdict := t.verdict,
    streak := t.streak, lastVisit := t.lastVisit, unmetered := t.unmetered, periodNumber := t.periodNumber,
    periodStart := t.periodStart, peak := t.peak, breachTime := t.breachTime, excursionTime := t.excursionTime,
    lastClose := t.lastClose }

/-- The tenant that an imported record makes at row time `now` (R159). -/
def TransferRecord.tenant (r : TransferRecord) (close : Word16) (now : RowTime) : Tenant :=
  { Tenant.cleared with
    state := .suspended, contract := r.contract, pendingContract := r.pendingContract, lifetime := r.lifetime,
    baseline := r.baseline, preset := r.preset, budget := min r.budget r.contract.allowance, verdict := .held,
    streak := 0, lastVisit := now, unmetered := r.unmetered, periodNumber := r.periodNumber,
    periodStart := r.periodStart, peak := r.peak, breachTime := r.breachTime, excursionTime := r.excursionTime,
    lastClose := close }

/-- The tenant that CREATE makes at row time `now` (R51). -/
def Tenant.created (c : Contract) (close : Word16) (now : RowTime) : Tenant :=
  { Tenant.cleared with
    state := .suspended, contract := c, budget := c.allowance, lastVisit := now, periodStart := now, lastClose := close }

/-- Time out of RUN set aside on entry to RUN (R60). -/
def Tenant.enterRun (t : Tenant) (now : RowTime) : Tenant :=
  if t.state = .free then t
  else
    { t with
      unmetered := satAdd Config.durationTop t.unmetered (elapsed now t.lastVisit), lastVisit := now }

/-- A LATCH (R59). -/
def Tenant.latched (t : Tenant) : Tenant := { t with baseline := t.lifetime }

/-! ### Shed stacks (R49) -/

/-- The stack without the entry of an outlet; the entries above close the gap. -/
def removeEntry (i : OutletIx) (st : List StackEntry) : List StackEntry := st.filter (fun e => e.outlet != i)

/-- The outlet is an unconfirmed entry of the stack. -/
def hasUnconfirmed (i : OutletIx) (st : List StackEntry) : Bool := st.any (fun e => e.outlet == i && !e.confirmed)

/-- The outlet is a confirmed entry of the stack. -/
def hasConfirmed (i : OutletIx) (st : List StackEntry) : Bool := st.any (fun e => e.outlet == i && e.confirmed)

/-- The unconfirmed entry of an outlet confirmed in its place (R119). -/
def confirmEntry (i : OutletIx) (st : List StackEntry) : List StackEntry :=
  st.map (fun e => if e.outlet = i then { e with confirmed := true } else e)

end Sys2Proof.Machine
end

