-- ==== Sys2Proof/Machine/Ops.lean ====
section
/-! DEFINITION. The shared operations: queues and transmitters, replies and notices, events, the map and the tenant
table, orders and shed requests, the node roster, and the way of a request through the management unit. -/

namespace Sys2Proof.Machine

/-! ### The uplink transmitter and its arbiter (R169, R170) -/

/-- An originated frame is taken: it gets the port's sequence and its check (R170). -/
def Uplink.originate (u : Uplink) (kind : Byte) (payload : List Byte) : Uplink :=
  { u with tx := some (Frame.make kind 0 u.seq payload), seq := u.seq + 1 }

/-- The head transit frame is taken; the turn becomes RECORD (R169). -/
def Uplink.takeTransit (u : Uplink) (f : Frame) (rest : List Frame) : Uplink :=
  { u with transit := rest, tx := some f, turn := .record }

/-- The head record is taken; the turn becomes TRANSIT and its place in the buffer is free (R152, R169). -/
def Uplink.takeRecord (u : Uplink) (r : AccountRecord) (rest : List AccountRecord) : Uplink :=
  { u.originate kindAccount r.bytes with records := rest, turn := .transit, recordFreed := true }

/-- The arbiter takes one frame when the transmitter is idle (R169). -/
def Uplink.take (u : Uplink) : Uplink :=
  match u.tx with
  | some _ => u
  | none =>
    match u.replies, u.notices with
    | r :: rest, _ =>
      { u.originate kindReply (r.payload (Config.freeByte u.freeCount)) with
        replies := rest, freeCount := u.freeCount + 1 }
    | [], n :: rest => { u.originate kindNotice n.payload with notices := rest }
    | [], [] =>
      match u.transit, u.records with
      | [], [] => u
      | f :: fs, [] => u.takeTransit f fs
      | [], r :: rs => u.takeRecord r rs
      | f :: fs, r :: rs =>
        match u.turn with
        | .transit => u.takeTransit f fs
        | .record => u.takeRecord r rs

/-- The transmitter finishes its frame and becomes idle (R169). -/
def Uplink.sendDone (u : Uplink) : Uplink := { u with tx := none }.take

/-! ### The node transmitter (R168, R170) -/

/-- The frame of an entry of the node transmit queue, with the sequence given to it (R170, Table 9.5). -/
def NodeItem.frame (seq : Byte) : NodeItem → Frame
  | .order n number outlet relay indicator =>
    Frame.make kindOrder (nodeByte n) seq [number, outlet, relayActionByte relay, indicatorActionByte indicator]
  | .limit n c => Frame.make kindLimit (nodeByte n) seq (capacityBytes c)
  | .down f => f

/-- The entry is originated by the part, so it takes a sequence (R170). -/
def NodeItem.originated : NodeItem → Bool
  | .order .. => true
  | .limit .. => true
  | .down _ => false

/-- The idle node transmitter takes the head frame (R168). -/
def NodeTx.take (d : NodeTx) : NodeTx :=
  match d.tx, d.queue with
  | none, i :: rest =>
    { queue := rest, tx := some (i.frame d.seq), seq := if i.originated then d.seq + 1 else d.seq }
  | _, _ => d

/-- An entry joins the tail of the node transmit queue (R168). -/
def NodeTx.join (d : NodeTx) (i : NodeItem) : NodeTx := { d with queue := d.queue ++ [i] }.take

/-- The node transmitter finishes its frame and becomes idle (R168). -/
def NodeTx.sendDone (d : NodeTx) : NodeTx := { d with tx := none }.take

/-- The node transmit queue holds fewer than 16 frames (R108, R137). -/
def NodeTx.hasRoom (d : NodeTx) : Bool := decide (d.queue.length < Config.nodeQueueDepth)

/-! ### Sticky flags, notices, replies, transit frames, records -/

/-- The state with its sticky flags changed (R178). -/
def setSticky (f : Sticky → Sticky) (s : State) : State := s.withMgmt { s.mgmt with sticky := f s.mgmt.sticky }

/-- The notice queue holds fewer than 32 notices (R176). -/
def noticeRoom (s : State) : Bool := decide (s.up.notices.length < Config.noticeDepth)

/-- A notice joins the notice queue with the present row time, or is lost at a full queue (R176). -/
def queueNotice (x : NoticeSubject) (s : State) : State :=
  if noticeRoom s then
    s.withUp { s.up with notices := s.up.notices ++ [Notice.mk s.time.rowTime x] }.take
  else setSticky (fun f => { f with noticeLost := true }) s

/-- A reply joins the reply queue, or is lost at a full queue (R175). -/
def sendReply (r : Reply) (s : State) : State :=
  if s.up.replies.length < Config.replyDepth then
    s.withUp { s.up with replies := s.up.replies ++ [r] }.take
  else setSticky (fun f => { f with replyLost := true }) s

/-- The state with its port counts changed (R164). -/
def setCounts (f : Counts → Counts) (s : State) : State := s.withPorts { s.ports with counts := f s.ports.counts }

/-- A forwarded frame joins the transit queue, or is dropped at a full queue (R167). -/
def joinTransit (f : Frame) (s : State) : State :=
  if s.up.transit.length < Config.transitDepth then
    s.withUp { s.up with transit := s.up.transit ++ [f] }.take
  else
    setCounts (fun c => { c with transitDrop := bump16 c.transitDrop })
      (setSticky (fun f => { f with transitDrop := true }) s)

/-- The record buffer holds fewer than 4 records (R148, R157). -/
def recordRoom (s : State) : Bool := decide (s.up.records.length < Config.recordDepth)

/-- A record is placed at the tail of the record buffer; the placer has checked for room (R152). -/
def placeRecord (r : AccountRecord) (s : State) : State :=
  s.withUp { s.up with records := s.up.records ++ [r] }.take

/-! ### Answers of the request units (R174) -/

/-- The unit's last accepted tag is set. -/
def setTag (u : RequestUnit) (tag : Byte) (s : State) : State :=
  s.withMgmt { s.mgmt with tags := s.mgmt.tags.set (unitIndex u) tag }

/-- A request ends with a status: the tag is set when the status accepts, and the reply is sent when it is wanted
or the status is no success (R174). -/
def answer (u : RequestUnit) (tag : Byte) (wanted : Bool) (st : Status) (d : ReplyData) (s : State) : State :=
  let s := if st.accepts then setTag u tag s else s
  if wanted || !st.accepts then sendReply ⟨unitCode u, tag, st, d⟩ s else s

/-! ### Arrivals on a port (R162, R163, R164) -/

/-- The counts of one port changed. -/
def Counts.atPort (c : Counts) (p : Port) (f : PortCounts → PortCounts) : Counts :=
  match p with
  | .node => { c with node := f c.node }
  | .uplink => { c with uplink := f c.uplink }

/-- The port's receiver replaced. -/
def setReceiver (p : Port) (r : Receiver) (s : State) : State :=
  match p with
  | .node => s.withPorts { s.ports with nodeRx := r }
  | .uplink => s.withPorts { s.ports with uplinkRx := r }

/-- The port's receiver. -/
def receiver (p : Port) (s : State) : Receiver :=
  match p with
  | .node => s.ports.nodeRx
  | .uplink => s.ports.uplinkRx

/-- One event of a receiver is counted at its port (R162, R164). -/
def countRx (p : Port) (e : RxEvent) (s : State) : State :=
  setCounts (fun c => c.atPort p (fun k =>
    match e with
    | .good => { k with good := bump16 k.good }
    | .lengthError => { k with lengthError := bump16 k.lengthError }
    | .checkError => { k with checkError := bump16 k.checkError })) s

/-- A frame whose payload has `len` bytes has come in whole on a port: the receiver is back in HUNT; a length above
200 is a length error, any other frame is good, is counted, and goes on to `k` (R162). -/
def arrive (p : Port) (len : Nat) (k : State → State) (s : State) : State :=
  let s := setReceiver p .hunt s
  if Config.maxPayload < len then countRx p .lengthError s else k (countRx p .good s)

/-- What the dispatcher does with a good frame (Table 9.3). -/
inductive DispatchResult where
  /-- A frame for the roster, with its node. -/
  | node (n : NodeIx)
  /-- A REQUEST to the M640. -/
  | request
  /-- A frame passed down to a node. -/
  | down
  | badAddress
  | wrongPort
  | unknownKind
  deriving DecidableEq, Repr

/-- Table 9.3 as a function of port, kind code and address. -/
def dispatchOf (p : Port) (kind addr : Byte) : DispatchResult :=
  if !knownKinds.contains kind then .unknownKind
  else
    match p with
    | .node =>
      if [kindReadings, kindJoin, kindOrderDone, kindThrough].contains kind then
        match nodeOf addr.toNat with
        | some n => .node n
        | none => .badAddress
      else .wrongPort
    | .uplink =>
      if kind = kindRequest ∧ addr = 0 then .request
      else if kind = kindRequest ∨ kind = kindThrough then
        match nodeOf addr.toNat with
        | some _ => .down
        | none => .badAddress
      else .wrongPort

/-- The count of a discarded frame rises (R163, Table 9.4). -/
def countDiscard (p : Port) (d : DispatchResult) (s : State) : State :=
  setCounts (fun c => c.atPort p (fun k =>
    match d with
    | .badAddress => { k with badAddress := bump16 k.badAddress }
    | .wrongPort => { k with wrongPort := bump16 k.wrongPort }
    | .unknownKind => { k with unknownKind := bump16 k.unknownKind }
    | .node _ => k
    | .request => k
    | .down => k)) s

/-! ### Events (R87, R88, R90, R91) -/

/-- One link changed. -/
def modifyLink (l : LinkIx) (f : Link → Link) (s : State) : State :=
  s.withLinks { s.links with links := s.links.links.modify l f }

/-- The guard of every link is released (R91). -/
def releaseGuards (s : State) : State :=
  s.withLinks { s.links with links := s.links.links.map (fun k => { k with guardSet := false }) }

/-- A discarded event is reported: CHAIN_LIMIT and a CHAIN notice (R90, R91). -/
def reportChain (id : Word16) (s : State) : State :=
  queueNotice (.chain id) (setSticky (fun f => { f with chainLimit := true }) s)

/-- The event store holds fewer than 64 events (R90). -/
def storeRoom (s : State) : Bool :=
  decide (s.links.chain.length + s.links.arrivals.length < Config.eventStoreDepth)

/-- An event meets a full store: it is discarded and reported, and a discarded 0x0021 still releases the guards (R90). -/
def discardEvent (id : Word16) (s : State) : State :=
  reportChain id (if id = 0x0021#16 then releaseGuards s else s)

/-- A block posts an event (R88, R90). -/
def postAt (src : EventSource) (e : Event) (s : State) : State :=
  if storeRoom s then s.withLinks { s.links with arrivals := s.links.arrivals ++ [⟨src, e⟩] } else discardEvent e.id s

/-- A block event has depth 0 (R88). -/
def post (src : EventSource) (id : Word16) (s : State) : State := postAt src ⟨id, 0⟩ s

/-- The outcome event of link `l` (R96). -/
def outcomeId (l : LinkIx) (done : Bool) : Word16 := BitVec.ofNat 16 (0x3000 + 2 * l.val + (if done then 0 else 1))

/-- The link table posts an outcome event of the chain in hand (R90, R96). -/
def postOutcome (l : LinkIx) (done : Bool) (depth : Nat) (s : State) : State :=
  if storeRoom s then s.withLinks { s.links with chain := s.links.chain ++ [⟨outcomeId l done, depth⟩] }
  else discardEvent (outcomeId l done) s

/-- The event "tenant t entered verdict v" (R79). -/
def verdictEvent (t : Slot) (v : Verdict) : Word16 := BitVec.ofNat 16 (0x1000 + 8 * t.val + v.code)

/-- Event k of a node: UP 0, SILENT 1, DISABLED 2, GAP 3 (Table 5.2). -/
def nodeEvent (n : NodeIx) (k : Nat) : Word16 := BitVec.ofNat 16 (0x2000 + 4 * n.val + k)

/-! ### The tenant table and the outlet map -/

/-- One tenant record changed. -/
def modifyTenant (t : Slot) (f : Tenant → Tenant) (s : State) : State := s.withTenants (s.tenants.modify t f)

/-- One outlet entry changed in fields on which no count depends. -/
def modifyOutlet (i : OutletIx) (f : Outlet → Outlet) (s : State) : State :=
  s.withMap { s.map with entries := s.map.entries.modify i f }

/-- The relay status and indicator of an outlet written as one operation (R8). -/
def writeStatus (i : OutletIx) (relay : RelayStatus) (indicator : Indicator) (s : State) : State :=
  modifyOutlet i (fun e => { e with relay, indicator }) s

/-- The tenant's side of a reading update of a member on feed `f` (R5, R46, R47). -/
def Tenant.readingDelta (t : Tenant) (f : Feed) (old new : Outlet) : Tenant :=
  { t with
    draw := t.draw.modify f (fun d => d + new.reading - old.reading),
    stale := t.stale + (if new.fresh then 0 else 1) - (if old.fresh then 0 else 1) }

/-- The map takes one reading update with the flag it sets (R5, R7). -/
def updateReading (i : OutletIx) (u : MapUpdate) (flag : Option ConvFlag) (s : State) : State :=
  let old := s.map.entries.get i
  let new := old.updated s.time.rowTime u flag
  let s' := s.withMap { s.map with
    entries := s.map.entries.set i new, attention := attentionStep old.flags new.flags s.map.attention }
  match old.effective.memberOf with
  | none => s'
  | some (t, f) => modifyTenant t (fun k => k.readingDelta f old new) s'

/-- The entries of a node, from the lowest map index to the highest (R6). -/
def nodeOutlets (n : NodeIx) : List OutletIx := (List.finRange 48).map (mapIndex n)

/-- Freshness is cleared over a whole node (R6). -/
def clearFreshness (n : NodeIx) (s : State) : State :=
  (nodeOutlets n).foldl (fun s i => updateReading i .hold none s) s

/-- A member leaves its tenant on feed `f` (R9 step 1). -/
def Tenant.leave (t : Tenant) (f : Feed) (e : Outlet) : Tenant :=
  { t with
    draw := t.draw.modify f (fun d => d - e.reading), members := t.members.modify f (fun m => m - 1),
    stale := t.stale - (if e.fresh then 0 else 1) }

/-- A member joins its tenant on feed `f` (R9 step 4). -/
def Tenant.join (t : Tenant) (f : Feed) (e : Outlet) : Tenant :=
  { t with
    draw := t.draw.modify f (fun d => d + e.reading), members := t.members.modify f (fun m => m + 1),
    stale := t.stale + (if e.fresh then 0 else 1) }

/-- A pending-in delta of +1 for the tenant a pending change names (R11). -/
def pendingInUp (t : Option Slot) (s : State) : State :=
  match t with
  | none => s
  | some t => modifyTenant t (fun k => { k with pendingIn := k.pendingIn + 1 }) s

/-- A pending-in delta of -1 for the tenant a pending change names (R9, R11). -/
def pendingInDown (t : Option Slot) (s : State) : State :=
  match t with
  | none => s
  | some t => modifyTenant t (fun k => { k with pendingIn := k.pendingIn - 1 }) s

/-- The shed-stack step of an application (R10): the entry of an outlet that stops being a member of `t0` leaves the
stack, and the relay status of a confirmed one goes from OFF_SHED to OFF. -/
def shedStackStep (i : OutletIx) (before after : Membership) (s : State) : State :=
  match before.memberOf with
  | none => s
  | some (t0, _) =>
    if after.tenant ≠ some t0 ∨ after.excluded then
      let st := (s.tenants.get t0).stack
      let s := if hasConfirmed i st then modifyOutlet i (fun e => { e with relay := .off }) s else s
      modifyTenant t0 (fun k => { k with stack := removeEntry i k.stack }) s
    else s

/-- A membership change is applied to an entry, steps 1 to 4 of R9. -/
def applyChange (i : OutletIx) (m : Membership) (s : State) : State :=
  let e := s.map.entries.get i
  let s := match e.effective.memberOf with
    | none => s
    | some (t0, f0) => modifyTenant t0 (fun k => k.leave f0 e) s
  let s := shedStackStep i e.effective m s
  let s := modifyOutlet i (fun e => { e with effective := m }) s
  match m.memberOf with
  | none => s
  | some (t1, f1) => modifyTenant t1 (fun k => k.join f1 e) s

/-- The pending change of an entry is applied, with step 5 of R9. -/
def applyPending (i : OutletIx) (s : State) : State :=
  match (s.map.entries.get i).pending with
  | none => s
  | some m =>
    let s := applyChange i m s
    let s := s.withMap { s.map with
      entries := s.map.entries.modify i (fun e => { e with pending := none }), pendingCount := s.map.pendingCount - 1 }
    pendingInDown m.tenant s

/-- The indices, from `k` on, of the entries of a list with a pending change. -/
def pendingFrom : Nat → List Outlet → List Nat
  | _, [] => []
  | k, e :: es => if e.pending.isSome then k :: pendingFrom (k + 1) es else pendingFrom (k + 1) es

/-- Every pending change is applied, in map index order (R12). -/
def applyAllPending (s : State) : State :=
  (pendingFrom 0 s.map.entries.rows).foldl (fun s k => if h : k < 1536 then applyPending ⟨k, h⟩ s else s) s

/-- An ASSIGN that reaches an entry during a pass stages its change (R11); the result is STAGED or SUPERSEDED. -/
def stageChange (i : OutletIx) (m : Membership) (s : State) : State :=
  let old := (s.map.entries.get i).pending
  let s := s.withMap { s.map with
    entries := s.map.entries.modify i (fun e => { e with pending := some m }),
    pendingCount := if old.isSome then s.map.pendingCount else s.map.pendingCount + 1 }
  pendingInUp m.tenant (pendingInDown (old.bind (·.tenant)) s)

/-- A pass is in flight (R63). -/
def passInFlight (s : State) : Bool := decide (s.review.pass ≠ .idle)

/-- What an ASSIGN did at one entry (R16). -/
inductive EntryResult where
  /-- The named tenant is FREE: the operation stops. -/
  | stopped
  | applied
  | staged
  | superseded
  deriving DecidableEq, Repr

/-- What an ASSIGN of membership `m` does when it reaches entry `i` (R16). -/
def assignResult (i : OutletIx) (m : Membership) (s : State) : EntryResult :=
  let free : Bool :=
    match m.tenant with
    | none => false
    | some t => decide ((s.tenants.get t).state = .free)
  if free then .stopped
  else if !passInFlight s then .applied
  else if (s.map.entries.get i).pending.isSome then .superseded
  else .staged

/-- The entry handled by an ASSIGN (R16). -/
def assignAt (i : OutletIx) (m : Membership) (s : State) : State :=
  match assignResult i m s with
  | .stopped => s
  | .applied => applyChange i m s
  | .staged => stageChange i m s
  | .superseded => stageChange i m s

/-- ALTER_FLAGS at one entry (R19, R7). -/
def alterFlagsAt (i : OutletIx) (op : FlagOp) (mask : BitVec 6) (s : State) : State :=
  let old := (s.map.entries.get i).flags
  let new := op.combine old mask
  s.withMap { s.map with
    entries := s.map.entries.modify i (fun e => { e with flags := new }),
    attention := attentionStep old new s.map.attention }

/-! ### Orders (R106 to R114) -/

/-- The order numbers in use. -/
def OrderTable.numbers (o : OrderTable) : List Byte := o.orders.map (·.number)

/-- The number after a number, wrapping from 255 to 1 (R107). -/
def numberAfter (n : Byte) : Byte := if n = 255 then 1 else n + 1

/-- The first number from `n` on that is not in use, within the given number of tries (R107). -/
def firstFree (used : List Byte) : Nat → Byte → Byte
  | 0, n => n
  | k + 1, n => if used.contains n then firstFree used k (numberAfter n) else n

/-- The number the next order gets (R107). -/
def OrderTable.nextNumber (o : OrderTable) : Byte := firstFree o.numbers 33 o.next

/-- An order is outstanding for the outlet. -/
def hasOrder (i : OutletIx) (s : State) : Bool := s.orders.orders.any (fun o => o.outlet == i)

/-- The checks of R108 in their order: the status of the first that fails. -/
def placeRefusal (i : OutletIx) (s : State) : Option Status :=
  if s.mgmt.opState = .transparent then some .wrongState
  else if (s.roster.nodes.get (nodeOfOutlet i)).state ≠ .up then some .nodeNotUp
  else if hasOrder i s then some .busy
  else if ¬ s.orders.orders.length < Config.orderDepth then some .tableFull
  else if ¬ s.down.hasRoom then some .queueFull
  else none

/-- The record of an order placed now (R107, R108, R109). -/
def newOrder (i : OutletIx) (relay : RelayAction) (indicator : IndicatorAction) (origin : OrderOrigin) (s : State) :
    Order :=
  { number := s.orders.nextNumber, outlet := i, relay, indicator, origin, issued := s.time.rowTime,
    expires := s.time.rowTime + BitVec.ofNat 32 s.orders.timeout }

/-- An order that passed the checks is placed: numbered, recorded and queued as an ORDER frame (R107, R108). -/
def placeOrder (i : OutletIx) (relay : RelayAction) (indicator : IndicatorAction) (origin : OrderOrigin) (s : State) :
    State :=
  let o := newOrder i relay indicator origin s
  (s.withOrders { s.orders with orders := s.orders.orders ++ [o], next := numberAfter o.number }).withDown
    (s.down.join (.order (nodeOfOutlet i) o.number (outletByte i) relay indicator))

/-- How an order ends (section 6.2). -/
inductive Ending where
  /-- By ORDER_DONE with result DONE and the relay state reported ON (true) or OFF. -/
  | done (on : Bool)
  | refused (on : Bool)
  | fault (on : Bool)
  | timeout
  | nodeLost
  deriving DecidableEq, Repr

/-- The ending as a status (R122, R124, R125). -/
def Ending.status : Ending → Status
  | .done _ => .done
  | .refused _ => .refused
  | .fault _ => .fault
  | .timeout => .timeout
  | .nodeLost => .nodeLost

/-- The relay state reported, when an ORDER_DONE reported one. -/
def Ending.reported : Ending → Option Bool
  | .done on => some on
  | .refused on => some on
  | .fault on => some on
  | .timeout => none
  | .nodeLost => none

/-- The indicator after an ending (R111, R112). -/
def Ending.indicator (e : Ending) (action : IndicatorAction) (before : Indicator) : Indicator :=
  match e with
  | .done _ =>
    match action with
    | .noChange => before
    | .dark => .dark
    | .steady => .steady
    | .blink => .blink
  | .refused _ => before
  | .fault _ => .unknown
  | .timeout => .unknown
  | .nodeLost => .unknown

/-- The outlet is a confirmed entry of a shed stack. -/
def inConfirmedStack (i : OutletIx) (s : State) : Bool := s.tenants.rows.any (fun t => hasConfirmed i t.stack)

/-- The relay status after an ending, with the stacks as the stack step left them (R111, R112). -/
def Ending.relay (e : Ending) (i : OutletIx) (s : State) : RelayStatus :=
  match e.reported with
  | none => .unknown
  | some true => .on
  | some false => if inConfirmedStack i s then .offShed else .off

/-! ### The end of a shed request (R122) and the answers of the SWITCH unit (R124, R125) -/

/-- The SWITCH unit answers its request in execution and is free again (R123). -/
def answerSwitch (st : Status) (d : ReplyData) (s : State) : State :=
  match s.mgmt.switchJob with
  | none => s
  | some j => answer .switch j.tag j.ack st d (s.withMgmt { s.mgmt with switchJob := none })

/-- How a shed request ended. -/
structure RequestEnd where
  kind : ShedKind
  tenant : Slot
  origin : RequestOrigin
  /-- The request is done; otherwise it has failed for `reason`. -/
  done : Bool
  reason : Status
  /-- The order that was placed: number and outlet. -/
  order : Option (Byte × OutletIx)
  /-- The relay state reported. -/
  reported : Option Bool
  /-- The relay status the ending wrote. -/
  wrote : Option RelayStatus
  deriving DecidableEq, Repr

/-- A shed request ends: an ORDER notice on failure, then the report (R122). -/
def endShedRequest (e : RequestEnd) (s : State) : State :=
  let s :=
    if e.done then s
    else queueNotice (.order e.kind e.tenant (e.order.map (·.1)) (e.order.map (·.2)) e.reason e.reported) s
  match e.origin with
  | .link l depth =>
    s.withLinks { s.links with reports := s.links.reports ++ [⟨l, depth, e.done, e.order.isSome⟩] }
  | .management _ owed =>
    if owed then
      answerSwitch (if e.done then .ok else e.reason) (.shed (e.order.map (·.2)) (e.order.map (·.1)) e.wrote) s
    else s

/-- A shed request fails at a check, with no order placed (R116, R118, R120). -/
def failShedRequest (kind : ShedKind) (t : Slot) (origin : RequestOrigin) (reason : Status) (s : State) : State :=
  endShedRequest
    { kind, tenant := t, origin, done := false, reason, order := none, reported := none, wrote := none } s

/-- The stack step of an order's ending (R114 step 1, R119, R121). -/
def orderStackStep (o : Order) (e : Ending) (s : State) : State :=
  match o.origin with
  | .shed t _ =>
    if hasUnconfirmed o.outlet (s.tenants.get t).stack then
      if e = .done false then modifyTenant t (fun k => { k with stack := confirmEntry o.outlet k.stack }) s
      else modifyTenant t (fun k => { k with stack := removeEntry o.outlet k.stack }) s
    else s
  | .restore _ _ => s
  | .management _ _ => s

/-- The request of a SHED or RESTORE order is done (R119, R121); `s` is the state before the stack step. -/
def orderRequestDone (o : Order) (e : Ending) (s : State) : Bool :=
  match o.origin with
  | .shed t _ => decide (e = .done false) && hasUnconfirmed o.outlet (s.tenants.get t).stack
  | .restore _ _ => decide (e = .done true)
  | .management _ _ => false

/-- The report step of an order's ending (R114 step 4, R122, R124). -/
def orderReport (o : Order) (e : Ending) (done : Bool) (relay : RelayStatus) (indicator : Indicator) (s : State) :
    State :=
  let ended (kind : ShedKind) (t : Slot) (origin : RequestOrigin) : RequestEnd :=
    { kind, tenant := t, origin, done, reason := e.status, order := some (o.number, o.outlet),
      reported := e.reported, wrote := some relay }
  match o.origin with
  | .shed t origin => endShedRequest (ended .shed t origin) s
  | .restore t origin => endShedRequest (ended .restore t origin) s
  | .management _ owed =>
    if owed then
      answerSwitch (if e.status = .done then .ok else e.status) (.order (some o.number) relay indicator) s
    else s

/-- An order ends: stack step, status step, record freed, report (R114). -/
def endOrder (o : Order) (e : Ending) (s : State) : State :=
  let done := orderRequestDone o e s
  let s := orderStackStep o e s
  let relay := e.relay o.outlet s
  let indicator := e.indicator o.indicator (s.map.entries.get o.outlet).indicator
  let s := writeStatus o.outlet relay indicator s
  let s := s.withOrders { s.orders with orders := s.orders.orders.filter (fun x => x.number != o.number) }
  orderReport o e done relay indicator s

/-- Every outstanding order for a node ends NODE_LOST, in the order they were placed (R113). -/
def loseNode (n : NodeIx) (s : State) : State :=
  (s.orders.orders.filter (fun o => nodeOfOutlet o.outlet == n)).foldl (fun s o => endOrder o .nodeLost s) s

/-! ### The node roster (R130, R134, R135, R137) -/

/-- One node record changed. -/
def modifyNode (n : NodeIx) (f : Node → Node) (s : State) : State :=
  s.withRoster { s.roster with nodes := s.roster.nodes.modify n f }

/-- The bad entries count of a node rises by one (R139). -/
def countBadEntry (n : NodeIx) (s : State) : State :=
  modifyNode n (fun k => { k with badEntries := bump16 k.badEntries }) s

/-- A LIMIT note is sent to a node, or marked owed at a full queue (R137). -/
def sendLimitNote (n : NodeIx) (s : State) : State :=
  if s.down.hasRoom then
    (modifyNode n (fun k => { k with noteOwed := false }) s).withDown
      (s.down.join (.limit n (s.roster.nodes.get n).limit))
  else modifyNode n (fun k => { k with noteOwed := true }) s

/-- A node that is ABSENT or SILENT is brought UP (R130). -/
def bringUp (n : NodeIx) (s : State) : State :=
  sendLimitNote n (post .roster (nodeEvent n 0) (modifyNode n (fun k => { k with state := .up, lastSeq := none }) s))

/-- A node leaves for SILENT or DISABLED: record, freshness, orders, event, in this order (R134, R135). -/
def leaveNode (n : NodeIx) (after : NodeState) (event : Nat) (s : State) : State :=
  let s := modifyNode n (fun k => { k with state := after, lastSeq := none, noteOwed := false }) s
  post .roster (nodeEvent n event) (loseNode n (clearFreshness n s))

/-- An UP node has reached last heard plus the silence timeout in force (R133). -/
def silenceDue (n : NodeIx) (s : State) : Bool :=
  let k := s.roster.nodes.get n
  decide (k.state = .up ∧ s.roster.timeout * 1000 ≤ elapsed s.time.rowTime k.lastHeard)

/-- A node that is due goes SILENT (R133, R134). -/
def expireNode (n : NodeIx) (s : State) : State := if silenceDue n s then leaveNode n .silent 1 s else s

/-- A frame from a node is taken by the roster: dropped when the node is DISABLED, otherwise the node is heard and the
frame handled by `k` (R129). -/
def takeNodeFrame (n : NodeIx) (k : State → State) (s : State) : State :=
  if (s.roster.nodes.get n).state = .disabled then
    setCounts (fun c => { c with disabledDrop := bump16 c.disabledDrop }) s
  else k (modifyNode n (fun x => { x with lastHeard := s.time.rowTime }) s)

/-- A good frame of a kind the roster takes comes in on the node port (R163, R129). -/
def nodePortFrame (f : NodeFrame) (k : NodeIx → State → State) (s : State) : State :=
  arrive .node f.payload.length (fun s =>
    match nodeOf f.addr.toNat with
    | none => countDiscard .node .badAddress s
    | some n => takeNodeFrame n (k n) s) s

/-! ### Period closes (R147) -/

/-- A close is started (R147); the requester has seen that none is pending. -/
def startClose (s : State) : State :=
  s.withReview { s.review with closeNumber := s.review.closeNumber + 1, closePending := true }

/-! ### Taking an event (R90 to R96) -/

/-- The condition of a link as the scan reaches it (R92). -/
def Link.holds (k : Link) (ts : Table Tenant 128) : Bool :=
  match k.condition with
  | none => true
  | some c =>
    let t := ts.get c.tenant
    decide (t.state ≠ .free) && c.verdicts.getLsbD t.verdict.code

/-- The counter-action of an action (R94). -/
def LinkAction.counter : LinkAction → LinkAction
  | .shed t => .restore t
  | .restore t => .shed t
  | .notify => .notify
  | .latch t => .latch t
  | .close => .close

/-- The action goes through the shed request queue. -/
def LinkAction.switches : LinkAction → Bool
  | .shed _ => true
  | .restore _ => true
  | .notify => false
  | .latch _ => false
  | .close => false

/-- The shed request queue holds fewer than 8 entries (R97). -/
def shedRoom (s : State) : Bool := decide (s.links.shedQueue.length < Config.shedQueueDepth)

/-- An entry joins the shed request queue (R97). -/
def joinShedQueue (r : ShedRequest) (s : State) : State :=
  s.withLinks { s.links with shedQueue := s.links.shedQueue ++ [r] }

/-- A SHED or RESTORE of link `l` is queued, or fails at once at a full queue (R97). -/
def linkShed (kind : ShedKind) (t : Slot) (l : LinkIx) (depth : Nat) (s : State) : State :=
  if shedRoom s then joinShedQueue ⟨kind, t, .link l depth⟩ s else postOutcome l false depth s

/-- An action is dispatched, and its outcome posted where it is known at once (R96, R97, R99, R100). -/
def dispatchAction (l : LinkIx) (a : LinkAction) (counter c : Bool) (e : Event) (s : State) : State :=
  match a with
  | .shed t => linkShed .shed t l (e.depth + 1) s
  | .restore t => linkShed .restore t l (e.depth + 1) s
  | .notify => postOutcome l (noticeRoom s) (e.depth + 1) (queueNotice (.link l e.id e.depth c counter) s)
  | .latch t =>
    if (s.tenants.get t).state = .free then postOutcome l false (e.depth + 1) s
    else postOutcome l true (e.depth + 1) (modifyTenant t Tenant.latched s)
  | .close =>
    if s.review.closePending then postOutcome l false (e.depth + 1) s
    else postOutcome l true (e.depth + 1) (startClose s)

/-- A link performs an action or counter-action: fire count and guard set first, then the dispatch (R95, R96). -/
def performAction (l : LinkIx) (a : LinkAction) (counter c : Bool) (e : Event) (s : State) : State :=
  dispatchAction l a counter c e
    (modifyLink l (fun k => { k with fireCount := bump16 k.fireCount, guardSet := k.guardSet || k.guard }) s)

/-- The scan handles one link (R92 to R95). -/
def scanLink (e : Event) (s : State) (l : LinkIx) : State :=
  let k := s.links.links.get l
  if k.trigger ≠ e.id ∨ (k.guard && k.guardSet) then s
  else
    let c := k.holds s.tenants
    match k.mode with
    | .off => s
    | .once =>
      if c && k.armed then
        performAction l k.action false c e
          (modifyLink l (fun x => { x with armed := k.action.switches && !shedRoom s }) s)
      else s
    | .onChange =>
      if c = k.lastCondition then s
      else
        performAction l (if c then k.action else k.action.counter) (!c) c e
          (modifyLink l (fun x => { x with lastCondition := c }) s)
    | .every => if c then performAction l k.action false c e s else s

/-- The link table takes an event: the checks of R91, then the scan in index order (R90). The operating state is the one in
force as the event is taken (R91). -/
def takeEvent (e : Event) (s : State) : State :=
  let s := if e.id = 0x0021#16 then releaseGuards s else s
  if s.mgmt.opState ≠ .run then s
  else if 4 ≤ e.depth then reportChain e.id s
  else (List.finRange 64).foldl (scanLink e) s

/-- The next event of the chain in hand is taken (R90). -/
def scanChain (s : State) : State :=
  match s.links.chain with
  | [] => s
  | e :: rest => takeEvent e (s.withLinks { s.links with chain := rest })

/-- The table takes every event that waits: the chain in hand, then the others, the oldest first (R90). SET_STATE has it do so
before the state becomes RUN, so that each is discarded by R91: the 0x0021 and 0x0022 of a pass that leaving RUN has ended
are never scanned (R82, R154; log entry 31). -/
def takeWaiting (s : State) : State :=
  (s.links.chain ++ s.links.arrivals.map (·.event)).foldl (fun s e => takeEvent e s)
    (s.withLinks { s.links with chain := [], arrivals := [] })

/-- `f` done `n` times. -/
def iterate (f : State → State) : Nat → State → State
  | 0, s => s
  | n + 1, s => iterate f n (f s)

/-- The chain in hand is taken to its end (R90; log entry 5). Each outcome event is one level deeper, so five rounds
over the events held at the start of each round leave none. -/
def finishChain (s : State) : State := iterate (fun s => iterate scanChain s.links.chain.length s) 5 s

/-! ### The pass (R66, R68, R81) -/

/-- The position advances past a slot; past slot 128 the walk is over (R68, R81). -/
def advance (s : State) : State :=
  s.withReview
    (if s.review.position.val = 127 then { s.review with walked := true }
     else { s.review with position := s.review.position + 1 })

/-- The pass waits for a place of the record buffer to become free (R80). -/
def waitForRoom (s : State) : State :=
  (s.withUp { s.up with recordFreed := false }).withReview { s.review with pass := .waiting }

/-- Step 10 of a visit to slot `i`: the period close, or the wait for room (R80, R148). -/
def closeStep (i : Slot) (s : State) : State :=
  let t := s.tenants.get i
  if s.review.closing ∧ t.lastClose ≠ s.review.closeNumber then
    if recordRoom s then
      let now := s.time.rowTime
      let n := s.review.closeNumber
      advance (modifyTenant i (fun k => k.periodReset n now) (placeRecord (.period (t.periodRecord i n now)) s))
    else waitForRoom s
  else advance s

/-- The visit to slot `i`, or its skip when it is FREE (R68, R70 to R80). -/
def visitSlot (i : Slot) (s : State) : State :=
  let t := s.tenants.get i
  if t.state = .free then advance s
  else
    let t' := t.visit s.time.rowTime
    let s := s.withTenants (s.tenants.set i t')
    closeStep i (if t'.verdict = t.verdict then s else post .review (verdictEvent i t'.verdict) s)

/-- Every non-FREE slot has the close number (R81 step 3). -/
def allClosed (s : State) : Bool :=
  s.tenants.rows.all (fun t => decide (t.state = .free) || decide (t.lastClose = s.review.closeNumber))

/-- The end of a pass (R81, R154). -/
def endPass (s : State) : State :=
  let s := post .review 0x0021 (applyAllPending s)
  let s :=
    if s.review.closing && allClosed s then post .review 0x0022 (s.withReview { s.review with closePending := false })
    else s
  s.withReview { s.review with pass := .idle, position := 0, walked := false, closing := false }

/-! ### The way of a request through the management unit (R173) -/

/-- The unit has a request in execution (R173). -/
def unitBusy (u : RequestUnit) (s : State) : Bool :=
  match u with
  | .map => s.mgmt.mapJob.isSome
  | .switch => s.mgmt.switchJob.isSome
  | .record => s.mgmt.exportJob.isSome
  | .control => false
  | .tenant => false
  | .links => false
  | .roster => false
  | .calib => false

/-- A REQUEST to the M640 for an operation of unit `u` comes in: the checks of R173 in their order (its row has settled
the unit and the op), then the operation with the arguments read. -/
def serve {α : Type} (u : RequestUnit) (r : Request) (parse : List Byte → Option α) (act : α → State → State)
    (s : State) : State :=
  arrive .uplink (4 + r.args.length) (fun s =>
    if r.tag = 0 then sendReply ⟨unitCode u, 0, .badTag, .none⟩ s
    else if r.flags &&& 0xFE#8 ≠ 0#8 then answer u r.tag true .badArg .none s
    else if unitBusy u s then answer u r.tag true .busy .none s
    else
      match parse r.args with
      | none => answer u r.tag true .badArg .none s
      | some a => act a s) s

/-- A write ends OK: the tag is set and the reply sent when ACK_WANTED is set (R174). -/
def answerOk (u : RequestUnit) (r : Request) (d : ReplyData) (s : State) : State :=
  answer u r.tag (ackWanted r) .ok d s

/-- A read ends OK: the tag is set and the reply always sent (R174). -/
def answerRead (u : RequestUnit) (r : Request) (d : ReplyData) (s : State) : State := answer u r.tag true .ok d s

/-- A refusal: always answered, with no data (R174; log entry 8). -/
def refuse (u : RequestUnit) (r : Request) (st : Status) (s : State) : State := answer u r.tag true st .none s

end Sys2Proof.Machine
end

