-- ==== Sys2Proof/Machine/CalibUnit.lean ====
section
/-! DEFINITION. The CALIB unit (R35 to R38). -/

namespace Sys2Proof.Machine

/-- SET_PROFILE: all fields of one profile are written (R36). -/
def execSetProfile (r : Request) (s : State) : Host.Outcome State Fault Refusal :=
  .next (serve .calib r Args.setProfile
    (fun a s => answerOk .calib r .none (s.withProfiles (s.profiles.set a.1 a.2))) s)

/-- READ_PROFILE (R38). -/
def execReadProfile (r : Request) (s : State) : Host.Outcome State Fault Refusal :=
  .next (serve .calib r Args.readProfile (fun i s => answerRead .calib r (.profile (s.profiles.get i)) s) s)

end Sys2Proof.Machine
end

