-- ==== Sys2Proof/Machine/ControlUnit.lean ====
section
/-! DEFINITION. The CONTROL unit but for its resets (R177 to R179). -/

namespace Sys2Proof.Machine

/-- READ_IDENT (R179). -/
def execReadIdent (r : Request) (s : State) : Host.Outcome State Fault Refusal :=
  .next (serve .control r Args.nothing (fun _ s => answerRead .control r .ident s) s)

/-! ### SET_STATE (R177) -/

/-- The operating state replaced. -/
def setOpState (x : OpState) (s : State) : State := s.withMgmt { s.mgmt with opState := x }

/-- Time out of RUN is set aside for every tenant (R60). -/
def enterRun (s : State) : State := s.withTenants (s.tenants.map (fun k => k.enterRun s.time.rowTime))

/-- The operating state changes, with the effects of entering and leaving RUN (R60, R82, R177). The events that wait when RUN
is entered are taken before it, and so are discarded (R91, R104, R154; log entry 31). -/
def changeState (x : OpState) (s : State) : State :=
  if s.mgmt.opState = x then s
  else if x = .run then enterRun (setOpState x (takeWaiting s))
  else if s.mgmt.opState = .run ∧ passInFlight s then endPass (setOpState x s)
  else setOpState x s

/-- SET_STATE (R177). -/
def execSetState (r : Request) (s : State) : Host.Outcome State Fault Refusal :=
  .next (serve .control r Args.setState (fun x s => answerOk .control r .none (changeState x s)) s)

/-! ### SET_TIMING and SET_FORWARD (R179) -/

/-- The three times are set as one operation (R179). -/
def writeTiming (a : Fin 7 × Nat × Nat) (s : State) : State :=
  ((s.withTime { s.time with reviewPeriod := a.1 }).withOrders { s.orders with timeout := a.2.1 }).withRoster
    { s.roster with timeout := a.2.2 }

/-- Every UP node that is due goes SILENT, in address order (R133; log entry 14). -/
def expireSilent (s : State) : State := (List.finRange 32).foldl (fun s n => expireNode n s) s

/-- SET_TIMING (R179). -/
def execSetTiming (r : Request) (s : State) : Host.Outcome State Fault Refusal :=
  .next (serve .control r Args.setTiming (fun a s => answerOk .control r .none (expireSilent (writeTiming a s))) s)

/-- SET_FORWARD (R165, R179). -/
def execSetForward (r : Request) (s : State) : Host.Outcome State Fault Refusal :=
  .next (serve .control r Args.setForward
    (fun m s => answerOk .control r .none (s.withPorts { s.ports with forward := m })) s)

/-! ### READ_STATUS (R178) and READ_TAGS (R179) -/

/-- What READ_STATUS returns, as the state stands (R178). -/
def statusReport (s : State) : StatusReport :=
  { opState := s.mgmt.opState, passInFlight := passInFlight s, sticky := s.mgmt.sticky,
    mapAttention := decide (0 < s.map.attention), transit := s.up.transit.length, nodeQueue := s.down.queue.length,
    replies := s.up.replies.length, notices := s.up.notices.length, records := s.up.records.length,
    shedQueue := s.links.shedQueue.length, orders := s.orders.orders.length, pendingChanges := s.map.pendingCount,
    counts := s.ports.counts, rowTime := s.time.rowTime }

/-- The sticky flags and the port counts are cleared (R164, R178). -/
def clearStatus (s : State) : State := setCounts (fun _ => .zero) (setSticky (fun _ => .clear) s)

/-- READ_STATUS after its argument check: read, cleared, then answered (R178). -/
def takeReadStatus (r : Request) (clear : Bool) (s : State) : State :=
  answerRead .control r (.status (statusReport s)) (if clear then clearStatus s else s)

/-- READ_STATUS (R178). -/
def execReadStatus (r : Request) (s : State) : Host.Outcome State Fault Refusal :=
  .next (serve .control r Args.readStatus (takeReadStatus r) s)

/-- READ_TAGS: the tags are read before the request sets its own (R179). -/
def execReadTags (r : Request) (s : State) : Host.Outcome State Fault Refusal :=
  .next (serve .control r Args.nothing (fun _ s => answerRead .control r (.tags s.mgmt.tags.rows) s) s)

end Sys2Proof.Machine
end

