-- ==== Sys2Proof/Machine/Expiries.lean ====
section
/-! DEFINITION. The expiries of the time base, the order table and the roster (R64 to R67, R86, R112, R133). -/

namespace Sys2Proof.Machine

/-! ### The tick generators (R86) -/

/-- The period of a tick generator, ms (Table 5.1). -/
def tickPeriod (g : Fin 6) : Nat := [100, 1000, 10000, 60000, 900000, 3600000].getD g.val 0

/-- The event of a tick generator, 0x0010..0x0015 (Table 5.1). -/
def tickEvent (g : Fin 6) : Word16 := BitVec.ofNat 16 (0x10 + g.val)

/-- A generator expires: it posts its event and sets its next due time (R86). -/
def expireTick (g : Fin 6) (s : State) : State :=
  let s := post .timeBase (tickEvent g) s
  s.withTime { s.time with due := s.time.due.modify g (fun d => d + BitVec.ofNat 32 (tickPeriod g)) }

/-- TICK_EXPIRY (R86); before its due time nothing expires (log entry 1). -/
def execTickExpiry (g : Fin 6) (s : State) : Host.Outcome State Fault Refusal :=
  .next (if reached s.time.rowTime (s.time.due.get g) then expireTick g s else s)

/-! ### The review tick (R64 to R67) -/

/-- The review period of a code, ms (R179). -/
def reviewPeriodMs (c : Fin 7) : Nat := [100, 250, 500, 1000, 2000, 5000, 10000].getD c.val 0

/-- A pass starts (R66). -/
def startPass (s : State) : State :=
  post .review 0x0020 (s.withReview { s.review with
    pass := .visiting, position := 0, walked := false, closing := s.review.closePending })

/-- A tick that finds a pass in flight is an overrun (R67). -/
def overrun (s : State) : State :=
  queueNotice (.overrun s.review.position (decide (s.review.pass = .waiting)))
    (post .review 0x0023 (setSticky (fun f => { f with passOverrun := true }) s))

/-- The engine takes a review tick (R65). -/
def takeReviewTick (s : State) : State :=
  match s.mgmt.opState with
  | .run => if passInFlight s then overrun s else startPass s
  | .hold => s
  | .transparent => s

/-- The review tick expires: its next due time is set and the engine takes it (R64, R65). -/
def expireReviewTick (s : State) : State :=
  takeReviewTick (s.withTime { s.time with
    reviewDue := s.time.reviewDue + BitVec.ofNat 32 (reviewPeriodMs s.time.reviewPeriod) })

/-- REVIEW_TICK (R64, R65); before its due time nothing expires (log entry 1). -/
def execReviewTick (s : State) : Host.Outcome State Fault Refusal :=
  .next (if reached s.time.rowTime s.time.reviewDue then expireReviewTick s else s)

/-! ### Order timeouts (R112) and silence (R133, R134) -/

/-- The outstanding order of a number. -/
def orderOf (number : Byte) (s : State) : Option Order := s.orders.orders.find? (fun o => o.number == number)

/-- The outstanding order of a number ends TIMEOUT when the row time has reached its expiry time (R112). -/
def expireOrder (number : Byte) (s : State) : State :=
  match orderOf number s with
  | none => s
  | some o => if reached s.time.rowTime o.expires then endOrder o .timeout s else s

/-- ORDER_TIMEOUT (R112). -/
def execOrderTimeout (number : Byte) (s : State) : Host.Outcome State Fault Refusal := .next (expireOrder number s)

/-- NODE_SILENCE (R133, R134). -/
def execNodeSilence (n : NodeIx) (s : State) : Host.Outcome State Fault Refusal := .next (expireNode n s)

end Sys2Proof.Machine
end

