-- ==== Sys2Proof/Machine/LinkInterface.lean ====
section
/-! DEFINITION. The rest of the link interface: frames passed down, discarded and broken, requests that name nothing to
serve, the ends of sending, owed LIMIT notes (R138, R162, R163, R168, R169, R173). -/

namespace Sys2Proof.Machine

/-! ### Passing down (R168) -/

/-- The kind code of a frame passed down. -/
def downKindCode : DownKind → Byte
  | .request => kindRequest
  | .through => kindThrough

/-- A frame joins the node transmit queue unchanged, or is dropped at a full queue (R168). -/
def joinDown (f : Frame) (s : State) : State :=
  if s.down.hasRoom then s.withDown (s.down.join (.down f))
  else setCounts (fun c => { c with throughDrop := bump16 c.throughDrop }) s

/-- A REQUEST or THROUGH frame on the uplink port, by Table 9.3; a REQUEST to 0x00 is another command's (log entry 1). -/
def passDownFrame (k : DownKind) (f : NodeFrame) (s : State) : State :=
  match dispatchOf .uplink (downKindCode k) f.addr with
  | .down => arrive .uplink f.payload.length (joinDown (Frame.make (downKindCode k) f.addr f.seq f.payload)) s
  | .badAddress => arrive .uplink f.payload.length (countDiscard .uplink .badAddress) s
  | .node _ => s
  | .request => s
  | .wrongPort => s
  | .unknownKind => s

/-- PASS_DOWN (R168). -/
def execPassDown (k : DownKind) (f : NodeFrame) (s : State) : Host.Outcome State Fault Refusal :=
  .next (passDownFrame k f s)

/-! ### Discarded and broken frames (R162, R163) -/

/-- The dispatcher discards the frame (Table 9.3). -/
def DispatchResult.discards : DispatchResult → Bool
  | .node _ => false
  | .request => false
  | .down => false
  | .badAddress => true
  | .wrongPort => true
  | .unknownKind => true

/-- A good frame that its port does not take is counted (R163); one that is taken is another command's (log entry 1). -/
def discardFrame (p : Port) (kind : Byte) (f : NodeFrame) (s : State) : State :=
  if (dispatchOf p kind f.addr).discards then
    arrive p f.payload.length (countDiscard p (dispatchOf p kind f.addr)) s
  else s

/-- FRAME_DISCARD (R163). -/
def execFrameDiscard (p : Port) (kind : Byte) (f : NodeFrame) (s : State) : Host.Outcome State Fault Refusal :=
  .next (discardFrame p kind f s)

/-- The bytes are taken by the port's receiver, and what they end is counted (R162). -/
def receiveBytes (p : Port) (bytes : List Byte) (s : State) : State :=
  let got := (receiver p s).takeAll bytes
  got.2.foldl (fun s e => countRx p e s) (setReceiver p got.1 s)

/-- The bytes complete a good frame, which is another command's (log entries 1 and 13). -/
def completesFrame (p : Port) (bytes : List Byte) (s : State) : Bool :=
  ((receiver p s).takeAll bytes).2.contains .good

/-- FRAME_ERROR (R162). -/
def execFrameError (p : Port) (bytes : List Byte) (s : State) : Host.Outcome State Fault Refusal :=
  .next (if completesFrame p bytes s then s else receiveBytes p bytes s)

/-- A gap of more than 0.2 ms abandons the frame in progress, if there is one (R162). -/
def abandonFrame (p : Port) (s : State) : State :=
  match receiver p s with
  | .hunt => s
  | .inFrame _ =>
    setCounts (fun c => c.atPort p (fun k => { k with truncated := bump16 k.truncated })) (setReceiver p .hunt s)

/-- BYTE_GAP_TIMEOUT (R162). -/
def execByteGapTimeout (p : Port) (bytes : List Byte) (s : State) : Host.Outcome State Fault Refusal :=
  .next (if completesFrame p bytes s then s else abandonFrame p (receiveBytes p bytes s))

/-! ### Requests that name nothing to serve (R173, checks 1 to 4) -/

/-- The outcome of the checks 1 to 4 of R173. -/
inductive UnservedResult where
  /-- Too short: discarded with no reply. -/
  | discarded
  /-- Refused with this reply. -/
  | refused (r : Reply)
  /-- The payload names a unit and an operation. -/
  | served
  deriving DecidableEq, Repr

/-- The checks 1 to 4 of R173 on a REQUEST payload. -/
def unservedResult (p : List Byte) : UnservedResult :=
  match p with
  | unit :: tag :: op :: _ :: _ =>
    if tag = 0 then .refused ⟨unit, 0, .badTag, .none⟩
    else
      match unitOf unit.toNat with
      | none => .refused ⟨unit, tag, .badUnit, .none⟩
      | some u => if 1 ≤ op.toNat ∧ op.toNat ≤ unitOps u then .served else .refused ⟨unit, tag, .badOp, .none⟩
  | _ => .discarded

/-- A REQUEST to 0x00 that names nothing to serve; one that does is another command's (log entry 1). -/
def takeUnserved (p : List Byte) (s : State) : State :=
  match unservedResult p with
  | .discarded => arrive .uplink p.length (fun s => s) s
  | .refused r => arrive .uplink p.length (sendReply r) s
  | .served => s

/-- REQUEST_UNSERVED (R173). -/
def execRequestUnserved (p : List Byte) (s : State) : Host.Outcome State Fault Refusal := .next (takeUnserved p s)

/-! ### The ends of sending (R168, R169) and owed notes (R138) -/

/-- NODE_SEND_DONE (R168). -/
def execNodeSendDone (s : State) : Host.Outcome State Fault Refusal := .next (s.withDown s.down.sendDone)

/-- UPLINK_SEND_DONE (R169). -/
def execUplinkSendDone (s : State) : Host.Outcome State Fault Refusal := .next (s.withUp s.up.sendDone)

/-- The node owes a LIMIT note and is UP. -/
def owesNote (s : State) (n : NodeIx) : Bool :=
  let k := s.roster.nodes.get n
  decide (k.state = .up) && k.noteOwed

/-- The lowest UP node with a note owed gets its note when the queue has room (R138). -/
def sendOwedNote (s : State) : State :=
  if s.down.hasRoom then
    match (List.finRange 32).find? (owesNote s) with
    | none => s
    | some n => sendLimitNote n s
  else s

/-- LIMIT_NOTE_OWED_SENT (R138). -/
def execLimitNoteOwedSent (s : State) : Host.Outcome State Fault Refusal := .next (sendOwedNote s)

end Sys2Proof.Machine
end

