-- ==== Sys2Proof/Machine/Links.lean ====
section
/-! DEFINITION. The event link table: scans, reports of ended shed requests, and the LINKS unit (R90, R98, R101 to R103). -/

namespace Sys2Proof.Machine

/-! ### Scans (R88, R90) -/

/-- The first arrival for which `p` holds, and the others. -/
def takeFirst (p : Arrival → Bool) : List Arrival → Option (Arrival × List Arrival)
  | [] => none
  | a :: rest => if p a then some (a, rest) else (takeFirst p rest).map (fun r => (r.1, a :: r.2))

/-- The arrival taken next: the oldest of the preferred poster, otherwise the oldest (R88; log entry 16). -/
def nextArrival (prefer : Option EventSource) (as : List Arrival) : Option (Arrival × List Arrival) :=
  match prefer with
  | none => takeFirst (fun _ => true) as
  | some src =>
    match takeFirst (fun a => a.source == src) as with
    | some r => some r
    | none => takeFirst (fun _ => true) as

/-- The table takes the next event: outcome events of the chain in hand before all others (R90). -/
def takeNextEvent (prefer : Option EventSource) (s : State) : State :=
  match s.links.chain with
  | _ :: _ => scanChain s
  | [] =>
    match nextArrival prefer s.links.arrivals with
    | none => s
    | some (a, rest) => takeEvent a.event (s.withLinks { s.links with arrivals := rest })

/-- EVENT_SCAN (R90). -/
def execEventScan (prefer : Option EventSource) (s : State) : Host.Outcome State Fault Refusal :=
  .next (takeNextEvent prefer s)

/-! ### Reports (R98) -/

/-- The re-arm step of a report (R98). -/
def Link.rearmed (k : Link) (placed : Bool) : Link :=
  if !placed && decide (k.mode = .once) then { k with armed := true } else k

/-- The table takes the oldest waiting report, between two chains (R98). -/
def takeReport (s : State) : State :=
  match s.links.chain, s.links.reports with
  | [], r :: rest =>
    let s := s.withLinks { s.links with reports := rest }
    postAt .report ⟨outcomeId r.link r.done, r.depth⟩ (modifyLink r.link (fun k => k.rearmed r.placed) s)
  | [], [] => s
  | _ :: _, _ => s

/-- SHED_REPORT (R98). -/
def execShedReport (s : State) : Host.Outcome State Fault Refusal := .next (takeReport s)

/-! ### The LINKS unit (R101 to R103). A request is taken after the whole chain in hand (R90; log entry 5). -/

/-- SET_LINK: the whole link is written with its running state reset (R102). -/
def execSetLink (r : Request) (s : State) : Host.Outcome State Fault Refusal :=
  .next (serve .links r Args.setLink
    (fun a s => answerOk .links r .none (modifyLink a.1 (fun _ => a.2) s)) (finishChain s))

/-- READ_LINK (R103). -/
def execReadLink (r : Request) (s : State) : Host.Outcome State Fault Refusal :=
  .next (serve .links r Args.link
    (fun l s => answerRead .links r (.link (s.links.links.get l)) s) (finishChain s))

/-- REARM (R103). -/
def execRearm (r : Request) (s : State) : Host.Outcome State Fault Refusal :=
  .next (serve .links r Args.link
    (fun l s => answerOk .links r .none (modifyLink l (fun k => { k with armed := true }) s)) (finishChain s))

end Sys2Proof.Machine
end

