-- ==== Sys2Proof/Machine/MapUnit.lean ====
section
/-! DEFINITION. The MAP unit: its four operations and the steps of its two long ones (R13 to R20). -/

namespace Sys2Proof.Machine

/-- The request in execution of the MAP unit replaced (R13). -/
def setMapJob (j : Option MapJob) (s : State) : State := s.withMgmt { s.mgmt with mapJob := j }

/-! ### READ_ENTRIES and SET_OUTLET -/

/-- So many entries from a map index on (R14). -/
def entriesFrom (i : OutletIx) (count : Nat) (s : State) : List Outlet := (s.map.entries.rows.drop i.val).take count

/-- READ_ENTRIES (R14). -/
def execReadEntries (r : Request) (s : State) : Host.Outcome State Fault Refusal :=
  .next (serve .map r Args.readEntries (fun a s => answerRead .map r (.entries (entriesFrom a.1 a.2 s)) s) s)

/-- SET_OUTLET (R18). -/
def execSetOutlet (r : Request) (s : State) : Host.Outcome State Fault Refusal :=
  .next (serve .map r Args.setOutlet
    (fun a s => answerOk .map r .none (modifyOutlet a.1 (fun e => { e with profile := a.2.1, rank := a.2.2 }) s)) s)

/-! ### ASSIGN (R15 to R17) -/

/-- The status of an ASSIGN that did not stop (R17). -/
def assignStatus (staged superseded : Nat) : Status :=
  if 0 < superseded then .superseded else if 0 < staged then .staged else .applied

/-- The counts of an ASSIGN after one more entry: applied, staged, superseded (R17). -/
def countEntry (res : EntryResult) (c : Nat × Nat × Nat) : Nat × Nat × Nat :=
  match res with
  | .stopped => c
  | .applied => (c.1 + 1, c.2.1, c.2.2)
  | .staged => (c.1, c.2.1 + 1, c.2.2)
  | .superseded => (c.1, c.2.1, c.2.2 + 1)

/-- The answer of an ASSIGN that has ended: stopped at a FREE tenant, or with all its entries handled (R17). -/
def answerAssign (tag : Byte) (ack stopped : Bool) (c : Nat × Nat × Nat) (s : State) : State :=
  answer .map tag ack (if stopped then .notFound else assignStatus c.2.1 c.2.2) (.assigned c.1 c.2.1 c.2.2) s

/-- ASSIGN handles entry `i` and ends, or goes on to the next entry (R16, R17). -/
def assignStep (tag : Byte) (ack : Bool) (m : Membership) (i : OutletIx) (left : Nat) (c : Nat × Nat × Nat)
    (s : State) : State :=
  let res := assignResult i m s
  let c := countEntry res c
  let s := assignAt i m s
  if res = .stopped ∨ left ≤ 1 then answerAssign tag ack (res == .stopped) c (setMapJob none s)
  else setMapJob (some (.assign tag ack m (i + 1) (left - 1) c.1 c.2.1 c.2.2)) s

/-- ASSIGN is accepted: a single entry is handled at once, a longer run becomes a long operation (Table 1.2, R13). -/
def takeAssign (r : Request) (a : OutletIx × Nat × Membership) (s : State) : State :=
  if a.2.1 = 1 then assignStep r.tag (ackWanted r) a.2.2 a.1 1 (0, 0, 0) s
  else setMapJob (some (.assign r.tag (ackWanted r) a.2.2 a.1 a.2.1 0 0 0)) s

/-- ASSIGN (R15, R16). -/
def execAssign (r : Request) (s : State) : Host.Outcome State Fault Refusal :=
  .next (serve .map r Args.assign (takeAssign r) s)

/-- ASSIGN_ENTRY (R16); without a long ASSIGN in execution nothing is handled (log entry 1). -/
def execAssignEntry (s : State) : Host.Outcome State Fault Refusal :=
  .next (match s.mgmt.mapJob with
    | some (.assign tag ack m i left a st su) => assignStep tag ack m i left (a, st, su) s
    | some (.alterFlags ..) => s
    | none => s)

/-! ### ALTER_FLAGS (R19, R20) -/

/-- The operation changes the six flags of the entry (R20). -/
def flagsChange (i : OutletIx) (op : FlagOp) (mask : BitVec 6) (s : State) : Bool :=
  let f := (s.map.entries.get i).flags
  op.combine f mask != f

/-- ALTER_FLAGS handles entry `i` and ends, or goes on to the next entry (R19, R20). -/
def alterStep (tag : Byte) (ack : Bool) (op : FlagOp) (mask : BitVec 6) (i : OutletIx) (left changed : Nat)
    (s : State) : State :=
  let changed := if flagsChange i op mask s then changed + 1 else changed
  let s := alterFlagsAt i op mask s
  if left ≤ 1 then answer .map tag ack .ok (.changed changed) (setMapJob none s)
  else setMapJob (some (.alterFlags tag ack op mask (i + 1) (left - 1) changed)) s

/-- ALTER_FLAGS: a long operation whatever its count (R19). -/
def execAlterFlags (r : Request) (s : State) : Host.Outcome State Fault Refusal :=
  .next (serve .map r Args.alterFlags
    (fun a s => setMapJob (some (.alterFlags r.tag (ackWanted r) a.2.2.2 a.2.2.1 a.1 a.2.1 0)) s) s)

/-- ALTER_FLAGS_ENTRY (R19, R20); without a long ALTER_FLAGS in execution nothing is handled (log entry 1). -/
def execAlterFlagsEntry (s : State) : Host.Outcome State Fault Refusal :=
  .next (match s.mgmt.mapJob with
    | some (.alterFlags tag ack op mask i left changed) => alterStep tag ack op mask i left changed s
    | some (.assign ..) => s
    | none => s)

end Sys2Proof.Machine
end

