-- ==== Sys2Proof/Machine/NodeFrames.lean ====
section
/-! DEFINITION. Good frames on the node port: READINGS with the sequence check, forwarding and intake, JOIN, ORDER_DONE
and THROUGH (R23 to R34, R110, R129 to R132, R165, R166). -/

namespace Sys2Proof.Machine

/-! ### The sequence check (R132) -/

/-- The cases of Table 7.3. -/
inductive SeqDecision where
  /-- No last sequence: accepted. -/
  | first
  | duplicate
  /-- The next sequence: accepted. -/
  | next
  /-- Accepted, with so many sequences missed. -/
  | gap (missed : Nat)
  | outOfOrder
  deriving DecidableEq, Repr

/-- The case of a frame with sequence `q` against the last sequence (Table 7.3). -/
def sequenceDecision (last : Option Byte) (q : Byte) : SeqDecision :=
  match last with
  | none => .first
  | some l =>
    let d := (q - l).toNat
    if d = 0 then .duplicate
    else if d = 1 then .next
    else if d ≤ 127 then .gap (d - 1)
    else .outOfOrder

/-- The frame is accepted. -/
def SeqDecision.accepts : SeqDecision → Bool
  | .first => true
  | .duplicate => false
  | .next => true
  | .gap _ => true
  | .outOfOrder => false

/-- The node record after the sequence check (Table 7.3, R139). -/
def Node.judged (k : Node) (q : Byte) : Node :=
  match sequenceDecision k.lastSeq q with
  | .first => { k with lastSeq := some q, accepted := bump16 k.accepted }
  | .duplicate => { k with duplicates := bump16 k.duplicates }
  | .next => { k with lastSeq := some q, accepted := bump16 k.accepted }
  | .gap m => { k with lastSeq := some q, accepted := bump16 k.accepted, gaps := satAdd 65535 k.gaps m }
  | .outOfOrder => { k with outOfOrder := bump16 k.outOfOrder }

/-- The decision on a frame of node `n` with sequence `q`. -/
def decisionAt (n : NodeIx) (q : Byte) (s : State) : SeqDecision :=
  sequenceDecision (s.roster.nodes.get n).lastSeq q

/-- The sequence check of a READINGS frame: the record, then the GAP event (R132). -/
def sequenceCheck (n : NodeIx) (q : Byte) (s : State) : State :=
  let s' := modifyNode n (fun k => k.judged q) s
  match decisionAt n q s with
  | .gap _ => post .roster (nodeEvent n 3) s'
  | .first => s'
  | .duplicate => s'
  | .next => s'
  | .outOfOrder => s'

/-! ### The payload of a READINGS frame (R25) and its forwarding (R165, R166) -/

/-- The entries of a READINGS payload after its first three bytes: outlet number and scaled reading. -/
def entriesOf : List Byte → List (Byte × Nat)
  | o :: h :: l :: rest => (o, beNat [h, l]) :: entriesOf rest
  | _ => []

/-- The shape check of R25. -/
def readingsShape (p : List Byte) : Bool :=
  decide (1 ≤ fieldAt p 2 1 ∧ fieldAt p 2 1 ≤ 48 ∧ p.length = 3 + 3 * fieldAt p 2 1)

/-- The tag of an entry: the effective tenant of the outlet it names, 0 where it names none (R166). -/
def tagOf (n : NodeIx) (o : Byte) (s : State) : Byte :=
  match outletOf o.toNat with
  | none => 0
  | some o => tenantByte (s.map.entries.get (mapIndex n o)).effective.tenant

/-- The payload of the tagged copy (R166); a payload that cannot be tagged is unchanged. -/
def taggedPayload (n : NodeIx) (p : List Byte) (s : State) : List Byte :=
  if readingsShape p then
    p.take 3 ++ (entriesOf (p.drop 3)).flatMap (fun e => [e.1] ++ beBytes 2 e.2 ++ [tagOf n e.1 s])
  else p

/-- A READINGS frame is handed to the forwarding path (R165). -/
def forwardReadings (n : NodeIx) (f : NodeFrame) (s : State) : State :=
  match s.ports.forward with
  | .plain => joinTransit (Frame.make kindReadings f.addr f.seq f.payload) s
  | .tagged => joinTransit (Frame.make kindReadings f.addr f.seq (taggedPayload n f.payload s)) s
  | .absorb => s

/-! ### Intake (R23 to R34) -/

/-- A CONVERSION notice is queued when the update has newly set a flag on an outlet with NOTIFY set; `old` is the
entry before the update (R34). -/
def conversionNotice (i : OutletIx) (old : Outlet) (flag : Option ConvFlag) (s : State) : State :=
  match flag with
  | none => s
  | some c => if newlySet old.flags c && old.notify then queueNotice (.conversion i c) s else s

/-- Intake takes one valid entry of an outlet: conversion, map update, notice (R24, R29, R34). -/
def convertEntry (i : OutletIx) (code : Nat) (s : State) : State :=
  let old := s.map.entries.get i
  let u := (s.profiles.get old.profile).updateOf code
  conversionNotice i old u.2 (updateReading i u.1 u.2 s)

/-- Intake takes one entry of a frame from a node with the given fitted count (R26). -/
def intakeEntry (n : NodeIx) (fitted : Nat) (s : State) (e : Byte × Nat) : State :=
  match outletOf e.1.toNat with
  | none => countBadEntry n s
  | some o => if fitted < o.val + 1 then countBadEntry n s else convertEntry (mapIndex n o) e.2 s

/-- Intake takes an accepted frame whole (R23, R24, R25). -/
def intake (n : NodeIx) (p : List Byte) (s : State) : State :=
  if s.mgmt.opState = .transparent then s
  else if readingsShape p then (entriesOf (p.drop 3)).foldl (intakeEntry n (s.roster.nodes.get n).fitted) s
  else countBadEntry n s

/-! ### The frames -/

/-- A JOIN or READINGS from an enabled node that is not UP brings it UP first (R129, R130). -/
def raiseNode (n : NodeIx) (s : State) : State :=
  if (s.roster.nodes.get n).state = .up then s else bringUp n s

/-- The roster takes a READINGS frame of an enabled node (R129, R130, R132). -/
def takeReadings (f : NodeFrame) (n : NodeIx) (s : State) : State :=
  let s := raiseNode n s
  let s' := forwardReadings n f (sequenceCheck n f.seq s)
  if (decisionAt n f.seq s).accepts then intake n f.payload s' else s'

/-- The fitted outlet count of a well-formed JOIN payload (R131). -/
def joinCount : List Byte → Option Nat
  | [c] => (outletOf c.toNat).map (fun o => o.val + 1)
  | _ => none

/-- The roster takes a JOIN frame of an enabled node (R129, R130, R131). -/
def takeJoin (f : NodeFrame) (n : NodeIx) (s : State) : State :=
  let wasUp := (s.roster.nodes.get n).state = .up
  let s := raiseNode n s
  let s :=
    match joinCount f.payload with
    | none => countBadEntry n s
    | some c =>
      let s := modifyNode n (fun k => { k with fitted := c, lastSeq := none }) s
      if wasUp then sendLimitNote n s else s
  joinTransit (Frame.make kindJoin f.addr f.seq f.payload) s

/-- The ending that the result and relay state codes of an ORDER_DONE give (R110, Table 9.5). -/
def endingOf (result relay : Byte) : Option Ending := do
  let on ← boolOf relay.toNat
  match result.toNat with
  | 0 => some (.done on)
  | 1 => some (.refused on)
  | 2 => some (.fault on)
  | _ => none

/-- The ORDER_DONE payload names the order (R110). -/
def Order.answers (o : Order) (n : NodeIx) (number outlet : Byte) : Bool :=
  o.number == number && nodeOfOutlet o.outlet == n && outletByte o.outlet == outlet

/-- An ORDER_DONE with valid codes is matched (R110). -/
def matchOrder (n : NodeIx) (number outlet : Byte) (e : Ending) (s : State) : State :=
  match s.orders.orders.find? (fun o => o.answers n number outlet) with
  | none => modifyNode n (fun k => { k with lateCompletions := bump16 k.lateCompletions }) s
  | some o => endOrder o e s

/-- The order table takes an ORDER_DONE of an enabled node (R110). -/
def takeOrderDone (f : NodeFrame) (n : NodeIx) (s : State) : State :=
  match f.payload with
  | [number, outlet, result, relay] =>
    match endingOf result relay with
    | none => countBadEntry n s
    | some e => matchOrder n number outlet e s
  | _ => countBadEntry n s

/-- The roster hands on a THROUGH frame of an enabled node (R129, R165). -/
def takeThrough (f : NodeFrame) (_ : NodeIx) (s : State) : State :=
  joinTransit (Frame.make kindThrough f.addr f.seq f.payload) s

/-! ### Meanings -/

/-- NODE_READINGS (R129, R132). -/
def execNodeReadings (f : NodeFrame) (s : State) : Host.Outcome State Fault Refusal :=
  .next (nodePortFrame f (takeReadings f) s)

/-- NODE_JOIN (R129, R131). -/
def execNodeJoin (f : NodeFrame) (s : State) : Host.Outcome State Fault Refusal :=
  .next (nodePortFrame f (takeJoin f) s)

/-- NODE_ORDER_DONE (R129, R110). -/
def execNodeOrderDone (f : NodeFrame) (s : State) : Host.Outcome State Fault Refusal :=
  .next (nodePortFrame f (takeOrderDone f) s)

/-- NODE_THROUGH (R129, R165). -/
def execNodeThrough (f : NodeFrame) (s : State) : Host.Outcome State Fault Refusal :=
  .next (nodePortFrame f (takeThrough f) s)

end Sys2Proof.Machine
end

