-- ==== Sys2Proof/Machine/RecordUnit.lean ====
section
/-! DEFINITION. The RECORD unit (R155 to R159). -/

namespace Sys2Proof.Machine

/-- CLOSE after its argument check (R156). -/
def takeClose (r : Request) (s : State) : State :=
  if s.review.closePending then
    answer .record r.tag true .alreadyPending (.closeNumber s.review.closeNumber) s
  else
    let s := startClose s
    answerOk .record r (.closeNumber s.review.closeNumber) s

/-- CLOSE (R156). -/
def execClose (r : Request) (s : State) : Host.Outcome State Fault Refusal :=
  .next (serve .record r Args.nothing (fun _ s => takeClose r s) s)

/-- The EXPORT waiting for a place replaced (R157). -/
def setExportJob (j : Option ExportJob) (s : State) : State := s.withMgmt { s.mgmt with exportJob := j }

/-- The TRANSFER record is built from the tenant as it stands and placed, and the request ends OK (R157, R158). -/
def placeExport (tag : Byte) (ack : Bool) (t : Slot) (s : State) : State :=
  let k := s.tenants.get t
  answer .record tag ack .ok (.slotPeriod t k.periodNumber)
    (placeRecord (.transfer (k.transferRecord t s.time.rowTime)) s)

/-- EXPORT after its argument check (R157). -/
def takeExport (r : Request) (t : Slot) (s : State) : State :=
  if (s.tenants.get t).state = .free then refuse .record r .wrongState s
  else if recordRoom s then placeExport r.tag (ackWanted r) t s
  else setExportJob (some ⟨r.tag, ackWanted r, t⟩) s

/-- EXPORT (R157). -/
def execExport (r : Request) (s : State) : Host.Outcome State Fault Refusal :=
  .next (serve .record r Args.slot (takeExport r) s)

/-- A waiting EXPORT takes a freed place, or ends WRONG_STATE when its slot has become FREE (R157). -/
def resumeExport (j : ExportJob) (s : State) : State :=
  let s := setExportJob none s
  if (s.tenants.get j.slot).state = .free then answer .record j.tag true .wrongState .none s
  else placeExport j.tag j.ack j.slot s

/-- EXPORT_RESUME (R157); without a waiting EXPORT or a place nothing happens (log entry 1). -/
def execExportResume (s : State) : Host.Outcome State Fault Refusal :=
  .next (match s.mgmt.exportJob with
    | none => s
    | some j => if recordRoom s then resumeExport j s else s)

/-- IMPORT after its argument check (R159). -/
def takeImport (r : Request) (a : Slot × TransferRecord) (s : State) : State :=
  if (s.tenants.get a.1).state = .free then
    answerOk .record r (.slotPeriod a.1 a.2.periodNumber)
      (s.withTenants (s.tenants.set a.1 (a.2.tenant s.review.closeNumber s.time.rowTime)))
  else refuse .record r .wrongState s

/-- IMPORT (R159). -/
def execImport (r : Request) (s : State) : Host.Outcome State Fault Refusal :=
  .next (serve .record r Args.importRecord (takeImport r) s)

end Sys2Proof.Machine
end

