-- ==== Sys2Proof/Machine/RosterUnit.lean ====
section
/-! DEFINITION. The ROSTER unit (R135, R136, R140 to R143). -/

namespace Sys2Proof.Machine

/-- A node is disabled; nothing changes for a DISABLED one (R135). -/
def disableNode (n : NodeIx) (s : State) : State :=
  if (s.roster.nodes.get n).state = .disabled then s else leaveNode n .disabled 2 s

/-- A node is enabled; nothing changes for an enabled one (R136). -/
def enableNode (n : NodeIx) (s : State) : State :=
  if (s.roster.nodes.get n).state = .disabled then modifyNode n (fun k => { k with state := .absent }) s else s

/-- SET_NODE after its argument check (R140). -/
def takeSetNode (r : Request) (a : NodeIx × Bool) (s : State) : State :=
  answerOk .roster r .none (if a.2 then enableNode a.1 s else disableNode a.1 s)

/-- SET_NODE_DISABLE: SET_NODE, of which this row is the form with enabled no (R135). -/
def execSetNodeDisable (r : Request) (s : State) : Host.Outcome State Fault Refusal :=
  .next (serve .roster r Args.setNode (takeSetNode r) s)

/-- SET_NODE_ENABLE: SET_NODE, of which this row is the form with enabled yes (R136). -/
def execSetNodeEnable (r : Request) (s : State) : Host.Outcome State Fault Refusal :=
  .next (serve .roster r Args.setNode (takeSetNode r) s)

/-- The limit is stored, and sent or owed for an UP node (R142). -/
def writeLimit (n : NodeIx) (c : Capacity) (s : State) : State :=
  let s' := modifyNode n (fun k => { k with limit := c }) s
  if (s.roster.nodes.get n).state = .up then sendLimitNote n s' else s'

/-- SET_LIMIT (R142). -/
def execSetLimit (r : Request) (s : State) : Host.Outcome State Fault Refusal :=
  .next (serve .roster r Args.setLimit (fun a s => answerOk .roster r .none (writeLimit a.1 a.2 s)) s)

/-- The record with its six counts at 0 (R143, R144). -/
def Node.countsCleared (k : Node) : Node :=
  { k with accepted := 0, gaps := 0, duplicates := 0, outOfOrder := 0, badEntries := 0, lateCompletions := 0 }

/-- READ_NODE after its argument check: the counts are cleared after they have been read (R143). -/
def takeReadNode (r : Request) (a : NodeIx × Bool) (s : State) : State :=
  answerRead .roster r (.node (s.roster.nodes.get a.1)) (if a.2 then modifyNode a.1 Node.countsCleared s else s)

/-- READ_NODE (R143). -/
def execReadNode (r : Request) (s : State) : Host.Outcome State Fault Refusal :=
  .next (serve .roster r Args.readNode (takeReadNode r) s)

/-- READ_STATES (R143). -/
def execReadStates (r : Request) (s : State) : Host.Outcome State Fault Refusal :=
  .next (serve .roster r Args.nothing
    (fun _ s => answerRead .roster r (.states (s.roster.nodes.rows.map (fun k => (k.state, k.noteOwed)))) s) s)

end Sys2Proof.Machine
end

