-- ==== Sys2Proof/Machine/Reset.lean ====
section
/-! DEFINITION. Cold reset, warm restart and unit reset (R21, R22, R61, R83, R104, R126, R127, R144, R160, R172,
R180 to R182). -/

namespace Sys2Proof.Machine

/-! ### Cold reset -/

/-- Every table, queue, count and state takes its cold-reset value (R182); the model's own queue of commands and its
counter of free values are kept (log entry 20). -/
def coldReset (s : State) : State :=
  { State.reset with pending := s.pending, up := { State.reset.up with freeCount := s.up.freeCount } }

/-- COLD_RESET (R182). -/
def execColdReset (s : State) : Host.Outcome State Fault Refusal := .next (coldReset s)

/-! ### Warm restart (R180): its steps in their order -/

/-- Step 1: every busy unit is freed without reply, and the reply and notice queues are emptied. -/
def restartUnits (s : State) : State :=
  (s.withMgmt { s.mgmt with mapJob := none, switchJob := none, exportJob := none }).withUp
    { s.up with replies := [], notices := [] }

/-- Step 2: a pass in flight ends at once (R83). -/
def restartReview (s : State) : State :=
  s.withReview { s.review with pass := .idle, position := 0, walked := false, closing := false }

/-- The running state of a link reset as by SET_LINK (R104). -/
def Link.restarted (k : Link) : Link :=
  { k with armed := true, lastCondition := false, guardSet := false, fireCount := 0 }

/-- Step 4: the search is abandoned, the shed request queue emptied, every link's running state reset (R104, R126). -/
def restartLinks (s : State) : State :=
  (s.withOrders { s.orders with search := none }).withLinks
    { s.links with links := s.links.links.map Link.restarted, shedQueue := [] }

/-- The tenant without the unconfirmed entries of its stack (R61, R126). -/
def Tenant.dropUnconfirmed (k : Tenant) : Tenant := { k with stack := k.stack.filter (·.confirmed) }

/-- Step 5: every outstanding order ends ABANDONED, with no report, and the unconfirmed entries leave the stacks
(R126). -/
def restartOrders (s : State) : State :=
  let s := s.withTenants (s.tenants.map Tenant.dropUnconfirmed)
  let s := s.orders.orders.foldl (fun s o => writeStatus o.outlet .unknown .unknown s) s
  s.withOrders { s.orders with orders := [] }

/-- The tenant after the zeroing of readings (R22, R61). -/
def Tenant.readingsZeroed (k : Tenant) : Tenant :=
  if k.state = .free then k else { k with draw := ⟨0, 0⟩, stale := k.members.a + k.members.b }

/-- Step 6: readings and freshness are cleared and the tenant table told the result (R22, R61). -/
def restartReadings (s : State) : State :=
  (s.withMap { s.map with entries := s.map.entries.map (fun e => { e with reading := 0, fresh := false }) }).withTenants
    (s.tenants.map Tenant.readingsZeroed)

/-- A node record after a warm restart (R144). -/
def Node.restarted (k : Node) : Node :=
  { k.countsCleared with
    state := if k.state = .disabled then .disabled else .absent, lastSeq := none, noteOwed := false }

/-- Step 7: the roster's part (R144). -/
def restartRoster (s : State) : State := s.withRoster { s.roster with nodes := s.roster.nodes.map Node.restarted }

/-- Step 8: the link interface's part (R172). -/
def restartPorts (s : State) : State :=
  ((s.withUp { s.up with transit := [] }).withDown { s.down with queue := [] }).withPorts
    { s.ports with counts := .zero }

/-- Step 9: the state becomes HOLD. -/
def restartState (s : State) : State := s.withMgmt { s.mgmt with opState := .hold }

/-- A warm restart, whole (R180); step 3 applies every pending change (R22). -/
def warmRestart (s : State) : State :=
  restartState (restartPorts (restartRoster (restartReadings (restartOrders (restartLinks
    (applyAllPending (restartReview (restartUnits s))))))))

/-- RESTART (R180). -/
def execRestart (r : Request) (s : State) : Host.Outcome State Fault Refusal :=
  .next (serve .control r Args.nothing (fun _ s => answerOk .control r .none (warmRestart s)) s)

/-! ### Unit reset (R181) -/

/-- A MANAGEMENT origin whose answer is no longer owed (R127). -/
def RequestOrigin.disowned : RequestOrigin → RequestOrigin
  | .link l d => .link l d
  | .management tag _ => .management tag false

/-- An order's origin with its answer no longer owed (R127). -/
def OrderOrigin.disowned : OrderOrigin → OrderOrigin
  | .management tag _ => .management tag false
  | .shed t o => .shed t o.disowned
  | .restore t o => .restore t o.disowned

/-- The work of a SWITCH request goes on with no answer owed (R127). -/
def disownSwitch (s : State) : State :=
  (s.withOrders { s.orders with
    orders := s.orders.orders.map (fun o => { o with origin := o.origin.disowned })
    search := s.orders.search.map (fun q => { q with origin := q.origin.disowned }) }).withLinks
    { s.links with shedQueue := s.links.shedQueue.map (fun q => { q with origin := q.origin.disowned }) }

/-- The request in execution of a unit is abandoned without reply (R21, R127, R160). -/
def abandonUnit (u : RequestUnit) (s : State) : State :=
  match u with
  | .map => s.withMgmt { s.mgmt with mapJob := none }
  | .switch => disownSwitch (s.withMgmt { s.mgmt with switchJob := none })
  | .record => s.withMgmt { s.mgmt with exportJob := none }
  | .control => s
  | .tenant => s
  | .links => s
  | .roster => s
  | .calib => s

/-- RESET_UNIT: the request in execution is abandoned and the tag becomes 0 (R181). -/
def execResetUnit (r : Request) (s : State) : Host.Outcome State Fault Refusal :=
  .next (serve .control r Args.resetUnit
    (fun u s => answerOk .control r .none (setTag u 0 (abandonUnit u s))) s)

end Sys2Proof.Machine
end

