-- ==== Sys2Proof/Machine/ReviewPass.lean ====
section
/-! DEFINITION. The steps of a review pass: visits, the repeated visit of a waiting pass, the pass end (R68 to R81). -/

namespace Sys2Proof.Machine

/-- The pass takes its visits and has not walked past slot 128. -/
def visitDue (s : State) : Bool := decide (s.review.pass = .visiting) && !s.review.walked

/-- REVIEW_VISIT (R68, R70); when no visit is due nothing is visited (log entry 1). -/
def execReviewVisit (s : State) : Host.Outcome State Fault Refusal :=
  .next (if visitDue s then visitSlot s.review.position s else s)

/-- The waiting pass goes on and the tenant is visited again (R80). -/
def retryVisit (s : State) : State :=
  visitSlot s.review.position (s.withReview { s.review with pass := .visiting })

/-- The pass waits, and a place of the record buffer is free or has become free since it began to wait. The place may have
been taken by an EXPORT meanwhile: the tenant is visited again all the same, and the visit waits again (R80, R152; log
entry 32). -/
def retryDue (s : State) : Bool := decide (s.review.pass = .waiting) && (recordRoom s || s.up.recordFreed)

/-- VISIT_RETRY (R80). -/
def execVisitRetry (s : State) : Host.Outcome State Fault Refusal :=
  .next (if retryDue s then retryVisit s else s)

/-- The position would pass 128. -/
def passEndDue (s : State) : Bool := decide (s.review.pass = .visiting) && s.review.walked

/-- PASS_END (R81). -/
def execPassEnd (s : State) : Host.Outcome State Fault Refusal := .next (if passEndDue s then endPass s else s)

end Sys2Proof.Machine
end

