-- ==== Sys2Proof/Machine/Shed.lean ====
section
/-! DEFINITION. The shed engine and the SWITCH unit (R115 to R118, R120, R123 to R125). -/

namespace Sys2Proof.Machine

/-! ### The shed engine -/

/-- The shed search replaced. -/
def setSearch (q : Option Search) (s : State) : State := s.withOrders { s.orders with search := q }

/-- The tenant's stack holds 16 entries. -/
def Tenant.stackFull (t : Tenant) : Bool := decide (Config.stackDepth ≤ t.stack.length)

/-- The check of a SHED request as the engine takes it: the reason of the first failure (R116). -/
def shedRefusal (t : Slot) (s : State) : Option Status :=
  let k := s.tenants.get t
  if k.state = .free then some .notFound else if k.stackFull then some .stackFull else none

/-- A SHED request is checked and its search started (R116). -/
def takeShed (t : Slot) (origin : RequestOrigin) (s : State) : State :=
  match shedRefusal t s with
  | some reason => failShedRequest .shed t origin reason s
  | none => setSearch (some { tenant := t, origin, position := 0, best := none }) s

/-- The outlet a RESTORE request switches on, or the reason of the first failing check, placing included (R120). -/
def restoreTarget (t : Slot) (s : State) : Except Status OutletIx :=
  let k := s.tenants.get t
  if k.state = .free then .error .notFound
  else
    match k.stack.getLast? with
    | none => .error .notFound
    | some top =>
      if !top.confirmed then .error .busy
      else
        match placeRefusal top.outlet s with
        | some reason => .error reason
        | none => .ok top.outlet

/-- A RESTORE order is placed, the top entry popped and its outlet's relay status set to OFF (R120). -/
def placeRestore (t : Slot) (origin : RequestOrigin) (i : OutletIx) (s : State) : State :=
  modifyOutlet i (fun e => { e with relay := .off })
    (modifyTenant t (fun k => { k with stack := k.stack.dropLast }) (placeOrder i .on .dark (.restore t origin) s))

/-- A RESTORE request is handled at once (R120). -/
def takeRestore (t : Slot) (origin : RequestOrigin) (s : State) : State :=
  match restoreTarget t s with
  | .error reason => failShedRequest .restore t origin reason s
  | .ok i => placeRestore t origin i s

/-- The idle engine takes the head of the shed request queue (R115). -/
def takeShedRequest (s : State) : State :=
  match s.orders.search, s.links.shedQueue with
  | none, r :: rest =>
    let s := s.withLinks { s.links with shedQueue := rest }
    match r.kind with
    | .shed => takeShed r.tenant r.origin s
    | .restore => takeRestore r.tenant r.origin s
  | none, [] => s
  | some _, _ => s

/-- SHED_REQUEST_TAKE (R115). -/
def execShedRequestTake (s : State) : Host.Outcome State Fault Refusal := .next (takeShedRequest s)

/-- The outlet is a candidate for tenant `t` as its entry stands (R117). -/
def isCandidate (t : Slot) (i : OutletIx) (s : State) : Bool :=
  let e := s.map.entries.get i
  decide (e.effective.memberOf.map (·.1) = some t) && e.switchable && decide (e.relay = .on)
    && decide (1 ≤ e.rank.val) && !hasOrder i s

/-- A candidate of this rank becomes the best candidate (R117). -/
def beats (rank : Fin 16) : Option (OutletIx × Fin 16) → Bool
  | none => true
  | some b => decide (rank.val < b.2.val)

/-- The search after it has read the entry at its position (R117). -/
def Search.step (q : Search) (s : State) : Search :=
  if h : q.position < 1536 then
    let i : OutletIx := ⟨q.position, h⟩
    let rank := (s.map.entries.get i).rank
    { q with
      position := q.position + 1
      best := if isCandidate q.tenant i s && beats rank q.best then some (i, rank) else q.best }
  else q

/-- SHED_SEARCH_STEP (R117). -/
def execShedSearchStep (s : State) : Host.Outcome State Fault Refusal :=
  .next (match s.orders.search with
    | none => s
    | some q => setSearch (some (q.step s)) s)

/-- The outlet a search sheds, or the reason of the first failing check, placing included (R118, 1 to 4). -/
def shedTarget (q : Search) (s : State) : Except Status OutletIx :=
  let k := s.tenants.get q.tenant
  if k.state = .free then .error .notFound
  else
    match q.best with
    | none => .error .notFound
    | some (i, _) =>
      if !isCandidate q.tenant i s then .error .notFound
      else if k.stackFull then .error .stackFull
      else
        match placeRefusal i s with
        | some reason => .error reason
        | none => .ok i

/-- A SHED order is placed and its outlet pushed unconfirmed (R118, 4 and 5). -/
def placeShed (t : Slot) (origin : RequestOrigin) (i : OutletIx) (s : State) : State :=
  modifyTenant t (fun k => { k with stack := k.stack ++ [⟨i, false⟩] }) (placeOrder i .off .blink (.shed t origin) s)

/-- The walk has read index 1535: the search ends (R118). -/
def endSearch (q : Search) (s : State) : State :=
  match shedTarget q s with
  | .error reason => failShedRequest .shed q.tenant q.origin reason (setSearch none s)
  | .ok i => placeShed q.tenant q.origin i (setSearch none s)

/-- SHED_SEARCH_END (R118); before the walk is over nothing ends (log entry 1). -/
def execShedSearchEnd (s : State) : Host.Outcome State Fault Refusal :=
  .next (match s.orders.search with
    | none => s
    | some q => if 1536 ≤ q.position then endSearch q s else s)

/-! ### The SWITCH unit -/

/-- The SWITCH unit has accepted a long request (R123). -/
def holdSwitch (r : Request) (s : State) : State :=
  s.withMgmt { s.mgmt with switchJob := some ⟨r.tag, ackWanted r⟩ }

/-- The confirmed entry of an OFF_SHED outlet leaves its tenant's stack and its relay status goes to OFF (R124, 4). -/
def releaseShed (i : OutletIx) (s : State) : State :=
  let s' := modifyOutlet i (fun e => { e with relay := .off }) s
  match (s.map.entries.get i).effective.memberOf with
  | none => s'
  | some (t, _) => modifyTenant t (fun k => { k with stack := removeEntry i k.stack }) s'

/-- The refusal of an ORDER that has actions (R124, 2 and 3). -/
def switchRefusal (i : OutletIx) (relay : RelayAction) (s : State) : Option Status :=
  if (s.map.entries.get i).relay = .offShed ∧ relay ≠ .on then some .inShed else placeRefusal i s

/-- The management order is placed (R124, 3 and 4). -/
def placeSwitch (r : Request) (i : OutletIx) (relay : RelayAction) (indicator : IndicatorAction) (s : State) : State :=
  let shed := (s.map.entries.get i).relay = .offShed
  let s := holdSwitch r (placeOrder i relay indicator (.management r.tag true) s)
  if shed then releaseShed i s else s

/-- ORDER after its argument check (R123, R124). -/
def takeSwitchOrder (r : Request) (a : OutletIx × RelayAction × IndicatorAction) (s : State) : State :=
  let e := s.map.entries.get a.1
  if s.mgmt.opState = .transparent then refuse .switch r .wrongState s
  else if a.2.1 = .noChange ∧ a.2.2 = .noChange then
    answerOk .switch r (.order none e.relay e.indicator) s
  else
    match switchRefusal a.1 a.2.1 s with
    | some reason => refuse .switch r reason s
    | none => placeSwitch r a.1 a.2.1 a.2.2 s

/-- SWITCH_ORDER (R124). -/
def execSwitchOrder (r : Request) (s : State) : Host.Outcome State Fault Refusal :=
  .next (serve .switch r Args.order (takeSwitchOrder r) s)

/-- SHED_TENANT or RESTORE_TENANT after its argument check (R123, R125). -/
def takeSwitchShed (kind : ShedKind) (r : Request) (t : Slot) (s : State) : State :=
  if s.mgmt.opState = .transparent then refuse .switch r .wrongState s
  else if shedRoom s then holdSwitch r (joinShedQueue ⟨kind, t, .management r.tag true⟩ s)
  else refuse .switch r .queueFull s

/-- SHED_TENANT (R125). -/
def execShedTenant (r : Request) (s : State) : Host.Outcome State Fault Refusal :=
  .next (serve .switch r Args.slot (takeSwitchShed .shed r) s)

/-- RESTORE_TENANT (R125). -/
def execRestoreTenant (r : Request) (s : State) : Host.Outcome State Fault Refusal :=
  .next (serve .switch r Args.slot (takeSwitchShed .restore r) s)

end Sys2Proof.Machine
end

