-- ==== Sys2Proof/Machine/TenantUnit.lean ====
section
/-! DEFINITION. The TENANT unit (R50 to R58). -/

namespace Sys2Proof.Machine

/-- The tenant record replaced. -/
def setTenant (t : Slot) (k : Tenant) (s : State) : State := s.withTenants (s.tenants.set t k)

/-- CREATE after its argument check (R51). -/
def takeCreate (r : Request) (a : Slot × Contract) (s : State) : State :=
  if (s.tenants.get a.1).state = .free then
    answerOk .tenant r .none (setTenant a.1 (Tenant.created a.2 s.review.closeNumber s.time.rowTime) s)
  else refuse .tenant r .wrongState s

/-- CREATE (R51). -/
def execCreate (r : Request) (s : State) : Host.Outcome State Fault Refusal :=
  .next (serve .tenant r Args.slotContract (takeCreate r) s)

/-- SET_CONTRACT after its argument check (R52). -/
def takeSetContract (r : Request) (a : Slot × Contract) (s : State) : State :=
  let k := s.tenants.get a.1
  if k.state = .free then refuse .tenant r .wrongState s
  else
    answer .tenant r.tag (ackWanted r) (if k.pendingContract.isSome then .superseded else .staged) .none
      (setTenant a.1 { k with pendingContract := some a.2 } s)

/-- SET_CONTRACT (R52). -/
def execSetContract (r : Request) (s : State) : Host.Outcome State Fault Refusal :=
  .next (serve .tenant r Args.slotContract (takeSetContract r) s)

/-- ACTIVATE after its argument check (R54). -/
def takeActivate (r : Request) (t : Slot) (s : State) : State :=
  let k := s.tenants.get t
  if k.state = .suspended then answerOk .tenant r .none (setTenant t { k with state := .active } s)
  else refuse .tenant r .wrongState s

/-- ACTIVATE (R54). -/
def execActivate (r : Request) (s : State) : Host.Outcome State Fault Refusal :=
  .next (serve .tenant r Args.slot (takeActivate r) s)

/-- The tenant is suspended, with its verdict event when the verdict was other than HELD (R55). -/
def suspendTenant (t : Slot) (s : State) : State :=
  let k := s.tenants.get t
  let s := setTenant t { k with state := .suspended, verdict := .held, streak := 0 } s
  if k.verdict = .held then s else post .tenants (verdictEvent t .held) s

/-- SUSPEND after its argument check (R55). -/
def takeSuspend (r : Request) (t : Slot) (s : State) : State :=
  if (s.tenants.get t).state = .active then answerOk .tenant r .none (suspendTenant t s)
  else refuse .tenant r .wrongState s

/-- SUSPEND (R55). -/
def execSuspend (r : Request) (s : State) : Host.Outcome State Fault Refusal :=
  .next (serve .tenant r Args.slot (takeSuspend r) s)

/-- The tenant may not be removed yet (R56, 2). -/
def Tenant.inUse (k : Tenant) : Bool :=
  decide (0 < k.members.a + k.members.b) || decide (0 < k.pendingIn) || !k.stack.isEmpty

/-- The record is cleared (R56); a pass that waits at the slot goes on past it (R80). -/
def removeTenant (t : Slot) (s : State) : State :=
  let s := setTenant t .cleared s
  if s.review.pass = .waiting ∧ s.review.position = t then
    advance (s.withReview { s.review with pass := .visiting })
  else s

/-- REMOVE after its argument check (R56). -/
def takeRemove (r : Request) (t : Slot) (s : State) : State :=
  let k := s.tenants.get t
  if k.state ≠ .suspended then refuse .tenant r .wrongState s
  else if k.inUse then refuse .tenant r .hasMembers s
  else answerOk .tenant r .none (removeTenant t s)

/-- REMOVE (R56). -/
def execRemove (r : Request) (s : State) : Host.Outcome State Fault Refusal :=
  .next (serve .tenant r Args.slot (takeRemove r) s)

/-- SET_PRESET after its argument check (R57). -/
def takeSetPreset (r : Request) (a : Slot × BitVec 64) (s : State) : State :=
  let k := s.tenants.get a.1
  if k.state = .free then refuse .tenant r .wrongState s
  else answerOk .tenant r .none (setTenant a.1 { k with preset := a.2 } s)

/-- SET_PRESET (R57). -/
def execSetPreset (r : Request) (s : State) : Host.Outcome State Fault Refusal :=
  .next (serve .tenant r Args.setPreset (takeSetPreset r) s)

/-- READ_TENANT (R58). -/
def execReadTenant (r : Request) (s : State) : Host.Outcome State Fault Refusal :=
  .next (serve .tenant r Args.slot (fun t s => answerRead .tenant r (.tenant (s.tenants.get t)) s) s)

end Sys2Proof.Machine
end

