-- ==== Sys2Proof/Machine/Dispatch.lean ====
section
/-! DEFINITION. What each command does: one arm per constructor, each one call of its meaning. -/

namespace Sys2Proof.Machine

/-- The effect of a command on everything but the queue. -/
def exec (i : Instr) (s : State) : Host.Outcome State Fault Refusal :=
  match i with
  | .coldReset => Sys2Proof.Machine.execColdReset s
  | .nodeReadings f => Sys2Proof.Machine.execNodeReadings f s
  | .nodeJoin f => Sys2Proof.Machine.execNodeJoin f s
  | .nodeOrderDone f => Sys2Proof.Machine.execNodeOrderDone f s
  | .nodeThrough f => Sys2Proof.Machine.execNodeThrough f s
  | .passDown kind f => Sys2Proof.Machine.execPassDown kind f s
  | .frameDiscard port kind f => Sys2Proof.Machine.execFrameDiscard port kind f s
  | .frameError port bytes => Sys2Proof.Machine.execFrameError port bytes s
  | .byteGapTimeout port bytes => Sys2Proof.Machine.execByteGapTimeout port bytes s
  | .requestUnserved payload => Sys2Proof.Machine.execRequestUnserved payload s
  | .nodeSendDone => Sys2Proof.Machine.execNodeSendDone s
  | .limitNoteOwedSent => Sys2Proof.Machine.execLimitNoteOwedSent s
  | .uplinkSendDone => Sys2Proof.Machine.execUplinkSendDone s
  | .visitRetry => Sys2Proof.Machine.execVisitRetry s
  | .exportResume => Sys2Proof.Machine.execExportResume s
  | .tickExpiry g => Sys2Proof.Machine.execTickExpiry g s
  | .reviewTick => Sys2Proof.Machine.execReviewTick s
  | .orderTimeout number => Sys2Proof.Machine.execOrderTimeout number s
  | .nodeSilence node => Sys2Proof.Machine.execNodeSilence node s
  | .reviewVisit => Sys2Proof.Machine.execReviewVisit s
  | .passEnd => Sys2Proof.Machine.execPassEnd s
  | .eventScan prefer => Sys2Proof.Machine.execEventScan prefer s
  | .shedReport => Sys2Proof.Machine.execShedReport s
  | .shedRequestTake => Sys2Proof.Machine.execShedRequestTake s
  | .shedSearchStep => Sys2Proof.Machine.execShedSearchStep s
  | .shedSearchEnd => Sys2Proof.Machine.execShedSearchEnd s
  | .assignEntry => Sys2Proof.Machine.execAssignEntry s
  | .alterFlagsEntry => Sys2Proof.Machine.execAlterFlagsEntry s
  | .readEntries r => Sys2Proof.Machine.execReadEntries r s
  | .assign r => Sys2Proof.Machine.execAssign r s
  | .setOutlet r => Sys2Proof.Machine.execSetOutlet r s
  | .alterFlags r => Sys2Proof.Machine.execAlterFlags r s
  | .setProfile r => Sys2Proof.Machine.execSetProfile r s
  | .readProfile r => Sys2Proof.Machine.execReadProfile r s
  | .create r => Sys2Proof.Machine.execCreate r s
  | .setContract r => Sys2Proof.Machine.execSetContract r s
  | .activate r => Sys2Proof.Machine.execActivate r s
  | .suspend r => Sys2Proof.Machine.execSuspend r s
  | .remove r => Sys2Proof.Machine.execRemove r s
  | .setPreset r => Sys2Proof.Machine.execSetPreset r s
  | .readTenant r => Sys2Proof.Machine.execReadTenant r s
  | .setLink r => Sys2Proof.Machine.execSetLink r s
  | .readLink r => Sys2Proof.Machine.execReadLink r s
  | .rearm r => Sys2Proof.Machine.execRearm r s
  | .switchOrder r => Sys2Proof.Machine.execSwitchOrder r s
  | .shedTenant r => Sys2Proof.Machine.execShedTenant r s
  | .restoreTenant r => Sys2Proof.Machine.execRestoreTenant r s
  | .setNodeDisable r => Sys2Proof.Machine.execSetNodeDisable r s
  | .setNodeEnable r => Sys2Proof.Machine.execSetNodeEnable r s
  | .setLimit r => Sys2Proof.Machine.execSetLimit r s
  | .readNode r => Sys2Proof.Machine.execReadNode r s
  | .readStates r => Sys2Proof.Machine.execReadStates r s
  | .close r => Sys2Proof.Machine.execClose r s
  | .exportTenant r => Sys2Proof.Machine.execExport r s
  | .importTenant r => Sys2Proof.Machine.execImport r s
  | .readIdent r => Sys2Proof.Machine.execReadIdent r s
  | .setState r => Sys2Proof.Machine.execSetState r s
  | .setTiming r => Sys2Proof.Machine.execSetTiming r s
  | .setForward r => Sys2Proof.Machine.execSetForward r s
  | .readStatus r => Sys2Proof.Machine.execReadStatus r s
  | .readTags r => Sys2Proof.Machine.execReadTags r s
  | .restart r => Sys2Proof.Machine.execRestart r s
  | .resetUnit r => Sys2Proof.Machine.execResetUnit r s

end Sys2Proof.Machine
end

