-- ==== Sys2Proof/Machine/Step.lean ====
section
/-! DEFINITION. One step: the command at the front of the queue, or a millisecond of row time on an empty queue. -/

namespace Sys2Proof.Machine

/-- One millisecond passes: the row time rises by one, modulo 2^32 (R85; log entry 2). -/
def idle (s : State) : State := s.withTime { s.time with rowTime := s.time.rowTime + 1 }

/-- One step of the block. -/
def step (s : State) : Host.Outcome State Fault Refusal :=
  match s.pending with
  | [] => .next (idle s)
  | c :: rest => exec c (s.withPending rest)

/-- The state with the command that a word spells put at the front of its queue; unchanged where the word spells none. -/
def State.withFetchWord (s : State) (nbits w : Nat) : State :=
  match Sys2Proof.decodeTableWord nbits w with
  | none => s
  | some c => s.withPending (c :: s.pending)

end Sys2Proof.Machine
end

