-- ==== Sys2Proof/Safety.lean ====
section
/-! DEFINITION. What a sound state is, in the terms the statements use: the sums kept exact, the shed stacks and orders,
the periods and the pass, the roster, the links, and the bounds of the queues. -/

namespace Sys2Proof.Machine

/-! ### Sums over the map (R46 to R48) -/

/-- The outlet is a member of tenant `t` on feed `f` (R3). -/
def Outlet.isMember (e : Outlet) (t : Slot) (f : Feed) : Bool := decide (e.effective.memberOf = some (t, f))

/-- The outlet is a stale member of tenant `t`, on either feed (R47). -/
def Outlet.isStaleMember (e : Outlet) (t : Slot) : Bool := (e.isMember t .a || e.isMember t .b) && !e.fresh

/-- The outlet's pending change names tenant `t` (R48). -/
def Outlet.movesTo (e : Outlet) (t : Slot) : Bool := decide (e.pending.bind (·.tenant) = some t)

/-- The sum of the readings of a tenant's members on a feed (R46). -/
def memberReadings (s : State) (t : Slot) (f : Feed) : Nat :=
  ((s.map.entries.rows.filter (fun e => e.isMember t f)).map (·.reading)).sum

/-- The accounts are exact: every tenant's draws, member counts, stale count and pending-in are the sums over the map
(R46 to R48), the map's two counts are its sums (R2, R7), and a FREE slot holds a cleared record (R42, R45, R51). -/
structure Accounts (s : State) : Prop where
  draw : ∀ t f, (s.tenants.get t).draw.get f = memberReadings s t f
  members : ∀ t f, (s.tenants.get t).members.get f = s.map.entries.rows.countP (fun e => e.isMember t f)
  stale : ∀ t, (s.tenants.get t).stale = s.map.entries.rows.countP (fun e => e.isStaleMember t)
  pendingIn : ∀ t, (s.tenants.get t).pendingIn = s.map.entries.rows.countP (fun e => e.movesTo t)
  pendingCount : s.map.pendingCount = s.map.entries.rows.countP (fun e => e.pending.isSome)
  attention : s.map.attention = s.map.entries.rows.countP (fun e => anySticky e.flags)
  freeCleared : ∀ t, (s.tenants.get t).state = .free → s.tenants.get t = Tenant.cleared

/-! ### Shed stacks and orders (R49, R106, R111) -/

/-- The shed stacks and the order table agree: stacks hold at most 16 members without duplicates (R49); an outlet is
OFF_SHED exactly when it is a confirmed entry (R111); an unconfirmed entry has an outstanding SHED order (R106) and a
confirmed one has no order; at most 32 orders with distinct numbers, one per outlet (R106). -/
structure Shedding (s : State) : Prop where
  stackSize : ∀ t, (s.tenants.get t).stack.length ≤ Config.stackDepth
  stackDistinct : ∀ t, ((s.tenants.get t).stack.map (·.outlet)).Nodup
  stackMembers : ∀ t, ∀ e ∈ (s.tenants.get t).stack,
    ∃ f, (s.map.entries.get e.outlet).effective.memberOf = some (t, f)
  offShed : ∀ i, (s.map.entries.get i).relay = .offShed ↔ ∃ t, ⟨i, true⟩ ∈ (s.tenants.get t).stack
  unconfirmed : ∀ t i, ⟨i, false⟩ ∈ (s.tenants.get t).stack →
    ∃ o ∈ s.orders.orders, o.outlet = i ∧ ∃ origin, o.origin = .shed t origin
  confirmed : ∀ t i, ⟨i, true⟩ ∈ (s.tenants.get t).stack → ∀ o ∈ s.orders.orders, o.outlet ≠ i
  orderCount : s.orders.orders.length ≤ Config.orderDepth
  numbersDistinct : (s.orders.orders.map (·.number)).Nodup
  outletsDistinct : (s.orders.orders.map (·.outlet)).Nodup
  numbersValid : (∀ o ∈ s.orders.orders, o.number ≠ 0) ∧ s.orders.next ≠ 0

/-! ### Periods, budgets and the pass (R41 to R53, R63, R146) -/

/-- One tenant's numbers are in order: baseline at most lifetime (R42), budget at most the allowance (R53), SUSPENDED
means HELD (R45), and the last close number is one the close state allows (R146). -/
structure TenantSound (k : Tenant) (r : Review) : Prop where
  baselineA : k.baseline.a ≤ k.lifetime.a
  baselineB : k.baseline.b ≤ k.lifetime.b
  lifetimeA : k.lifetime.a ≤ Config.energyTop
  lifetimeB : k.lifetime.b ≤ Config.energyTop
  budget : k.budget ≤ k.contract.allowance
  held : k.state = .suspended → k.verdict = .held ∧ k.streak = 0
  lastClose : k.state ≠ .free →
    k.lastClose = r.closeNumber ∨ (r.closePending = true ∧ k.lastClose = r.closeNumber - 1)

/-- Every tenant is sound, and the review engine's fields fit its pass state: an IDLE engine stands at slot 1 with no
closing mark and no pending change in the map (R63, R11); a pass is in flight only in RUN (R82); a closing pass belongs
to a close in progress (R66). -/
structure Periods (s : State) : Prop where
  tenants : ∀ t, TenantSound (s.tenants.get t) s.review
  idle : s.review.pass = .idle → s.review.position = 0 ∧ s.review.walked = false ∧ s.review.closing = false
  idleMap : s.review.pass = .idle → ∀ i, (s.map.entries.get i).pending = none
  walked : s.review.walked = true → s.review.pass = .visiting ∧ s.review.position = 127
  running : s.review.pass ≠ .idle → s.mgmt.opState = .run
  closing : s.review.closing = true → s.review.closePending = true

/-! ### The roster (R128) -/

/-- One node record fits its state (Table 7.1). -/
structure NodeSound (k : Node) : Prop where
  lastSeq : k.lastSeq ≠ none → k.state = .up
  noteOwed : k.noteOwed = true → k.state = .up
  fitted : 1 ≤ k.fitted ∧ k.fitted ≤ 48

/-- Every node record fits its state, and orders are outstanding for UP nodes only (R129). -/
structure RosterSound (s : State) : Prop where
  nodes : ∀ n, NodeSound (s.roster.nodes.get n)
  orders : ∀ o ∈ s.orders.orders, (s.roster.nodes.get (nodeOfOutlet o.outlet)).state = .up

/-! ### Links and events (R88, R103) -/

/-- The depth an origin carries is that of an outcome event (R88, Table 6.1). -/
def RequestOrigin.depthOk : RequestOrigin → Prop
  | .link _ d => 1 ≤ d ∧ d ≤ 4
  | .management _ _ => True

/-- The request origin in an order's origin carries a right depth. -/
def OrderOrigin.depthOk : OrderOrigin → Prop
  | .management _ _ => True
  | .shed _ g => g.depthOk
  | .restore _ g => g.depthOk

/-- A link that is not in mode ONCE is ARMED (R103), and every depth lies within R88's bounds wherever it travels. -/
structure LinksSound (s : State) : Prop where
  armed : ∀ l, (s.links.links.get l).mode ≠ .once → (s.links.links.get l).armed = true
  chain : ∀ e ∈ s.links.chain, 1 ≤ e.depth ∧ e.depth ≤ 4
  arrivals : ∀ a ∈ s.links.arrivals, a.event.depth ≤ 4
  reports : ∀ r ∈ s.links.reports, 1 ≤ r.depth ∧ r.depth ≤ 4
  queue : ∀ q ∈ s.links.shedQueue, q.origin.depthOk
  search : ∀ q, s.orders.search = some q → q.origin.depthOk
  orders : ∀ o ∈ s.orders.orders, o.origin.depthOk

/-! ### Queues and transmitters (Table 0.1, R168, R169) -/

/-- Every queue is within its capacity (Table 0.1), and an idle transmitter has nothing to send (R168, R169). -/
structure Bounds (s : State) : Prop where
  replies : s.up.replies.length ≤ Config.replyDepth
  notices : s.up.notices.length ≤ Config.noticeDepth
  transit : s.up.transit.length ≤ Config.transitDepth
  records : s.up.records.length ≤ Config.recordDepth
  down : s.down.queue.length ≤ Config.nodeQueueDepth
  shedQueue : s.links.shedQueue.length ≤ Config.shedQueueDepth
  store : s.links.chain.length + s.links.arrivals.length ≤ Config.eventStoreDepth
  uplinkIdle : s.up.tx = none → s.up.replies = [] ∧ s.up.notices = [] ∧ s.up.transit = [] ∧ s.up.records = []
  nodeIdle : s.down.tx = none → s.down.queue = []

/-! ### Terms of the statements about frames and requests -/

/-- A good frame has come in on a port: the receiver is in HUNT and the good count is one more (R162, R164). -/
def received (p : Port) (s : State) : State := countRx p .good (setReceiver p .hunt s)

/-- A request passes the checks of R173 that do not look at its arguments, and fits its frame. -/
structure Admitted (u : RequestUnit) (r : Request) (s : State) : Prop where
  tag : r.tag ≠ 0
  fits : 4 + r.args.length ≤ Config.maxPayload
  flags : r.flags &&& 0xFE#8 = 0#8
  free : unitBusy u s = false

/-- The arguments of a request command pass the argument check of its operation (R173, check 7); a command that is no
request has none. -/
def argsReadable : Instr → Bool
  | .coldReset => true
  | .nodeReadings _ => true
  | .nodeJoin _ => true
  | .nodeOrderDone _ => true
  | .nodeThrough _ => true
  | .passDown _ _ => true
  | .frameDiscard _ _ _ => true
  | .frameError _ _ => true
  | .byteGapTimeout _ _ => true
  | .requestUnserved _ => true
  | .nodeSendDone => true
  | .limitNoteOwedSent => true
  | .uplinkSendDone => true
  | .visitRetry => true
  | .exportResume => true
  | .tickExpiry _ => true
  | .reviewTick => true
  | .orderTimeout _ => true
  | .nodeSilence _ => true
  | .reviewVisit => true
  | .passEnd => true
  | .eventScan _ => true
  | .shedReport => true
  | .shedRequestTake => true
  | .shedSearchStep => true
  | .shedSearchEnd => true
  | .assignEntry => true
  | .alterFlagsEntry => true
  | .readEntries r => (Args.readEntries r.args).isSome
  | .assign r => (Args.assign r.args).isSome
  | .setOutlet r => (Args.setOutlet r.args).isSome
  | .alterFlags r => (Args.alterFlags r.args).isSome
  | .setProfile r => (Args.setProfile r.args).isSome
  | .readProfile r => (Args.readProfile r.args).isSome
  | .create r => (Args.slotContract r.args).isSome
  | .setContract r => (Args.slotContract r.args).isSome
  | .activate r => (Args.slot r.args).isSome
  | .suspend r => (Args.slot r.args).isSome
  | .remove r => (Args.slot r.args).isSome
  | .setPreset r => (Args.setPreset r.args).isSome
  | .readTenant r => (Args.slot r.args).isSome
  | .setLink r => (Args.setLink r.args).isSome
  | .readLink r => (Args.link r.args).isSome
  | .rearm r => (Args.link r.args).isSome
  | .switchOrder r => (Args.order r.args).isSome
  | .shedTenant r => (Args.slot r.args).isSome
  | .restoreTenant r => (Args.slot r.args).isSome
  | .setNodeDisable r => (Args.setNode r.args).isSome
  | .setNodeEnable r => (Args.setNode r.args).isSome
  | .setLimit r => (Args.setLimit r.args).isSome
  | .readNode r => (Args.readNode r.args).isSome
  | .readStates r => (Args.nothing r.args).isSome
  | .close r => (Args.nothing r.args).isSome
  | .exportTenant r => (Args.slot r.args).isSome
  | .importTenant r => (Args.importRecord r.args).isSome
  | .readIdent r => (Args.nothing r.args).isSome
  | .setState r => (Args.setState r.args).isSome
  | .setTiming r => (Args.setTiming r.args).isSome
  | .setForward r => (Args.setForward r.args).isSome
  | .readStatus r => (Args.readStatus r.args).isSome
  | .readTags r => (Args.nothing r.args).isSome
  | .restart r => (Args.nothing r.args).isSome
  | .resetUnit r => (Args.resetUnit r.args).isSome

/-- A frame that the roster takes from node `n`, which is enabled: the frame is received and last heard is now (R129). -/
def heardFrom (n : NodeIx) (s : State) : State :=
  modifyNode n (fun k => { k with lastHeard := s.time.rowTime }) (received .node s)

/-- The state in which the orders of a node that goes SILENT or DISABLED end: the record and the freshness of its 48
outlets are cleared, every tenant's stale count has risen by its members among them that were fresh, and all else is as
it was (R134 and R135, steps 1 and 2; R6). -/
structure NodeCleared (n : NodeIx) (after : NodeState) (s x : State) : Prop where
  record : x.roster = { s.roster with
    nodes := s.roster.nodes.set n { s.roster.nodes.get n with state := after, lastSeq := none, noteOwed := false } }
  outlets : ∀ i, x.map.entries.get i = if nodeOfOutlet i = n then { s.map.entries.get i with fresh := false }
    else s.map.entries.get i
  counts : x.map.pendingCount = s.map.pendingCount ∧ x.map.attention = s.map.attention
  stale : ∀ a, x.tenants.get a = { s.tenants.get a with
    stale := (s.tenants.get a).stale + (List.finRange 48).countP (fun o =>
      (s.map.entries.get (mapIndex n o)).fresh &&
        decide ((s.map.entries.get (mapIndex n o)).effective.memberOf.map (·.1) = some a)) }
  rest : x = ((s.withRoster x.roster).withMap x.map).withTenants x.tenants

end Sys2Proof.Machine
end

