-- ==== Sys2Proof/Certificates/Slice0/Obligations.lean ====
section
/-! DEFINITION. The statements for the provers. Each says in terms of the machine's own operations what a rule of the
spec says; docstrings name the rules, and the log entry where a clause is the model's choice. -/

open Sys2Proof Sys2Proof.Machine

/-! ### The step and the queue -/

/-- A step takes the command at the front of the queue and runs it with the queue's rest. -/
def Obligations.StepRunsTheFrontCommand : Prop :=
  ∀ (c : Instr) (rest : List Instr) (s : State), s.pending = c :: rest → step s = exec c (s.withPending rest)

/-- On an empty queue one millisecond passes and nothing else happens (R85; that an empty queue is a millisecond is the
model's choice, log entry 2). -/
def Obligations.EmptyQueueOnlyAdvancesRowTime : Prop :=
  ∀ s : State, s.pending = [] → step s = .next (s.withTime { s.time with rowTime := s.time.rowTime + 1 })

/-- Every command ends in a next state and leaves the queue alone. The spec names no stop of a command it describes; that
an ill-formed command and one that is not due end so too is the model's choice (log entries 23 and 1), and so is that
COLD_RESET keeps the queue (log entry 20). -/
def Obligations.EveryCommandEndsInANextState : Prop :=
  ∀ (c : Instr) (s : State), ∃ t, exec c s = .next t ∧ t.pending = s.pending

/-- COLD_RESET gives every part of the state its cold-reset value, whatever it was (R182 and the reset values of each
chapter). That the event store and the waiting reports are empty then is the model's choice (log entry 10), and so is that
the model's own queue and free-value counter are kept (log entry 20) and its record mark is clear (log entry 32). -/
def Obligations.ColdResetSetsEveryColdResetValue : Prop :=
  ∀ s : State, ∃ t, exec .coldReset s = .next t ∧ t.pending = s.pending ∧
    t.mgmt.opState = .transparent ∧ t.mgmt.sticky = ⟨false, false, false, false, false⟩ ∧
    (∀ u, t.mgmt.tags.get u = 0) ∧ t.mgmt.mapJob = none ∧ t.mgmt.switchJob = none ∧ t.mgmt.exportJob = none ∧
    t.up.replies = [] ∧ t.up.notices = [] ∧ t.up.transit = [] ∧ t.up.records = [] ∧ t.up.tx = none ∧ t.up.seq = 0 ∧
    t.up.turn = .transit ∧ t.up.freeCount = s.up.freeCount ∧ t.up.recordFreed = false ∧ t.down = { queue := [], tx := none, seq := 0 } ∧
    t.ports = { nodeRx := .hunt, uplinkRx := .hunt, counts := .zero, forward := .plain } ∧
    t.time.rowTime = 0 ∧ t.time.due.rows = [100, 1000, 10000, 60000, 900000, 3600000] ∧
    t.time.reviewPeriod = 3 ∧ t.time.reviewDue = 1000 ∧
    (∀ i, t.map.entries.get i = {
      effective := ⟨none, .a, false⟩, pending := none, profile := 0, rank := 0, reading := 0, readingTime := 0,
      fresh := false, flags := 0, relay := .unknown, indicator := .unknown }) ∧
    t.map.pendingCount = 0 ∧ t.map.attention = 0 ∧
    (∀ i, t.profiles.get i = { c0 := 0, c1 := ⟨1, 36⟩, c2 := none, deadband := 0, ceiling := 16777215 }) ∧
    (∀ k, t.tenants.get k = {
      state := .free, contract := { basis := .combined, capacity := ⟨⟨0, 0⟩, ⟨0, 0⟩⟩, warn := 100, tolerance := 0,
                                    release := 1, burst := none }
      pendingContract := none, draw := ⟨0, 0⟩, members := ⟨0, 0⟩, stale := 0, pendingIn := 0, lifetime := ⟨0, 0⟩,
      baseline := ⟨0, 0⟩, preset := 0, budget := 0, verdict := .held, streak := 0, lastVisit := 0, unmetered := 0,
      periodNumber := 0, periodStart := 0, peak := 0, breachTime := 0, excursionTime := 0, lastClose := 0, stack := [] }) ∧
    t.review = { pass := .idle, position := 0, walked := false, closing := false, closeNumber := 0, closePending := false } ∧
    (∀ l, t.links.links.get l = {
      mode := .off, trigger := 0, condition := none, action := .notify, guard := false, armed := true,
      lastCondition := false, guardSet := false, fireCount := 0 }) ∧ t.links.shedQueue = [] ∧ t.links.chain = [] ∧ t.links.arrivals = [] ∧
    t.links.reports = [] ∧
    t.orders = { orders := [], next := 1, timeout := 2000, search := none } ∧
    (∀ n, t.roster.nodes.get n = {
      state := .absent, fitted := 48, lastSeq := none, lastHeard := 0, accepted := 0, gaps := 0, duplicates := 0,
      outOfOrder := 0, badEntries := 0, lateCompletions := 0, limit := ⟨0, 0⟩, noteOwed := false }) ∧ t.roster.timeout = 5

/-! ### The way of a request (R173 to R176) -/

/-- Every request command checks flags, then busy, then arguments, and the first failure decides the answer (R173,
checks 5 to 7). A LINKS request is taken after the chain in hand (R90, log entry 5), and a refusal carries no data (log
entry 8). Then, operation by operation, exactly which argument bytes pass (R14, R15, R18, R19, R36, R38, R43, R57, R102,
R103, R123, R140, R178, R179, R181; for IMPORT what every record that passes meets, R159). The three bytes of a condition
are the model's choice (log entry 30). Last, what each reader reads from the bytes it takes: the fields in the order the
operation's table and rules list them, each by its code or range of Table 9.6, the bytes of an absent part ignored (R171). -/
def Obligations.RequestChecksFollowTheirOrder : Prop :=
  (∀ (c : Instr) (u : RequestUnit) (op : Nat) (r : Request) (s : State),
     c.served = some (u, op, r) → r.tag ≠ 0 → 4 + r.args.length ≤ Config.maxPayload →
     let s' := received .uplink (if u = .links then finishChain s else s)
     (r.flags &&& 0xFE#8 ≠ 0#8 → exec c s = .next (answer u r.tag true .badArg .none s')) ∧
     (r.flags &&& 0xFE#8 = 0#8 → unitBusy u s = true → exec c s = .next (answer u r.tag true .busy .none s')) ∧
     (r.flags &&& 0xFE#8 = 0#8 → unitBusy u s = false → argsReadable c = false →
       exec c s = .next (answer u r.tag true .badArg .none s'))) ∧
  (∀ (tag flags : Byte) (args : List Byte),
     let r : Request := ⟨tag, flags, args⟩
     let isSlot (b : Byte) := 1 ≤ b.toNat ∧ b.toNat ≤ 128
     let isNode (b : Byte) := 1 ≤ b.toNat ∧ b.toNat ≤ 32
     let isOutlet (b : Byte) := 1 ≤ b.toNat ∧ b.toNat ≤ 48
     (∀ c ∈ [Instr.readStates r, .close r, .readIdent r, .readTags r, .restart r],
       argsReadable c = true ↔ args = []) ∧
     (∀ c ∈ [Instr.activate r, .suspend r, .remove r, .readTenant r, .shedTenant r, .restoreTenant r, .exportTenant r],
       argsReadable c = true ↔ ∃ t, args = [t] ∧ isSlot t) ∧
     (argsReadable (.readProfile r) = true ↔ ∃ i, args = [i] ∧ i.toNat ≤ 15) ∧
     (∀ c ∈ [Instr.readLink r, .rearm r], argsReadable c = true ↔ ∃ l, args = [l] ∧ l.toNat ≤ 63) ∧
     (∀ c ∈ [Instr.setState r, .setForward r], argsReadable c = true ↔ ∃ x, args = [x] ∧ x.toNat ≤ 2) ∧
     (argsReadable (.readStatus r) = true ↔ ∃ x, args = [x] ∧ x.toNat ≤ 1) ∧
     (argsReadable (.resetUnit r) = true ↔ ∃ u, args = [u] ∧ 1 ≤ u.toNat ∧ u.toNat ≤ 8) ∧
     (∀ c ∈ [Instr.setNodeDisable r, .setNodeEnable r, .readNode r],
       argsReadable c = true ↔ ∃ n x, args = [n, x] ∧ isNode n ∧ x.toNat ≤ 1) ∧
     (argsReadable (.readEntries r) = true ↔ ∃ n o k, args = [n, o, k] ∧ isNode n ∧ isOutlet o ∧
       1 ≤ k.toNat ∧ k.toNat ≤ 8 ∧ o.toNat + k.toNat - 1 ≤ 48) ∧
     (argsReadable (.setLimit r) = true ↔ ∃ n hi lo, args = [n, hi, lo] ∧ isNode n ∧ hi.toNat / 4 % 16 = 0) ∧
     (argsReadable (.setOutlet r) = true ↔ ∃ n o p k, args = [n, o, p, k] ∧ isNode n ∧ isOutlet o ∧
       p.toNat ≤ 15 ∧ k.toNat ≤ 15) ∧
     (argsReadable (.switchOrder r) = true ↔ ∃ n o x y, args = [n, o, x, y] ∧ isNode n ∧ isOutlet o ∧
       x.toNat ≤ 3 ∧ y.toNat ≤ 3) ∧
     (argsReadable (.setTiming r) = true ↔ ∃ p hi lo w, args = [p, hi, lo, w] ∧ p.toNat ≤ 6 ∧
       250 ≤ hi.toNat * 256 + lo.toNat ∧ hi.toNat * 256 + lo.toNat ≤ 8000 ∧ 1 ≤ w.toNat ∧ w.toNat ≤ 60) ∧
     (argsReadable (.assign r) = true ↔ ∃ n o k t f x, args = [n, o, k, t, f, x] ∧ isNode n ∧ isOutlet o ∧
       1 ≤ k.toNat ∧ k.toNat ≤ 48 ∧ o.toNat + k.toNat - 1 ≤ 48 ∧ t.toNat ≤ 128 ∧ f.toNat ≤ 1 ∧ x.toNat ≤ 1) ∧
     (argsReadable (.alterFlags r) = true ↔ ∃ i1 i0 k1 k0 mask op, args = [i1, i0, k1, k0, mask, op] ∧
       i1.toNat * 256 + i0.toNat ≤ 1535 ∧ 1 ≤ k1.toNat * 256 + k0.toNat ∧
       i1.toNat * 256 + i0.toNat + (k1.toNat * 256 + k0.toNat) ≤ 1536 ∧ mask.toNat ≤ 63 ∧ op.toNat ≤ 2) ∧
     (argsReadable (.setPreset r) = true ↔ ∃ t preset, args = t :: preset ∧ isSlot t ∧ preset.length = 8) ∧
     (argsReadable (.setLink r) = true ↔
       ∃ l mode e1 e0 present tenant verdicts action target guard,
         args = [l, mode, e1, e0, present, tenant, verdicts, action, target, guard] ∧ l.toNat ≤ 63 ∧ mode.toNat ≤ 3 ∧
         (present = 0 ∨ present = 1 ∧ isSlot tenant ∧ verdicts.toNat ≤ 63) ∧
         ((action = 0 ∨ action = 1 ∨ action = 3) ∧ isSlot target ∨ (action = 2 ∨ action = 4) ∧ target = 0) ∧
         guard.toNat ≤ 1) ∧
     (∀ c ∈ [Instr.create r, .setContract r], argsReadable c = true ↔
       ∃ t basis a1 a0 b1 b0 warn tolerance release present e1 e0 f1 f0,
         args = [t, basis, a1, a0, b1, b0, warn, tolerance, release, present, e1, e0, f1, f0] ∧ isSlot t ∧
         basis.toNat ≤ 1 ∧ a1.toNat / 4 % 16 = 0 ∧ b1.toNat / 4 % 16 = 0 ∧ 50 ≤ warn.toNat ∧ warn.toNat ≤ 100 ∧
         tolerance.toNat ≤ 15 ∧ 1 ≤ release.toNat ∧ release.toNat ≤ 15 ∧
         (present = 0 ∨ present = 1 ∧ 1 ≤ e1.toNat * 256 + e0.toNat)) ∧
     (argsReadable (.setProfile r) = true ↔
       ∃ i degree c2 c1 c0 k1 k0 x present j1 j0 y d1 d0 l2 l1 l0,
         args = [i, degree, c2, c1, c0, k1, k0, x, present, j1, j0, y, d1, d0, l2, l1, l0] ∧ i.toNat ≤ 15 ∧
         x.toNat ≤ 63 ∧ (present = 0 ∧ degree = 1 ∨ present = 1 ∧ degree = 2 ∧ y.toNat ≤ 63) ∧
         ¬ (l2 = 0 ∧ l1 = 0 ∧ l0 = 0)) ∧
     (argsReadable (.importTenant r) = true → ∃ t record, args = t :: record ∧ isSlot t ∧ record.length = 115 ∧
       record.head? = some 2 ∧ beNat (record.drop 113) = (crc16 (record.take 113)).toNat ∧
       beNat ((record.drop 50).take 8) ≤ beNat ((record.drop 34).take 8) ∧
       beNat ((record.drop 58).take 8) ≤ beNat ((record.drop 42).take 8))) ∧
  (let b (v : Nat) : Byte := BitVec.ofNat 8 v
   let two (v : Nat) : List Byte := [b (v / 256), b v]
   let three (v : Nat) : List Byte := [b (v / 65536), b (v / 256), b v]
   let power (c : Capacity) : List Byte := [b (c.scale.toNat * 64 + c.value.toNat / 256), b c.value.toNat]
   let yes (x : Bool) : Byte := if x then 1 else 0
   (∀ (n : NodeIx) (o : Fin 48),
      let node := b (n.val + 1)
      let outlet := b (o.val + 1)
      let i : OutletIx := ⟨n.val * 48 + o.val, by omega⟩
      (∀ k, 1 ≤ k → k ≤ 8 → o.val + k ≤ 48 → Args.readEntries [node, outlet, b k] = some (i, k)) ∧
      (∀ (k : Nat) (tenant : Option Slot) (feed : Feed) (excluded : Bool), 1 ≤ k → o.val + k ≤ 48 →
        let tenantByte : Byte := match tenant with
          | none => 0
          | some a => b (a.val + 1)
        let feedByte : Byte := match feed with
          | .a => 0
          | .b => 1
        Args.assign [node, outlet, b k, tenantByte, feedByte, yes excluded] = some (i, k, ⟨tenant, feed, excluded⟩)) ∧
      (∀ profile rank : Fin 16, Args.setOutlet [node, outlet, b profile.val, b rank.val] = some (i, profile, rank)) ∧
      (∀ (relay : RelayAction) (indicator : IndicatorAction),
        let relayByte : Byte := match relay with
          | .noChange => 0
          | .on => 1
          | .off => 2
          | .cycle => 3
        let indicatorByte : Byte := match indicator with
          | .noChange => 0
          | .dark => 1
          | .steady => 2
          | .blink => 3
        Args.order [node, outlet, relayByte, indicatorByte] = some (i, relay, indicator)) ∧
      (∀ x, Args.setNode [node, yes x] = some (n, x) ∧ Args.readNode [node, yes x] = some (n, x)) ∧
      (∀ limit, Args.setLimit (node :: power limit) = some (n, limit))) ∧
   (∀ (i : OutletIx) (k : Nat) (mask : BitVec 6), 1 ≤ k → i.val + k ≤ 1536 →
      Args.alterFlags (two i.val ++ two k ++ [mask.setWidth 8, 0]) = some (i, k, mask, .and) ∧
      Args.alterFlags (two i.val ++ two k ++ [mask.setWidth 8, 1]) = some (i, k, mask, .or) ∧
      Args.alterFlags (two i.val ++ two k ++ [mask.setWidth 8, 2]) = some (i, k, mask, .xor)) ∧
   (∀ (i : Fin 16) (p : Profile) (square : List Byte), 1 ≤ p.ceiling.toNat →
      (p.c2 = none ∧ (∃ x y z, square = [0, x, y, z]) ∨
        ∃ c, p.c2 = some c ∧ square = [1] ++ two c.k.toNat ++ [b c.x.toNat]) →
      Args.setProfile ([b i.val, if p.c2 = none then 1 else 2] ++ three p.c0.toNat ++ two p.c1.k.toNat ++ [b p.c1.x.toNat] ++
        square ++ two p.deadband.toNat ++ three p.ceiling.toNat) = some (i, p) ∧
      Args.readProfile [b i.val] = some i) ∧
   (∀ a : Slot,
      Args.slot [b (a.val + 1)] = some a ∧
      (∀ (c : Contract) (burst : List Byte), 50 ≤ c.warn → c.warn ≤ 100 → c.tolerance ≤ 15 → 1 ≤ c.release → c.release ≤ 15 →
        (c.burst = none ∧ (∃ w x y z, burst = [0, w, x, y, z]) ∨
          ∃ x, c.burst = some x ∧ 1 ≤ x.allowance ∧ x.allowance ≤ 65535 ∧ x.refill ≤ 65535 ∧
            burst = [1] ++ two x.allowance ++ two x.refill) →
        let basisByte : Byte := match c.basis with
          | .combined => 0
          | .perFeed => 1
        Args.slotContract ([b (a.val + 1), basisByte] ++ power c.capacity.a ++ power c.capacity.b ++
          [b c.warn, b c.tolerance, b c.release] ++ burst) = some (a, c)) ∧
      (∀ p : BitVec 64, Args.setPreset (b (a.val + 1) :: (List.range 8).map (fun j => b (p.toNat / 256 ^ (7 - j)))) =
        some (a, p)) ∧
      (∀ record, Args.importRecord (b (a.val + 1) :: record) = (transferOf record).map (fun x => (a, x)))) ∧
   (∀ l : LinkIx,
      Args.link [b l.val] = some l ∧
      (∀ (mode : LinkMode) (event1 event0 : Byte) (condition : Option Condition) (conditionBytes : List Byte)
          (action : LinkAction) (guard : Bool),
        (condition = none ∧ (∃ x y, conditionBytes = [0, x, y]) ∨
          ∃ c, condition = some c ∧ conditionBytes = [1, b (c.tenant.val + 1), c.verdicts.setWidth 8]) →
        let modeByte : Byte := match mode with
          | .off => 0
          | .once => 1
          | .onChange => 2
          | .every => 3
        let actionBytes : List Byte := match action with
          | .shed a => [0, b (a.val + 1)]
          | .restore a => [1, b (a.val + 1)]
          | .notify => [2, 0]
          | .latch a => [3, b (a.val + 1)]
          | .close => [4, 0]
        Args.setLink ([b l.val, modeByte, event1, event0] ++ conditionBytes ++ actionBytes ++ [yes guard]) =
          some (l, { mode, trigger := event1 ++ event0, condition, action, guard, armed := true, lastCondition := false,
                     guardSet := false, fireCount := 0 }))) ∧
   (∀ (period : Fin 7) (order silence : Nat), 250 ≤ order → order ≤ 8000 → 1 ≤ silence → silence ≤ 60 →
      Args.setTiming ([b period.val] ++ two order ++ [b silence]) = some (period, order, silence)) ∧
   ([0, 1, 2].map (fun x => Args.setState [x]) = [some .transparent, some .hold, some .run]) ∧
   ([0, 1, 2].map (fun x => Args.setForward [x]) = [some .plain, some .tagged, some .absorb]) ∧
   ([0, 1].map (fun x => Args.readStatus [x]) = [some false, some true]) ∧
   ([1, 2, 3, 4, 5, 6, 7, 8].map (fun x => Args.resetUnit [x]) =
     [some .control, some .map, some .tenant, some .links, some .roster, some .calib, some .switch, some .record]))

/-- A REQUEST that names nothing to serve: too short is discarded, tag 0 is BAD_TAG, a unit byte outside 1..8 is
BAD_UNIT, an op byte outside the unit's table is BAD_OP (R173, checks 1 to 4). The unit codes and the lengths of the units'
operation tables are those of Table 9.7 and the paragraph after it. -/
def Obligations.UnservedRequestsAreRefusedByName : Prop :=
  ∀ s : State,
    (∀ p : List Byte, p.length < 4 → exec (.requestUnserved p) s = .next (received .uplink s)) ∧
    (∀ (unit op flags : Byte) (args : List Byte), 4 + args.length ≤ Config.maxPayload →
      exec (.requestUnserved (unit :: 0 :: op :: flags :: args)) s
        = .next (sendReply ⟨unit, 0, .badTag, .none⟩ (received .uplink s))) ∧
    (∀ (unit tag op flags : Byte) (args : List Byte), 4 + args.length ≤ Config.maxPayload → tag ≠ 0 →
      (unit.toNat = 0 ∨ 8 < unit.toNat) →
      exec (.requestUnserved (unit :: tag :: op :: flags :: args)) s
        = .next (sendReply ⟨unit, tag, .badUnit, .none⟩ (received .uplink s))) ∧
    (∀ (u : RequestUnit) (tag op flags : Byte) (args : List Byte), 4 + args.length ≤ Config.maxPayload → tag ≠ 0 →
      (op.toNat = 0 ∨ unitOps u < op.toNat) →
      exec (.requestUnserved (unitCode u :: tag :: op :: flags :: args)) s
        = .next (sendReply ⟨unitCode u, tag, .badOp, .none⟩ (received .uplink s))) ∧
    ([.control, .map, .tenant, .links, .roster, .calib, .switch, .record].map (fun u => (unitCode u, unitOps u)) =
      [(1, 8), (2, 4), (3, 7), (4, 3), (5, 4), (6, 2), (7, 3), (8, 3)])

/-- An answer sets the unit's last accepted tag exactly on an accepting status, and its reply joins the reply queue, or
is lost at 8 replies, when the status is a refusal or a reply is wanted (R174, R175). A notice joins the queue of 32 with
the present row time, or is lost with NOTICE_LOST set (R176). -/
def Obligations.AnswersAndNoticesJoinTheirQueues : Prop :=
  (∀ (u : RequestUnit) (tag : Byte) (wanted : Bool) (st : Status) (d : ReplyData) (s : State),
     let t := answer u tag wanted st d s
     t = (s.withMgmt t.mgmt).withUp t.up ∧
     t.mgmt = { s.mgmt with tags := t.mgmt.tags, sticky := t.mgmt.sticky } ∧
     (∀ v, t.mgmt.tags.get (unitIndex v) = if v = u ∧ st.accepts = true then tag else s.mgmt.tags.get (unitIndex v)) ∧
     (wanted = false → st.accepts = true → t.up = s.up ∧ t.mgmt.sticky = s.mgmt.sticky) ∧
     ((wanted = true ∨ st.accepts = false) → s.up.replies.length < 8 →
       t.up = { s.up with replies := s.up.replies ++ [Reply.mk (unitCode u) tag st d] }.take ∧
       t.mgmt.sticky = s.mgmt.sticky) ∧
     ((wanted = true ∨ st.accepts = false) → 8 ≤ s.up.replies.length →
       t.up = s.up ∧ t.mgmt.sticky = { s.mgmt.sticky with replyLost := true })) ∧
  (∀ (x : NoticeSubject) (s : State),
     (s.up.notices.length < 32 →
       queueNotice x s = s.withUp { s.up with notices := s.up.notices ++ [Notice.mk s.time.rowTime x] }.take) ∧
     (32 ≤ s.up.notices.length →
       queueNotice x s = s.withMgmt { s.mgmt with sticky := { s.mgmt.sticky with noticeLost := true } })) ∧
  (∀ st : Status, st.accepts = true ↔ st = .ok ∨ st = .staged ∨ st = .applied ∨ st = .superseded) ∧
  ([.control, .map, .tenant, .links, .roster, .calib, .switch, .record].map unitIndex = [0, 1, 2, 3, 4, 5, 6, 7])

/-! ### The transmitters (R168 to R170) -/

/-- UPLINK_SEND_DONE: replies first, then notices, then transit and records by the turn; an originated frame gets the
port's sequence, a transit frame is sent as it stands (R169, R170); the reply's free value and its counter, and the mark that
a record's place is free, are the model's own (log entries 7 and 32). NODE_SEND_DONE: the head of the node transmit queue is
taken; an ORDER or LIMIT frame gets the port's sequence, a frame passed down is sent as it stands (R168, R170). An entry that
reaches an idle uplink transmitter is taken by the same rule (R169). Then the payloads byte by byte, each field most significant
byte first: ORDER and LIMIT (Table 9.5), REPLY with its header and the data of every operation in the order its rule lists it
(Tables 9.6 to 9.8), NOTICE with its header and subject (Table 9.9), PERIOD and TRANSFER records with their record check (Table
9.10). The relay status byte without an order is a free value (log entry 7); the order number 0 of an answer without one (log
entry 8), the widths and places of READ_STATUS (log entry 9) and the three bytes of a condition (log entry 30) are the model's
choice. -/
def Obligations.TransmittersTakeTheirNextFrame : Prop :=
  (∀ s : State,
     (∀ r rest, s.up.replies = r :: rest →
       exec .uplinkSendDone s = .next (s.withUp { s.up with
         replies := rest, seq := s.up.seq + 1, freeCount := s.up.freeCount + 1,
         tx := some (Frame.make 0x52 0 s.up.seq (r.payload (Config.freeByte s.up.freeCount))) })) ∧
     (∀ n rest, s.up.replies = [] → s.up.notices = n :: rest →
       exec .uplinkSendDone s = .next (s.withUp { s.up with
         notices := rest, seq := s.up.seq + 1, tx := some (Frame.make 0x53 0 s.up.seq n.payload) })) ∧
     (∀ f rest, s.up.replies = [] → s.up.notices = [] → s.up.transit = f :: rest →
       (s.up.records = [] ∨ s.up.turn = .transit) →
       exec .uplinkSendDone s = .next (s.withUp { s.up with transit := rest, tx := some f, turn := .record })) ∧
     (∀ r rest, s.up.replies = [] → s.up.notices = [] → s.up.records = r :: rest →
       (s.up.transit = [] ∨ s.up.turn = .record) →
       exec .uplinkSendDone s = .next (s.withUp { s.up with
         records := rest, seq := s.up.seq + 1, turn := .transit, recordFreed := true,
         tx := some (Frame.make 0x54 0 s.up.seq r.bytes) })) ∧
     (s.up.replies = [] → s.up.notices = [] → s.up.transit = [] → s.up.records = [] →
       exec .uplinkSendDone s = .next (s.withUp { s.up with tx := none })) ∧
     (s.up.tx = none → exec .uplinkSendDone s = .next (s.withUp s.up.take)) ∧
     (s.up.tx ≠ none → s.up.take = s.up)) ∧
  (∀ s : State,
     (s.down.queue = [] → exec .nodeSendDone s = .next (s.withDown { s.down with tx := none })) ∧
     (∀ f rest, s.down.queue = .down f :: rest →
       exec .nodeSendDone s = .next (s.withDown { s.down with queue := rest, tx := some f })) ∧
     (∀ n number outlet relay indicator rest, s.down.queue = .order n number outlet relay indicator :: rest →
       exec .nodeSendDone s = .next (s.withDown {
         queue := rest, seq := s.down.seq + 1,
         tx := some (Frame.make 0x41 (nodeByte n) s.down.seq
           [number, outlet, relayActionByte relay, indicatorActionByte indicator]) })) ∧
     (∀ n c rest, s.down.queue = .limit n c :: rest →
       exec .nodeSendDone s = .next (s.withDown {
         queue := rest, seq := s.down.seq + 1, tx := some (Frame.make 0x42 (nodeByte n) s.down.seq (capacityBytes c)) }))) ∧
  (let b (v : Nat) : Byte := BitVec.ofNat 8 v
   let be (k v : Nat) : List Byte := (List.range k).map (fun j => BitVec.ofNat 8 (v / 256 ^ (k - 1 - j)))
   let both (k : Nat) (x : PerFeed Nat) : List Byte := be k x.a ++ be k x.b
   let yes (x : Bool) : Byte := if x then 1 else 0
   let slot (a : Slot) : Byte := b (a.val + 1)
   let address (i : OutletIx) : List Byte := [b (i.val / 48 + 1), b (i.val % 48 + 1)]
   let power (c : Capacity) : List Byte := be 2 (c.scale.toNat * 2 ^ 14 + c.value.toNat)
   let status (x : Status) : Byte := match x with
     | .ok => 0x00
     | .staged => 0x01
     | .applied => 0x02
     | .superseded => 0x03
     | .badUnit => 0x10
     | .badOp => 0x11
     | .badArg => 0x12
     | .badTag => 0x13
     | .busy => 0x14
     | .wrongState => 0x15
     | .notFound => 0x16
     | .tableFull => 0x17
     | .queueFull => 0x18
     | .nodeNotUp => 0x19
     | .inShed => 0x1A
     | .hasMembers => 0x1B
     | .stackFull => 0x1C
     | .alreadyPending => 0x1D
     | .done => 0x20
     | .refused => 0x21
     | .fault => 0x22
     | .timeout => 0x23
     | .nodeLost => 0x24
   let verdict (x : Verdict) : Byte := match x with
     | .within => 0
     | .near => 1
     | .excursion => 2
     | .breach => 3
     | .stale => 4
     | .held => 5
   let relay (x : RelayStatus) : Byte := match x with
     | .unknown => 0
     | .on => 1
     | .off => 2
     | .offShed => 3
   let indicator (x : Indicator) : Byte := match x with
     | .unknown => 0
     | .dark => 1
     | .steady => 2
     | .blink => 3
   let tenantState (x : TenantState) : Byte := match x with
     | .free => 0
     | .active => 1
     | .suspended => 2
   let nodeState (x : NodeState) : Byte := match x with
     | .disabled => 0
     | .absent => 1
     | .up => 2
     | .silent => 3
   let basis (x : Basis) : Byte := match x with
     | .combined => 0
     | .perFeed => 1
   let membership (m : Membership) : List Byte :=
     [match m.tenant with
       | none => 0
       | some a => slot a,
      match m.feed with
       | .a => 0
       | .b => 1,
      yes m.excluded]
   let contract (c : Contract) : List Byte :=
     [basis c.basis] ++ power c.capacity.a ++ power c.capacity.b ++ [b c.warn, b c.tolerance, b c.release] ++
       (match c.burst with
         | none => [0, 0, 0, 0, 0]
         | some x => [1] ++ be 2 x.allowance ++ be 2 x.refill)
   let pendingContract (c : Option Contract) : List Byte := match c with
     | none => List.replicate 14 0
     | some c => [1] ++ contract c
   let port (c : PortCounts) : List Byte :=
     be 2 c.good ++ be 2 c.lengthError ++ be 2 c.checkError ++ be 2 c.truncated ++ be 2 c.unknownKind ++ be 2 c.wrongPort ++
       be 2 c.badAddress
   let checked (body : List Byte) : List Byte := body ++ be 2 (crc16 body).toNat
   (∀ n, nodeByte n = b (n.val + 1)) ∧ (∀ c, capacityBytes c = power c) ∧
   ([.noChange, .on, .off, .cycle].map relayActionByte = [0, 1, 2, 3]) ∧
   ([.noChange, .dark, .steady, .blink].map indicatorActionByte = [0, 1, 2, 3]) ∧
   (∀ (r : Reply) (free : Byte), r.payload free = [r.unit, r.tag, status r.status] ++ match r.data with
     | .none => []
     | .entries es => es.flatMap (fun e =>
         membership e.effective ++
         (match e.pending with
           | none => [0, 0, 0, 0]
           | some m => [1] ++ membership m) ++
         [b e.profile.val, b e.rank.val] ++ be 3 e.reading ++ be 4 e.readingTime.toNat ++
         [yes e.fresh, e.flags.setWidth 8, relay e.relay, indicator e.indicator])
     | .assigned applied staged superseded => [b applied, b staged, b superseded]
     | .changed n => be 2 n
     | .profile p =>
         [if p.c2 = none then 1 else 2] ++ be 3 p.c0.toNat ++ be 2 p.c1.k.toNat ++ [b p.c1.x.toNat] ++
         (match p.c2 with
           | none => [0, 0, 0, 0]
           | some c => [1] ++ be 2 c.k.toNat ++ [b c.x.toNat]) ++
         be 2 p.deadband.toNat ++ be 3 p.ceiling.toNat
     | .tenant k =>
         [tenantState k.state] ++ contract k.contract ++ pendingContract k.pendingContract ++ both 5 k.draw ++
         both 2 k.members ++ be 2 k.stale ++ be 2 k.pendingIn ++ both 8 k.lifetime ++ both 8 k.baseline ++
         be 8 k.preset.toNat ++ be 8 k.budget ++ [verdict k.verdict] ++ [b k.streak] ++ be 4 k.lastVisit.toNat ++
         be 4 k.unmetered ++ be 2 k.periodNumber.toNat ++ be 4 k.periodStart.toNat ++ be 5 k.peak ++ be 4 k.breachTime ++
         be 4 k.excursionTime ++ be 2 k.lastClose.toNat ++ k.stack.flatMap (fun x => address x.outlet ++ [yes x.confirmed])
     | .link l =>
         [match l.mode with
           | .off => 0
           | .once => 1
           | .onChange => 2
           | .every => 3] ++ be 2 l.trigger.toNat ++
         (match l.condition with
           | none => [0, 0, 0]
           | some c => [1, slot c.tenant, c.verdicts.setWidth 8]) ++
         (match l.action with
           | .shed a => [0, slot a]
           | .restore a => [1, slot a]
           | .notify => [2, 0]
           | .latch a => [3, slot a]
           | .close => [4, 0]) ++
         [yes l.guard, if l.armed then 0 else 1, yes l.lastCondition, yes l.guardSet] ++ be 2 l.fireCount
     | .order number x y => [number.getD 0, relay x, indicator y]
     | .shed outlet number x =>
         (match outlet with
           | none => [0, 0]
           | some i => address i) ++
         [number.getD 0, match x with
           | none => free
           | some x => relay x]
     | .node k =>
         [if k.state = .disabled then 0 else 1, nodeState k.state, b k.fitted] ++
         (match k.lastSeq with
           | none => [0, 0]
           | some q => [1, q]) ++
         be 4 k.lastHeard.toNat ++ be 2 k.accepted ++ be 2 k.gaps ++ be 2 k.duplicates ++ be 2 k.outOfOrder ++
         be 2 k.badEntries ++ be 2 k.lateCompletions ++ power k.limit ++ [yes k.noteOwed]
     | .states ns => ns.flatMap (fun x => [nodeState x.1, yes x.2])
     | .closeNumber n => be 2 n.toNat
     | .slotPeriod a n => [slot a] ++ be 2 n.toNat
     | .ident => [0x06, 0x40, 0x01]
     | .status x =>
         let f := x.sticky
         let any := f.noticeLost || f.replyLost || f.transitDrop || f.chainLimit || f.passOverrun
         [match x.opState with
           | .transparent => 0
           | .hold => 1
           | .run => 2,
          yes x.passInFlight,
          b (f.noticeLost.toNat + 2 * f.replyLost.toNat + 4 * f.transitDrop.toNat + 8 * f.chainLimit.toNat +
            16 * f.passOverrun.toNat + 32 * any.toNat + 64 * x.mapAttention.toNat),
          b x.transit, b x.nodeQueue, b x.replies, b x.notices, b x.records, b x.shedQueue, b x.orders] ++
         be 2 x.pendingChanges ++ port x.counts.node ++ be 2 x.counts.disabledDrop ++ be 2 x.counts.transitDrop ++
         port x.counts.uplink ++ be 2 x.counts.throughDrop ++ be 4 x.rowTime.toNat
     | .tags ts => ts) ∧
   (∀ n : Notice,
     let kind : Byte := match n.subject with
       | .link .. => 1
       | .conversion .. => 2
       | .order .. => 3
       | .chain .. => 4
       | .overrun .. => 5
     n.payload = [kind, 0] ++ be 4 n.time.toNat ++ match n.subject with
       | .link l event depth c counter => [b l.val] ++ be 2 event.toNat ++ [b depth, yes c, yes counter]
       | .conversion i flag => address i ++ [match flag with
           | .malformed => 0b001000
           | .saturated => 0b000100
           | .negative => 0b000010
           | .noMeasurement => 0b000001]
       | .order kind a number outlet reason reported =>
           [match kind with
             | .shed => 0
             | .restore => 1,
            slot a, number.getD 0] ++
           (match outlet with
             | none => [0, 0]
             | some i => address i) ++
           [status reason, match reported with
             | some false => 0
             | some true => 1
             | none => 0xFF]
       | .chain event => be 2 event.toNat
       | .overrun a waiting => [slot a, if waiting then 2 else 1]) ∧
   (∀ r : PeriodRecord,
     let body :=
       [1, slot r.tenant] ++ be 2 r.closeNumber.toNat ++ be 2 r.periodNumber.toNat ++ be 4 r.periodStart.toNat ++
       be 4 r.periodEnd.toNat ++ both 8 r.lifetime ++ both 8 r.baseline ++ be 8 r.preset.toNat ++
       be 8 (r.energy.a % 2 ^ 64).toNat ++ be 8 (r.energy.b % 2 ^ 64).toNat ++ be 5 r.peak ++ be 4 r.breachTime ++
       be 4 r.excursionTime ++ be 4 r.unmetered ++ [verdict r.verdict, basis r.basis]
     body.length = 89 ∧ (AccountRecord.period r).bytes = checked body) ∧
   (∀ r : TransferRecord,
     let body :=
       [2, slot r.source] ++ be 4 r.exportTime.toNat ++ [tenantState r.state] ++ contract r.contract ++
       pendingContract r.pendingContract ++ both 8 r.lifetime ++ both 8 r.baseline ++ be 8 r.preset.toNat ++ be 8 r.budget ++
       [verdict r.verdict, b r.streak] ++ be 4 r.lastVisit.toNat ++ be 4 r.unmetered ++ be 2 r.periodNumber.toNat ++
       be 4 r.periodStart.toNat ++ be 5 r.peak ++ be 4 r.breachTime ++ be 4 r.excursionTime ++ be 2 r.lastClose.toNat
     body.length = 113 ∧ (AccountRecord.transfer r).bytes = checked body))

/-- LIMIT_NOTE_OWED_SENT: with room in the queue the lowest UP node that owes a note gets it, with the limit as it
stands (R137, R138); with no room or no owed note the command is not due and nothing changes (log entry 1). -/
def Obligations.OwedLimitNoteGoesToTheLowestNode : Prop :=
  ∀ s : State,
    (∀ n, s.down.queue.length < 16 → (s.roster.nodes.get n).state = .up → (s.roster.nodes.get n).noteOwed = true →
      (∀ m, m < n → ¬ ((s.roster.nodes.get m).state = .up ∧ (s.roster.nodes.get m).noteOwed = true)) →
      exec .limitNoteOwedSent s = .next
        ((s.withRoster { s.roster with
            nodes := s.roster.nodes.set n { s.roster.nodes.get n with noteOwed := false } }).withDown
          (s.down.join (.limit n (s.roster.nodes.get n).limit)))) ∧
    ((16 ≤ s.down.queue.length ∨
        ∀ n, ¬ ((s.roster.nodes.get n).state = .up ∧ (s.roster.nodes.get n).noteOwed = true)) →
      exec .limitNoteOwedSent s = .next s)

/-! ### Frames on the node port (R110, R129 to R132, R23 to R34) -/

/-- The sequence check of Table 7.3, on the node record, with the GAP event of a gap; a READINGS frame from an UP node that
is a duplicate or out of order, or is taken in TRANSPARENT, is checked and forwarded and changes nothing of the map or an
account (R23, R132, R139, R165). -/
def Obligations.SequenceCheckJudgesReadings : Prop :=
  (∀ (k : Node) (q : Byte),
     (k.lastSeq = none → k.judged q = { k with lastSeq := some q, accepted := min 65535 (k.accepted + 1) }) ∧
     ∀ l : Byte, k.lastSeq = some l →
       let d := (q.toNat + 256 - l.toNat) % 256
       (d = 0 → k.judged q = { k with duplicates := min 65535 (k.duplicates + 1) }) ∧
       (d = 1 → k.judged q = { k with lastSeq := some q, accepted := min 65535 (k.accepted + 1) }) ∧
       (2 ≤ d → d ≤ 127 → k.judged q =
         { k with lastSeq := some q, accepted := min 65535 (k.accepted + 1), gaps := min 65535 (k.gaps + (d - 1)) }) ∧
       (128 ≤ d → k.judged q = { k with outOfOrder := min 65535 (k.outOfOrder + 1) })) ∧
  (∀ (s : State) (n : NodeIx) (q : Byte),
     let last := (s.roster.nodes.get n).lastSeq
     let checked := s.withRoster { s.roster with nodes := s.roster.nodes.set n ((s.roster.nodes.get n).judged q) }
     let isGap := ∃ l : Byte, last = some l ∧ 2 ≤ (q.toNat + 256 - l.toNat) % 256 ∧ (q.toNat + 256 - l.toNat) % 256 ≤ 127
     (isGap → sequenceCheck n q s = post .roster (BitVec.ofNat 16 (0x2000 + 4 * n.val + 3)) checked) ∧
     (¬ isGap → sequenceCheck n q s = checked)) ∧
  (∀ (s : State) (n : NodeIx) (f : NodeFrame),
     let heard : Node := { s.roster.nodes.get n with lastHeard := s.time.rowTime }
     let t := forwardReadings n f (sequenceCheck n f.seq (heardFrom n s))
     f.addr = nodeByte n → f.payload.length ≤ Config.maxPayload → (s.roster.nodes.get n).state = .up →
     ((∃ l : Byte, (s.roster.nodes.get n).lastSeq = some l ∧
         ((f.seq.toNat + 256 - l.toNat) % 256 = 0 ∨ 128 ≤ (f.seq.toNat + 256 - l.toNat) % 256)) ∨
       s.mgmt.opState = .transparent) →
     exec (.nodeReadings f) s = .next t ∧ t.map = s.map ∧ t.tenants = s.tenants ∧ t.orders = s.orders ∧
       t.roster = { s.roster with nodes := s.roster.nodes.set n (heard.judged f.seq) })

/-- NODE_READINGS, accepted from an UP node in HOLD or RUN. One valid entry: the code is converted through the outlet's
profile and applied to its map entry, the tenant takes the delta, the record takes the sequence check; every other outlet,
tenant and node, and the profiles, orders, review and time are unchanged (R5, R24, R26, R29, R132). Any payload: a right
shape has its entries taken in their order, a wrong one is one bad entry; so is an entry whose outlet number is 0, above 48
or above the fitted count (R24 to R26). A flag newly set on an outlet with NOTIFY set queues one CONVERSION notice, and no
other does (R34). Then Table 2.2: the update and the flag that each class of scaled reading gives (R29, R33), what each update
writes into the entry (R5, R33) and gives its tenant (R5), and how the attention count follows the flags (R7). -/
def Obligations.AcceptedReadingIsConvertedAndApplied : Prop :=
  (∀ (s : State) (n : NodeIx) (o : Fin 48) (q stamp1 stamp0 hi lo : Byte),
     let k := s.roster.nodes.get n
     let heard : Node := { k with lastHeard := s.time.rowTime }
     let i := mapIndex n o
     let old := s.map.entries.get i
     let u := (s.profiles.get old.profile).updateOf (hi.toNat * 256 + lo.toNat)
     let new := old.updated s.time.rowTime u.1 u.2
     let payload := [stamp1, stamp0, 1, BitVec.ofNat 8 (o.val + 1), hi, lo]
     let m := forwardReadings n ⟨nodeByte n, q, payload⟩ (sequenceCheck n q (heardFrom n s))
     k.state = .up → (∀ l : Byte, k.lastSeq = some l →
       1 ≤ (q.toNat + 256 - l.toNat) % 256 ∧ (q.toNat + 256 - l.toNat) % 256 ≤ 127) → o.val + 1 ≤ k.fitted → s.mgmt.opState ≠ .transparent →
     ∃ t, exec (.nodeReadings ⟨nodeByte n, q, payload⟩) s = .next t ∧
       t.map.entries = s.map.entries.set i new ∧
       t.map.attention = attentionStep old.flags new.flags s.map.attention ∧
       t.map.pendingCount = s.map.pendingCount ∧
       (old.effective.memberOf = none → t.tenants = s.tenants) ∧
       (∀ a f, old.effective.memberOf = some (a, f) →
         t.tenants = s.tenants.set a ((s.tenants.get a).readingDelta f old new)) ∧
       t.roster = { s.roster with nodes := s.roster.nodes.set n (heard.judged q) } ∧
       t.profiles = s.profiles ∧ t.orders = s.orders ∧ t.review = s.review ∧ t.time = s.time ∧ t.down = s.down ∧
       t.mgmt = { s.mgmt with sticky := t.mgmt.sticky } ∧
       (∀ c, u.2 = some c → old.flags &&& c.bit = 0#6 → old.flags.getLsbD 4 = true →
         t.up = (queueNotice (.conversion i c) m).up ∧ t.mgmt = (queueNotice (.conversion i c) m).mgmt) ∧
       ((∀ c, u.2 = some c → old.flags &&& c.bit ≠ 0#6 ∨ old.flags.getLsbD 4 = false) →
         t.up = m.up ∧ t.mgmt = m.mgmt)) ∧
  (∀ (s : State) (n : NodeIx) (f : NodeFrame),
     let k := s.roster.nodes.get n
     let rightShape := ∃ stamp1 stamp0 count entries, f.payload = stamp1 :: stamp0 :: count :: entries ∧
       1 ≤ count.toNat ∧ count.toNat ≤ 48 ∧ entries.length = 3 * count.toNat
     let m := forwardReadings n f (sequenceCheck n f.seq (heardFrom n s))
     f.addr = nodeByte n → f.payload.length ≤ Config.maxPayload → k.state = .up →
     (∀ l : Byte, k.lastSeq = some l →
       1 ≤ (f.seq.toNat + 256 - l.toNat) % 256 ∧ (f.seq.toNat + 256 - l.toNat) % 256 ≤ 127) → s.mgmt.opState ≠ .transparent →
     m.map = s.map ∧ m.tenants = s.tenants ∧ m.profiles = s.profiles ∧ m.time = s.time ∧
     (rightShape → exec (.nodeReadings f) s =
       .next ((entriesOf (f.payload.drop 3)).foldl (intakeEntry n k.fitted) m)) ∧
     (¬ rightShape → exec (.nodeReadings f) s = .next (countBadEntry n m))) ∧
  (∀ (s : State) (n : NodeIx) (fitted : Nat) (o : Byte) (code : Nat),
     (o.toNat = 0 ∨ 48 < o.toNat ∨ fitted < o.toNat) → intakeEntry n fitted s (o, code) = countBadEntry n s) ∧
  (let bit (c : ConvFlag) : BitVec 6 := match c with
     | .malformed => 0b001000
     | .saturated => 0b000100
     | .negative => 0b000010
     | .noMeasurement => 0b000001
   (∀ (s : State) (n : NodeIx) (fitted : Nat) (o : Fin 48) (code : Nat), o.val + 1 ≤ fitted →
      let i := mapIndex n o
      let old := s.map.entries.get i
      let u := (s.profiles.get old.profile).updateOf code
      let new := old.updated s.time.rowTime u.1 u.2
      let entered := s.withMap { s.map with
        entries := s.map.entries.set i new, attention := attentionStep old.flags new.flags s.map.attention }
      let counted := match old.effective.memberOf with
        | none => entered
        | some (a, f) => entered.withTenants (s.tenants.set a ((s.tenants.get a).readingDelta f old new))
      intakeEntry n fitted s (BitVec.ofNat 8 (o.val + 1), code) = match u.2 with
        | none => counted
        | some c =>
          if old.flags &&& bit c = 0 ∧ old.flags.getLsbD 4 = true then queueNotice (.conversion i c) counted else counted) ∧
   (∀ (p : Profile) (code : Nat), code < 2 ^ 16 →
      let e := code / 2 ^ 12
      let m := code % 2 ^ 12
      (code = 0xFFFF → p.updateOf code = (.hold, some .noMeasurement)) ∧
      (1 ≤ e → m ≤ 2047 → p.updateOf code = (.flagOnly, some .malformed)) ∧
      (code ≠ 0xFFFF → (e = 0 ∨ 2048 ≤ m) →
        p.updateOf code = (.apply (p.convert (m * 2 ^ e)).1, (p.convert (m * 2 ^ e)).2))) ∧
   (∀ (e : Outlet) (now : RowTime) (mW : Nat) (flag : Option ConvFlag),
      let flags := match flag with
        | none => e.flags
        | some c => e.flags ||| bit c
      e.updated now (.apply mW) flag = { e with reading := mW, readingTime := now, fresh := true, flags := flags } ∧
      e.updated now .hold flag = { e with fresh := false, flags := flags } ∧
      e.updated now .flagOnly flag = { e with flags := flags })) ∧
  (∀ (k : Tenant) (old new : Outlet),
     let stale := if new.fresh = old.fresh then k.stale else if new.fresh = true then k.stale - 1 else k.stale + 1
     k.readingDelta .a old new = { k with draw := ⟨k.draw.a + new.reading - old.reading, k.draw.b⟩, stale := stale } ∧
     k.readingDelta .b old new = { k with draw := ⟨k.draw.a, k.draw.b + new.reading - old.reading⟩, stale := stale }) ∧
  (∀ (old new : BitVec 6) (count : Nat),
     (old &&& 0b001111 = 0 → new &&& 0b001111 ≠ 0 → attentionStep old new count = count + 1) ∧
     (old &&& 0b001111 ≠ 0 → new &&& 0b001111 = 0 → attentionStep old new count = count - 1) ∧
     ((old &&& 0b001111 = 0 ↔ new &&& 0b001111 = 0) → attentionStep old new count = count)) ∧
  (entriesOf [] = [] ∧ ∀ (o hi lo : Byte) (rest : List Byte),
     entriesOf (o :: hi :: lo :: rest) = (o, hi.toNat * 256 + lo.toNat) :: entriesOf rest) ∧
  (∀ (s : State) (n : NodeIx),
     let k := s.roster.nodes.get n
     countBadEntry n s = s.withRoster { s.roster with
       nodes := s.roster.nodes.set n { k with badEntries := min 65535 (k.badEntries + 1) } } ∧
     heardFrom n s = (received .node s).withRoster { s.roster with
       nodes := s.roster.nodes.set n { k with lastHeard := s.time.rowTime } })

/-- The four node frames leave what they have no part in alone: time, profiles, review, forward mode, links and shed
requests, and the membership, pending change, profile and rank of every outlet (R24, R129). From a DISABLED node they are
dropped: the good and disabled drop counts rise and nothing else changes (R129). -/
def Obligations.NodeFramesKeepTheirBounds : Prop :=
  (∀ (f : NodeFrame) (c : Instr) (s t : State),
     (c = .nodeReadings f ∨ c = .nodeJoin f ∨ c = .nodeOrderDone f ∨ c = .nodeThrough f) → exec c s = .next t →
     t.pending = s.pending ∧ t.time = s.time ∧ t.profiles = s.profiles ∧ t.review = s.review ∧
     t.ports.forward = s.ports.forward ∧ t.ports.uplinkRx = s.ports.uplinkRx ∧ t.links.shedQueue = s.links.shedQueue ∧
     t.links.links = s.links.links ∧
     t.mgmt.opState = s.mgmt.opState ∧ t.mgmt.mapJob = s.mgmt.mapJob ∧ t.mgmt.exportJob = s.mgmt.exportJob ∧
     (∀ i, (t.map.entries.get i).effective = (s.map.entries.get i).effective ∧
       (t.map.entries.get i).pending = (s.map.entries.get i).pending ∧
       (t.map.entries.get i).profile = (s.map.entries.get i).profile ∧
       (t.map.entries.get i).rank = (s.map.entries.get i).rank) ∧
     (∀ a, (t.tenants.get a).state = (s.tenants.get a).state ∧
       (t.tenants.get a).contract = (s.tenants.get a).contract ∧
       (t.tenants.get a).lifetime = (s.tenants.get a).lifetime ∧
       (t.tenants.get a).baseline = (s.tenants.get a).baseline ∧
       (t.tenants.get a).budget = (s.tenants.get a).budget ∧
       (t.tenants.get a).verdict = (s.tenants.get a).verdict)) ∧
  (∀ (s : State) (n : NodeIx) (f : NodeFrame) (c : Instr),
     (c = .nodeReadings f ∨ c = .nodeJoin f ∨ c = .nodeOrderDone f ∨ c = .nodeThrough f) →
     f.addr = nodeByte n → f.payload.length ≤ Config.maxPayload → (s.roster.nodes.get n).state = .disabled →
     exec c s = .next (setCounts (fun k => { k with disabledDrop := bump16 k.disabledDrop }) (received .node s)))

/-- NODE_JOIN from an enabled node: it is UP afterwards; a payload of one byte 1..48 sets the fitted count and clears
the last sequence, any other raises bad entries. NODE_READINGS from an ABSENT or SILENT node brings it UP and is accepted
whatever its sequence. Either posts the UP event for a node that was not UP and sends or owes its LIMIT note (R130 to
R132). -/
def Obligations.JoinAndReadingsBringTheNodeUp : Prop :=
  (∀ (s : State) (n : NodeIx) (f : NodeFrame),
     let k := s.roster.nodes.get n
     f.addr = nodeByte n → f.payload.length ≤ Config.maxPayload → k.state ≠ .disabled →
     ∃ t, exec (.nodeJoin f) s = .next t ∧
       (t.roster.nodes.get n).state = .up ∧ (t.roster.nodes.get n).lastHeard = s.time.rowTime ∧
       (∀ c : Byte, f.payload = [c] → 1 ≤ c.toNat → c.toNat ≤ 48 →
         (t.roster.nodes.get n).fitted = c.toNat ∧ (t.roster.nodes.get n).lastSeq = none ∧
         (t.roster.nodes.get n).badEntries = k.badEntries ∧
         (t.roster.nodes.get n).noteOwed = !s.down.hasRoom ∧
         t.down = if s.down.hasRoom then s.down.join (.limit n k.limit) else s.down) ∧
       ((∀ c : Byte, f.payload = [c] → c.toNat = 0 ∨ 48 < c.toNat) →
         (t.roster.nodes.get n).fitted = k.fitted ∧ (t.roster.nodes.get n).badEntries = bump16 k.badEntries) ∧
       (k.state = .up → t.links = s.links) ∧
       (k.state ≠ .up → storeRoom s = true →
         t.links.arrivals = s.links.arrivals ++ [⟨.roster, ⟨BitVec.ofNat 16 (0x2000 + 4 * n.val), 0⟩⟩]) ∧
       (∀ m, m ≠ n → t.roster.nodes.get m = s.roster.nodes.get m) ∧
       t.map = s.map ∧ t.tenants = s.tenants ∧ t.orders = s.orders) ∧
  (∀ (s : State) (n : NodeIx) (f : NodeFrame),
     let k := s.roster.nodes.get n
     f.addr = nodeByte n → f.payload.length ≤ Config.maxPayload → (k.state = .absent ∨ k.state = .silent) →
     ∃ t, exec (.nodeReadings f) s = .next t ∧
       (t.roster.nodes.get n).state = .up ∧ (t.roster.nodes.get n).lastSeq = some f.seq ∧
       (t.roster.nodes.get n).lastHeard = s.time.rowTime ∧ (t.roster.nodes.get n).fitted = k.fitted ∧
       (t.roster.nodes.get n).accepted = bump16 k.accepted ∧
       (t.roster.nodes.get n).noteOwed = !s.down.hasRoom ∧
       (∀ m, m ≠ n → t.roster.nodes.get m = s.roster.nodes.get m) ∧
       (t.down = if s.down.hasRoom then s.down.join (.limit n k.limit) else s.down) ∧
       (storeRoom s = true →
         t.links.arrivals = s.links.arrivals ++ [⟨.roster, ⟨BitVec.ofNat 16 (0x2000 + 4 * n.val), 0⟩⟩]))

/-- NODE_ORDER_DONE from an enabled node ends the order whose node, number and outlet it names; with valid codes and no
such order it is counted late; with a code outside its values, or a payload of another length, it is a bad entry (R110). The
codes of result and relay state are those of Table 9.5.
ORDER_TIMEOUT at the order's expiry time ends it TIMEOUT (R112; that the time has been reached is judged by log entry 3);
before it, or for a number no order holds, nothing happens (log entry 1). -/
def Obligations.OrdersEndByReportOrTimeout : Prop :=
  (∀ (s : State) (n : NodeIx) (q : Byte), (s.roster.nodes.get n).state ≠ .disabled →
     (∀ (o : Order) (result relay : Byte) (e : Ending), (s.orders.orders.map (·.number)).Nodup →
       o ∈ s.orders.orders → nodeOfOutlet o.outlet = n → endingOf result relay = some e →
       exec (.nodeOrderDone ⟨nodeByte n, q, [o.number, outletByte o.outlet, result, relay]⟩) s
         = .next (endOrder o e (heardFrom n s))) ∧
     (∀ (number outlet result relay : Byte) (e : Ending), endingOf result relay = some e →
       (∀ o ∈ s.orders.orders,
         ¬ (o.number = number ∧ nodeOfOutlet o.outlet = n ∧ outletByte o.outlet = outlet)) →
       exec (.nodeOrderDone ⟨nodeByte n, q, [number, outlet, result, relay]⟩) s
         = .next (modifyNode n (fun k => { k with lateCompletions := bump16 k.lateCompletions }) (heardFrom n s))) ∧
     (∀ number outlet result relay : Byte, (2 < result.toNat ∨ 1 < relay.toNat) →
       exec (.nodeOrderDone ⟨nodeByte n, q, [number, outlet, result, relay]⟩) s
         = .next (countBadEntry n (heardFrom n s))) ∧
     (∀ p : List Byte, p.length ≤ Config.maxPayload → p.length ≠ 4 →
       exec (.nodeOrderDone ⟨nodeByte n, q, p⟩) s = .next (countBadEntry n (heardFrom n s)))) ∧
  (∀ s : State, (s.orders.orders.map (·.number)).Nodup →
     (∀ o ∈ s.orders.orders, reached s.time.rowTime o.expires = true →
       exec (.orderTimeout o.number) s = .next (endOrder o .timeout s)) ∧
     (∀ o ∈ s.orders.orders, reached s.time.rowTime o.expires = false →
       exec (.orderTimeout o.number) s = .next s) ∧
     (∀ number, (∀ o ∈ s.orders.orders, o.number ≠ number) → exec (.orderTimeout number) s = .next s)) ∧
  (∀ on : Bool,
     let relay : Byte := if on then 1 else 0
     endingOf 0 relay = some (.done on) ∧ endingOf 1 relay = some (.refused on) ∧ endingOf 2 relay = some (.fault on) ∧
     (Ending.done on).reported = some on ∧ (Ending.refused on).reported = some on ∧ (Ending.fault on).reported = some on ∧
     Ending.timeout.reported = none ∧ Ending.nodeLost.reported = none)

/-- An ending of an order writes the outlet's relay status and indicator and frees the record: reported ON gives ON;
reported OFF gives OFF_SHED exactly for the DONE of a SHED order whose entry is still in the stack, and OFF otherwise;
no report gives UNKNOWN (R111 to R114, R119). No other outlet changes. A SHED order's unconfirmed entry is confirmed in its
place or removed, no other stack changes, and the ending is reported to whoever asked: to the link, done or failed with an
order placed, or to the SWITCH request that waits, with the ORDER notice first when a shed request failed (R119, R121, R122,
R124, R125). -/
def Obligations.OrderEndingWritesTheRelayAndFreesTheOrder : Prop :=
  ∀ (s : State) (o : Order) (e : Ending), Shedding s → o ∈ s.orders.orders →
    let t := endOrder o e s
    let x := s.map.entries.get o.outlet
    let confirms := e = .done false ∧
      ∃ a g, o.origin = .shed a g ∧ ⟨o.outlet, false⟩ ∈ (s.tenants.get a).stack
    t.orders = { s.orders with orders := s.orders.orders.filter (fun p => p.number != o.number) } ∧
    (∀ j, j ≠ o.outlet → t.map.entries.get j = s.map.entries.get j) ∧
    (∀ a, t.tenants.get a = { s.tenants.get a with stack := (t.tenants.get a).stack }) ∧
    t.time = s.time ∧ t.profiles = s.profiles ∧ t.review = s.review ∧ t.roster = s.roster ∧ t.down = s.down ∧
    t.ports = s.ports ∧ t.links = { s.links with reports := t.links.reports } ∧
    (t.map.entries.get o.outlet = { x with
      relay := (t.map.entries.get o.outlet).relay, indicator := (t.map.entries.get o.outlet).indicator }) ∧
    (e.reported = some true → (t.map.entries.get o.outlet).relay = .on) ∧
    (confirms → (t.map.entries.get o.outlet).relay = .offShed) ∧
    (e.reported = some false → ¬ confirms → (t.map.entries.get o.outlet).relay = .off) ∧
    (e.reported = none → (t.map.entries.get o.outlet).relay = .unknown ∧
      (t.map.entries.get o.outlet).indicator = .unknown) ∧
    (∀ on, e = .refused on → (t.map.entries.get o.outlet).indicator = x.indicator) ∧
    (∀ on, e = .fault on → (t.map.entries.get o.outlet).indicator = .unknown) ∧
    (∀ on, e = .done on →
      (o.indicator = .noChange → (t.map.entries.get o.outlet).indicator = x.indicator) ∧
      (o.indicator = .dark → (t.map.entries.get o.outlet).indicator = .dark) ∧
      (o.indicator = .steady → (t.map.entries.get o.outlet).indicator = .steady) ∧
      (o.indicator = .blink → (t.map.entries.get o.outlet).indicator = .blink)) ∧
    (∀ b, (∀ g, o.origin ≠ .shed b g) → (t.tenants.get b).stack = (s.tenants.get b).stack) ∧
    (∀ a g, o.origin = .shed a g →
      let st := (s.tenants.get a).stack
      (⟨o.outlet, false⟩ ∉ st → (t.tenants.get a).stack = st) ∧
      (⟨o.outlet, false⟩ ∈ st → e = .done false →
        (t.tenants.get a).stack = st.map (fun x => if x.outlet = o.outlet then ⟨o.outlet, true⟩ else x)) ∧
      (⟨o.outlet, false⟩ ∈ st → e ≠ .done false →
        (t.tenants.get a).stack = st.filter (fun x => decide (x.outlet ≠ o.outlet)))) ∧
    (let relay := (t.map.entries.get o.outlet).relay
     let indicator := (t.map.entries.get o.outlet).indicator
     let outcome : Status := match e with
       | .done _ => .done
       | .refused _ => .refused
       | .fault _ => .fault
       | .timeout => .timeout
       | .nodeLost => .nodeLost
     let free (x : State) := x.withMgmt { x.mgmt with switchJob := none }
     (∀ kind a g done, (kind = .shed ∧ o.origin = .shed a g ∧ (done = true ↔ confirms) ∨
         kind = .restore ∧ o.origin = .restore a g ∧ (done = true ↔ e = .done true)) →
       let noted := if done = true then s else
         queueNotice (.order kind a (some o.number) (some o.outlet) outcome e.reported) s
       (∀ l d, g = .link l d →
         t.links = { s.links with reports := s.links.reports ++ [⟨l, d, done, true⟩] } ∧
         t.up = noted.up ∧ t.mgmt = noted.mgmt) ∧
       (∀ tag, g = .management tag false → t.links = s.links ∧ t.up = noted.up ∧ t.mgmt = noted.mgmt) ∧
       (∀ tag j, g = .management tag true → s.mgmt.switchJob = some j →
         let answered := answer .switch j.tag j.ack (if done = true then .ok else outcome)
           (.shed (some o.outlet) (some o.number) (some relay)) (free noted)
         t.links = s.links ∧ t.up = answered.up ∧ t.mgmt = answered.mgmt)) ∧
     (∀ tag, o.origin = .management tag false → t.links = s.links ∧ t.up = s.up ∧ t.mgmt = s.mgmt) ∧
     (∀ tag j, o.origin = .management tag true → s.mgmt.switchJob = some j →
       let answered := answer .switch j.tag j.ack (if outcome = .done then .ok else outcome)
         (.order (some o.number) relay indicator) (free s)
       t.links = s.links ∧ t.up = answered.up ∧ t.mgmt = answered.mgmt))

/-- NODE_THROUGH from an enabled node is forwarded unchanged, and PASS_DOWN joins the node transmit queue unchanged;
each is dropped and counted at a full queue (R129, R165, R167, R168). A READINGS frame is forwarded unchanged in PLAIN,
as a copy with each entry's effective tenant after it in TAGGED, or unchanged when it cannot be tagged, and not at all in
ABSORB; a JOIN is forwarded unchanged in every mode and an ORDER_DONE in none (R165, R166). -/
def Obligations.ThroughFramesPassUnchanged : Prop :=
  (∀ (s : State) (n : NodeIx) (f : NodeFrame), f.addr = nodeByte n → f.payload.length ≤ Config.maxPayload →
    ((s.roster.nodes.get n).state ≠ .disabled →
      (s.up.transit.length < 16 →
        exec (.nodeThrough f) s = .next ((heardFrom n s).withUp
          { s.up with transit := s.up.transit ++ [Frame.make 0x30 f.addr f.seq f.payload] }.take)) ∧
      (16 ≤ s.up.transit.length →
        exec (.nodeThrough f) s = .next
          (setCounts (fun c => { c with transitDrop := bump16 c.transitDrop })
            (setSticky (fun x => { x with transitDrop := true }) (heardFrom n s))))) ∧
    (∀ kind : DownKind,
      let code : Byte := match kind with
        | .request => 0x51
        | .through => 0x30
      (s.down.queue.length < 16 →
        exec (.passDown kind f) s = .next ((received .uplink s).withDown
          (s.down.join (.down (Frame.make code f.addr f.seq f.payload))))) ∧
      (16 ≤ s.down.queue.length →
        exec (.passDown kind f) s = .next
          (setCounts (fun c => { c with throughDrop := bump16 c.throughDrop }) (received .uplink s))))) ∧
  (∀ (f : Frame) (s : State),
     (s.up.transit.length < 16 →
       joinTransit f s = s.withUp { s.up with transit := s.up.transit ++ [f] }.take) ∧
     (16 ≤ s.up.transit.length →
       joinTransit f s = setCounts (fun c => { c with transitDrop := bump16 c.transitDrop })
         (setSticky (fun x => { x with transitDrop := true }) s))) ∧
  (∀ (s : State) (n : NodeIx) (f : NodeFrame),
     let unchanged := joinTransit (Frame.make 0x21 f.addr f.seq f.payload) s
     let rightShape := ∃ stamp1 stamp0 count entries, f.payload = stamp1 :: stamp0 :: count :: entries ∧
       1 ≤ count.toNat ∧ count.toNat ≤ 48 ∧ entries.length = 3 * count.toNat
     (s.ports.forward = .plain → forwardReadings n f s = unchanged) ∧
     (s.ports.forward = .absorb → forwardReadings n f s = s) ∧
     (s.ports.forward = .tagged → ¬ rightShape → forwardReadings n f s = unchanged) ∧
     (∀ (tag : Byte → Byte) (stamp1 stamp0 count : Byte) (entries : List (Byte × Byte × Byte)),
       (∀ o : Fin 48, tag (BitVec.ofNat 8 (o.val + 1)) =
         match (s.map.entries.get (mapIndex n o)).effective.tenant with
         | none => 0
         | some a => BitVec.ofNat 8 (a.val + 1)) →
       (∀ b : Byte, b = 0 ∨ 48 < b.toNat → tag b = 0) →
       s.ports.forward = .tagged → 1 ≤ count.toNat → count.toNat ≤ 48 → entries.length = count.toNat →
       f.payload = stamp1 :: stamp0 :: count :: entries.flatMap (fun e => [e.1, e.2.1, e.2.2]) →
       forwardReadings n f s = joinTransit (Frame.make 0x21 f.addr f.seq
         (stamp1 :: stamp0 :: count :: entries.flatMap (fun e => [e.1, e.2.1, e.2.2, tag e.1]))) s)) ∧
  (∀ (s : State) (n : NodeIx) (f : NodeFrame), f.addr = nodeByte n → f.payload.length ≤ Config.maxPayload →
     (s.roster.nodes.get n).state ≠ .disabled →
     (∃ x, exec (.nodeJoin f) s = .next (joinTransit (Frame.make 0x22 f.addr f.seq f.payload) x) ∧
       x.up.transit = s.up.transit) ∧
     (∃ t, exec (.nodeOrderDone f) s = .next t ∧ t.up.transit = s.up.transit))

/-! ### Receiving (R161 to R164) -/

/-- A receiver in HUNT takes the wire bytes of any frame with its right check as exactly one good frame (R161, R162). The wire
bytes are those of Table 9.1, and the check is the CRC-16 with generator x^16 + x^15 + x^2 + 1 and initial value 0xFFFF over the
four header bytes and the payload, most significant bit first (R161). -/
def Obligations.ReceiverTakesEveryGoodFrame : Prop :=
  (∀ (kind addr seq : Byte) (payload : List Byte), payload.length ≤ Config.maxPayload →
     Receiver.hunt.takeAll (Frame.make kind addr seq payload).wire = (.hunt, [.good])) ∧
  (∀ (kind addr seq : Byte) (payload : List Byte), Frame.make kind addr seq payload =
     ⟨kind, addr, seq, payload, crc16 ([kind, addr, seq, BitVec.ofNat 8 payload.length] ++ payload)⟩) ∧
  (∀ f : Frame, f.wire = [0xC5, f.kind, f.addr, f.seq, BitVec.ofNat 8 f.payload.length] ++ f.payload ++
     [BitVec.ofNat 8 (f.check.toNat / 256), BitVec.ofNat 8 f.check.toNat]) ∧
  (let bit (c : Word16) : Word16 := if c.msb then (c <<< 1) ^^^ 0x8005 else c <<< 1
   ∀ bs : List Byte, crc16 bs =
     bs.foldl (fun (c : Word16) (x : Byte) => Nat.repeat bit 8 (c ^^^ (x.setWidth 16 <<< 8))) 0xFFFF)

/-- FRAME_DISCARD: each good frame that its port does not take raises the good count and the one count Table 9.3 names
(R163). FRAME_ERROR and BYTE_GAP_TIMEOUT at a receiver in HUNT: a length byte above 200 and a wrong check raise their
counts, a frame cut off before its end raises the truncation count, and the receiver is back in HUNT (R162). Nothing else
changes. Then each count by its field: the port's own count rises by one and stops at 65,535, the good count with the receiver
back in HUNT (R164, Table 9.4). -/
def Obligations.BadFramesAreCountedByCause : Prop :=
  (∀ (s : State) (kind : Byte) (f : NodeFrame), f.payload.length ≤ Config.maxPayload →
     (∀ p : Port, kind ∉ ([0x21, 0x22, 0x23, 0x30, 0x41, 0x42, 0x51, 0x52, 0x53, 0x54] : List Byte) →
       exec (.frameDiscard p kind f) s = .next (countDiscard p .unknownKind (received p s))) ∧
     (kind ∈ ([0x21, 0x22, 0x23, 0x30] : List Byte) → (f.addr.toNat = 0 ∨ 32 < f.addr.toNat) →
       exec (.frameDiscard .node kind f) s = .next (countDiscard .node .badAddress (received .node s))) ∧
     (kind ∈ ([0x41, 0x42, 0x51, 0x52, 0x53, 0x54] : List Byte) →
       exec (.frameDiscard .node kind f) s = .next (countDiscard .node .wrongPort (received .node s))) ∧
     (kind ∈ ([0x51, 0x30] : List Byte) → 32 < f.addr.toNat →
       exec (.frameDiscard .uplink kind f) s = .next (countDiscard .uplink .badAddress (received .uplink s))) ∧
     (kind = 0x30 → f.addr = 0 →
       exec (.frameDiscard .uplink kind f) s = .next (countDiscard .uplink .badAddress (received .uplink s))) ∧
     (kind ∈ ([0x21, 0x22, 0x23, 0x41, 0x42, 0x52, 0x53, 0x54] : List Byte) →
       exec (.frameDiscard .uplink kind f) s = .next (countDiscard .uplink .wrongPort (received .uplink s)))) ∧
  (∀ (s : State) (p : Port), receiver p s = .hunt →
     (∀ kind addr seq len : Byte, 200 < len.toNat →
       exec (.frameError p [0xC5, kind, addr, seq, len]) s = .next (countRx p .lengthError s)) ∧
     (∀ f : Frame, f.payload.length ≤ Config.maxPayload →
       f.check ≠ crc16 ([f.kind, f.addr, f.seq, BitVec.ofNat 8 f.payload.length] ++ f.payload) →
       exec (.frameError p f.wire) s = .next (countRx p .checkError s)) ∧
     (∀ (f : Frame) (k : Nat), f.payload.length ≤ Config.maxPayload → 1 ≤ k → k < f.wire.length →
       exec (.byteGapTimeout p (f.wire.take k)) s
         = .next (setCounts (fun c => c.atPort p (fun x => { x with truncated := bump16 x.truncated })) s))) ∧
  (∀ s : State,
     let one (n : Nat) : Nat := min 65535 (n + 1)
     let node (x : Ports) (f : PortCounts → PortCounts) : State :=
       s.withPorts { x with counts := { x.counts with node := f x.counts.node } }
     let uplink (x : Ports) (f : PortCounts → PortCounts) : State :=
       s.withPorts { x with counts := { x.counts with uplink := f x.counts.uplink } }
     received .node s = node { s.ports with nodeRx := .hunt } (fun c => { c with good := one c.good }) ∧
     received .uplink s = uplink { s.ports with uplinkRx := .hunt } (fun c => { c with good := one c.good }) ∧
     countDiscard .node .badAddress s = node s.ports (fun c => { c with badAddress := one c.badAddress }) ∧
     countDiscard .uplink .badAddress s = uplink s.ports (fun c => { c with badAddress := one c.badAddress }) ∧
     countDiscard .node .wrongPort s = node s.ports (fun c => { c with wrongPort := one c.wrongPort }) ∧
     countDiscard .uplink .wrongPort s = uplink s.ports (fun c => { c with wrongPort := one c.wrongPort }) ∧
     countDiscard .node .unknownKind s = node s.ports (fun c => { c with unknownKind := one c.unknownKind }) ∧
     countDiscard .uplink .unknownKind s = uplink s.ports (fun c => { c with unknownKind := one c.unknownKind }) ∧
     countRx .node .lengthError s = node s.ports (fun c => { c with lengthError := one c.lengthError }) ∧
     countRx .uplink .lengthError s = uplink s.ports (fun c => { c with lengthError := one c.lengthError }) ∧
     countRx .node .checkError s = node s.ports (fun c => { c with checkError := one c.checkError }) ∧
     countRx .uplink .checkError s = uplink s.ports (fun c => { c with checkError := one c.checkError }) ∧
     (∀ p, setCounts (fun c => c.atPort p (fun x => { x with truncated := bump16 x.truncated })) s = match p with
       | .node => node s.ports (fun c => { c with truncated := one c.truncated })
       | .uplink => uplink s.ports (fun c => { c with truncated := one c.truncated })))

/-! ### Expiries (R64 to R67, R86, R112, R133, R134) -/

/-- TICK_EXPIRY at its due time posts the generator's event with depth 0 and sets the next due time; before the due time
nothing happens (R86; log entries 1 and 3). REVIEW_TICK at its due time: in RUN it starts a pass at slot 1 with the
closing mark of close_pending and posts 0x0020, or is an overrun when a pass is in flight, with PASS_OVERRUN, 0x0023 and a
notice; out of RUN it only moves its due time (R64 to R67). The periods are those of Table 5.1 and of R179's codes. -/
def Obligations.TicksExpireAtTheirDueTimes : Prop :=
  (∀ (s : State) (g : Fin 6),
     (reached s.time.rowTime (s.time.due.get g) = true → storeRoom s = true →
       exec (.tickExpiry g) s = .next
         ((s.withLinks { s.links with
             arrivals := s.links.arrivals ++ [⟨.timeBase, ⟨BitVec.ofNat 16 (0x0010 + g.val), 0⟩⟩] }).withTime
           { s.time with due := s.time.due.set g (s.time.due.get g + BitVec.ofNat 32 (tickPeriod g)) })) ∧
     (reached s.time.rowTime (s.time.due.get g) = true → storeRoom s = false →
       exec (.tickExpiry g) s = .next
         ((reportChain (BitVec.ofNat 16 (0x0010 + g.val)) s).withTime
           { s.time with due := s.time.due.set g (s.time.due.get g + BitVec.ofNat 32 (tickPeriod g)) })) ∧
     (reached s.time.rowTime (s.time.due.get g) = false → exec (.tickExpiry g) s = .next s)) ∧
  (∀ s : State, reached s.time.rowTime s.time.reviewDue = true →
     let s' := s.withTime { s.time with
       reviewDue := s.time.reviewDue + BitVec.ofNat 32 (reviewPeriodMs s.time.reviewPeriod) }
     (s.mgmt.opState = .run → s.review.pass = .idle →
       exec .reviewTick s = .next (post .review 0x0020 (s'.withReview { s.review with
         pass := .visiting, position := 0, walked := false, closing := s.review.closePending }))) ∧
     (s.mgmt.opState = .run → s.review.pass ≠ .idle →
       exec .reviewTick s = .next (queueNotice (.overrun s.review.position (decide (s.review.pass = .waiting)))
         (post .review 0x0023 (s'.withMgmt { s.mgmt with
           sticky := { s.mgmt.sticky with passOverrun := true } })))) ∧
     (s.mgmt.opState ≠ .run → exec .reviewTick s = .next s')) ∧
  (∀ now due : RowTime, reached now due = true ↔ (now - due).toNat < 2 ^ 31) ∧
  (List.finRange 6).map tickPeriod = [100, 1000, 10000, 60000, 900000, 3600000] ∧
  (List.finRange 7).map reviewPeriodMs = [100, 250, 500, 1000, 2000, 5000, 10000]

/-- NODE_SILENCE of an UP node whose silence timeout has run out: the record, the freshness of its 48 outlets, its orders
and the SILENT event, in this order; the readings, the other nodes and their outlets are kept (R133, R134). Every order of the
node ends NODE_LOST, one after the other in the order they were placed, each with its stack step, relay and indicator UNKNOWN
and its report or answer (R113, R114). For a node that is not due nothing changes (log entry 1). -/
def Obligations.NodeSilenceClearsTheNode : Prop :=
  ∀ (s : State) (n : NodeIx),
    let k := s.roster.nodes.get n
    ((k.state ≠ .up ∨ (s.time.rowTime - k.lastHeard).toNat < s.roster.timeout * 1000) →
      exec (.nodeSilence n) s = .next s) ∧
    (k.state = .up → s.roster.timeout * 1000 ≤ (s.time.rowTime - k.lastHeard).toNat →
      ∃ x t, exec (.nodeSilence n) s = .next t ∧ NodeCleared n .silent s x ∧
        t = post .roster (BitVec.ofNat 16 (0x2000 + 4 * n.val + 1))
          ((s.orders.orders.filter (fun o => decide (o.outlet.val / 48 = n.val))).foldl
            (fun y o => endOrder o .nodeLost y) x) ∧
        (∀ o ∈ s.orders.orders, nodeOfOutlet o.outlet = n →
          (t.map.entries.get o.outlet).relay = .unknown ∧ (t.map.entries.get o.outlet).indicator = .unknown) ∧
        (∀ i, (∀ o ∈ s.orders.orders, nodeOfOutlet o.outlet = n → o.outlet ≠ i) →
          (t.map.entries.get i).relay = (s.map.entries.get i).relay ∧
          (t.map.entries.get i).indicator = (s.map.entries.get i).indicator) ∧
        t.roster = { s.roster with
          nodes := s.roster.nodes.set n { k with state := .silent, lastSeq := none, noteOwed := false } } ∧
        (∀ i, nodeOfOutlet i = n → (t.map.entries.get i).fresh = false) ∧
        (∀ i, nodeOfOutlet i ≠ n → t.map.entries.get i = s.map.entries.get i) ∧
        (∀ i, (t.map.entries.get i).reading = (s.map.entries.get i).reading ∧
          (t.map.entries.get i).readingTime = (s.map.entries.get i).readingTime ∧
          (t.map.entries.get i).effective = (s.map.entries.get i).effective ∧
          (t.map.entries.get i).flags = (s.map.entries.get i).flags) ∧
        ((s.orders.orders.map (·.number)).Nodup →
          t.orders.orders = s.orders.orders.filter (fun o => nodeOfOutlet o.outlet != n)) ∧
        (storeRoom s = true →
          t.links.arrivals = s.links.arrivals ++ [⟨.roster, ⟨BitVec.ofNat 16 (0x2000 + 4 * n.val + 1), 0⟩⟩]) ∧
        t.time = s.time ∧ t.review = s.review ∧ t.profiles = s.profiles ∧ t.down = s.down ∧ t.ports = s.ports)

/-! ### Visits and passes (R53, R68 to R82, R148 to R151) -/

/-- REVIEW_VISIT at slot `i`: a FREE slot is skipped; otherwise the tenant is visited, a changed verdict posts its event,
and on a closing pass a tenant not yet closed gets its PERIOD record and period reset, or leaves the pass WAITING at a
full record buffer (R68 to R80, R148). VISIT_RETRY of a waiting pass with a place free, or with one that became free and was
taken again, is the visit of the waiting slot anew, which may wait again (R80, R152; the mark that a place became free is
log entry 32); otherwise it is not due and nothing happens (log entry 1). After slot 128 the position stays and the walk is
marked over (log entry 4). -/
def Obligations.ReviewVisitTakesTheSlotAtThePosition : Prop :=
  (∀ s : State, s.review.pass = .visiting → s.review.walked = false →
     let i := s.review.position
     let k := s.tenants.get i
     let k' := k.visit s.time.rowTime
     let visited := s.withTenants (s.tenants.set i k')
     let s' := if k'.verdict = k.verdict then visited
       else post .review (BitVec.ofNat 16 (0x1000 + 8 * i.val + k'.verdict.code)) visited
     (k.state = .free → exec .reviewVisit s = .next (advance s)) ∧
     (k.state ≠ .free → (s.review.closing = false ∨ k.lastClose = s.review.closeNumber) →
       exec .reviewVisit s = .next (advance s')) ∧
     (k.state ≠ .free → s.review.closing = true → k.lastClose ≠ s.review.closeNumber → s.up.records.length < 4 →
       exec .reviewVisit s = .next (advance
         ((s'.withUp { s'.up with records := s'.up.records ++
             [AccountRecord.period (k'.periodRecord i s.review.closeNumber s.time.rowTime)] }.take).withTenants
           (s.tenants.set i (k'.periodReset s.review.closeNumber s.time.rowTime))))) ∧
     (k.state ≠ .free → s.review.closing = true → k.lastClose ≠ s.review.closeNumber → 4 ≤ s.up.records.length →
       exec .reviewVisit s = .next ((s'.withUp { s'.up with recordFreed := false }).withReview
         { s.review with pass := .waiting }))) ∧
  (∀ s : State, advance s = s.withReview (if s.review.position.val = 127 then { s.review with walked := true }
     else { s.review with position := s.review.position + 1 })) ∧
  (∀ s : State,
     (s.review.pass = .waiting → s.review.walked = false → (s.up.records.length < 4 ∨ s.up.recordFreed = true) →
       ∃ t, exec .visitRetry s = .next t ∧
         exec .reviewVisit (s.withReview { s.review with pass := .visiting }) = .next t) ∧
     ((s.review.pass ≠ .waiting ∨ 4 ≤ s.up.records.length ∧ s.up.recordFreed = false) →
       exec .visitRetry s = .next s))

/-- A visit takes up the pending contract, sets last visit to now and adds draw × elapsed to each lifetime energy; a
SUSPENDED tenant is not judged, a stale count above the tolerance gives STALE with no more change, and otherwise steps 5 to 8
judge the record with its energy added (R70 to R72). -/
def Obligations.VisitIntegratesAndChecksStaleness : Prop :=
  ∀ (k : Tenant) (now : RowTime),
    let dt := (now - k.lastVisit).toNat
    let u := k.takeUp
    let v := k.visit now
    v.lastVisit = now ∧ v.pendingContract = none ∧ v.contract = u.contract ∧
    v.lifetime.a = min (2 ^ 64 - 1) (k.lifetime.a + k.draw.a * dt) ∧
    v.lifetime.b = min (2 ^ 64 - 1) (k.lifetime.b + k.draw.b * dt) ∧
    v.draw = k.draw ∧ v.members = k.members ∧ v.stale = k.stale ∧ v.stack = k.stack ∧ v.baseline = k.baseline ∧
    v.lastClose = k.lastClose ∧ v.preset = k.preset ∧ v.unmetered = k.unmetered ∧
    (k.state = .suspended → v.verdict = k.verdict ∧ v.streak = u.streak ∧ v.budget = u.budget ∧ v.peak = k.peak ∧
      v.breachTime = k.breachTime ∧ v.excursionTime = k.excursionTime) ∧
    (k.state = .active → u.contract.tolerance < k.stale →
      v.verdict = .stale ∧ v.streak = 0 ∧ v.budget = u.budget ∧ v.peak = k.peak ∧ v.breachTime = k.breachTime ∧
      v.excursionTime = k.excursionTime) ∧
    (k.state = .active → v = { u with lastVisit := now, lifetime := v.lifetime }.judge dt)

/-- When a tenant is over, its q and its excess, under each basis (R73, R74). -/
def Obligations.OverAndExcessFollowTheBasis : Prop :=
  ∀ k : Tenant,
    let a := k.contract.capacity.a.value.toNat * 10 ^ k.contract.capacity.a.scale.toNat * 1000
    let b := k.contract.capacity.b.value.toNat * 10 ^ k.contract.capacity.b.scale.toNat * 1000
    (k.contract.basis = .combined →
      k.q = k.draw.a + k.draw.b ∧ (k.over = true ↔ a < k.draw.a + k.draw.b) ∧
      (k.over = true → k.excess + a = k.q) ∧ (k.over = false → k.excess = 0)) ∧
    (k.contract.basis = .perFeed →
      k.q = max k.draw.a k.draw.b ∧ (k.over = true ↔ a < k.draw.a ∨ b < k.draw.b) ∧
      k.excess = (if a < k.draw.a then k.draw.a - a else 0) + (if b < k.draw.b then k.draw.b - b else 0))

/-- Step 7, for a judged tenant that is over (R77), with the period fields of step 8. -/
def Obligations.OverTenantSpendsItsBudget : Prop :=
  ∀ (k : Tenant) (dt : Nat), k.stale ≤ k.contract.tolerance → k.over = true →
    (k.judge dt).streak = 0 ∧
    (∀ b, k.contract.burst = some b → k.excess * dt ≤ k.budget →
      (k.judge dt).budget = k.budget - k.excess * dt ∧ (k.judge dt).verdict = .excursion) ∧
    (∀ b, k.contract.burst = some b → k.budget < k.excess * dt →
      (k.judge dt).budget = 0 ∧ (k.judge dt).verdict = .breach) ∧
    (k.contract.burst = none → (k.judge dt).budget = 0 ∧ (k.judge dt).verdict = .breach) ∧
    (∀ b, k.contract.burst = some b → dt = 0 → (k.judge dt).verdict = .excursion) ∧
    (k.budget ≤ k.contract.allowance → (k.judge dt).budget ≤ k.contract.allowance)

/-- Step 6, for a judged tenant that is not over: the refill, the release streak and the warning test (R75, R76). Step 8,
for any judged tenant: peak, breach time and excursion time (R78). -/
def Obligations.TenantNotOverRefillsAndPeriodFieldsFollow : Prop :=
  (∀ (k : Tenant) (dt : Nat), k.stale ≤ k.contract.tolerance → k.over = false →
     let a := k.contract.capacity.a.mW
     let b := k.contract.capacity.b.mW
     let near := match k.contract.basis with
       | .combined => k.contract.warn * a ≤ (k.draw.a + k.draw.b) * 100
       | .perFeed => k.contract.warn * a ≤ k.draw.a * 100 ∨ k.contract.warn * b ≤ k.draw.b * 100
     (∀ x, k.contract.burst = some x →
       (k.judge dt).budget = min (k.budget + x.refill * dt * 1000) (x.allowance * 10 ^ 9)) ∧
     (k.contract.burst = none → (k.judge dt).budget = 0) ∧
     (k.verdict = .breach → k.streak + 1 < k.contract.release →
       (k.judge dt).verdict = .breach ∧ (k.judge dt).streak = k.streak + 1) ∧
     ((k.verdict ≠ .breach ∨ k.contract.release ≤ k.streak + 1) →
       (k.judge dt).streak = 0 ∧ (near → (k.judge dt).verdict = .near) ∧ (¬ near → (k.judge dt).verdict = .within))) ∧
  (∀ (k : Tenant) (dt : Nat), k.stale ≤ k.contract.tolerance →
     (k.judge dt).peak = max k.peak k.q ∧
     (k.judge dt).breachTime = (if (k.judge dt).verdict = .breach then min (2 ^ 32 - 1) (k.breachTime + dt)
       else k.breachTime) ∧
     (k.judge dt).excursionTime = (if (k.judge dt).verdict = .excursion then min (2 ^ 32 - 1) (k.excursionTime + dt)
       else k.excursionTime))

/-- The take-up of a pending contract: budget by the burst parts before and after, streak kept only under the same basis
and capacities in mW, verdict unchanged (R53). -/
def Obligations.ContractTakeUpAdjustsBudgetAndStreak : Prop :=
  ∀ k : Tenant,
    (k.pendingContract = none → k.takeUp = k) ∧
    ∀ c, k.pendingContract = some c →
      k.takeUp = { k with
        contract := c, pendingContract := none, budget := k.takeUp.budget, streak := k.takeUp.streak } ∧
      (k.contract.burst = none → c.burst = none → k.takeUp.budget = 0) ∧
      (k.contract.burst ≠ none → c.burst = none → k.takeUp.budget = 0) ∧
      (∀ b, k.contract.burst = none → c.burst = some b → k.takeUp.budget = b.allowance * 10 ^ 9) ∧
      (∀ b, k.contract.burst ≠ none → c.burst = some b → k.takeUp.budget = min k.budget (b.allowance * 10 ^ 9)) ∧
      (k.contract.basis = c.basis → k.contract.capacity.a.mW = c.capacity.a.mW →
        k.contract.capacity.b.mW = c.capacity.b.mW → k.takeUp.streak = k.streak) ∧
      ((k.contract.basis ≠ c.basis ∨ k.contract.capacity.a.mW ≠ c.capacity.a.mW ∨
        k.contract.capacity.b.mW ≠ c.capacity.b.mW) → k.takeUp.streak = 0)

/-- The PERIOD record of a close and the period reset: period energy is lifetime − baseline + preset held within the
signed 64-bit range, baselines catch up and the period counters start afresh (R149 to R151). -/
def Obligations.PeriodCloseRecordsAndResets : Prop :=
  ∀ (k : Tenant) (i : Slot) (n : Word16) (now : RowTime),
    let r := k.periodRecord i n now
    let held (x : Int) : Int := if 2 ^ 63 - 1 < x then 2 ^ 63 - 1 else if x < -(2 ^ 63) then -(2 ^ 63) else x
    r.energy.a = held ((k.lifetime.a : Int) - k.baseline.a + k.preset.toInt) ∧
    r.energy.b = held ((k.lifetime.b : Int) - k.baseline.b + k.preset.toInt) ∧
    r.tenant = i ∧ r.closeNumber = n ∧ r.periodNumber = k.periodNumber ∧ r.periodStart = k.periodStart ∧
    r.periodEnd = now ∧ r.lifetime = k.lifetime ∧ r.baseline = k.baseline ∧ r.preset = k.preset ∧ r.peak = k.peak ∧
    r.breachTime = k.breachTime ∧ r.excursionTime = k.excursionTime ∧ r.unmetered = k.unmetered ∧
    r.verdict = k.verdict ∧ r.basis = k.contract.basis ∧
    k.periodReset n now = { k with
      baseline := k.lifetime, peak := 0, breachTime := 0, excursionTime := 0, unmetered := 0,
      periodNumber := k.periodNumber + 1, periodStart := now, lastClose := n }

/-- PASS_END: every pending change is in force and gone, 0x0021 is posted, a closing pass that has closed every non-FREE
slot clears close_pending and posts 0x0022, and the engine is IDLE at slot 1 (R12, R81, R154). The deltas keep the accounts
exact (R9); an outlet that leaves its tenant leaves its shed stack, and goes from OFF_SHED to OFF where its entry was confirmed
(R10). These actions are `endPass`, which SET_STATE takes too when it leaves RUN (R82). -/
def Obligations.PassEndAppliesStagedChanges : Prop :=
  (∀ s : State, s.review.pass = .visiting → s.review.walked = true → exec .passEnd s = .next (endPass s)) ∧
  (∀ s : State,
    let t := endPass s
    (∀ i, t.map.entries.get i = { s.map.entries.get i with
      pending := none, effective := ((s.map.entries.get i).pending).getD (s.map.entries.get i).effective,
      relay := (t.map.entries.get i).relay }) ∧
    (∀ a, t.tenants.get a = { s.tenants.get a with
      draw := (t.tenants.get a).draw, members := (t.tenants.get a).members, stale := (t.tenants.get a).stale,
      pendingIn := (t.tenants.get a).pendingIn, stack := (t.tenants.get a).stack }) ∧
    (Accounts s → Accounts t) ∧
    (Shedding s →
      (∀ a, (t.tenants.get a).stack = (s.tenants.get a).stack.filter (fun x =>
        decide ((t.map.entries.get x.outlet).effective.memberOf.map (·.1) = some a))) ∧
      (∀ i a, ⟨i, true⟩ ∈ (s.tenants.get a).stack → ⟨i, true⟩ ∉ (t.tenants.get a).stack →
        (t.map.entries.get i).relay = .off) ∧
      (∀ i, (∀ a, ⟨i, true⟩ ∈ (s.tenants.get a).stack → ⟨i, true⟩ ∈ (t.tenants.get a).stack) →
        (t.map.entries.get i).relay = (s.map.entries.get i).relay)) ∧
    t.time = s.time ∧ t.profiles = s.profiles ∧ t.orders = s.orders ∧ t.roster = s.roster ∧ t.down = s.down ∧
    t.ports = s.ports ∧
    (Accounts s → t.map.pendingCount = 0) ∧
    t.review.pass = .idle ∧ t.review.position = 0 ∧ t.review.walked = false ∧ t.review.closing = false ∧
    t.review.closeNumber = s.review.closeNumber ∧
    (s.review.closing = true →
      (∀ a, (s.tenants.get a).state ≠ .free → (s.tenants.get a).lastClose = s.review.closeNumber) →
      t.review.closePending = false ∧
      (s.links.chain.length + s.links.arrivals.length < 63 →
        t.links.arrivals = s.links.arrivals ++ [⟨.review, ⟨0x0021, 0⟩⟩, ⟨.review, ⟨0x0022, 0⟩⟩])) ∧
    ((s.review.closing = false ∨
        ∃ a, (s.tenants.get a).state ≠ .free ∧ (s.tenants.get a).lastClose ≠ s.review.closeNumber) →
      t.review.closePending = s.review.closePending ∧
      (storeRoom s = true → t.links.arrivals = s.links.arrivals ++ [⟨.review, ⟨0x0021, 0⟩⟩])))

/-- Effective membership does not change while a pass is in flight (R4). -/
def Obligations.MembershipHoldsStillDuringAPass : Prop :=
  ∀ s t : State, step s = .next t → passInFlight s = true → passInFlight t = true →
    ∀ i, (t.map.entries.get i).effective = (s.map.entries.get i).effective

/-- A tenant's lifetime energy never decreases from its creation to its removal (R42). -/
def Obligations.LifetimeEnergyNeverDecreases : Prop :=
  ∀ s t : State, Periods s → step s = .next t →
    ∀ a, (s.tenants.get a).state ≠ .free → (t.tenants.get a).state ≠ .free →
      (s.tenants.get a).lifetime.a ≤ (t.tenants.get a).lifetime.a ∧
      (s.tenants.get a).lifetime.b ≤ (t.tenants.get a).lifetime.b

/-! ### Event links (R90 to R100) -/

/-- EVENT_SCAN: an outcome event of the chain in hand comes before the events of other blocks; a taken 0x0021 releases
every guard; out of RUN the event is discarded, at depth 4 it is discarded and reported, otherwise the 64 links are
scanned in index order (R90, R91). Among blocks the command may prefer a poster (R88; log entry 16); the event has left the
store before its scan (log entry 27), and the operating state is that of its taking (R91). -/
def Obligations.EventScanTakesTheNextEvent : Prop :=
  ∀ (s : State) (prefer : Option EventSource) (e : Event) (l : LinkTable),
    ((∃ rest, s.links.chain = e :: rest ∧ l = { s.links with chain := rest }) ∨
      (s.links.chain = [] ∧ ∃ a before after, a.event = e ∧ s.links.arrivals = before ++ a :: after ∧
        l = { s.links with arrivals := before ++ after } ∧
        ((prefer = some a.source ∧ ∀ b ∈ before, b.source ≠ a.source) ∨
          (before = [] ∧ (prefer = none ∨ ∀ b ∈ s.links.arrivals, prefer ≠ some b.source))))) →
    let s' := if e.id = 0x0021 then (s.withLinks { l with
      links := l.links.map (fun k => { k with guardSet := false }) }) else s.withLinks l
    (s.mgmt.opState ≠ .run → exec (.eventScan prefer) s = .next s') ∧
    (s.mgmt.opState = .run → 4 ≤ e.depth →
      exec (.eventScan prefer) s = .next (queueNotice (.chain e.id)
        (s'.withMgmt { s.mgmt with sticky := { s.mgmt.sticky with chainLimit := true } }))) ∧
    (s.mgmt.opState = .run → e.depth < 4 →
      exec (.eventScan prefer) s = .next ((List.finRange 64).foldl (scanLink e) s'))

/-- What the scan does at one link: no part for another trigger, for OFF or under a guard; ONCE acts when c is true and
ARMED; ON_CHANGE on a change of c, with the counter-action when c is false; EVERY whenever c is true (R92 to R95). The
condition c is true when absent, or when its tenant is not FREE and has a verdict in the set (R92); SHED and RESTORE are each
other's counter-actions, and the other actions their own (R94). -/
def Obligations.LinkActsByItsMode : Prop :=
  ∀ (e : Event) (s : State) (l : LinkIx) (c : Bool),
    let k := s.links.links.get l
    let code (v : Verdict) : Nat := match v with
      | .within => 0
      | .near => 1
      | .excursion => 2
      | .breach => 3
      | .stale => 4
      | .held => 5
    let counter : LinkAction := match k.action with
      | .shed a => .restore a
      | .restore a => .shed a
      | .notify => .notify
      | .latch a => .latch a
      | .close => .close
    let queued := (∃ a, k.action = .shed a) ∨ (∃ a, k.action = .restore a)
    (c = true ↔ ∀ x, k.condition = some x → (s.tenants.get x.tenant).state ≠ .free ∧
      x.verdicts.getLsbD (code (s.tenants.get x.tenant).verdict) = true) →
    ((k.trigger ≠ e.id ∨ k.mode = .off ∨ (k.guard = true ∧ k.guardSet = true)) → scanLink e s l = s) ∧
    (k.trigger = e.id → ¬ (k.guard = true ∧ k.guardSet = true) →
      (k.mode = .once → (c = false ∨ k.armed = false) → scanLink e s l = s) ∧
      (k.mode = .once → c = true → k.armed = true → ∀ armed : Bool,
        (armed = true ↔ queued ∧ 8 ≤ s.links.shedQueue.length) →
        scanLink e s l = performAction l k.action false true e (modifyLink l (fun x => { x with armed := armed }) s)) ∧
      (k.mode = .onChange → c = k.lastCondition → scanLink e s l = s) ∧
      (k.mode = .onChange → c = true → k.lastCondition = false →
        scanLink e s l = performAction l k.action false true e
          (modifyLink l (fun x => { x with lastCondition := true }) s)) ∧
      (k.mode = .onChange → c = false → k.lastCondition = true →
        scanLink e s l = performAction l counter true false e
          (modifyLink l (fun x => { x with lastCondition := false }) s)) ∧
      (k.mode = .every → c = false → scanLink e s l = s) ∧
      (k.mode = .every → c = true → scanLink e s l = performAction l k.action false true e s))

/-- What a performed action does: the fire count rises, a guard is set, and then SHED and RESTORE join the shed request
queue or fail at 8 entries, NOTIFY queues a LINK notice, LATCH latches a non-FREE target, CLOSE starts a close when none
is pending; an outcome known at once is posted one level deeper (R95 to R97, R99, R100, R147). An outcome event joins the tail
of the chain with its ID 0x3000 + 2 × l + r, an event of another block the tail of the events that wait; at 64 events either is
discarded and reported by CHAIN_LIMIT and a CHAIN notice, and a 0x0021 discarded so releases every guard (R90, R91, R96). -/
def Obligations.PerformedActionHasItsOutcome : Prop :=
  (∀ (l : LinkIx) (counter c : Bool) (e : Event) (s : State),
    let s' := modifyLink l (fun k =>
      { k with fireCount := min 65535 (k.fireCount + 1), guardSet := k.guardSet || k.guard }) s
    let done := postOutcome l true (e.depth + 1)
    let failed := postOutcome l false (e.depth + 1)
    (∀ a, s.links.shedQueue.length < 8 →
      performAction l (.shed a) counter c e s = s'.withLinks { s'.links with
        shedQueue := s.links.shedQueue ++ [⟨.shed, a, .link l (e.depth + 1)⟩] } ∧
      performAction l (.restore a) counter c e s = s'.withLinks { s'.links with
        shedQueue := s.links.shedQueue ++ [⟨.restore, a, .link l (e.depth + 1)⟩] }) ∧
    (∀ a, 8 ≤ s.links.shedQueue.length →
      performAction l (.shed a) counter c e s = failed s' ∧ performAction l (.restore a) counter c e s = failed s') ∧
    performAction l .notify counter c e s =
      (if s.up.notices.length < 32 then done else failed) (queueNotice (.link l e.id e.depth c counter) s') ∧
    (∀ a, (s.tenants.get a).state ≠ .free →
      performAction l (.latch a) counter c e s = done (s'.withTenants
        (s.tenants.set a { s.tenants.get a with baseline := (s.tenants.get a).lifetime }))) ∧
    (∀ a, (s.tenants.get a).state = .free → performAction l (.latch a) counter c e s = failed s') ∧
    (s.review.closePending = false →
      performAction l .close counter c e s = done (s'.withReview { s.review with
        closeNumber := s.review.closeNumber + 1, closePending := true })) ∧
    (s.review.closePending = true → performAction l .close counter c e s = failed s')) ∧
  (∀ s : State,
     let held := s.links.chain.length + s.links.arrivals.length
     (∀ (l : LinkIx) (done : Bool) (depth : Nat),
       let id : Word16 := BitVec.ofNat 16 (0x3000 + 2 * l.val + if done then 0 else 1)
       (held < 64 → postOutcome l done depth s = s.withLinks { s.links with chain := s.links.chain ++ [⟨id, depth⟩] }) ∧
       (64 ≤ held → postOutcome l done depth s = reportChain id s)) ∧
     (∀ (poster : EventSource) (id : Word16),
       (held < 64 → post poster id s = s.withLinks { s.links with
         arrivals := s.links.arrivals ++ [⟨poster, ⟨id, 0⟩⟩] }) ∧
       (64 ≤ held → id ≠ 0x0021 → post poster id s = reportChain id s) ∧
       (64 ≤ held → id = 0x0021 → post poster id s = reportChain id (s.withLinks { s.links with
         links := s.links.links.map (fun k => { k with guardSet := false }) }))) ∧
     (∀ id : Word16, reportChain id s =
       queueNotice (.chain id) (s.withMgmt { s.mgmt with sticky := { s.mgmt.sticky with chainLimit := true } })))

/-- SHED_REPORT between two chains: a ONCE link whose request placed no order is ARMED again, then its outcome event is
posted with the reported depth, or discarded and reported when the event store is full (R90); during a chain the report waits
(R98). With no report waiting the command is not due and nothing changes (log entry 1). -/
def Obligations.ShedReportRearmsAndPosts : Prop :=
  ∀ s : State,
    (∀ r rest, s.links.chain = [] → s.links.reports = r :: rest → s.links.arrivals.length < 64 →
      let k := s.links.links.get r.link
      exec .shedReport s = .next (s.withLinks { s.links with
        reports := rest
        links := s.links.links.set r.link
          (if r.placed = false ∧ k.mode = .once then { k with armed := true } else k)
        arrivals := s.links.arrivals ++
          [⟨.report, ⟨BitVec.ofNat 16 (0x3000 + 2 * r.link.val + if r.done then 0 else 1), r.depth⟩⟩] })) ∧
    (∀ r rest, s.links.chain = [] → s.links.reports = r :: rest → 64 ≤ s.links.arrivals.length →
      let k := s.links.links.get r.link
      exec .shedReport s = .next (reportChain (BitVec.ofNat 16 (0x3000 + 2 * r.link.val + if r.done then 0 else 1))
        (s.withLinks { s.links with
          reports := rest
          links := s.links.links.set r.link
            (if r.placed = false ∧ k.mode = .once then { k with armed := true } else k) }))) ∧
    ((s.links.chain ≠ [] ∨ s.links.reports = []) → exec .shedReport s = .next s)

/-- The LINKS unit: SET_LINK writes the whole link with its running state reset, READ_LINK returns it, REARM arms it, each
after the chain in hand (R90, R101 to R103; log entry 5). The chain in hand is taken to its end event by event, as by EVENT_SCAN.
A chain always ends: each outcome is one level deeper and depth 4 is not scanned (R90). -/
def Obligations.LinksUnitWorksBetweenChains : Prop :=
  (∀ (s : State) (r : Request), Admitted .links r s →
     let s' := received .uplink (finishChain s)
     (∀ l k, Args.setLink r.args = some (l, k) →
       k.armed = true ∧ k.lastCondition = false ∧ k.guardSet = false ∧ k.fireCount = 0 ∧
       exec (.setLink r) s = .next (answer .links r.tag (ackWanted r) .ok .none
         (s'.withLinks { s'.links with links := s'.links.links.set l k }))) ∧
     (∀ l, Args.link r.args = some l →
       exec (.readLink r) s = .next (answer .links r.tag true .ok (.link (s'.links.links.get l)) s') ∧
       exec (.rearm r) s = .next (answer .links r.tag (ackWanted r) .ok .none
         (s'.withLinks { s'.links with
           links := s'.links.links.set l { s'.links.links.get l with armed := true } }))) ∧
     (s.links.chain = [] → finishChain s = s)) ∧
  (∀ s : State, LinksSound s → (finishChain s).links.chain = [] ∧ LinksSound (finishChain s)) ∧
  (∀ (s t : State) (prefer : Option EventSource), LinksSound s → s.links.chain ≠ [] →
     exec (.eventScan prefer) s = .next t → finishChain s = finishChain t)

/-! ### The shed engine and the SWITCH unit (R107, R108, R115 to R125) -/

/-- The number an order gets is the first from the next order number on, wrapping from 255 to 1, that no outstanding
order holds, found within 33 tries; the next order number becomes the one after it (R107). An order is placed when the five
checks pass, and the first that fails is the refusal (R108); its record carries the issue time and the expiry time by the
timeout in force (R109), and its ORDER frame joins the tail of the node transmit queue. Nothing else changes. -/
def Obligations.OrderNumbersRoll : Prop :=
  (∀ (s : State) (i : OutletIx) (relay : RelayAction) (indicator : IndicatorAction) (origin : OrderOrigin),
     Shedding s → placeRefusal i s = none →
     let t := placeOrder i relay indicator origin s
     let after (n : Byte) : Byte := if n = 255 then 1 else n + 1
     ∃ k, k < 33 ∧
       (∀ j, j < k → ∃ o ∈ s.orders.orders, o.number = Nat.repeat after j s.orders.next) ∧
       (∀ o ∈ s.orders.orders, o.number ≠ Nat.repeat after k s.orders.next) ∧
       t.orders.orders = s.orders.orders ++ [newOrder i relay indicator origin s] ∧
       (newOrder i relay indicator origin s).number = Nat.repeat after k s.orders.next ∧
       t.orders.next = after (Nat.repeat after k s.orders.next)) ∧
  (∀ (s : State) (i : OutletIx),
     let node : NodeIx := ⟨i.val / 48, by omega⟩
     let idle := ∀ o ∈ s.orders.orders, o.outlet ≠ i
     (s.mgmt.opState = .transparent → placeRefusal i s = some .wrongState) ∧
     (s.mgmt.opState ≠ .transparent →
       ((s.roster.nodes.get node).state ≠ .up → placeRefusal i s = some .nodeNotUp) ∧
       ((s.roster.nodes.get node).state = .up →
         (¬ idle → placeRefusal i s = some .busy) ∧
         (idle → 32 ≤ s.orders.orders.length → placeRefusal i s = some .tableFull) ∧
         (idle → s.orders.orders.length < 32 →
           (16 ≤ s.down.queue.length → placeRefusal i s = some .queueFull) ∧
           (s.down.queue.length < 16 → placeRefusal i s = none))))) ∧
  (∀ (s : State) (i : OutletIx) (relay : RelayAction) (indicator : IndicatorAction) (origin : OrderOrigin),
     let o := newOrder i relay indicator origin s
     o.outlet = i ∧ o.relay = relay ∧ o.indicator = indicator ∧ o.origin = origin ∧ o.issued = s.time.rowTime ∧
     o.expires = s.time.rowTime + BitVec.ofNat 32 s.orders.timeout ∧
     placeOrder i relay indicator origin s =
       (s.withOrders { s.orders with
         orders := s.orders.orders ++ [o], next := if o.number = 255 then 1 else o.number + 1 }).withDown
         (s.down.join (.order ⟨i.val / 48, by omega⟩ o.number (BitVec.ofNat 8 (i.val % 48 + 1)) relay indicator))) ∧
  (∀ (d : NodeTx) (x : NodeItem),
     (d.tx ≠ none → d.join x = { d with queue := d.queue ++ [x] }) ∧
     (d.tx = none → d.queue = [] → d.join x = NodeTx.sendDone { d with queue := [x] }))

/-- SHED_REQUEST_TAKE of the idle engine: a SHED fails for a FREE tenant or a full stack and starts a search otherwise;
a RESTORE fails by its checks, or places an ON order for the confirmed top entry, pops it and writes OFF (R115, R116,
R120). -/
def Obligations.ShedRequestTakeHandlesTheHead : Prop :=
  ∀ (s : State) (r : ShedRequest) (rest : List ShedRequest),
    s.orders.search = none → s.links.shedQueue = r :: rest →
    let s' := s.withLinks { s.links with shedQueue := rest }
    let k := s.tenants.get r.tenant
    let fails (reason : Status) := exec .shedRequestTake s = .next (failShedRequest r.kind r.tenant r.origin reason s')
    (k.state = .free → fails .notFound) ∧
    (r.kind = .shed → k.state ≠ .free → 16 ≤ k.stack.length → fails .stackFull) ∧
    (r.kind = .shed → k.state ≠ .free → k.stack.length < 16 →
      exec .shedRequestTake s = .next (s'.withOrders { s.orders with
        search := some { tenant := r.tenant, origin := r.origin, position := 0, best := none } })) ∧
    (r.kind = .restore → k.state ≠ .free → k.stack = [] → fails .notFound) ∧
    (∀ below i, r.kind = .restore → k.state ≠ .free → k.stack = below ++ [⟨i, false⟩] → fails .busy) ∧
    (∀ below i reason, r.kind = .restore → k.state ≠ .free → k.stack = below ++ [⟨i, true⟩] →
      placeRefusal i s = some reason → fails reason) ∧
    (∀ below i, r.kind = .restore → k.state ≠ .free → k.stack = below ++ [⟨i, true⟩] → placeRefusal i s = none →
      let p := placeOrder i .on .dark (.restore r.tenant r.origin) s'
      exec .shedRequestTake s = .next
        ((p.withTenants (s.tenants.set r.tenant { k with stack := below })).withMap
          { s.map with entries := s.map.entries.set i { s.map.entries.get i with relay := .off } }))

/-- SHED_SEARCH_STEP reads the entry at the position, which becomes the best candidate when it is a candidate of lower
rank than the best so far (R117); the step at index 1535 leaves position 1536, outside Table 6.2's 0..1535, by which the model
marks the walk as over (log entry 4). SHED_SEARCH_END after index 1535, that is at position 1536: the checks of R118 in their
order, each failing the request; otherwise an OFF order is placed and the outlet pushed unconfirmed. The search is IDLE in every
case (R118). -/
def Obligations.ShedSearchFindsAndPlaces : Prop :=
  (∀ (s : State) (q : Search) (i : OutletIx), s.orders.search = some q → q.position = i.val →
     let e := s.map.entries.get i
     let candidate := (∃ f, e.effective.memberOf = some (q.tenant, f)) ∧ e.flags.getLsbD 5 = true ∧ e.relay = .on ∧
       1 ≤ e.rank.val ∧ ∀ o ∈ s.orders.orders, o.outlet ≠ i
     let better := ∀ j r, q.best = some (j, r) → e.rank.val < r.val
     (candidate → better → exec .shedSearchStep s = .next (s.withOrders { s.orders with
       search := some { q with position := q.position + 1, best := some (i, e.rank) } })) ∧
     (¬ (candidate ∧ better) → exec .shedSearchStep s = .next (s.withOrders { s.orders with
       search := some { q with position := q.position + 1 } }))) ∧
  (∀ (s : State) (q : Search), s.orders.search = some q → 1536 ≤ q.position →
     let s' := s.withOrders { s.orders with search := none }
     let k := s.tenants.get q.tenant
     let fails (reason : Status) := exec .shedSearchEnd s = .next (failShedRequest .shed q.tenant q.origin reason s')
     (k.state = .free → fails .notFound) ∧
     (q.best = none → fails .notFound) ∧
     let candidate (i : OutletIx) :=
       let e := s.map.entries.get i
       (∃ f, e.effective.memberOf = some (q.tenant, f)) ∧ e.flags.getLsbD 5 = true ∧ e.relay = .on ∧ 1 ≤ e.rank.val ∧
         ∀ o ∈ s.orders.orders, o.outlet ≠ i
     (∀ i r, q.best = some (i, r) → ¬ candidate i → fails .notFound) ∧
     (∀ i r, k.state ≠ .free → q.best = some (i, r) → candidate i → 16 ≤ k.stack.length → fails .stackFull) ∧
     (∀ i r reason, k.state ≠ .free → q.best = some (i, r) → candidate i → k.stack.length < 16 →
       placeRefusal i s = some reason → fails reason) ∧
     (∀ i r, k.state ≠ .free → q.best = some (i, r) → candidate i → k.stack.length < 16 → placeRefusal i s = none →
       exec .shedSearchEnd s = .next ((placeOrder i .off .blink (.shed q.tenant q.origin) s').withTenants
         (s.tenants.set q.tenant { k with stack := k.stack ++ [⟨i, false⟩] }))))

/-- A shed request that fails with no order placed queues an ORDER notice and then reports: to its link, or to the SWITCH unit, which answers
the reason when a reply is owed (R122, R125). The answer's relay status byte without an order is a free value (log
entry 7). -/
def Obligations.FailedShedRequestIsNotedAndReported : Prop :=
  ∀ (kind : ShedKind) (a : Slot) (reason : Status) (s : State),
    let s' := queueNotice (.order kind a none none reason none) s
    (∀ l d, failShedRequest kind a (.link l d) reason s =
      s'.withLinks { s.links with reports := s.links.reports ++ [⟨l, d, false, false⟩] }) ∧
    (∀ tag, failShedRequest kind a (.management tag false) reason s = s') ∧
    (∀ tag j, s.mgmt.switchJob = some j → failShedRequest kind a (.management tag true) reason s =
      answer .switch j.tag j.ack reason (.shed none none none) (s'.withMgmt { s'.mgmt with switchJob := none }))

/-- The SWITCH unit: TRANSPARENT refuses WRONG_STATE; ORDER with no action is answered at once, an OFF_SHED outlet only
takes ON, a refused placing answers its refusal, and a placed order leaves the unit busy, an OFF_SHED outlet having left
its stack; SHED_TENANT and RESTORE_TENANT join the shed request queue or are refused QUEUE_FULL (R123 to R125). That a refusal
carries no data, and an ORDER with no action the order number 0, is the model's choice (log entry 8). -/
def Obligations.SwitchUnitPlacesItsRequests : Prop :=
  ∀ (s : State) (r : Request), Admitted .switch r s →
    let s' := received .uplink s
    let busy (x : State) := x.withMgmt { x.mgmt with switchJob := some ⟨r.tag, ackWanted r⟩ }
    (∀ i relay indicator, Args.order r.args = some (i, relay, indicator) →
      let x := s.map.entries.get i
      (s.mgmt.opState = .transparent →
        exec (.switchOrder r) s = .next (answer .switch r.tag true .wrongState .none s')) ∧
      (s.mgmt.opState ≠ .transparent → relay = .noChange → indicator = .noChange →
        exec (.switchOrder r) s = .next (answer .switch r.tag (ackWanted r) .ok
          (.order none x.relay x.indicator) s')) ∧
      (s.mgmt.opState ≠ .transparent → ¬ (relay = .noChange ∧ indicator = .noChange) →
        (x.relay = .offShed → relay ≠ .on →
          exec (.switchOrder r) s = .next (answer .switch r.tag true .inShed .none s')) ∧
        (¬ (x.relay = .offShed ∧ relay ≠ .on) → ∀ reason, placeRefusal i s = some reason →
          exec (.switchOrder r) s = .next (answer .switch r.tag true reason .none s')) ∧
        (x.relay ≠ .offShed → placeRefusal i s = none →
          exec (.switchOrder r) s = .next (busy (placeOrder i relay indicator (.management r.tag true) s'))) ∧
        (x.relay = .offShed → relay = .on → placeRefusal i s = none → ∀ a f, x.effective.memberOf = some (a, f) →
          exec (.switchOrder r) s = .next
            (((busy (placeOrder i .on indicator (.management r.tag true) s')).withMap
                { s.map with entries := s.map.entries.set i { x with relay := .off } }).withTenants
              (s.tenants.set a { s.tenants.get a with stack := removeEntry i (s.tenants.get a).stack }))))) ∧
    (∀ a, Args.slot r.args = some a →
      (s.mgmt.opState = .transparent →
        exec (.shedTenant r) s = .next (answer .switch r.tag true .wrongState .none s') ∧
        exec (.restoreTenant r) s = .next (answer .switch r.tag true .wrongState .none s')) ∧
      (s.mgmt.opState ≠ .transparent → 8 ≤ s.links.shedQueue.length →
        exec (.shedTenant r) s = .next (answer .switch r.tag true .queueFull .none s') ∧
        exec (.restoreTenant r) s = .next (answer .switch r.tag true .queueFull .none s')) ∧
      (s.mgmt.opState ≠ .transparent → s.links.shedQueue.length < 8 →
        exec (.shedTenant r) s = .next (busy (s'.withLinks { s.links with
          shedQueue := s.links.shedQueue ++ [⟨.shed, a, .management r.tag true⟩] })) ∧
        exec (.restoreTenant r) s = .next (busy (s'.withLinks { s.links with
          shedQueue := s.links.shedQueue ++ [⟨.restore, a, .management r.tag true⟩] }))))

/-! ### The other request units -/

/-- The MAP unit's immediate operations and the acceptance of its long ones: READ_ENTRIES returns entries, SET_OUTLET
writes profile and rank, ASSIGN of one entry handles it at once, longer runs and every ALTER_FLAGS hold the unit (R13 to
R20; the refusal of an ASSIGN at a FREE tenant carries its counts, R17). -/
def Obligations.MapUnitTakesItsRequests : Prop :=
  ∀ (s : State) (r : Request), Admitted .map r s →
    let s' := received .uplink s
    (∀ i count, Args.readEntries r.args = some (i, count) →
      exec (.readEntries r) s = .next (answer .map r.tag true .ok
        (.entries ((s.map.entries.rows.drop i.val).take count)) s')) ∧
    (∀ i p k, Args.setOutlet r.args = some (i, p, k) →
      exec (.setOutlet r) s = .next (answer .map r.tag (ackWanted r) .ok .none
        (s'.withMap { s.map with
          entries := s.map.entries.set i { s.map.entries.get i with profile := p, rank := k } }))) ∧
    (∀ i m, Args.assign r.args = some (i, 1, m) → assignResult i m s ≠ .stopped →
      exec (.assign r) s = .next (answer .map r.tag (ackWanted r)
        (match assignResult i m s with
          | .stopped => .notFound
          | .applied => .applied
          | .staged => .staged
          | .superseded => .superseded)
        (.assigned (if assignResult i m s = .applied then 1 else 0) (if assignResult i m s = .staged then 1 else 0)
          (if assignResult i m s = .superseded then 1 else 0))
        (assignAt i m s'))) ∧
    (∀ i m, Args.assign r.args = some (i, 1, m) → assignResult i m s = .stopped →
      exec (.assign r) s = .next (answer .map r.tag true .notFound (.assigned 0 0 0) s')) ∧
    (∀ i count m, Args.assign r.args = some (i, count, m) → 2 ≤ count →
      exec (.assign r) s = .next (s'.withMgmt { s'.mgmt with
        mapJob := some (.assign r.tag (ackWanted r) m i count 0 0 0) })) ∧
    (∀ i count mask op, Args.alterFlags r.args = some (i, count, mask, op) →
      exec (.alterFlags r) s = .next (s'.withMgmt { s'.mgmt with
        mapJob := some (.alterFlags r.tag (ackWanted r) op mask i count 0) }))

/-- ASSIGN at one entry: a FREE named tenant stops it, out of a pass the change is applied by R9 with the deltas to the
old and new tenant, and an outlet that leaves its tenant leaves its shed stack, going from OFF_SHED to OFF where its entry was
confirmed (R10); in a pass it is staged or supersedes, leaving the effective fields and draws alone (R9, R11, R16). -/
def Obligations.AssignAppliesOrStagesAtTheEntry : Prop :=
  ∀ (s : State) (i : OutletIx) (m : Membership),
    let e := s.map.entries.get i
    let t := assignAt i m s
    (∀ a, m.tenant = some a → (s.tenants.get a).state = .free → assignResult i m s = .stopped ∧ t = s) ∧
    ((∀ a, m.tenant = some a → (s.tenants.get a).state ≠ .free) →
      (s.review.pass = .idle →
        assignResult i m s = .applied ∧ (t.map.entries.get i).effective = m ∧
        t.map.entries.get i = { e with effective := m, relay := (t.map.entries.get i).relay } ∧
        (∀ j, j ≠ i → t.map.entries.get j = s.map.entries.get j) ∧
        (∀ a, t.tenants.get a = { s.tenants.get a with
          draw := (t.tenants.get a).draw, members := (t.tenants.get a).members, stale := (t.tenants.get a).stale,
          stack := (t.tenants.get a).stack }) ∧
        (∀ a, let st := (s.tenants.get a).stack
          let leaves := (∃ f, e.effective.memberOf = some (a, f)) ∧ (m.tenant ≠ some a ∨ m.excluded = true)
          (leaves → (t.tenants.get a).stack = st.filter (fun x => decide (x.outlet ≠ i))) ∧
          (leaves → ⟨i, true⟩ ∈ st → (t.map.entries.get i).relay = .off) ∧
          (¬ leaves → (t.tenants.get a).stack = st)) ∧
        ((∀ a f, e.effective.memberOf = some (a, f) → ⟨i, true⟩ ∈ (s.tenants.get a).stack →
            m.tenant = some a ∧ m.excluded = false) → (t.map.entries.get i).relay = e.relay) ∧
        (Accounts s → Accounts t)) ∧
      (s.review.pass ≠ .idle →
        assignResult i m s = (if e.pending = none then .staged else .superseded) ∧
        t.map.entries = s.map.entries.set i { e with pending := some m } ∧
        t.map.pendingCount = s.map.pendingCount + (if e.pending = none then 1 else 0) ∧
        (∀ a, (t.tenants.get a).draw = (s.tenants.get a).draw ∧ (t.tenants.get a).members = (s.tenants.get a).members ∧
          (t.tenants.get a).stale = (s.tenants.get a).stale ∧ (t.tenants.get a).stack = (s.tenants.get a).stack)))

/-- ASSIGN_ENTRY and ALTER_FLAGS_ENTRY handle the next entry of the long operation and go on, or end it with its answer
(R16, R17, R19, R20). -/
def Obligations.LongMapOperationsStepEntryByEntry : Prop :=
  ∀ s : State,
    (∀ tag ack m i left a st su, s.mgmt.mapJob = some (.assign tag ack m i left a st su) →
      let res := assignResult i m s
      let a' := a + if res = .applied then 1 else 0
      let st' := st + if res = .staged then 1 else 0
      let su' := su + if res = .superseded then 1 else 0
      let t := assignAt i m s
      let idle := t.withMgmt { t.mgmt with mapJob := none }
      (res = .stopped →
        exec .assignEntry s = .next (answer .map tag ack .notFound (.assigned a st su) idle)) ∧
      (res ≠ .stopped → 2 ≤ left →
        exec .assignEntry s = .next (t.withMgmt { t.mgmt with
          mapJob := some (.assign tag ack m (i + 1) (left - 1) a' st' su') })) ∧
      (res ≠ .stopped → left ≤ 1 →
        exec .assignEntry s = .next (answer .map tag ack
          (if 0 < su' then .superseded else if 0 < st' then .staged else .applied) (.assigned a' st' su') idle))) ∧
    (∀ tag ack op mask i left changed, s.mgmt.mapJob = some (.alterFlags tag ack op mask i left changed) →
      let f := (s.map.entries.get i).flags
      let g := match op with
        | .and => f &&& mask
        | .or => f ||| mask
        | .xor => f ^^^ mask
      let changed' := changed + if g = f then 0 else 1
      let t := s.withMap { s.map with
        entries := s.map.entries.set i { s.map.entries.get i with flags := g }
        attention := attentionStep f g s.map.attention }
      (2 ≤ left → exec .alterFlagsEntry s = .next (t.withMgmt { s.mgmt with
        mapJob := some (.alterFlags tag ack op mask (i + 1) (left - 1) changed') })) ∧
      (left ≤ 1 → exec .alterFlagsEntry s = .next (answer .map tag ack .ok (.changed changed')
        (t.withMgmt { s.mgmt with mapJob := none }))))

/-- The CALIB unit: SET_PROFILE replaces one profile whole, READ_PROFILE returns it, and a profile that SET_PROFILE accepts
is read back from READ_PROFILE's bytes as it was written (R36, R38). -/
def Obligations.CalibUnitWritesAndReadsProfiles : Prop :=
  (∀ (s : State) (r : Request), Admitted .calib r s →
     (∀ i p, Args.setProfile r.args = some (i, p) →
       exec (.setProfile r) s = .next (answer .calib r.tag (ackWanted r) .ok .none
         ((received .uplink s).withProfiles (s.profiles.set i p)))) ∧
     (∀ i, Args.readProfile r.args = some i →
       exec (.readProfile r) s = .next (answer .calib r.tag true .ok (.profile (s.profiles.get i)) (received .uplink s)))) ∧
  (∀ p : Profile, 1 ≤ p.ceiling.toNat → p.bytes.length = 16 ∧ profileOf p.bytes = some p)

/-- The TENANT unit, for each state of the slot: what CREATE, SET_CONTRACT, ACTIVATE, SUSPEND, REMOVE, SET_PRESET and
READ_TENANT do to the record, and which state refuses them WRONG_STATE or HAS_MEMBERS (R50 to R58, R80). -/
def Obligations.TenantUnitFollowsTheSlotState : Prop :=
  ∀ (s : State) (r : Request), Admitted .tenant r s →
    let s' := received .uplink s
    let wrong := (Host.Outcome.next (answer .tenant r.tag true .wrongState .none s') : Host.Outcome State Fault Refusal)
    let ok (a : Slot) (k : Tenant) := (Host.Outcome.next (answer .tenant r.tag (ackWanted r) .ok .none
      (s'.withTenants (s.tenants.set a k))) : Host.Outcome State Fault Refusal)
    (∀ a c, Args.slotContract r.args = some (a, c) →
      let k := s.tenants.get a
      (k.state = .free → exec (.create r) s = ok a { Tenant.cleared with
        state := .suspended, contract := c, verdict := .held, streak := 0,
        budget := (match c.burst with
          | none => 0
          | some b => b.allowance * 10 ^ 9),
        lastVisit := s.time.rowTime, periodStart := s.time.rowTime, periodNumber := 0,
        lastClose := s.review.closeNumber }) ∧
      (k.state ≠ .free → exec (.create r) s = wrong) ∧
      (k.state = .free → exec (.setContract r) s = wrong) ∧
      (k.state ≠ .free → exec (.setContract r) s = .next (answer .tenant r.tag (ackWanted r)
        (if k.pendingContract = none then .staged else .superseded) .none
        (s'.withTenants (s.tenants.set a { k with pendingContract := some c }))))) ∧
    (∀ a, Args.slot r.args = some a →
      let k := s.tenants.get a
      let quiet := s'.withTenants (s.tenants.set a { k with state := .suspended, verdict := .held, streak := 0 })
      let clear := s'.withTenants (s.tenants.set a Tenant.cleared)
      (k.state = .suspended → exec (.activate r) s = ok a { k with state := .active }) ∧
      (k.state ≠ .suspended → exec (.activate r) s = wrong) ∧
      (k.state = .active → k.verdict = .held →
        exec (.suspend r) s = .next (answer .tenant r.tag (ackWanted r) .ok .none quiet)) ∧
      (k.state = .active → k.verdict ≠ .held →
        exec (.suspend r) s = .next (answer .tenant r.tag (ackWanted r) .ok .none
          (post .tenants (BitVec.ofNat 16 (0x1000 + 8 * a.val + 5)) quiet))) ∧
      (k.state ≠ .active → exec (.suspend r) s = wrong) ∧
      (k.state ≠ .suspended → exec (.remove r) s = wrong) ∧
      (k.state = .suspended → (0 < k.members.a + k.members.b ∨ 0 < k.pendingIn ∨ k.stack ≠ []) →
        exec (.remove r) s = .next (answer .tenant r.tag true .hasMembers .none s')) ∧
      (k.state = .suspended → k.members.a + k.members.b = 0 → k.pendingIn = 0 → k.stack = [] →
        (¬ (s.review.pass = .waiting ∧ s.review.position = a) →
          exec (.remove r) s = .next (answer .tenant r.tag (ackWanted r) .ok .none clear)) ∧
        (s.review.pass = .waiting → s.review.position = a →
          exec (.remove r) s = .next (answer .tenant r.tag (ackWanted r) .ok .none
            (advance (clear.withReview { s.review with pass := .visiting }))))) ∧
      exec (.readTenant r) s = .next (answer .tenant r.tag true .ok (.tenant k) s')) ∧
    (∀ a p, Args.setPreset r.args = some (a, p) →
      ((s.tenants.get a).state = .free → exec (.setPreset r) s = wrong) ∧
      ((s.tenants.get a).state ≠ .free → exec (.setPreset r) s = ok a { s.tenants.get a with preset := p }))

/-- The ROSTER unit: SET_NODE disables by R135, each order of the node ending NODE_LOST in the order they were placed (R113),
and enables by R136, SET_LIMIT stores the limit and notes it to an UP
node, READ_NODE returns the record and may clear its counts after the reading, READ_STATES returns all 32 nodes. -/
def Obligations.RosterUnitSetsAndReadsNodes : Prop :=
  ∀ (s : State) (r : Request), Admitted .roster r s →
    let s' := received .uplink s
    let ok (x : State) := (Host.Outcome.next (answer .roster r.tag (ackWanted r) .ok .none x) :
      Host.Outcome State Fault Refusal)
    (∀ n, Args.setNode r.args = some (n, false) →
      let gone : Node := { s.roster.nodes.get n with state := .disabled, lastSeq := none, noteOwed := false }
      ((s.roster.nodes.get n).state = .disabled → exec (.setNodeDisable r) s = ok s') ∧
      ((s.roster.nodes.get n).state ≠ .disabled →
        ∃ x t, exec (.setNodeDisable r) s = ok t ∧ NodeCleared n .disabled s' x ∧
          t = post .roster (BitVec.ofNat 16 (0x2000 + 4 * n.val + 2))
            ((s.orders.orders.filter (fun o => decide (o.outlet.val / 48 = n.val))).foldl
              (fun y o => endOrder o .nodeLost y) x) ∧
          t.roster = { s.roster with nodes := s.roster.nodes.set n gone } ∧
          (∀ i, nodeOfOutlet i = n → (t.map.entries.get i).fresh = false) ∧
          (∀ i, nodeOfOutlet i ≠ n → t.map.entries.get i = s.map.entries.get i) ∧
          ((s.orders.orders.map (·.number)).Nodup →
            t.orders.orders = s.orders.orders.filter (fun o => nodeOfOutlet o.outlet != n)) ∧
          (storeRoom s = true → t.links.arrivals =
            s.links.arrivals ++ [⟨.roster, ⟨BitVec.ofNat 16 (0x2000 + 4 * n.val + 2), 0⟩⟩]) ∧
          t.time = s.time ∧ t.review = s.review ∧ t.profiles = s.profiles ∧ t.down = s.down)) ∧
    (∀ n, Args.setNode r.args = some (n, true) →
      ((s.roster.nodes.get n).state = .disabled →
        exec (.setNodeEnable r) s = ok (s'.withRoster { s.roster with
          nodes := s.roster.nodes.set n { s.roster.nodes.get n with state := .absent } })) ∧
      ((s.roster.nodes.get n).state ≠ .disabled → exec (.setNodeEnable r) s = ok s')) ∧
    (∀ n c, Args.setLimit r.args = some (n, c) →
      let k := { s.roster.nodes.get n with limit := c }
      ((s.roster.nodes.get n).state ≠ .up →
        exec (.setLimit r) s = ok (s'.withRoster { s.roster with nodes := s.roster.nodes.set n k })) ∧
      ((s.roster.nodes.get n).state = .up → s.down.queue.length < 16 →
        exec (.setLimit r) s = ok ((s'.withRoster { s.roster with
          nodes := s.roster.nodes.set n { k with noteOwed := false } }).withDown (s.down.join (.limit n c)))) ∧
      ((s.roster.nodes.get n).state = .up → 16 ≤ s.down.queue.length →
        exec (.setLimit r) s = ok (s'.withRoster { s.roster with
          nodes := s.roster.nodes.set n { k with noteOwed := true } }))) ∧
    (∀ n clear, Args.readNode r.args = some (n, clear) →
      let cleared : Node := { s.roster.nodes.get n with
        accepted := 0, gaps := 0, duplicates := 0, outOfOrder := 0, badEntries := 0, lateCompletions := 0 }
      exec (.readNode r) s = .next (answer .roster r.tag true .ok (.node (s.roster.nodes.get n))
        (if clear = true then s'.withRoster { s.roster with nodes := s.roster.nodes.set n cleared } else s'))) ∧
    (r.args = [] → exec (.readStates r) s = .next (answer .roster r.tag true .ok
      (.states (s.roster.nodes.rows.map (fun k => (k.state, k.noteOwed)))) s'))

/-- The RECORD unit: CLOSE starts a close or answers ALREADY_PENDING; EXPORT places a TRANSFER record, or waits at a full
buffer for EXPORT_RESUME; IMPORT makes the record a SUSPENDED tenant of a FREE slot (R147, R156 to R159). That a refusal
carries no data, and ALREADY_PENDING the close number, follows log entry 8. -/
def Obligations.RecordUnitClosesExportsAndImports : Prop :=
  ∀ s : State,
    let exported (a : Slot) : TransferRecord :=
      let k := s.tenants.get a
      { source := a, exportTime := s.time.rowTime, state := k.state, contract := k.contract,
        pendingContract := k.pendingContract, lifetime := k.lifetime, baseline := k.baseline, preset := k.preset,
        budget := k.budget, verdict := k.verdict, streak := k.streak, lastVisit := k.lastVisit, unmetered := k.unmetered,
        periodNumber := k.periodNumber, periodStart := k.periodStart, peak := k.peak, breachTime := k.breachTime,
        excursionTime := k.excursionTime, lastClose := k.lastClose }
    (∀ r : Request, Admitted .record r s →
      let s' := received .uplink s
      (r.args = [] →
        (s.review.closePending = false → exec (.close r) s = .next (answer .record r.tag (ackWanted r) .ok
          (.closeNumber (s.review.closeNumber + 1)) (s'.withReview { s.review with
            closeNumber := s.review.closeNumber + 1, closePending := true }))) ∧
        (s.review.closePending = true → exec (.close r) s = .next (answer .record r.tag true .alreadyPending
          (.closeNumber s.review.closeNumber) s'))) ∧
      (∀ a, Args.slot r.args = some a →
        let k := s.tenants.get a
        (k.state = .free → exec (.exportTenant r) s = .next (answer .record r.tag true .wrongState .none s')) ∧
        (k.state ≠ .free → s.up.records.length < 4 →
          exec (.exportTenant r) s = .next (answer .record r.tag (ackWanted r) .ok (.slotPeriod a k.periodNumber)
            (s'.withUp { s.up with
              records := s.up.records ++ [AccountRecord.transfer (exported a)] }.take))) ∧
        (k.state ≠ .free → 4 ≤ s.up.records.length →
          exec (.exportTenant r) s = .next (s'.withMgmt { s'.mgmt with
            exportJob := some ⟨r.tag, ackWanted r, a⟩ }))) ∧
      (∀ a x, Args.importRecord r.args = some (a, x) →
        ((s.tenants.get a).state ≠ .free →
          exec (.importTenant r) s = .next (answer .record r.tag true .wrongState .none s')) ∧
        ((s.tenants.get a).state = .free →
          exec (.importTenant r) s = .next (answer .record r.tag (ackWanted r) .ok (.slotPeriod a x.periodNumber)
            (s'.withTenants (s.tenants.set a { Tenant.cleared with
              state := .suspended, contract := x.contract, pendingContract := x.pendingContract,
              lifetime := x.lifetime, baseline := x.baseline, preset := x.preset,
              budget := (match x.contract.burst with
                | none => 0
                | some b => min x.budget (b.allowance * 10 ^ 9)), verdict := .held, streak := 0, lastVisit := s.time.rowTime,
              unmetered := x.unmetered, periodNumber := x.periodNumber, periodStart := x.periodStart, peak := x.peak,
              breachTime := x.breachTime, excursionTime := x.excursionTime,
              lastClose := s.review.closeNumber })))))) ∧
    (∀ j, s.mgmt.exportJob = some j →
      let k := s.tenants.get j.slot
      let s' := s.withMgmt { s.mgmt with exportJob := none }
      (4 ≤ s.up.records.length → exec .exportResume s = .next s) ∧
      (s.up.records.length < 4 → k.state = .free →
        exec .exportResume s = .next (answer .record j.tag true .wrongState .none s')) ∧
      (s.up.records.length < 4 → k.state ≠ .free →
        exec .exportResume s = .next (answer .record j.tag j.ack .ok (.slotPeriod j.slot k.periodNumber)
          (s'.withUp { s.up with
            records := s.up.records ++ [AccountRecord.transfer (exported j.slot)] }.take))))

/-- SET_STATE: the same state changes nothing; entering RUN sets time out of RUN aside for every non-FREE tenant and finds the
event store empty, the events that waited having been discarded out of RUN, a 0x0021 among them releasing every guard (R60,
R91, R154; log entry 31); leaving RUN with a pass in flight ends the pass with the actions of a pass end, so that its 0x0021
and 0x0022 are never scanned (R82, R154, R177). READ_IDENT, SET_FORWARD,
READ_TAGS, READ_STATUS with its clearing after the reading, and SET_TIMING, which sets all three times and expires the UP
nodes that are then due, each as NODE_SILENCE of it does (R133, R178, R179); that they expire in address order and that its
answer comes after these expiries is log entry 14. -/
def Obligations.ControlUnitReadsAndSets : Prop :=
  (∀ (s : State) (r : Request) (x : OpState), Admitted .control r s → Args.setState r.args = some x →
     let s' := received .uplink s
     let t := s'.withMgmt { s.mgmt with opState := x }
     let ok (y : State) := (Host.Outcome.next (answer .control r.tag (ackWanted r) .ok .none y) :
       Host.Outcome State Fault Refusal)
     (x = s.mgmt.opState → exec (.setState r) s = ok s') ∧
     (x = .run → s.mgmt.opState ≠ .run →
       let passEndWaits := (∃ e ∈ s.links.chain, e.id = 0x0021) ∨ ∃ a ∈ s.links.arrivals, a.event.id = 0x0021
       exec (.setState r) s = ok ((t.withLinks { s.links with
         chain := [], arrivals := []
         links := if passEndWaits then s.links.links.map (fun k => { k with guardSet := false }) else s.links.links
         }).withTenants (s.tenants.map (fun k =>
           if k.state = .free then k else { k with
             unmetered := min (2 ^ 32 - 1) (k.unmetered + (s.time.rowTime - k.lastVisit).toNat)
             lastVisit := s.time.rowTime })))) ∧
     (x ≠ .run → s.mgmt.opState = .run → s.review.pass ≠ .idle → exec (.setState r) s = ok (endPass t)) ∧
     (x ≠ .run → x ≠ s.mgmt.opState → (s.mgmt.opState ≠ .run ∨ s.review.pass = .idle) → exec (.setState r) s = ok t)) ∧
  (∀ (s : State) (r : Request), Admitted .control r s →
     let s' := received .uplink s
     (r.args = [] →
       exec (.readIdent r) s = .next (answer .control r.tag true .ok .ident s') ∧
       exec (.readTags r) s = .next (answer .control r.tag true .ok (.tags s.mgmt.tags.rows) s')) ∧
     (∀ m, Args.setForward r.args = some m →
       exec (.setForward r) s = .next (answer .control r.tag (ackWanted r) .ok .none
         (s'.withPorts { s'.ports with forward := m }))) ∧
     (∀ clear, Args.readStatus r.args = some clear →
       let shown : StatusReport := {
         opState := s.mgmt.opState, passInFlight := decide (s.review.pass ≠ .idle), sticky := s.mgmt.sticky,
         mapAttention := decide (0 < s.map.attention), transit := s.up.transit.length,
         nodeQueue := s.down.queue.length, replies := s.up.replies.length, notices := s.up.notices.length,
         records := s.up.records.length, shedQueue := s.links.shedQueue.length, orders := s.orders.orders.length,
         pendingChanges := s.map.pendingCount, counts := s'.ports.counts, rowTime := s.time.rowTime }
       exec (.readStatus r) s = .next (answer .control r.tag true .ok
         (.status shown)
         (if clear = true then (s'.withMgmt { s.mgmt with sticky := .clear }).withPorts
           { s'.ports with counts := .zero } else s'))) ∧
     (∀ p o w, Args.setTiming r.args = some (p, o, w) →
       ∃ t, exec (.setTiming r) s = .next (answer .control r.tag (ackWanted r) .ok .none t) ∧
         (let timed := ((s'.withTime { s.time with reviewPeriod := p }).withOrders { s.orders with timeout := o }).withRoster
            { s.roster with timeout := w }
          (List.finRange 32).foldl (fun y n => match y with
            | .next z => exec (.nodeSilence n) z
            | other => other) (Host.Outcome.next timed) = .next t) ∧
         t.time = { s.time with reviewPeriod := p } ∧ t.orders.timeout = o ∧ t.orders.next = s.orders.next ∧
         t.roster.timeout = w ∧
         ∀ n, let k := s.roster.nodes.get n
           t.roster.nodes.get n =
             if k.state = .up ∧ w * 1000 ≤ (s.time.rowTime - k.lastHeard).toNat
             then { k with state := .silent, lastSeq := none, noteOwed := false } else k))

/-- RESTART: what a warm restart leaves in every block: HOLD, free units, empty queues but for the record buffer, an idle
engine with the close state kept, pending changes in force, readings 0 and stale, no orders, links with their running
state reset, nodes DISABLED or ABSENT, and its own answer as the one reply (R22, R61, R83, R104, R126, R144, R172,
R180). Tenants keep everything but what the readings, the pending changes and the orders take with them. That the event store
and the waiting reports are kept is the model's choice (log entry 10). -/
def Obligations.RestartLeavesHoldWithAccountsKept : Prop :=
  ∀ (s : State) (r : Request), Admitted .control r s → r.args = [] →
    ∃ t, exec (.restart r) s = .next (answer .control r.tag (ackWanted r) .ok .none t) ∧
      t.time = s.time ∧ t.profiles = s.profiles ∧
      t.mgmt = { s.mgmt with opState := .hold, mapJob := none, switchJob := none, exportJob := none } ∧
      t.up = { s.up with replies := [], notices := [], transit := [] } ∧ t.down = { s.down with queue := [] } ∧
      t.ports.counts = .zero ∧ t.ports.forward = s.ports.forward ∧
      t.review = { s.review with pass := .idle, position := 0, walked := false, closing := false } ∧
      t.orders = { s.orders with orders := [], search := none } ∧
      t.links = { s.links with
        shedQueue := []
        links := s.links.links.map (fun k =>
          { k with armed := true, lastCondition := false, guardSet := false, fireCount := 0 }) } ∧
      (∀ n, let k := s.roster.nodes.get n
        t.roster.nodes.get n = { k with
          state := if k.state = .disabled then .disabled else .absent, lastSeq := none, noteOwed := false,
          accepted := 0, gaps := 0, duplicates := 0, outOfOrder := 0, badEntries := 0, lateCompletions := 0 }) ∧
      (∀ i, let e := s.map.entries.get i
        (t.map.entries.get i).effective = e.pending.getD e.effective ∧ (t.map.entries.get i).pending = none ∧
        (t.map.entries.get i).reading = 0 ∧ (t.map.entries.get i).fresh = false ∧
        (t.map.entries.get i).readingTime = e.readingTime ∧ (t.map.entries.get i).flags = e.flags ∧
        (t.map.entries.get i).profile = e.profile ∧ (t.map.entries.get i).rank = e.rank ∧
        ((∃ o ∈ s.orders.orders, o.outlet = i) →
          (t.map.entries.get i).relay = .unknown ∧ (t.map.entries.get i).indicator = .unknown) ∧
        ((∀ o ∈ s.orders.orders, o.outlet ≠ i) →
          (t.map.entries.get i).indicator = e.indicator ∧
          ((t.map.entries.get i).relay = e.relay ∨ e.pending ≠ none ∧ (t.map.entries.get i).relay = .off))) ∧
      t.map.attention = s.map.attention ∧
      (Accounts s → t.map.pendingCount = 0 ∧ ∀ a, (t.tenants.get a).pendingIn = 0) ∧
      (Shedding s → ∀ a,
        (t.tenants.get a).stack = (s.tenants.get a).stack.filter (fun x =>
          x.confirmed && decide ((t.map.entries.get x.outlet).effective.memberOf.map (·.1) = some a))) ∧
      (Shedding s → ∀ i, (t.map.entries.get i).relay = .offShed ↔ ∃ a, ⟨i, true⟩ ∈ (t.tenants.get a).stack) ∧
      (∀ a, t.tenants.get a = { s.tenants.get a with
        draw := (t.tenants.get a).draw, members := (t.tenants.get a).members, stale := (t.tenants.get a).stale,
        pendingIn := (t.tenants.get a).pendingIn, stack := (t.tenants.get a).stack }) ∧
      (∀ a, let k := s.tenants.get a
        (t.tenants.get a).contract = k.contract ∧ (t.tenants.get a).lifetime = k.lifetime ∧
        (t.tenants.get a).baseline = k.baseline ∧ (t.tenants.get a).budget = k.budget ∧
        (t.tenants.get a).verdict = k.verdict ∧ (t.tenants.get a).lastVisit = k.lastVisit ∧
        (∀ e ∈ (t.tenants.get a).stack, e.confirmed = true) ∧
        ((t.tenants.get a).state ≠ .free → (t.tenants.get a).draw = ⟨0, 0⟩ ∧
          (t.tenants.get a).stale = (t.tenants.get a).members.a + (t.tenants.get a).members.b))

/-- RESET_UNIT: the unit's request in execution is abandoned with no reply and its tag becomes 0, before the request's own
answer; the work of a SWITCH request, as an order, as the search or in the shed request queue, goes on whole with no answer
owed; everything else is kept: every queue, the record buffer, the sticky flags, the port counts and the operating state (R21,
R127, R160, R181). -/
def Obligations.ResetUnitFreesTheUnit : Prop :=
  ∀ (s : State) (r : Request) (u : RequestUnit), Admitted .control r s → Args.resetUnit r.args = some u →
    let s' := received .uplink s
    let unowed (g : RequestOrigin) : RequestOrigin := match g with
      | .link l d => .link l d
      | .management tag _ => .management tag false
    let unowedOrder (g : OrderOrigin) : OrderOrigin := match g with
      | .management tag _ => .management tag false
      | .shed a g => .shed a (unowed g)
      | .restore a g => .restore a (unowed g)
    let freed := s'.withMgmt { s.mgmt with
      tags := s.mgmt.tags.set (unitIndex u) 0
      mapJob := if u = .map then none else s.mgmt.mapJob
      switchJob := if u = .switch then none else s.mgmt.switchJob
      exportJob := if u = .record then none else s.mgmt.exportJob }
    (u ≠ .switch → exec (.resetUnit r) s = .next (answer .control r.tag (ackWanted r) .ok .none freed)) ∧
    (u = .switch → exec (.resetUnit r) s = .next (answer .control r.tag (ackWanted r) .ok .none
      ((freed.withOrders { s.orders with
          orders := s.orders.orders.map (fun o => { o with origin := unowedOrder o.origin })
          search := s.orders.search.map (fun q => { q with origin := unowed q.origin }) }).withLinks
        { s.links with shedQueue := s.links.shedQueue.map (fun q => { q with origin := unowed q.origin }) }))) ∧
    unitBusy u freed = false ∧ (∀ v, v ≠ u → unitBusy v freed = unitBusy v s)

/-! ### Conversion (R28, R31, R32) and layouts (R161, R171) -/

/-- The four classes of scaled reading (R28, Table 2.1). -/
def Obligations.ScaledReadingClasses : Prop :=
  ∀ code : Nat, code < 2 ^ 16 →
    let e := code / 2 ^ 12
    let m := code % 2 ^ 12
    (code = 0xFFFF → classify code = .noMeasurement) ∧
    (1 ≤ e → m ≤ 2047 → classify code = .malformed) ∧
    (code ≠ 0xFFFF → (e = 0 ∨ 2048 ≤ m) → classify code = .value (m * 2 ^ e)) ∧
    (code = 0 → classify code = .value 0) ∧
    (∀ r, classify code = .value r → r ≤ 134152192 ∧ (code ≠ 0 → 1 ≤ r)) ∧
    classify 0xFFFE = .value (4094 * 2 ^ 15) ∧
    (∀ p : Profile, p.updateOf 0 = (.apply (p.convert 0).1, (p.convert 0).2))

/-- The conversion: the exact polynomial sum is cut to sixteenths toward zero, tested in the order of Table 2.4, and
given in whole mW; the result without a test is the exact sum truncated toward zero (R31, R32). -/
def Obligations.ConversionTestsTheGuardedValue : Prop :=
  ∀ (p : Profile) (r : Nat),
    let exact : Int := p.c0.toInt * 2 ^ 40 + p.c1.k.toInt * 2 ^ p.c1.x.toNat * r +
      (match p.c2 with
        | none => 0
        | some c => c.k.toInt * 2 ^ c.x.toNat * (r * r))
    let g := exact.tdiv (2 ^ 36)
    (g < 0 → p.convert r = (0, some .negative)) ∧
    (0 ≤ g → g < 16 * p.deadband.toNat → p.convert r = (0, none)) ∧
    (0 ≤ g → 16 * p.deadband.toNat ≤ g → 16 * p.ceiling.toNat < g →
      p.convert r = (p.ceiling.toNat, some .saturated)) ∧
    (0 ≤ g → 16 * p.deadband.toNat ≤ g → g ≤ 16 * p.ceiling.toNat →
      p.convert r = ((exact.tdiv (2 ^ 40)).toNat, none)) ∧
    (p.convert r).1 ≤ 16777215

/-- A TRANSFER record that a tenant with a checked contract gives is read back whole by IMPORT's check (R158, R159, Table
9.10). -/
def Obligations.TransferRecordReadsBackWhole : Prop :=
  ∀ r : TransferRecord,
    r.state ≠ .free → r.contract.valid = true → (∀ c, r.pendingContract = some c → c.valid = true) →
    r.baseline.a ≤ r.lifetime.a → r.baseline.b ≤ r.lifetime.b → r.lifetime.a < 2 ^ 64 → r.lifetime.b < 2 ^ 64 →
    r.budget < 2 ^ 64 → r.streak ≤ 15 → r.unmetered < 2 ^ 32 → r.peak < 2 ^ 40 → r.breachTime < 2 ^ 32 →
    r.excursionTime < 2 ^ 32 →
    r.bytes.length = 115 ∧ transferOf r.bytes = some r

/-! ### What every step keeps -/

/-- Every step keeps the accounts exact: draws, member counts, stale counts and pending-in are the sums over the map, the
map's counts are its sums, and a FREE slot is cleared (R2, R7, R45 to R48). -/
def Obligations.EveryStepKeepsTheAccountsExact : Prop :=
  ∀ s t : State, Accounts s → step s = .next t → Accounts t

/-- Every step keeps the shed stacks and the order table in agreement (R49, R106, R111), given exact accounts. -/
def Obligations.EveryStepKeepsSheddingSound : Prop :=
  ∀ s t : State, Accounts s → Shedding s → step s = .next t → Shedding t

/-- Every step keeps the tenants' numbers and the review engine's fields in order (R42, R45, R53, R63, R146). -/
def Obligations.EveryStepKeepsThePeriodsSound : Prop :=
  ∀ s t : State, Periods s → step s = .next t → Periods t

/-- Every step keeps the node records fit to their states, and orders outstanding for UP nodes only (R128, R129). -/
def Obligations.EveryStepKeepsTheRosterSound : Prop :=
  ∀ s t : State, RosterSound s → step s = .next t → RosterSound t

/-- Every step keeps links out of mode ONCE armed and every depth within bounds (R88, R103). -/
def Obligations.EveryStepKeepsTheLinksSound : Prop :=
  ∀ s t : State, LinksSound s → step s = .next t → LinksSound t

/-- Every step keeps every queue within its capacity and leaves no idle transmitter with something to send (Table 0.1,
R168, R169). -/
def Obligations.EveryStepKeepsTheQueuesBounded : Prop :=
  ∀ s t : State, Bounds s → step s = .next t → Bounds t

/-- The state right after reset is sound in every sense that the steps keep. -/
def Obligations.ResetStateIsSound : Prop :=
  Accounts State.reset ∧ Shedding State.reset ∧ Periods State.reset ∧ RosterSound State.reset ∧
    LinksSound State.reset ∧ Bounds State.reset
end

