-- ==== Sys2Proof/Laws/State.lean ====
section
/-! SUPPORT. Each update of one block of the state, read block by block. -/

namespace Sys2Proof.Machine.State

@[simp] theorem withPending_pending (s : State) (x : List Instr) : (s.withPending x).pending = x := rfl
@[simp] theorem withPending_time (s : State) (x : List Instr) : (s.withPending x).time = s.time := rfl
@[simp] theorem withPending_map (s : State) (x : List Instr) : (s.withPending x).map = s.map := rfl
@[simp] theorem withPending_profiles (s : State) (x : List Instr) : (s.withPending x).profiles = s.profiles := rfl
@[simp] theorem withPending_tenants (s : State) (x : List Instr) : (s.withPending x).tenants = s.tenants := rfl
@[simp] theorem withPending_review (s : State) (x : List Instr) : (s.withPending x).review = s.review := rfl
@[simp] theorem withPending_links (s : State) (x : List Instr) : (s.withPending x).links = s.links := rfl
@[simp] theorem withPending_orders (s : State) (x : List Instr) : (s.withPending x).orders = s.orders := rfl
@[simp] theorem withPending_roster (s : State) (x : List Instr) : (s.withPending x).roster = s.roster := rfl
@[simp] theorem withPending_down (s : State) (x : List Instr) : (s.withPending x).down = s.down := rfl
@[simp] theorem withPending_up (s : State) (x : List Instr) : (s.withPending x).up = s.up := rfl
@[simp] theorem withPending_ports (s : State) (x : List Instr) : (s.withPending x).ports = s.ports := rfl
@[simp] theorem withPending_mgmt (s : State) (x : List Instr) : (s.withPending x).mgmt = s.mgmt := rfl

@[simp] theorem withTime_pending (s : State) (x : TimeBase) : (s.withTime x).pending = s.pending := rfl
@[simp] theorem withTime_time (s : State) (x : TimeBase) : (s.withTime x).time = x := rfl
@[simp] theorem withTime_map (s : State) (x : TimeBase) : (s.withTime x).map = s.map := rfl
@[simp] theorem withTime_profiles (s : State) (x : TimeBase) : (s.withTime x).profiles = s.profiles := rfl
@[simp] theorem withTime_tenants (s : State) (x : TimeBase) : (s.withTime x).tenants = s.tenants := rfl
@[simp] theorem withTime_review (s : State) (x : TimeBase) : (s.withTime x).review = s.review := rfl
@[simp] theorem withTime_links (s : State) (x : TimeBase) : (s.withTime x).links = s.links := rfl
@[simp] theorem withTime_orders (s : State) (x : TimeBase) : (s.withTime x).orders = s.orders := rfl
@[simp] theorem withTime_roster (s : State) (x : TimeBase) : (s.withTime x).roster = s.roster := rfl
@[simp] theorem withTime_down (s : State) (x : TimeBase) : (s.withTime x).down = s.down := rfl
@[simp] theorem withTime_up (s : State) (x : TimeBase) : (s.withTime x).up = s.up := rfl
@[simp] theorem withTime_ports (s : State) (x : TimeBase) : (s.withTime x).ports = s.ports := rfl
@[simp] theorem withTime_mgmt (s : State) (x : TimeBase) : (s.withTime x).mgmt = s.mgmt := rfl

@[simp] theorem withMap_pending (s : State) (x : OutletMap) : (s.withMap x).pending = s.pending := rfl
@[simp] theorem withMap_time (s : State) (x : OutletMap) : (s.withMap x).time = s.time := rfl
@[simp] theorem withMap_map (s : State) (x : OutletMap) : (s.withMap x).map = x := rfl
@[simp] theorem withMap_profiles (s : State) (x : OutletMap) : (s.withMap x).profiles = s.profiles := rfl
@[simp] theorem withMap_tenants (s : State) (x : OutletMap) : (s.withMap x).tenants = s.tenants := rfl
@[simp] theorem withMap_review (s : State) (x : OutletMap) : (s.withMap x).review = s.review := rfl
@[simp] theorem withMap_links (s : State) (x : OutletMap) : (s.withMap x).links = s.links := rfl
@[simp] theorem withMap_orders (s : State) (x : OutletMap) : (s.withMap x).orders = s.orders := rfl
@[simp] theorem withMap_roster (s : State) (x : OutletMap) : (s.withMap x).roster = s.roster := rfl
@[simp] theorem withMap_down (s : State) (x : OutletMap) : (s.withMap x).down = s.down := rfl
@[simp] theorem withMap_up (s : State) (x : OutletMap) : (s.withMap x).up = s.up := rfl
@[simp] theorem withMap_ports (s : State) (x : OutletMap) : (s.withMap x).ports = s.ports := rfl
@[simp] theorem withMap_mgmt (s : State) (x : OutletMap) : (s.withMap x).mgmt = s.mgmt := rfl

@[simp] theorem withProfiles_pending (s : State) (x : Table Profile 16) : (s.withProfiles x).pending = s.pending := rfl
@[simp] theorem withProfiles_time (s : State) (x : Table Profile 16) : (s.withProfiles x).time = s.time := rfl
@[simp] theorem withProfiles_map (s : State) (x : Table Profile 16) : (s.withProfiles x).map = s.map := rfl
@[simp] theorem withProfiles_profiles (s : State) (x : Table Profile 16) : (s.withProfiles x).profiles = x := rfl
@[simp] theorem withProfiles_tenants (s : State) (x : Table Profile 16) : (s.withProfiles x).tenants = s.tenants := rfl
@[simp] theorem withProfiles_review (s : State) (x : Table Profile 16) : (s.withProfiles x).review = s.review := rfl
@[simp] theorem withProfiles_links (s : State) (x : Table Profile 16) : (s.withProfiles x).links = s.links := rfl
@[simp] theorem withProfiles_orders (s : State) (x : Table Profile 16) : (s.withProfiles x).orders = s.orders := rfl
@[simp] theorem withProfiles_roster (s : State) (x : Table Profile 16) : (s.withProfiles x).roster = s.roster := rfl
@[simp] theorem withProfiles_down (s : State) (x : Table Profile 16) : (s.withProfiles x).down = s.down := rfl
@[simp] theorem withProfiles_up (s : State) (x : Table Profile 16) : (s.withProfiles x).up = s.up := rfl
@[simp] theorem withProfiles_ports (s : State) (x : Table Profile 16) : (s.withProfiles x).ports = s.ports := rfl
@[simp] theorem withProfiles_mgmt (s : State) (x : Table Profile 16) : (s.withProfiles x).mgmt = s.mgmt := rfl

@[simp] theorem withTenants_pending (s : State) (x : Table Tenant 128) : (s.withTenants x).pending = s.pending := rfl
@[simp] theorem withTenants_time (s : State) (x : Table Tenant 128) : (s.withTenants x).time = s.time := rfl
@[simp] theorem withTenants_map (s : State) (x : Table Tenant 128) : (s.withTenants x).map = s.map := rfl
@[simp] theorem withTenants_profiles (s : State) (x : Table Tenant 128) : (s.withTenants x).profiles = s.profiles := rfl
@[simp] theorem withTenants_tenants (s : State) (x : Table Tenant 128) : (s.withTenants x).tenants = x := rfl
@[simp] theorem withTenants_review (s : State) (x : Table Tenant 128) : (s.withTenants x).review = s.review := rfl
@[simp] theorem withTenants_links (s : State) (x : Table Tenant 128) : (s.withTenants x).links = s.links := rfl
@[simp] theorem withTenants_orders (s : State) (x : Table Tenant 128) : (s.withTenants x).orders = s.orders := rfl
@[simp] theorem withTenants_roster (s : State) (x : Table Tenant 128) : (s.withTenants x).roster = s.roster := rfl
@[simp] theorem withTenants_down (s : State) (x : Table Tenant 128) : (s.withTenants x).down = s.down := rfl
@[simp] theorem withTenants_up (s : State) (x : Table Tenant 128) : (s.withTenants x).up = s.up := rfl
@[simp] theorem withTenants_ports (s : State) (x : Table Tenant 128) : (s.withTenants x).ports = s.ports := rfl
@[simp] theorem withTenants_mgmt (s : State) (x : Table Tenant 128) : (s.withTenants x).mgmt = s.mgmt := rfl

@[simp] theorem withReview_pending (s : State) (x : Review) : (s.withReview x).pending = s.pending := rfl
@[simp] theorem withReview_time (s : State) (x : Review) : (s.withReview x).time = s.time := rfl
@[simp] theorem withReview_map (s : State) (x : Review) : (s.withReview x).map = s.map := rfl
@[simp] theorem withReview_profiles (s : State) (x : Review) : (s.withReview x).profiles = s.profiles := rfl
@[simp] theorem withReview_tenants (s : State) (x : Review) : (s.withReview x).tenants = s.tenants := rfl
@[simp] theorem withReview_review (s : State) (x : Review) : (s.withReview x).review = x := rfl
@[simp] theorem withReview_links (s : State) (x : Review) : (s.withReview x).links = s.links := rfl
@[simp] theorem withReview_orders (s : State) (x : Review) : (s.withReview x).orders = s.orders := rfl
@[simp] theorem withReview_roster (s : State) (x : Review) : (s.withReview x).roster = s.roster := rfl
@[simp] theorem withReview_down (s : State) (x : Review) : (s.withReview x).down = s.down := rfl
@[simp] theorem withReview_up (s : State) (x : Review) : (s.withReview x).up = s.up := rfl
@[simp] theorem withReview_ports (s : State) (x : Review) : (s.withReview x).ports = s.ports := rfl
@[simp] theorem withReview_mgmt (s : State) (x : Review) : (s.withReview x).mgmt = s.mgmt := rfl

@[simp] theorem withLinks_pending (s : State) (x : LinkTable) : (s.withLinks x).pending = s.pending := rfl
@[simp] theorem withLinks_time (s : State) (x : LinkTable) : (s.withLinks x).time = s.time := rfl
@[simp] theorem withLinks_map (s : State) (x : LinkTable) : (s.withLinks x).map = s.map := rfl
@[simp] theorem withLinks_profiles (s : State) (x : LinkTable) : (s.withLinks x).profiles = s.profiles := rfl
@[simp] theorem withLinks_tenants (s : State) (x : LinkTable) : (s.withLinks x).tenants = s.tenants := rfl
@[simp] theorem withLinks_review (s : State) (x : LinkTable) : (s.withLinks x).review = s.review := rfl
@[simp] theorem withLinks_links (s : State) (x : LinkTable) : (s.withLinks x).links = x := rfl
@[simp] theorem withLinks_orders (s : State) (x : LinkTable) : (s.withLinks x).orders = s.orders := rfl
@[simp] theorem withLinks_roster (s : State) (x : LinkTable) : (s.withLinks x).roster = s.roster := rfl
@[simp] theorem withLinks_down (s : State) (x : LinkTable) : (s.withLinks x).down = s.down := rfl
@[simp] theorem withLinks_up (s : State) (x : LinkTable) : (s.withLinks x).up = s.up := rfl
@[simp] theorem withLinks_ports (s : State) (x : LinkTable) : (s.withLinks x).ports = s.ports := rfl
@[simp] theorem withLinks_mgmt (s : State) (x : LinkTable) : (s.withLinks x).mgmt = s.mgmt := rfl

@[simp] theorem withOrders_pending (s : State) (x : OrderTable) : (s.withOrders x).pending = s.pending := rfl
@[simp] theorem withOrders_time (s : State) (x : OrderTable) : (s.withOrders x).time = s.time := rfl
@[simp] theorem withOrders_map (s : State) (x : OrderTable) : (s.withOrders x).map = s.map := rfl
@[simp] theorem withOrders_profiles (s : State) (x : OrderTable) : (s.withOrders x).profiles = s.profiles := rfl
@[simp] theorem withOrders_tenants (s : State) (x : OrderTable) : (s.withOrders x).tenants = s.tenants := rfl
@[simp] theorem withOrders_review (s : State) (x : OrderTable) : (s.withOrders x).review = s.review := rfl
@[simp] theorem withOrders_links (s : State) (x : OrderTable) : (s.withOrders x).links = s.links := rfl
@[simp] theorem withOrders_orders (s : State) (x : OrderTable) : (s.withOrders x).orders = x := rfl
@[simp] theorem withOrders_roster (s : State) (x : OrderTable) : (s.withOrders x).roster = s.roster := rfl
@[simp] theorem withOrders_down (s : State) (x : OrderTable) : (s.withOrders x).down = s.down := rfl
@[simp] theorem withOrders_up (s : State) (x : OrderTable) : (s.withOrders x).up = s.up := rfl
@[simp] theorem withOrders_ports (s : State) (x : OrderTable) : (s.withOrders x).ports = s.ports := rfl
@[simp] theorem withOrders_mgmt (s : State) (x : OrderTable) : (s.withOrders x).mgmt = s.mgmt := rfl

@[simp] theorem withRoster_pending (s : State) (x : Roster) : (s.withRoster x).pending = s.pending := rfl
@[simp] theorem withRoster_time (s : State) (x : Roster) : (s.withRoster x).time = s.time := rfl
@[simp] theorem withRoster_map (s : State) (x : Roster) : (s.withRoster x).map = s.map := rfl
@[simp] theorem withRoster_profiles (s : State) (x : Roster) : (s.withRoster x).profiles = s.profiles := rfl
@[simp] theorem withRoster_tenants (s : State) (x : Roster) : (s.withRoster x).tenants = s.tenants := rfl
@[simp] theorem withRoster_review (s : State) (x : Roster) : (s.withRoster x).review = s.review := rfl
@[simp] theorem withRoster_links (s : State) (x : Roster) : (s.withRoster x).links = s.links := rfl
@[simp] theorem withRoster_orders (s : State) (x : Roster) : (s.withRoster x).orders = s.orders := rfl
@[simp] theorem withRoster_roster (s : State) (x : Roster) : (s.withRoster x).roster = x := rfl
@[simp] theorem withRoster_down (s : State) (x : Roster) : (s.withRoster x).down = s.down := rfl
@[simp] theorem withRoster_up (s : State) (x : Roster) : (s.withRoster x).up = s.up := rfl
@[simp] theorem withRoster_ports (s : State) (x : Roster) : (s.withRoster x).ports = s.ports := rfl
@[simp] theorem withRoster_mgmt (s : State) (x : Roster) : (s.withRoster x).mgmt = s.mgmt := rfl

@[simp] theorem withDown_pending (s : State) (x : NodeTx) : (s.withDown x).pending = s.pending := rfl
@[simp] theorem withDown_time (s : State) (x : NodeTx) : (s.withDown x).time = s.time := rfl
@[simp] theorem withDown_map (s : State) (x : NodeTx) : (s.withDown x).map = s.map := rfl
@[simp] theorem withDown_profiles (s : State) (x : NodeTx) : (s.withDown x).profiles = s.profiles := rfl
@[simp] theorem withDown_tenants (s : State) (x : NodeTx) : (s.withDown x).tenants = s.tenants := rfl
@[simp] theorem withDown_review (s : State) (x : NodeTx) : (s.withDown x).review = s.review := rfl
@[simp] theorem withDown_links (s : State) (x : NodeTx) : (s.withDown x).links = s.links := rfl
@[simp] theorem withDown_orders (s : State) (x : NodeTx) : (s.withDown x).orders = s.orders := rfl
@[simp] theorem withDown_roster (s : State) (x : NodeTx) : (s.withDown x).roster = s.roster := rfl
@[simp] theorem withDown_down (s : State) (x : NodeTx) : (s.withDown x).down = x := rfl
@[simp] theorem withDown_up (s : State) (x : NodeTx) : (s.withDown x).up = s.up := rfl
@[simp] theorem withDown_ports (s : State) (x : NodeTx) : (s.withDown x).ports = s.ports := rfl
@[simp] theorem withDown_mgmt (s : State) (x : NodeTx) : (s.withDown x).mgmt = s.mgmt := rfl

@[simp] theorem withUp_pending (s : State) (x : Uplink) : (s.withUp x).pending = s.pending := rfl
@[simp] theorem withUp_time (s : State) (x : Uplink) : (s.withUp x).time = s.time := rfl
@[simp] theorem withUp_map (s : State) (x : Uplink) : (s.withUp x).map = s.map := rfl
@[simp] theorem withUp_profiles (s : State) (x : Uplink) : (s.withUp x).profiles = s.profiles := rfl
@[simp] theorem withUp_tenants (s : State) (x : Uplink) : (s.withUp x).tenants = s.tenants := rfl
@[simp] theorem withUp_review (s : State) (x : Uplink) : (s.withUp x).review = s.review := rfl
@[simp] theorem withUp_links (s : State) (x : Uplink) : (s.withUp x).links = s.links := rfl
@[simp] theorem withUp_orders (s : State) (x : Uplink) : (s.withUp x).orders = s.orders := rfl
@[simp] theorem withUp_roster (s : State) (x : Uplink) : (s.withUp x).roster = s.roster := rfl
@[simp] theorem withUp_down (s : State) (x : Uplink) : (s.withUp x).down = s.down := rfl
@[simp] theorem withUp_up (s : State) (x : Uplink) : (s.withUp x).up = x := rfl
@[simp] theorem withUp_ports (s : State) (x : Uplink) : (s.withUp x).ports = s.ports := rfl
@[simp] theorem withUp_mgmt (s : State) (x : Uplink) : (s.withUp x).mgmt = s.mgmt := rfl

@[simp] theorem withPorts_pending (s : State) (x : Ports) : (s.withPorts x).pending = s.pending := rfl
@[simp] theorem withPorts_time (s : State) (x : Ports) : (s.withPorts x).time = s.time := rfl
@[simp] theorem withPorts_map (s : State) (x : Ports) : (s.withPorts x).map = s.map := rfl
@[simp] theorem withPorts_profiles (s : State) (x : Ports) : (s.withPorts x).profiles = s.profiles := rfl
@[simp] theorem withPorts_tenants (s : State) (x : Ports) : (s.withPorts x).tenants = s.tenants := rfl
@[simp] theorem withPorts_review (s : State) (x : Ports) : (s.withPorts x).review = s.review := rfl
@[simp] theorem withPorts_links (s : State) (x : Ports) : (s.withPorts x).links = s.links := rfl
@[simp] theorem withPorts_orders (s : State) (x : Ports) : (s.withPorts x).orders = s.orders := rfl
@[simp] theorem withPorts_roster (s : State) (x : Ports) : (s.withPorts x).roster = s.roster := rfl
@[simp] theorem withPorts_down (s : State) (x : Ports) : (s.withPorts x).down = s.down := rfl
@[simp] theorem withPorts_up (s : State) (x : Ports) : (s.withPorts x).up = s.up := rfl
@[simp] theorem withPorts_ports (s : State) (x : Ports) : (s.withPorts x).ports = x := rfl
@[simp] theorem withPorts_mgmt (s : State) (x : Ports) : (s.withPorts x).mgmt = s.mgmt := rfl

@[simp] theorem withMgmt_pending (s : State) (x : Management) : (s.withMgmt x).pending = s.pending := rfl
@[simp] theorem withMgmt_time (s : State) (x : Management) : (s.withMgmt x).time = s.time := rfl
@[simp] theorem withMgmt_map (s : State) (x : Management) : (s.withMgmt x).map = s.map := rfl
@[simp] theorem withMgmt_profiles (s : State) (x : Management) : (s.withMgmt x).profiles = s.profiles := rfl
@[simp] theorem withMgmt_tenants (s : State) (x : Management) : (s.withMgmt x).tenants = s.tenants := rfl
@[simp] theorem withMgmt_review (s : State) (x : Management) : (s.withMgmt x).review = s.review := rfl
@[simp] theorem withMgmt_links (s : State) (x : Management) : (s.withMgmt x).links = s.links := rfl
@[simp] theorem withMgmt_orders (s : State) (x : Management) : (s.withMgmt x).orders = s.orders := rfl
@[simp] theorem withMgmt_roster (s : State) (x : Management) : (s.withMgmt x).roster = s.roster := rfl
@[simp] theorem withMgmt_down (s : State) (x : Management) : (s.withMgmt x).down = s.down := rfl
@[simp] theorem withMgmt_up (s : State) (x : Management) : (s.withMgmt x).up = s.up := rfl
@[simp] theorem withMgmt_ports (s : State) (x : Management) : (s.withMgmt x).ports = s.ports := rfl
@[simp] theorem withMgmt_mgmt (s : State) (x : Management) : (s.withMgmt x).mgmt = x := rfl

end Sys2Proof.Machine.State
end

