-- ==== Sys2Proof/Laws/Table.lean ====
section
/-! SUPPORT. Reading a table after each of its updates. -/

namespace Sys2Proof.Table

variable {α : Type} {n : Nat}

theorem ext_rows {t u : Table α n} (h : t.rows = u.rows) : t = u := by
  cases t; cases u; cases h; rfl

theorem get_eq_getElem (t : Table α n) (i : Fin n) : t.get i = t.rows[i.val]'(by rw [t.size]; exact i.isLt) := rfl

/-- Two tables that hold the same at every index are the same. -/
theorem ext_get {t u : Table α n} (h : ∀ i, t.get i = u.get i) : t = u := by
  apply ext_rows
  apply List.ext_getElem
  · rw [t.size, u.size]
  · intro k h1 _
    have := h ⟨k, by rw [t.size] at h1; exact h1⟩
    simpa [get_eq_getElem] using this

@[simp] theorem get_fill (x : α) (i : Fin n) : (fill n x).get i = x := by
  simp [get_eq_getElem, fill]

@[simp] theorem get_set_same (t : Table α n) (i : Fin n) (x : α) : (t.set i x).get i = x := by
  simp [get_eq_getElem, set]

theorem get_set_other (t : Table α n) {i j : Fin n} (x : α) (h : j ≠ i) : (t.set i x).get j = t.get j := by
  have : i.val ≠ j.val := fun e => h (Fin.ext e.symm)
  simp [get_eq_getElem, set, this]

theorem get_set (t : Table α n) (i j : Fin n) (x : α) : (t.set i x).get j = if j = i then x else t.get j := by
  by_cases h : j = i
  · subst h; simp
  · simp [h, get_set_other t x h]

@[simp] theorem get_modify_same (t : Table α n) (i : Fin n) (f : α → α) : (t.modify i f).get i = f (t.get i) :=
  get_set_same t i _

theorem get_modify_other (t : Table α n) {i j : Fin n} (f : α → α) (h : j ≠ i) : (t.modify i f).get j = t.get j :=
  get_set_other t _ h

theorem get_modify (t : Table α n) (i j : Fin n) (f : α → α) :
    (t.modify i f).get j = if j = i then f (t.get i) else t.get j := get_set t i j _

@[simp] theorem get_map (t : Table α n) (f : α → α) (i : Fin n) : (t.map f).get i = f (t.get i) := by
  simp [get_eq_getElem, map]

theorem set_get_self (t : Table α n) (i : Fin n) : t.set i (t.get i) = t := by
  apply ext_get; intro j; rw [get_set]; split
  · next h => rw [h]
  · rfl

@[simp] theorem set_set (t : Table α n) (i : Fin n) (x y : α) : (t.set i x).set i y = t.set i y := by
  apply ext_get; intro j; simp only [get_set]; split <;> rfl

/-- A row is a member of the list of rows. -/
theorem get_mem (t : Table α n) (i : Fin n) : t.get i ∈ t.rows := by
  rw [get_eq_getElem]; exact List.getElem_mem _

/-- Every row stands at an index. -/
theorem mem_rows {t : Table α n} {x : α} : x ∈ t.rows ↔ ∃ i, t.get i = x := by
  constructor
  · intro h
    obtain ⟨k, hk, e⟩ := List.mem_iff_getElem.mp h
    exact ⟨⟨k, by rw [t.size] at hk; exact hk⟩, e⟩
  · rintro ⟨i, rfl⟩; exact t.get_mem i

theorem all_rows {t : Table α n} {p : α → Bool} : t.rows.all p = true ↔ ∀ i, p (t.get i) = true := by
  rw [List.all_eq_true]
  constructor
  · intro h i; exact h _ (t.get_mem i)
  · intro h x hx; obtain ⟨i, rfl⟩ := mem_rows.mp hx; exact h i

/-- What a row replaced does to a count over the rows. -/
theorem countP_set (t : Table α n) (i : Fin n) (x : α) (p : α → Bool) :
    (t.set i x).rows.countP p + (if p (t.get i) then 1 else 0) = t.rows.countP p + (if p x then 1 else 0) := by
  have hi : i.val < t.rows.length := by rw [t.size]; exact i.isLt
  have key : ∀ (l : List α) (k : Nat) (hk : k < l.length),
      (l.set k x).countP p + (if p l[k] then 1 else 0) = l.countP p + (if p x then 1 else 0) := by
    intro l
    induction l with
    | nil => intro k hk; simp at hk
    | cons a l ih =>
      intro k hk
      cases k with
      | zero => simp only [List.set_cons_zero, List.countP_cons, List.getElem_cons_zero]; omega
      | succ k =>
        have := ih k (by simpa using hk)
        simp only [List.set_cons_succ, List.countP_cons, List.getElem_cons_succ]; omega
  exact key t.rows i.val hi

/-- What a row replaced does to a sum over the rows. -/
theorem sum_set (t : Table α n) (i : Fin n) (x : α) (f : α → Nat) :
    ((t.set i x).rows.map f).sum + f (t.get i) = (t.rows.map f).sum + f x := by
  have hi : i.val < t.rows.length := by rw [t.size]; exact i.isLt
  have key : ∀ (l : List α) (k : Nat) (hk : k < l.length),
      ((l.set k x).map f).sum + f l[k] = (l.map f).sum + f x := by
    intro l
    induction l with
    | nil => intro k hk; simp at hk
    | cons a l ih =>
      intro k hk
      cases k with
      | zero => simp; omega
      | succ k =>
        have := ih k (by simpa using hk)
        simp only [List.set_cons_succ, List.map_cons, List.sum_cons, List.getElem_cons_succ]; omega
  exact key t.rows i.val hi

end Sys2Proof.Table
end

