-- ==== Sys2Proof/Laws/Ops.lean ====
section
/-! SUPPORT. What each shared operation can do, said once: the blocks it replaces, and what it leaves in them. -/

namespace Sys2Proof.Machine

/-! ### Writing a block back as it stands -/

@[simp] theorem State.withUp_same (s : State) : s.withUp s.up = s := rfl
@[simp] theorem State.withMgmt_same (s : State) : s.withMgmt s.mgmt = s := rfl
@[simp] theorem State.withLinks_same (s : State) : s.withLinks s.links = s := rfl
@[simp] theorem State.withPorts_same (s : State) : s.withPorts s.ports = s := rfl
@[simp] theorem State.withTenants_same (s : State) : s.withTenants s.tenants = s := rfl
@[simp] theorem State.withMap_same (s : State) : s.withMap s.map = s := rfl
@[simp] theorem State.withDown_same (s : State) : s.withDown s.down = s := rfl
@[simp] theorem State.withRoster_same (s : State) : s.withRoster s.roster = s := rfl
@[simp] theorem State.withOrders_same (s : State) : s.withOrders s.orders = s := rfl

@[simp] theorem State.withTenants_twice (s : State) (x y : Table Tenant 128) :
    (s.withTenants x).withTenants y = s.withTenants y := rfl
@[simp] theorem State.withMgmt_twice (s : State) (x y : Management) : (s.withMgmt x).withMgmt y = s.withMgmt y := rfl
@[simp] theorem State.withUp_twice (s : State) (x y : Uplink) : (s.withUp x).withUp y = s.withUp y := rfl
@[simp] theorem State.withLinks_twice (s : State) (x y : LinkTable) : (s.withLinks x).withLinks y = s.withLinks y := rfl
@[simp] theorem State.withRoster_twice (s : State) (x y : Roster) : (s.withRoster x).withRoster y = s.withRoster y := rfl
@[simp] theorem State.withMap_twice (s : State) (x y : OutletMap) : (s.withMap x).withMap y = s.withMap y := rfl
@[simp] theorem State.withOrders_twice (s : State) (x y : OrderTable) : (s.withOrders x).withOrders y = s.withOrders y := rfl
@[simp] theorem State.withPorts_twice (s : State) (x y : Ports) : (s.withPorts x).withPorts y = s.withPorts y := rfl
@[simp] theorem State.withReview_twice (s : State) (x y : Review) : (s.withReview x).withReview y = s.withReview y := rfl

/-! ### The transmitters -/

/-- The arbiter only takes: every queue afterwards is a tail of what it was, and a busy transmitter stays as it is. -/
theorem Uplink.take_busy {u : Uplink} {f : Frame} (h : u.tx = some f) : u.take = u := by
  simp [Uplink.take, h]

/-- Each queue of the uplink side after a take is the queue or its tail. -/
theorem Uplink.take_queues (u : Uplink) :
    (u.take.replies = u.replies ∨ u.take.replies = u.replies.tail) ∧
    (u.take.notices = u.notices ∨ u.take.notices = u.notices.tail) ∧
    (u.take.transit = u.transit ∨ u.take.transit = u.transit.tail) ∧
    (u.take.records = u.records ∨ u.take.records = u.records.tail) := by
  unfold Uplink.take
  split
  · simp
  · split
    · rename_i h; simp [Uplink.originate, h]
    · rename_i h1 h2; simp [Uplink.originate, h1, h2]
    · split
      · simp
      · rename_i h _; simp [Uplink.takeTransit, h]
      · rename_i h; simp [Uplink.takeRecord, Uplink.originate, h]
      · rename_i h1 h2
        split <;> simp [Uplink.takeTransit, Uplink.takeRecord, Uplink.originate, h1, h2]

/-- After a take the transmitter is idle only when nothing waits (R169). -/
theorem Uplink.take_idle (u : Uplink) (h : u.take.tx = none) :
    u.take.replies = [] ∧ u.take.notices = [] ∧ u.take.transit = [] ∧ u.take.records = [] := by
  revert h
  unfold Uplink.take
  split
  · rename_i f h; simp [h]
  · split
    · simp [Uplink.originate]
    · simp [Uplink.originate]
    · split
      · rename_i h1 h2 _ _ h3 h4; intro _; exact ⟨h1, h2, h3, h4⟩
      · simp [Uplink.takeTransit]
      · simp [Uplink.takeRecord, Uplink.originate]
      · split <;> simp [Uplink.takeTransit, Uplink.takeRecord, Uplink.originate]

/-- While a notice waits, a take leaves transit frames and records alone (R169). -/
theorem Uplink.take_keeps_records (u : Uplink) (h : u.notices ≠ []) :
    u.take.records = u.records ∧ u.take.transit = u.transit := by
  unfold Uplink.take
  split
  · simp
  · split
    · simp [Uplink.originate]
    · simp [Uplink.originate]
    · rename_i h1; exact absurd h1 h

/-- While a reply waits, a take leaves transit frames and records alone (R169). -/
theorem Uplink.take_reply_keeps_records (u : Uplink) (h : u.replies ≠ []) :
    u.take.records = u.records ∧ u.take.transit = u.transit := by
  unfold Uplink.take
  split
  · simp
  · split
    · simp [Uplink.originate]
    · simp [Uplink.originate]
    · rename_i h1 _; exact absurd h1 h

/-- The node transmit queue after a take is the queue or its tail, and the transmitter is idle only when it is empty. -/
theorem NodeTx.take_spec (d : NodeTx) :
    (d.take.queue = d.queue ∨ d.take.queue = d.queue.tail) ∧ (d.take.tx = none → d.take.queue = []) := by
  obtain ⟨q, tx, n⟩ := d
  unfold NodeTx.take
  cases tx <;> cases q <;> simp

/-! ### Sticky flags, notices, replies, transit frames, records -/

/-- A notice touches the uplink side and the sticky flags. -/
theorem queueNotice_only (x : NoticeSubject) (s : State) :
    ∃ u f, queueNotice x s = (s.withUp u).withMgmt { s.mgmt with sticky := f } := by
  refine ⟨(queueNotice x s).up, (queueNotice x s).mgmt.sticky, ?_⟩
  unfold queueNotice setSticky
  split <;> rfl

/-- A notice leaves the record buffer and the transit queue alone. -/
theorem queueNotice_records (x : NoticeSubject) (s : State) :
    (queueNotice x s).up.records = s.up.records ∧ (queueNotice x s).up.transit = s.up.transit := by
  unfold queueNotice
  split
  · exact Uplink.take_keeps_records { s.up with notices := s.up.notices ++ [_] } (by simp)
  · exact ⟨rfl, rfl⟩

/-- A reply touches the uplink side and the sticky flags. -/
theorem sendReply_only (r : Reply) (s : State) :
    ∃ u f, sendReply r s = (s.withUp u).withMgmt { s.mgmt with sticky := f } := by
  refine ⟨(sendReply r s).up, (sendReply r s).mgmt.sticky, ?_⟩
  unfold sendReply setSticky
  split <;> rfl

/-- An answer touches the uplink side, the sticky flags and the tags. -/
theorem answer_only (u : RequestUnit) (tag : Byte) (w : Bool) (st : Status) (d : ReplyData) (s : State) :
    ∃ v f t, answer u tag w st d s = (s.withUp v).withMgmt { s.mgmt with sticky := f, tags := t } := by
  refine ⟨(answer u tag w st d s).up, (answer u tag w st d s).mgmt.sticky, (answer u tag w st d s).mgmt.tags, ?_⟩
  unfold answer sendReply setSticky setTag
  dsimp only
  split <;> split <;> first | rfl | (split <;> rfl)

/-- A reply leaves the record buffer and the transit queue alone. -/
theorem sendReply_records (r : Reply) (s : State) :
    (sendReply r s).up.records = s.up.records ∧ (sendReply r s).up.transit = s.up.transit := by
  unfold sendReply
  split
  · exact Uplink.take_reply_keeps_records { s.up with replies := s.up.replies ++ [_] } (by simp)
  · exact ⟨rfl, rfl⟩

/-- An answer leaves the record buffer and the transit queue alone. -/
theorem answer_records (u : RequestUnit) (tag : Byte) (w : Bool) (st : Status) (d : ReplyData) (s : State) :
    (answer u tag w st d s).up.records = s.up.records ∧ (answer u tag w st d s).up.transit = s.up.transit := by
  unfold answer
  dsimp only
  split <;> split <;> first | exact sendReply_records .. | exact ⟨rfl, rfl⟩

/-- A forwarded frame touches the uplink side, the sticky flags and the port counts. -/
theorem joinTransit_only (f : Frame) (s : State) :
    ∃ u k c, joinTransit f s = ((s.withUp u).withMgmt { s.mgmt with sticky := k }).withPorts { s.ports with counts := c } := by
  refine ⟨(joinTransit f s).up, (joinTransit f s).mgmt.sticky, (joinTransit f s).ports.counts, ?_⟩
  unfold joinTransit setCounts setSticky
  split <;> rfl

/-- An arrival on a port touches the receiving side only. -/
theorem received_only (p : Port) (s : State) :
    ∃ x, received p s = s.withPorts x ∧ x.forward = s.ports.forward := by
  cases p <;> exact ⟨_, rfl, rfl⟩

/-! ### Events -/

/-- A reported event touches the uplink side and the sticky flags. -/
theorem reportChain_only (id : Word16) (s : State) :
    ∃ u f, reportChain id s = (s.withUp u).withMgmt { s.mgmt with sticky := f } := by
  obtain ⟨u, f, h⟩ := queueNotice_only (.chain id) (setSticky (fun f => { f with chainLimit := true }) s)
  exact ⟨u, f, by unfold reportChain; rw [h]; rfl⟩

/-- A posted event touches the link table, the uplink side and the sticky flags; of the link table only the arrivals and
the guard marks. -/
theorem postAt_only (src : EventSource) (e : Event) (s : State) :
    ∃ ls as u f, postAt src e s
      = ((s.withLinks { s.links with links := ls, arrivals := as }).withUp u).withMgmt { s.mgmt with sticky := f } := by
  refine ⟨(postAt src e s).links.links, (postAt src e s).links.arrivals, (postAt src e s).up,
    (postAt src e s).mgmt.sticky, ?_⟩
  unfold postAt discardEvent releaseGuards reportChain queueNotice setSticky
  split
  · rfl
  · split <;> split <;> rfl

/-- A block's event that finds room joins the arrivals with depth 0. -/
theorem post_room {src : EventSource} {id : Word16} {s : State} (h : storeRoom s = true) :
    post src id s = s.withLinks { s.links with arrivals := s.links.arrivals ++ [⟨src, ⟨id, 0⟩⟩] } := by
  simp [post, postAt, h]

/-- A posted event leaves the record buffer alone. -/
theorem postAt_records (src : EventSource) (e : Event) (s : State) :
    (postAt src e s).up.records = s.up.records := by
  unfold postAt discardEvent reportChain
  split
  · rfl
  · rw [(queueNotice_records _ _).1]; split <;> rfl

/-- A posted event leaves the transit queue alone. -/
theorem postAt_transit (src : EventSource) (e : Event) (s : State) :
    (postAt src e s).up.transit = s.up.transit := by
  unfold postAt discardEvent reportChain
  split
  · rfl
  · rw [(queueNotice_records _ _).2]; split <;> rfl

/-- An outcome event touches what a posted event touches, with the chain for the arrivals. -/
theorem postOutcome_only (l : LinkIx) (done : Bool) (d : Nat) (s : State) :
    ∃ ls c u f, postOutcome l done d s
      = ((s.withLinks { s.links with links := ls, chain := c }).withUp u).withMgmt { s.mgmt with sticky := f } := by
  refine ⟨(postOutcome l done d s).links.links, (postOutcome l done d s).links.chain, (postOutcome l done d s).up,
    (postOutcome l done d s).mgmt.sticky, ?_⟩
  unfold postOutcome discardEvent releaseGuards reportChain queueNotice setSticky
  split
  · rfl
  · split <;> split <;> rfl

/-! ### The outlet map and the tenant table -/

/-- A reading update touches the map and the tenants; of the map the entry and the attention count. -/
theorem updateReading_only (i : OutletIx) (u : MapUpdate) (flag : Option ConvFlag) (s : State) :
    ∃ n ts, updateReading i u flag s = (s.withMap { s.map with
      entries := s.map.entries.set i ((s.map.entries.get i).updated s.time.rowTime u flag), attention := n }).withTenants ts := by
  refine ⟨(updateReading i u flag s).map.attention, (updateReading i u flag s).tenants, ?_⟩
  unfold updateReading modifyTenant
  dsimp only
  split <;> rfl

/-- A freshness clear touches the map and the tenants. -/
theorem clearFreshness_only (n : NodeIx) (s : State) :
    ∃ m ts, clearFreshness n s = (s.withMap m).withTenants ts := by
  unfold clearFreshness
  generalize nodeOutlets n = l
  induction l generalizing s with
  | nil => exact ⟨s.map, s.tenants, rfl⟩
  | cons i l ih =>
    obtain ⟨k, ts, h⟩ := updateReading_only i .hold none s
    obtain ⟨m, ts', h'⟩ := ih (updateReading i .hold none s)
    exact ⟨m, ts', by rw [List.foldl_cons, h', h]; rfl⟩

/-- A stack step touches the map and the tenants. -/
theorem shedStackStep_only (i : OutletIx) (b a : Membership) (s : State) :
    ∃ m ts, shedStackStep i b a s = (s.withMap m).withTenants ts := by
  refine ⟨(shedStackStep i b a s).map, (shedStackStep i b a s).tenants, ?_⟩
  unfold shedStackStep modifyTenant modifyOutlet
  dsimp only
  split
  · rfl
  · split
    · split <;> rfl
    · rfl

/-! ### The blocks an operation touches -/

/-- The blocks of the state beside the queue. -/
inductive Block where
  | time | map | profiles | tenants | review | links | orders | roster | down | up | ports | mgmt
  deriving DecidableEq, Repr

/-- The two states hold the same in a block. -/
def Block.same (s t : State) : Block → Prop
  | .time => t.time = s.time
  | .map => t.map = s.map
  | .profiles => t.profiles = s.profiles
  | .tenants => t.tenants = s.tenants
  | .review => t.review = s.review
  | .links => t.links = s.links
  | .orders => t.orders = s.orders
  | .roster => t.roster = s.roster
  | .down => t.down = s.down
  | .up => t.up = s.up
  | .ports => t.ports = s.ports
  | .mgmt => t.mgmt = s.mgmt

/-- What leads from `s` to `t` touches these blocks only, and no queue of commands. -/
def Touches (bs : List Block) (s t : State) : Prop :=
  t.pending = s.pending ∧ ∀ b, bs.contains b = false → b.same s t

theorem Block.same_trans {s t u : State} : ∀ {b : Block}, b.same s t → b.same t u → b.same s u
  | .time, h, k => k.trans h
  | .map, h, k => k.trans h
  | .profiles, h, k => k.trans h
  | .tenants, h, k => k.trans h
  | .review, h, k => k.trans h
  | .links, h, k => k.trans h
  | .orders, h, k => k.trans h
  | .roster, h, k => k.trans h
  | .down, h, k => k.trans h
  | .up, h, k => k.trans h
  | .ports, h, k => k.trans h
  | .mgmt, h, k => k.trans h

theorem Touches.refl (bs : List Block) (s : State) : Touches bs s s :=
  ⟨rfl, fun b _ => by cases b <;> rfl⟩

theorem Touches.trans {bs : List Block} {s t u : State} (h : Touches bs s t) (k : Touches bs t u) : Touches bs s u :=
  ⟨k.1.trans h.1, fun b hb => Block.same_trans (h.2 b hb) (k.2 b hb)⟩

theorem Touches.mono {bs cs : List Block} {s t : State} (h : Touches bs s t)
    (sub : ∀ b, cs.contains b = false → bs.contains b = false) : Touches cs s t :=
  ⟨h.1, fun b hb => h.2 b (sub b hb)⟩

theorem Touches.foldl {α : Type} {bs : List Block} {f : State → α → State} (h : ∀ s a, Touches bs s (f s a)) :
    ∀ (l : List α) (s : State), Touches bs s (l.foldl f s)
  | [], s => .refl bs s
  | a :: l, s => (h s a).trans (Touches.foldl h l (f s a))

theorem Touches.iterate {bs : List Block} {f : State → State} (h : ∀ s, Touches bs s (f s)) :
    ∀ (n : Nat) (s : State), Touches bs s (Machine.iterate f n s)
  | 0, s => .refl bs s
  | n + 1, s => (h s).trans (Touches.iterate h n (f s))

theorem queueNotice_touches (x : NoticeSubject) (s : State) : Touches [.up, .mgmt] s (queueNotice x s) := by
  obtain ⟨u, f, h⟩ := queueNotice_only x s
  rw [h]; exact ⟨rfl, fun b hb => by cases b <;> first | rfl | exact absurd hb (by decide)⟩

theorem answer_touches (u : RequestUnit) (tag : Byte) (w : Bool) (st : Status) (d : ReplyData) (s : State) :
    Touches [.up, .mgmt] s (answer u tag w st d s) := by
  obtain ⟨v, f, t, h⟩ := answer_only u tag w st d s
  rw [h]; exact ⟨rfl, fun b hb => by cases b <;> first | rfl | exact absurd hb (by decide)⟩

theorem sendReply_touches (r : Reply) (s : State) : Touches [.up, .mgmt] s (sendReply r s) := by
  obtain ⟨v, f, h⟩ := sendReply_only r s
  rw [h]; exact ⟨rfl, fun b hb => by cases b <;> first | rfl | exact absurd hb (by decide)⟩

theorem joinTransit_touches (f : Frame) (s : State) : Touches [.up, .mgmt, .ports] s (joinTransit f s) := by
  obtain ⟨u, k, c, h⟩ := joinTransit_only f s
  rw [h]; exact ⟨rfl, fun b hb => by cases b <;> first | rfl | exact absurd hb (by decide)⟩

theorem postAt_touches (src : EventSource) (e : Event) (s : State) : Touches [.links, .up, .mgmt] s (postAt src e s) := by
  obtain ⟨ls, as, u, f, h⟩ := postAt_only src e s
  rw [h]; exact ⟨rfl, fun b hb => by cases b <;> first | rfl | exact absurd hb (by decide)⟩

theorem postOutcome_touches (l : LinkIx) (d : Bool) (n : Nat) (s : State) :
    Touches [.links, .up, .mgmt] s (postOutcome l d n s) := by
  obtain ⟨ls, as, u, f, h⟩ := postOutcome_only l d n s
  rw [h]; exact ⟨rfl, fun b hb => by cases b <;> first | rfl | exact absurd hb (by decide)⟩

theorem modifyTenant_touches (t : Slot) (f : Tenant → Tenant) (s : State) : Touches [.tenants] s (modifyTenant t f s) :=
  ⟨rfl, fun b hb => by cases b <;> first | rfl | exact absurd hb (by decide)⟩

theorem modifyOutlet_touches (i : OutletIx) (f : Outlet → Outlet) (s : State) : Touches [.map] s (modifyOutlet i f s) :=
  ⟨rfl, fun b hb => by cases b <;> first | rfl | exact absurd hb (by decide)⟩

theorem modifyNode_touches (n : NodeIx) (f : Node → Node) (s : State) : Touches [.roster] s (modifyNode n f s) :=
  ⟨rfl, fun b hb => by cases b <;> first | rfl | exact absurd hb (by decide)⟩

theorem modifyLink_touches (l : LinkIx) (f : Link → Link) (s : State) : Touches [.links] s (modifyLink l f s) :=
  ⟨rfl, fun b hb => by cases b <;> first | rfl | exact absurd hb (by decide)⟩

theorem updateReading_touches (i : OutletIx) (u : MapUpdate) (flag : Option ConvFlag) (s : State) :
    Touches [.map, .tenants] s (updateReading i u flag s) := by
  obtain ⟨n, ts, h⟩ := updateReading_only i u flag s
  rw [h]; exact ⟨rfl, fun b hb => by cases b <;> first | rfl | exact absurd hb (by decide)⟩

theorem clearFreshness_touches (n : NodeIx) (s : State) : Touches [.map, .tenants] s (clearFreshness n s) :=
  Touches.foldl (fun s i => updateReading_touches i .hold none s) _ s

theorem shedStackStep_touches (i : OutletIx) (b a : Membership) (s : State) :
    Touches [.map, .tenants] s (shedStackStep i b a s) := by
  obtain ⟨m, ts, h⟩ := shedStackStep_only i b a s
  rw [h]; exact ⟨rfl, fun b hb => by cases b <;> first | rfl | exact absurd hb (by decide)⟩

theorem applyChange_touches (i : OutletIx) (m : Membership) (s : State) :
    Touches [.map, .tenants] s (applyChange i m s) := by
  have t (k : Slot) (f : Tenant → Tenant) (x : State) : Touches [.map, .tenants] x (modifyTenant k f x) :=
    (modifyTenant_touches k f x).mono (fun b hb => by cases b <;> first | rfl | exact absurd hb (by decide))
  have o (f : Outlet → Outlet) (x : State) : Touches [.map, .tenants] x (modifyOutlet i f x) :=
    (modifyOutlet_touches i f x).mono (fun b hb => by cases b <;> first | rfl | exact absurd hb (by decide))
  unfold applyChange
  dsimp only
  have first (x : State) : Touches [.map, .tenants] s x → Touches [.map, .tenants] s
      (modifyOutlet i (fun e => { e with effective := m }) (shedStackStep i (s.map.entries.get i).effective m x)) :=
    fun h => (h.trans (shedStackStep_touches ..)).trans (o _ _)
  split <;> split
  · exact first _ (.refl _ _)
  · exact first _ (t _ _ _)
  · exact (first _ (.refl _ _)).trans (t _ _ _)
  · exact (first _ (t _ _ _)).trans (t _ _ _)

theorem applyPending_touches (i : OutletIx) (s : State) : Touches [.map, .tenants] s (applyPending i s) := by
  have one (x : State) (y : OutletMap) : Touches [.map, .tenants] x (x.withMap y) :=
    ⟨rfl, fun b hb => by cases b <;> first | rfl | exact absurd hb (by decide)⟩
  unfold applyPending pendingInDown
  split
  · exact .refl _ _
  · dsimp only
    split
    · exact (applyChange_touches ..).trans (one _ _)
    · exact ((applyChange_touches ..).trans (one _ _)).trans ((modifyTenant_touches ..).mono
        (fun b hb => by cases b <;> first | rfl | exact absurd hb (by decide)))

theorem applyAllPending_touches (s : State) : Touches [.map, .tenants] s (applyAllPending s) :=
  Touches.foldl (fun s k => by
    split
    · exact applyPending_touches _ s
    · exact .refl _ _) _ s

theorem assignAt_touches (i : OutletIx) (m : Membership) (s : State) : Touches [.map, .tenants] s (assignAt i m s) := by
  have stage : Touches [.map, .tenants] s (stageChange i m s) := by
    unfold stageChange pendingInUp pendingInDown
    dsimp only
    split <;> split <;> exact ⟨rfl, fun b hb => by cases b <;> first | rfl | exact absurd hb (by decide)⟩
  unfold assignAt
  split
  · exact .refl _ _
  · exact applyChange_touches i m s
  · exact stage
  · exact stage

theorem placeOrder_touches (i : OutletIx) (r : RelayAction) (d : IndicatorAction) (o : OrderOrigin) (s : State) :
    Touches [.orders, .down] s (placeOrder i r d o s) :=
  ⟨rfl, fun b hb => by cases b <;> first | rfl | exact absurd hb (by decide)⟩

theorem endShedRequest_touches (e : RequestEnd) (s : State) : Touches [.links, .up, .mgmt] s (endShedRequest e s) := by
  have up {x y : State} (h : Touches [.up, .mgmt] x y) : Touches [.links, .up, .mgmt] x y :=
    h.mono (fun b hb => by cases b <;> first | rfl | exact absurd hb (by decide))
  have links (x : State) (l : LinkTable) : Touches [.links, .up, .mgmt] x (x.withLinks l) :=
    ⟨rfl, fun b hb => by cases b <;> first | rfl | exact absurd hb (by decide)⟩
  have ans (st : Status) (d : ReplyData) (x : State) : Touches [.links, .up, .mgmt] x (answerSwitch st d x) := by
    unfold answerSwitch
    split
    · exact .refl _ _
    · exact Touches.trans (t := x.withMgmt { x.mgmt with switchJob := none })
        ⟨rfl, fun b hb => by cases b <;> first | rfl | exact absurd hb (by decide)⟩ (up (answer_touches ..))
  have first (n : NoticeSubject) : Touches [.links, .up, .mgmt] s (if e.done = true then s else queueNotice n s) := by
    split
    · exact .refl _ _
    · exact up (queueNotice_touches ..)
  unfold endShedRequest
  dsimp only
  split
  · exact (first _).trans (links _ _)
  · split
    · exact (first _).trans (ans ..)
    · exact first _

/-- The end of a shed request leaves the record buffer and the transit queue alone. -/
theorem endShedRequest_records (e : RequestEnd) (s : State) :
    (endShedRequest e s).up.records = s.up.records ∧ (endShedRequest e s).up.transit = s.up.transit := by
  have first (n : NoticeSubject) : (if e.done = true then s else queueNotice n s).up.records = s.up.records ∧
      (if e.done = true then s else queueNotice n s).up.transit = s.up.transit := by
    split
    · exact ⟨rfl, rfl⟩
    · exact queueNotice_records ..
  unfold endShedRequest answerSwitch
  dsimp only
  split
  · exact first _
  · split
    · split
      · exact first _
      · rw [(answer_records ..).1, (answer_records ..).2]; exact first _
    · exact first _

/-- The end of an order leaves the record buffer and the transit queue alone. -/
theorem endOrder_records (o : Order) (e : Ending) (s : State) :
    (endOrder o e s).up.records = s.up.records ∧ (endOrder o e s).up.transit = s.up.transit := by
  have step : (orderStackStep o e s).up = s.up := by
    unfold orderStackStep
    split
    · split
      · split <;> rfl
      · rfl
    · rfl
    · rfl
  have report (d : Bool) (r : RelayStatus) (i : Indicator) (x : State) :
      (orderReport o e d r i x).up.records = x.up.records ∧ (orderReport o e d r i x).up.transit = x.up.transit := by
    unfold orderReport answerSwitch
    dsimp only
    split
    · exact endShedRequest_records ..
    · exact endShedRequest_records ..
    · split
      · split
        · exact ⟨rfl, rfl⟩
        · exact answer_records ..
      · exact ⟨rfl, rfl⟩
  unfold endOrder
  dsimp only
  rw [(report ..).1, (report ..).2]
  rw [← step]; exact ⟨rfl, rfl⟩

/-- The end of an order touches the outlet's entry, the stacks, the orders, reports, notices and answers. -/
theorem endOrder_touches (o : Order) (e : Ending) (s : State) :
    Touches [.map, .tenants, .orders, .links, .up, .mgmt] s (endOrder o e s) := by
  have step : Touches [.map, .tenants, .orders, .links, .up, .mgmt] s (orderStackStep o e s) := by
    unfold orderStackStep
    split
    · split
      · split <;> exact (modifyTenant_touches ..).mono
          (fun b hb => by cases b <;> first | rfl | exact absurd hb (by decide))
      · exact .refl _ _
    · exact .refl _ _
    · exact .refl _ _
  have report (d : Bool) (r : RelayStatus) (i : Indicator) (x : State) :
      Touches [.map, .tenants, .orders, .links, .up, .mgmt] x (orderReport o e d r i x) := by
    have wide {x y : State} (h : Touches [.links, .up, .mgmt] x y) :
        Touches [.map, .tenants, .orders, .links, .up, .mgmt] x y :=
      h.mono (fun b hb => by cases b <;> first | rfl | exact absurd hb (by decide))
    unfold orderReport
    dsimp only
    split
    · exact wide (endShedRequest_touches ..)
    · exact wide (endShedRequest_touches ..)
    · split
      · unfold answerSwitch
        split
        · exact .refl _ _
        · rename_i j _
          exact Touches.trans (t := x.withMgmt { x.mgmt with switchJob := none })
            ⟨rfl, fun b hb => by cases b <;> first | rfl | exact absurd hb (by decide)⟩
            (wide ((answer_touches ..).mono
              (fun b hb => by cases b <;> first | rfl | exact absurd hb (by decide))))
      · exact .refl _ _
  unfold endOrder
  dsimp only
  refine (step.trans ?_).trans (report ..)
  exact ⟨rfl, fun b hb => by cases b <;> first | rfl | exact absurd hb (by decide)⟩

theorem loseNode_touches (n : NodeIx) (s : State) :
    Touches [.map, .tenants, .orders, .links, .up, .mgmt] s (loseNode n s) :=
  Touches.foldl (fun s o => endOrder_touches o .nodeLost s) _ s

theorem sendLimitNote_touches (n : NodeIx) (s : State) : Touches [.roster, .down] s (sendLimitNote n s) := by
  unfold sendLimitNote
  split <;> exact ⟨rfl, fun b hb => by cases b <;> first | rfl | exact absurd hb (by decide)⟩

theorem leaveNode_touches (n : NodeIx) (after : NodeState) (k : Nat) (s : State) :
    Touches [.map, .tenants, .orders, .links, .roster, .up, .mgmt] s (leaveNode n after k s) := by
  have wide {bs : List Block} {x y : State} (h : Touches bs x y)
      (sub : ∀ b, [Block.map, .tenants, .orders, .links, .roster, .up, .mgmt].contains b = false → bs.contains b = false) :
      Touches [.map, .tenants, .orders, .links, .roster, .up, .mgmt] x y := h.mono sub
  unfold leaveNode
  dsimp only
  refine ((wide (modifyNode_touches ..) ?_).trans (wide (clearFreshness_touches ..) ?_)).trans
    ((wide (loseNode_touches ..) ?_).trans (wide (postAt_touches ..) ?_))
  all_goals exact fun b hb => by cases b <;> first | rfl | exact absurd hb (by decide)

/-- A reading update that only loses freshness (R5). -/
theorem updateReading_hold (i : OutletIx) (s : State) :
    updateReading i .hold none s =
      (s.withMap { s.map with entries := s.map.entries.modify i (fun e => { e with fresh := false }) }).withTenants
        (match (s.map.entries.get i).effective.memberOf with
          | none => s.tenants
          | some (a, _) => s.tenants.modify a (fun k =>
            { k with stale := k.stale + if (s.map.entries.get i).fresh then 1 else 0 })) := by
  have same (f : BitVec 6) (m : Nat) : attentionStep f f m = m := by unfold attentionStep; cases anySticky f <;> rfl
  have delta (k : Tenant) (f : Feed) (e : Outlet) :
      k.readingDelta f e { e with fresh := false } = { k with stale := k.stale + if e.fresh then 1 else 0 } := by
    rcases hd : k.draw with ⟨x, y⟩
    unfold Tenant.readingDelta
    cases f <;> cases h : e.fresh <;> simp [PerFeed.modify, hd]
  unfold updateReading
  simp only [Outlet.updated, raiseFlag, same]
  cases (s.map.entries.get i).effective.memberOf with
  | none => rfl
  | some p => obtain ⟨a, f⟩ := p; simp only [modifyTenant, delta]; rfl

/-- Freshness lost over a list of distinct outlets. -/
theorem foldl_hold (l : List OutletIx) : ∀ s : State, l.Nodup →
    let t := l.foldl (fun s i => updateReading i .hold none s) s
    (∀ i, t.map.entries.get i = if i ∈ l then { s.map.entries.get i with fresh := false } else s.map.entries.get i) ∧
    (t.map.pendingCount = s.map.pendingCount ∧ t.map.attention = s.map.attention) ∧
    (∀ a, t.tenants.get a = { s.tenants.get a with
      stale := (s.tenants.get a).stale + l.countP (fun i => (s.map.entries.get i).fresh &&
        decide ((s.map.entries.get i).effective.memberOf.map (·.1) = some a)) }) ∧
    t = (s.withMap t.map).withTenants t.tenants := by
  induction l with
  | nil => intro s _; exact ⟨fun _ => rfl, ⟨rfl, rfl⟩, fun _ => rfl, rfl⟩
  | cons j l ih =>
    intro s hd
    obtain ⟨hj, hl⟩ := List.nodup_cons.mp hd
    obtain ⟨e1, e2, e3, e4⟩ := ih (updateReading j .hold none s) hl
    have u := updateReading_hold j s
    have entry (i : OutletIx) : (updateReading j .hold none s).map.entries.get i =
        if i = j then { s.map.entries.get j with fresh := false } else s.map.entries.get i := by
      rw [u]; exact Table.get_modify _ _ _ _
    have other {i : OutletIx} (h : i ∈ l) : (updateReading j .hold none s).map.entries.get i = s.map.entries.get i := by
      rw [entry, if_neg]; rintro rfl; exact hj h
    refine ⟨fun i => ?_, ?_, fun a => ?_, ?_⟩
    · rw [List.foldl_cons, e1 i]
      by_cases h : i ∈ l
      · rw [if_pos h, other h, if_pos (List.mem_cons_of_mem _ h)]
      · rw [if_neg h, entry]
        by_cases hi : i = j
        · subst hi; rw [if_pos rfl, if_pos List.mem_cons_self]
        · rw [if_neg hi, if_neg (by simp [hi, h])]
    · rw [List.foldl_cons, e2.1, e2.2, u]; exact ⟨rfl, rfl⟩
    · have tail : l.countP (fun i => ((updateReading j .hold none s).map.entries.get i).fresh &&
          decide (((updateReading j .hold none s).map.entries.get i).effective.memberOf.map (·.1) = some a)) =
          l.countP (fun i => (s.map.entries.get i).fresh &&
            decide ((s.map.entries.get i).effective.memberOf.map (·.1) = some a)) :=
        List.countP_congr fun i hi => by rw [other hi]
      rw [List.foldl_cons, e3 a, tail, List.countP_cons, u]
      cases hm : (s.map.entries.get j).effective.memberOf with
      | none => simp
      | some p =>
        obtain ⟨b, f⟩ := p
        simp only [State.withTenants_tenants, Table.get_modify, Option.map_some, Option.some.injEq]
        by_cases h : a = b
        · subst h; cases (s.map.entries.get j).fresh <;> simp [Nat.add_assoc, Nat.add_comm 1]
        · have : ¬ b = a := fun e => h e.symm
          simp [h, this]
    · rw [List.foldl_cons, e4, u]; rfl

theorem mem_nodeOutlets (n : NodeIx) (i : OutletIx) : i ∈ nodeOutlets n ↔ nodeOfOutlet i = n := by
  unfold nodeOutlets
  rw [List.mem_map]
  constructor
  · rintro ⟨o, _, rfl⟩
    apply Fin.ext; show (n.val * 48 + o.val) / 48 = n.val; omega
  · intro h; subst h
    refine ⟨⟨i.val % 48, by omega⟩, List.mem_finRange _, Fin.ext ?_⟩
    show i.val / 48 * 48 + i.val % 48 = i.val; omega

theorem nodup_nodeOutlets (n : NodeIx) : (nodeOutlets n).Nodup := by
  unfold nodeOutlets
  refine List.pairwise_map.mpr (List.Pairwise.imp (fun {a b} d h => d ?_) (List.nodup_finRange 48))
  have := congrArg Fin.val h
  simp only [mapIndex] at this
  exact Fin.ext (by omega)

/-- A node leaves for SILENT or DISABLED: the record and the freshness are cleared, then its orders end NODE_LOST in the
order they were placed, then its event is posted (R113, R134, R135). -/
theorem leaveNode_spec (n : NodeIx) (after : NodeState) (event : Nat) (s : State) :
    ∃ x, NodeCleared n after s x ∧ leaveNode n after event s = post .roster (nodeEvent n event)
      ((s.orders.orders.filter (fun o => nodeOfOutlet o.outlet == n)).foldl (fun s o => endOrder o .nodeLost s) x) := by
  let r := modifyNode n (fun k => { k with state := after, lastSeq := none, noteOwed := false }) s
  obtain ⟨e1, e2, e3, e4⟩ := foldl_hold (nodeOutlets n) r (nodup_nodeOutlets n)
  have ho : (clearFreshness n r).orders = s.orders := (clearFreshness_touches n r).2 .orders rfl
  have em : r.map = s.map := rfl
  have et : r.tenants = s.tenants := rfl
  refine ⟨clearFreshness n r, ⟨?_, fun i => ?_, ?_, fun a => ?_, ?_⟩, ?_⟩
  · exact (clearFreshness_touches n r).2 .roster rfl
  · unfold clearFreshness; refine (e1 i).trans ?_
    simp only [mem_nodeOutlets]; rfl
  · unfold clearFreshness; exact ⟨e2.1, e2.2⟩
  · unfold clearFreshness; refine (e3 a).trans ?_
    rw [em, et, nodeOutlets, List.countP_map]; rfl
  · rw [show (clearFreshness n r).roster = r.roster from (clearFreshness_touches n r).2 .roster rfl]
    unfold clearFreshness; exact e4
  · show post _ _ (loseNode n (clearFreshness n r)) = _
    unfold loseNode; rw [ho]

theorem expireNode_touches (n : NodeIx) (s : State) :
    Touches [.map, .tenants, .orders, .links, .roster, .up, .mgmt] s (expireNode n s) := by
  unfold expireNode
  split
  · exact leaveNode_touches ..
  · exact .refl _ _

/-- One link's part in a scan touches the links, latched tenants, a started close, notices and their marks. -/
theorem scanLink_touches (e : Event) (s : State) (l : LinkIx) :
    Touches [.links, .tenants, .review, .up, .mgmt] s (scanLink e s l) := by
  have wide {bs : List Block} {x y : State} (h : Touches bs x y)
      (sub : ∀ b, [Block.links, .tenants, .review, .up, .mgmt].contains b = false → bs.contains b = false) :
      Touches [.links, .tenants, .review, .up, .mgmt] x y := h.mono sub
  have outcome (l : LinkIx) (d : Bool) (n : Nat) (x : State) :
      Touches [.links, .tenants, .review, .up, .mgmt] x (postOutcome l d n x) :=
    wide (postOutcome_touches ..) (fun b hb => by cases b <;> first | rfl | exact absurd hb (by decide))
  have shed (k : ShedKind) (t : Slot) (l : LinkIx) (d : Nat) (x : State) :
      Touches [.links, .tenants, .review, .up, .mgmt] x (linkShed k t l d x) := by
    unfold linkShed
    split
    · exact ⟨rfl, fun b hb => by cases b <;> first | rfl | exact absurd hb (by decide)⟩
    · exact outcome ..
  have link (f : Link → Link) (x : State) : Touches [.links, .tenants, .review, .up, .mgmt] x (modifyLink l f x) :=
    wide (modifyLink_touches ..) (fun b hb => by cases b <;> first | rfl | exact absurd hb (by decide))
  have dispatch (a : LinkAction) (k c : Bool) (x : State) :
      Touches [.links, .tenants, .review, .up, .mgmt] x (dispatchAction l a k c e x) := by
    unfold dispatchAction
    split
    · exact shed ..
    · exact shed ..
    · exact (wide (queueNotice_touches ..)
        (fun b hb => by cases b <;> first | rfl | exact absurd hb (by decide))).trans (outcome ..)
    · split
      · exact outcome ..
      · exact (wide (modifyTenant_touches ..)
          (fun b hb => by cases b <;> first | rfl | exact absurd hb (by decide))).trans (outcome ..)
    · split
      · exact outcome ..
      · exact Touches.trans (t := startClose x)
          ⟨rfl, fun b hb => by cases b <;> first | rfl | exact absurd hb (by decide)⟩ (outcome ..)
  have act (a : LinkAction) (k c : Bool) (x : State) :
      Touches [.links, .tenants, .review, .up, .mgmt] x (performAction l a k c e x) := (link _ x).trans (dispatch ..)
  unfold scanLink
  dsimp only
  split
  · exact .refl _ _
  · split
    · exact .refl _ _
    · split
      · exact (link ..).trans (act ..)
      · exact .refl _ _
    · split
      · exact .refl _ _
      · exact (link ..).trans (act ..)
    · split
      · exact act ..
      · exact .refl _ _

/-- Taking an event touches what the scan of a link touches. -/
theorem takeEvent_touches (e : Event) (s : State) : Touches [.links, .tenants, .review, .up, .mgmt] s (takeEvent e s) := by
  have guards : Touches [.links, .tenants, .review, .up, .mgmt] s (if e.id = 0x0021#16 then releaseGuards s else s) := by
    split <;> exact ⟨rfl, fun b hb => by cases b <;> first | rfl | exact absurd hb (by decide)⟩
  unfold takeEvent
  dsimp only
  generalize (if e.id = 0x0021#16 then releaseGuards s else s) = y at guards ⊢
  refine guards.trans ?_
  split
  · exact .refl _ _
  · split
    · obtain ⟨u, f, h⟩ := reportChain_only e.id y
      rw [h]; exact ⟨rfl, fun b hb => by cases b <;> first | rfl | exact absurd hb (by decide)⟩
    · exact Touches.foldl (fun s l => scanLink_touches e s l) _ _

/-- Out of RUN an event is discarded; a 0x0021 releases the guards first (R91). -/
theorem takeEvent_out_of_run (e : Event) {s : State} (h : s.mgmt.opState ≠ .run) :
    takeEvent e s = if e.id = 0x0021#16 then releaseGuards s else s := by
  unfold takeEvent
  dsimp only
  rw [if_pos]
  split <;> exact h

/-- Guards once released stay as they are when released again. -/
@[simp] theorem releaseGuards_twice (s : State) : releaseGuards (releaseGuards s) = releaseGuards s := by
  have same : (s.links.links.map (fun k => { k with guardSet := false })).map (fun k => { k with guardSet := false })
      = s.links.links.map (fun k => { k with guardSet := false }) := by
    apply Table.ext_get
    intro l
    simp
  unfold releaseGuards
  simp [same]

/-- Out of RUN events taken one after the other release the guards when a 0x0021 is among them, and do nothing else. -/
theorem takeEvents_out_of_run : ∀ (es : List Event) {s : State}, s.mgmt.opState ≠ .run →
    es.foldl (fun s e => takeEvent e s) s = if ∃ e ∈ es, e.id = 0x0021#16 then releaseGuards s else s
  | [], s, _ => by simp
  | e :: es, s, h => by
    rw [List.foldl_cons, takeEvent_out_of_run e h]
    by_cases he : e.id = 0x0021#16
    · rw [if_pos he, takeEvents_out_of_run es (s := releaseGuards s) h, releaseGuards_twice, ite_self, if_pos]
      exact ⟨e, .head _, he⟩
    · rw [if_neg he, takeEvents_out_of_run es h]
      simp [he]

/-- Taking what waits, out of RUN, empties the store and releases the guards when a 0x0021 waits (R91, R154). -/
theorem takeWaiting_out_of_run {s : State} (h : s.mgmt.opState ≠ .run) :
    takeWaiting s = s.withLinks { s.links with
      chain := [], arrivals := []
      links := if (∃ e ∈ s.links.chain, e.id = 0x0021#16) ∨ ∃ a ∈ s.links.arrivals, a.event.id = 0x0021#16
        then s.links.links.map (fun k => { k with guardSet := false }) else s.links.links } := by
  unfold takeWaiting
  have out : (s.withLinks { s.links with chain := [], arrivals := [] }).mgmt.opState ≠ .run := h
  rw [takeEvents_out_of_run _ out]
  by_cases hw : (∃ e ∈ s.links.chain, e.id = 0x0021#16) ∨ ∃ a ∈ s.links.arrivals, a.event.id = 0x0021#16
  · rw [if_pos hw, if_pos]
    · rfl
    · rcases hw with ⟨e, he, hi⟩ | ⟨a, ha, hi⟩
      · exact ⟨e, List.mem_append_left _ he, hi⟩
      · exact ⟨a.event, List.mem_append_right _ (List.mem_map_of_mem ha), hi⟩
  · rw [if_neg hw, if_neg]
    rintro ⟨e, he, hi⟩
    rcases List.mem_append.mp he with he | he
    · exact hw (.inl ⟨e, he, hi⟩)
    · obtain ⟨a, ha, rfl⟩ := List.mem_map.mp he
      exact hw (.inr ⟨a, ha, hi⟩)

/-- Taking what waits touches what taking an event touches. -/
theorem takeWaiting_touches (s : State) : Touches [.links, .tenants, .review, .up, .mgmt] s (takeWaiting s) := by
  unfold takeWaiting
  refine Touches.trans (t := s.withLinks _) ?_ (Touches.foldl (fun s e => takeEvent_touches e s) _ _)
  exact ⟨rfl, fun b hb => by cases b <;> first | rfl | exact absurd hb (by decide)⟩

theorem iterate_add (f : State → State) (m n : Nat) (s : State) :
    iterate f (m + n) s = iterate f n (iterate f m s) := by
  induction m generalizing s with
  | zero => rw [Nat.zero_add]; rfl
  | succ m ih => rw [Nat.succ_add]; exact ih (f s)

/-- With no chain in hand there is nothing to scan. -/
theorem iterate_scanChain_done {s : State} (h : s.links.chain = []) : ∀ n, iterate scanChain n s = s
  | 0 => rfl
  | n + 1 => by
    have same : scanChain s = s := by unfold scanChain; rw [h]
    show iterate scanChain n (scanChain s) = s
    rw [same]; exact iterate_scanChain_done h n

/-- The chain in hand is finished by some number of event scans. -/
theorem finishChain_iterates (s : State) : ∃ n, finishChain s = iterate scanChain n s := by
  unfold finishChain
  generalize 5 = k
  induction k generalizing s with
  | zero => exact ⟨0, rfl⟩
  | succ k ih =>
    obtain ⟨n, h⟩ := ih (iterate scanChain s.links.chain.length s)
    exact ⟨s.links.chain.length + n, h.trans (iterate_add _ _ _ _).symm⟩

theorem finishChain_touches (s : State) : Touches [.links, .tenants, .review, .up, .mgmt] s (finishChain s) := by
  refine Touches.iterate (fun s => Touches.iterate (fun s => ?_) _ s) 5 s
  unfold scanChain
  split
  · exact .refl _ _
  · refine Touches.trans (t := s.withLinks _) ?_ (takeEvent_touches ..)
    exact ⟨rfl, fun b hb => by cases b <;> first | rfl | exact absurd hb (by decide)⟩

/-- The end of a pass touches the map, the tenants, the review engine and the event store. -/
theorem endPass_touches (s : State) : Touches [.map, .tenants, .review, .links, .up, .mgmt] s (endPass s) := by
  have wide {bs : List Block} {x y : State} (h : Touches bs x y)
      (sub : ∀ b, [Block.map, .tenants, .review, .links, .up, .mgmt].contains b = false → bs.contains b = false) :
      Touches [.map, .tenants, .review, .links, .up, .mgmt] x y := h.mono sub
  have post (id : Word16) (x : State) :
      Touches [.map, .tenants, .review, .links, .up, .mgmt] x (post .review id x) :=
    wide (postAt_touches ..) (fun b hb => by cases b <;> first | rfl | exact absurd hb (by decide))
  have review (x : State) (y : Review) : Touches [.map, .tenants, .review, .links, .up, .mgmt] x (x.withReview y) :=
    ⟨rfl, fun b hb => by cases b <;> first | rfl | exact absurd hb (by decide)⟩
  have first : Touches [.map, .tenants, .review, .links, .up, .mgmt] s
      (Machine.post .review 0x0021 (applyAllPending s)) :=
    (wide (applyAllPending_touches s)
      (fun b hb => by cases b <;> first | rfl | exact absurd hb (by decide))).trans (post _ _)
  unfold endPass
  generalize Machine.post .review 0x0021 (applyAllPending s) = y at first ⊢
  refine (first.trans ?_).trans (review _ _)
  dsimp only
  split
  · exact (review ..).trans (post _ _)
  · exact .refl _ _

/-- A visit touches the tenants, the review engine, the event store and the record buffer. -/
theorem visitSlot_touches (i : Slot) (s : State) : Touches [.tenants, .review, .links, .up, .mgmt] s (visitSlot i s) := by
  have post (id : Word16) (x : State) : Touches [.tenants, .review, .links, .up, .mgmt] x (post .review id x) :=
    (postAt_touches ..).mono (fun b hb => by cases b <;> first | rfl | exact absurd hb (by decide))
  have adv (x : State) : Touches [.tenants, .review, .links, .up, .mgmt] x (advance x) :=
    ⟨rfl, fun b hb => by cases b <;> first | rfl | exact absurd hb (by decide)⟩
  have close (x : State) : Touches [.tenants, .review, .links, .up, .mgmt] x (closeStep i x) := by
    unfold closeStep
    dsimp only
    split
    · split
      · refine Touches.trans ?_ (adv _)
        exact ⟨rfl, fun b hb => by cases b <;> first | rfl | exact absurd hb (by decide)⟩
      · exact ⟨rfl, fun b hb => by cases b <;> first | rfl | exact absurd hb (by decide)⟩
    · exact adv x
  unfold visitSlot
  dsimp only
  split
  · exact adv s
  · refine Touches.trans ?_ (close _)
    have first (x : Table Tenant 128) : Touches [.tenants, .review, .links, .up, .mgmt] s (s.withTenants x) :=
      ⟨rfl, fun b hb => by cases b <;> first | rfl | exact absurd hb (by decide)⟩
    split
    · exact first _
    · exact (first _).trans (post ..)

/-! ### Requests -/

/-- An admitted request with readable arguments runs its operation on the received state (R173). -/
theorem serve_admitted {α : Type} {u : RequestUnit} {r : Request} {parse : List Byte → Option α}
    {act : α → State → State} {s : State} {a : α} (h : Admitted u r s) (ha : parse r.args = some a) :
    serve u r parse act s = act a (received .uplink s) := by
  have hf : ¬ Config.maxPayload < 4 + r.args.length := by have := h.fits; omega
  have hb : unitBusy u (received .uplink s) = false := by rw [← h.free]; cases u <;> rfl
  unfold serve arrive
  rw [if_neg hf]
  change (if r.tag = 0 then _ else if r.flags &&& 0xFE#8 ≠ 0#8 then _ else
    if unitBusy u (received .uplink s) = true then _ else _) = _
  rw [if_neg h.tag, if_neg (by simp [h.flags]), hb, ha]
  rfl

end Sys2Proof.Machine
end

