-- ==== Sys2Proof/Laws/Apply.lean ====
section
/-! SUPPORT. What applying membership changes does to the entries, the relay statuses and the shed stacks (R9, R10, R12). -/

namespace Sys2Proof.Machine

/-- The tenant of which an outlet under this membership is a member (R3). -/
theorem memberOf_fst (m : Membership) (a : Slot) :
    m.memberOf.map (·.1) = some a ↔ m.tenant = some a ∧ m.excluded = false := by
  unfold Membership.memberOf
  cases m.excluded <;> cases m.tenant <;> simp

/-- The outlet under `before` is a member of tenant `a`, and under `after` it is not. -/
abbrev leavesTenant (before after : Membership) (a : Slot) : Prop :=
  before.memberOf.map (·.1) = some a ∧ after.memberOf.map (·.1) ≠ some a

/-- The relay status that an application leaves: OFF where a confirmed entry leaves its stack (R10). -/
def relayApplied (i : OutletIx) (m : Membership) (s : State) : RelayStatus :=
  let e := s.map.entries.get i
  match e.effective.memberOf with
  | none => e.relay
  | some (a, _) =>
    if m.memberOf.map (·.1) ≠ some a ∧ hasConfirmed i (s.tenants.get a).stack then .off else e.relay

/-- What an application of a membership does to the map and to the stacks (R9, R10). -/
theorem applyChange_spec (i : OutletIx) (m : Membership) (s : State) :
    let e := s.map.entries.get i
    let t := applyChange i m s
    t.map = { s.map with entries := s.map.entries.set i { e with effective := m, relay := relayApplied i m s } } ∧
    (∀ a, t.tenants.get a = { s.tenants.get a with
      draw := (t.tenants.get a).draw, members := (t.tenants.get a).members, stale := (t.tenants.get a).stale,
      stack := if leavesTenant e.effective m a then removeEntry i (s.tenants.get a).stack
        else (s.tenants.get a).stack }) := by
  intro e t
  let joined (x : State) : State :=
    match m.memberOf with
    | none => x
    | some (t1, f1) => modifyTenant t1 (fun k => k.join f1 e) x
  have map (x : State) : (joined x).map = x.map := by
    simp only [joined]; cases m.memberOf <;> rfl
  have frame (x : State) (a : Slot) : (joined x).tenants.get a = { x.tenants.get a with
      draw := ((joined x).tenants.get a).draw, members := ((joined x).tenants.get a).members,
      stale := ((joined x).tenants.get a).stale } := by
    simp only [joined]
    cases m.memberOf with
    | none => rfl
    | some p =>
      simp only [modifyTenant, State.withTenants_tenants, Table.get_modify]
      split
      · next h => subst h; rfl
      · rfl
  have out (b : Slot) : (m.tenant ≠ some b ∨ m.excluded = true) ↔ m.memberOf.map (·.1) ≠ some b := by
    refine Iff.trans ?_ (not_congr (memberOf_fst m b)).symm
    cases m.excluded <;> simp
  obtain ⟨o, hb⟩ : ∃ o, (s.map.entries.get i).effective.memberOf = o := ⟨_, rfl⟩
  have hbe : e.effective.memberOf = o := hb
  rcases o with _ | ⟨b, f⟩
  · have ht : t = joined (modifyOutlet i (fun e => { e with effective := m }) s) := by
      show applyChange i m s = _
      unfold applyChange shedStackStep
      dsimp only
      rw [show (s.map.entries.get i).effective.memberOf = none from hb]
      try rfl
    refine ⟨?_, fun a => ?_⟩
    · rw [ht, map]
      unfold relayApplied
      dsimp only
      rw [show (s.map.entries.get i).effective.memberOf = none from hb]; rfl
    · rw [ht, frame]; simp [modifyOutlet, leavesTenant, hbe]
  · let s1 := modifyTenant b (fun k => k.leave f e) s
    have stack1 : (s1.tenants.get b).stack = (s.tenants.get b).stack := by simp [s1, modifyTenant, Tenant.leave]
    have ht : t = joined (modifyOutlet i (fun e => { e with effective := m }) (shedStackStep i e.effective m s1)) := by
      show applyChange i m s = _
      unfold applyChange
      dsimp only
      rw [show (s.map.entries.get i).effective.memberOf = some (b, f) from hb]
      try rfl
    have step : shedStackStep i e.effective m s1 =
        if m.memberOf.map (·.1) ≠ some b then
          modifyTenant b (fun k => { k with stack := removeEntry i k.stack })
            (if hasConfirmed i (s.tenants.get b).stack then modifyOutlet i (fun e => { e with relay := .off }) s1
              else s1)
        else s1 := by
      unfold shedStackStep
      rw [hb]
      simp only [out, stack1]
    refine ⟨?_, fun a => ?_⟩
    · rw [ht, map, step]
      unfold relayApplied
      dsimp only
      rw [show (s.map.entries.get i).effective.memberOf = some (b, f) from hb]
      dsimp only
      by_cases hl : m.memberOf.map (·.1) ≠ some b
      · by_cases hc : hasConfirmed i (s.tenants.get b).stack = true
        · rw [if_pos hl, if_pos hc, if_pos ⟨hl, hc⟩]
          simp [modifyOutlet, modifyTenant, s1, Table.modify]
          rfl
        · rw [if_pos hl, if_neg hc, if_neg (fun h => hc h.2)]; rfl
      · rw [if_neg hl, if_neg (fun h => hl h.1)]; rfl
    · rw [ht, frame, step]
      by_cases ha : a = b
      · subst ha
        by_cases hl : m.memberOf.map (·.1) ≠ some a
        · rw [if_pos hl]
          split <;> simp [modifyOutlet, modifyTenant, s1, Tenant.leave, leavesTenant, hbe, hl]
        · rw [if_neg hl]
          rw [Decidable.not_not] at hl
          simp [modifyOutlet, modifyTenant, s1, Tenant.leave, leavesTenant, hbe, hl]
      · have hb' : ¬ b = a := fun h => ha h.symm
        split
        · split <;> simp [modifyOutlet, modifyTenant, s1, Table.get_modify, leavesTenant, hbe, ha, hb']
        · simp [modifyOutlet, modifyTenant, s1, Table.get_modify, leavesTenant, hbe, ha, hb']

/-- The membership that a pass end leaves an entry with (R12). -/
abbrev Outlet.settled (e : Outlet) : Membership := e.pending.getD e.effective

/-- The entry when its pending change, if any, is in force (R9, R10). -/
def settledEntry (i : OutletIx) (s : State) : Outlet :=
  let e := s.map.entries.get i
  { e with pending := none, effective := e.settled, relay := relayApplied i e.settled s }

/-- Without a pending change nothing leaves a stack, so the relay status stays. -/
theorem relayApplied_same {i : OutletIx} {s : State} :
    relayApplied i (s.map.entries.get i).effective s = (s.map.entries.get i).relay := by
  unfold relayApplied
  dsimp only
  split
  · rfl
  · next a f h => rw [if_neg]; simp [h]

/-- What applying the pending change of one entry does to the map's entries and to the stacks (R9, R10, R12). -/
theorem applyPending_spec (i : OutletIx) (s : State) :
    let e := s.map.entries.get i
    let t := applyPending i s
    t.map.entries = s.map.entries.set i (settledEntry i s) ∧
    (∀ a, t.tenants.get a = { s.tenants.get a with
      draw := (t.tenants.get a).draw, members := (t.tenants.get a).members, stale := (t.tenants.get a).stale,
      pendingIn := (t.tenants.get a).pendingIn,
      stack := if leavesTenant e.effective e.settled a then removeEntry i (s.tenants.get a).stack
        else (s.tenants.get a).stack }) := by
  intro e t
  cases hp : e.pending with
  | none =>
    have ht : t = s := by
      show applyPending i s = s
      unfold applyPending; rw [show (s.map.entries.get i).pending = none from hp]
    have hs : e.settled = e.effective := by unfold Outlet.settled; rw [hp]; rfl
    refine ⟨?_, fun a => ?_⟩
    · rw [ht]
      have : settledEntry i s = s.map.entries.get i := by
        unfold settledEntry
        dsimp only
        rw [show (s.map.entries.get i).settled = (s.map.entries.get i).effective from hs, relayApplied_same, ← hp]
      rw [this, Table.set_get_self]
    · rw [ht, hs, if_neg (fun h => h.2 h.1)]
  | some m =>
    have hs : e.settled = m := by unfold Outlet.settled; rw [hp]; rfl
    obtain ⟨c1, c2⟩ := applyChange_spec i m s
    let s1 := applyChange i m s
    let s2 := s1.withMap { s1.map with
      entries := s1.map.entries.modify i (fun e => { e with pending := none })
      pendingCount := s1.map.pendingCount - 1 }
    have ht : t = pendingInDown m.tenant s2 := by
      show applyPending i s = _
      unfold applyPending; rw [show (s.map.entries.get i).pending = some m from hp]
    have hm : t.map = s2.map := by rw [ht]; unfold pendingInDown; split <;> rfl
    refine ⟨?_, fun a => ?_⟩
    · rw [hm]
      show s1.map.entries.modify i (fun e => { e with pending := none }) = _
      rw [show s1.map = _ from c1]
      unfold settledEntry
      simp only [Table.modify, Table.get_set_same, Table.set_set]
      rw [show (s.map.entries.get i).settled = m from hs]
    · have base := c2 a
      rw [← hs] at base
      have down : t.tenants.get a = { s1.tenants.get a with pendingIn := (t.tenants.get a).pendingIn } := by
        rw [ht]
        unfold pendingInDown
        split
        · rfl
        · simp only [modifyTenant, State.withTenants_tenants, Table.get_modify]
          split
          · next h => subst h; rfl
          · rfl
      rw [down]
      rw [hs] at base ⊢
      rw [show s1.tenants.get a = _ from base]

theorem hasConfirmed_filter {i : OutletIx} {p : StackEntry → Bool} (st : List StackEntry)
    (h : ∀ x, x.outlet = i → p x = true) : hasConfirmed i (st.filter p) = hasConfirmed i st := by
  unfold hasConfirmed
  rw [List.any_filter]
  congr 1; funext x
  by_cases hx : x.outlet = i
  · rw [h x hx]; simp
  · simp [hx]

/-- What applying the pending changes of a list of entries does (R9, R10, R12). -/
theorem foldl_applyPending (l : List Nat) : ∀ s : State, l.Nodup →
    let t := l.foldl (fun s k => if h : k < 1536 then applyPending ⟨k, h⟩ s else s) s
    (∀ j : OutletIx, t.map.entries.get j = if j.val ∈ l then settledEntry j s else s.map.entries.get j) ∧
    (∀ a, t.tenants.get a = { s.tenants.get a with
      draw := (t.tenants.get a).draw, members := (t.tenants.get a).members, stale := (t.tenants.get a).stale,
      pendingIn := (t.tenants.get a).pendingIn,
      stack := (s.tenants.get a).stack.filter (fun x => !decide (x.outlet.val ∈ l ∧
        leavesTenant (s.map.entries.get x.outlet).effective (s.map.entries.get x.outlet).settled a)) }) := by
  induction l with
  | nil => intro s _; exact ⟨fun _ => rfl, fun a => by simp [List.filter_eq_self.mpr]⟩
  | cons k l ih =>
    intro s hd t
    obtain ⟨hk, hl⟩ := List.nodup_cons.mp hd
    by_cases h : k < 1536
    · let i : OutletIx := ⟨k, h⟩
      let s1 := applyPending i s
      obtain ⟨p1, p2⟩ := applyPending_spec i s
      obtain ⟨q1, q2⟩ := ih s1 hl
      have ht : t = l.foldl (fun s k => if h : k < 1536 then applyPending ⟨k, h⟩ s else s) s1 := by
        show List.foldl _ s (k :: l) = _
        rw [List.foldl_cons, dif_pos h]
      rw [← ht] at q1 q2
      have other {j : OutletIx} (hj : j ≠ i) : s1.map.entries.get j = s.map.entries.get j := by
        rw [show s1.map.entries = _ from p1]; exact Table.get_set_other _ _ hj
      have notin {j : OutletIx} (hj : j.val ∈ l) : j ≠ i := by rintro rfl; exact hk hj
      have settled {j : OutletIx} (hj : j ≠ i) : settledEntry j s1 = settledEntry j s := by
        have conf (a : Slot) : hasConfirmed j (s1.tenants.get a).stack = hasConfirmed j (s.tenants.get a).stack := by
          rw [show (s1.tenants.get a).stack = _ from congrArg Tenant.stack (p2 a)]
          dsimp only
          split
          · refine hasConfirmed_filter _ fun x hx => ?_
            rw [hx]; simpa using hj
          · rfl
        have relay (m : Membership) : relayApplied j m s1 = relayApplied j m s := by
          unfold relayApplied; simp only [other hj, conf]
        unfold settledEntry; simp only [other hj, relay]
      refine ⟨fun j => ?_, fun a => ?_⟩
      · rw [q1 j]
        by_cases hj : j.val ∈ l
        · rw [if_pos hj, if_pos (List.mem_cons_of_mem _ hj), settled (notin hj)]
        · rw [if_neg hj]
          by_cases hi : j = i
          · subst hi
            rw [if_pos List.mem_cons_self, show s1.map.entries = _ from p1, Table.get_set_same]
          · rw [other hi, if_neg]
            intro hm
            rcases List.mem_cons.mp hm with e | e
            · exact hi (Fin.ext e)
            · exact hj e
      · have base := q2 a
        rw [show s1.tenants.get a = _ from p2 a] at base
        refine base.trans ?_
        have keep : ∀ st : List StackEntry,
            (if leavesTenant (s.map.entries.get i).effective (s.map.entries.get i).settled a
              then removeEntry i st else st).filter (fun x => !decide (x.outlet.val ∈ l ∧
              leavesTenant (s1.map.entries.get x.outlet).effective (s1.map.entries.get x.outlet).settled a)) =
            st.filter (fun x => !decide (x.outlet.val ∈ k :: l ∧
              leavesTenant (s.map.entries.get x.outlet).effective (s.map.entries.get x.outlet).settled a)) := by
          intro st
          by_cases hv : leavesTenant (s.map.entries.get i).effective (s.map.entries.get i).settled a
          · rw [if_pos hv, removeEntry, List.filter_filter]
            refine List.filter_congr fun x _ => ?_
            by_cases hx : x.outlet = i
            · rw [hx]; simp [hv, i]
            · have : ¬ x.outlet.val = k := fun e => hx (Fin.ext e)
              rw [other hx]; simp [hx, this]
          · rw [if_neg hv]
            refine List.filter_congr fun x _ => ?_
            by_cases hx : x.outlet = i
            · rw [hx]; simp only [hv, and_false]; simp only [i, hk, false_and]
            · have : ¬ x.outlet.val = k := fun e => hx (Fin.ext e)
              rw [other hx]; simp [this]
        exact congrArg (fun st : List StackEntry => ({ s.tenants.get a with
          draw := (t.tenants.get a).draw, members := (t.tenants.get a).members, stale := (t.tenants.get a).stale,
          pendingIn := (t.tenants.get a).pendingIn, stack := st } : Tenant)) (keep _)
    · obtain ⟨q1, q2⟩ := ih s hl
      have ht : t = l.foldl (fun s k => if h : k < 1536 then applyPending ⟨k, h⟩ s else s) s := by
        show List.foldl _ s (k :: l) = _
        rw [List.foldl_cons, dif_neg h]
      rw [← ht] at q1 q2
      have mem (j : OutletIx) : j.val ∈ k :: l ↔ j.val ∈ l := by
        rw [List.mem_cons]; exact or_iff_right fun e => h (e ▸ j.isLt)
      exact ⟨fun j => by rw [q1 j]; simp only [mem], fun a => by rw [q2 a]; simp only [mem]⟩

theorem pendingFrom_cons (k : Nat) (e : Outlet) (es : List Outlet) : pendingFrom k (e :: es) =
    if e.pending.isSome then k :: pendingFrom (k + 1) es else pendingFrom (k + 1) es := rfl

/-- The indices that `pendingFrom` lists are those of the entries with a pending change. -/
theorem mem_pendingFrom : ∀ (es : List Outlet) (k j : Nat),
    j ∈ pendingFrom k es ↔ ∃ i, ∃ h : i < es.length, j = k + i ∧ es[i].pending.isSome = true
  | [], k, j => by simp [pendingFrom]
  | e :: es, k, j => by
    have ih := mem_pendingFrom es (k + 1) j
    have shift : (∃ i, ∃ h : i < (e :: es).length, j = k + i ∧ (e :: es)[i].pending.isSome = true) ↔
        (j = k ∧ e.pending.isSome = true) ∨
          ∃ i, ∃ h : i < es.length, j = k + 1 + i ∧ es[i].pending.isSome = true := by
      constructor
      · rintro ⟨i, h, e1, e2⟩
        cases i with
        | zero => exact .inl ⟨e1, e2⟩
        | succ i => exact .inr ⟨i, Nat.lt_of_succ_lt_succ h, by omega, e2⟩
      · rintro (⟨e1, e2⟩ | ⟨i, h, e1, e2⟩)
        · exact ⟨0, Nat.succ_pos _, e1, e2⟩
        · exact ⟨i + 1, Nat.succ_lt_succ h, by omega, e2⟩
    rw [shift, ← ih, pendingFrom_cons]
    split
    · next h => simp [h]
    · next h => simp [h]

theorem nodup_pendingFrom : ∀ (es : List Outlet) (k : Nat), (pendingFrom k es).Nodup
  | [], _ => List.nodup_nil
  | e :: es, k => by
    have ih := nodup_pendingFrom es (k + 1)
    rw [pendingFrom_cons]
    split
    · refine List.nodup_cons.mpr ⟨fun h => ?_, ih⟩
      obtain ⟨i, _, e, _⟩ := (mem_pendingFrom es (k + 1) k).mp h
      omega
    · exact ih

/-- Every pending change is in force and gone; whatever left its tenant left its stack (R9, R10, R12). -/
theorem applyAllPending_spec (s : State) :
    let t := applyAllPending s
    (∀ j, t.map.entries.get j = settledEntry j s) ∧
    (∀ a, t.tenants.get a = { s.tenants.get a with
      draw := (t.tenants.get a).draw, members := (t.tenants.get a).members, stale := (t.tenants.get a).stale,
      pendingIn := (t.tenants.get a).pendingIn,
      stack := (s.tenants.get a).stack.filter (fun x => !decide
        (leavesTenant (s.map.entries.get x.outlet).effective (s.map.entries.get x.outlet).settled a)) }) := by
  obtain ⟨q1, q2⟩ := foldl_applyPending (pendingFrom 0 s.map.entries.rows) s (nodup_pendingFrom _ _)
  have none {j : OutletIx} (h : j.val ∉ pendingFrom 0 s.map.entries.rows) : (s.map.entries.get j).pending = none := by
    cases hp : (s.map.entries.get j).pending with
    | none => rfl
    | some m =>
      refine absurd ((mem_pendingFrom _ _ _).mpr
        ⟨j.val, by rw [s.map.entries.size]; exact j.isLt, (Nat.zero_add _).symm, ?_⟩) h
      rw [Table.get_eq_getElem] at hp
      rw [hp]; rfl
  refine ⟨fun j => ?_, fun a => ?_⟩
  · refine (q1 j).trans ?_
    split
    · rfl
    · next h =>
      have hp := none h
      have hs : (s.map.entries.get j).settled = (s.map.entries.get j).effective := by
        unfold Outlet.settled; rw [hp]; rfl
      unfold settledEntry
      dsimp only
      rw [hs, relayApplied_same, ← hp]
  · refine (q2 a).trans (congrArg (fun st : List StackEntry => ({ s.tenants.get a with
          draw := ((applyAllPending s).tenants.get a).draw,
          members := ((applyAllPending s).tenants.get a).members, stale := ((applyAllPending s).tenants.get a).stale,
          pendingIn := ((applyAllPending s).tenants.get a).pendingIn, stack := st } : Tenant)) ?_)
    refine List.filter_congr fun x _ => ?_
    by_cases h : x.outlet.val ∈ pendingFrom 0 s.map.entries.rows
    · simp only [h, true_and]
    · have hp := none h
      have hs : (s.map.entries.get x.outlet).settled = (s.map.entries.get x.outlet).effective := by
        unfold Outlet.settled; rw [hp]; rfl
      simp only [h, false_and, hs, leavesTenant, Ne, and_not_self_iff]
end Sys2Proof.Machine
end

