-- ==== Sys2Proof/Laws/Args.lean ====
section
/-! SUPPORT. Which argument bytes each request reader takes, and what it reads from them: lemmas per reader, over the
bytes themselves. -/

namespace Sys2Proof.Machine

/-! ### Codes and indices -/

theorem isSome_nodeOf (n : Nat) : (nodeOf n).isSome = true ↔ 1 ≤ n ∧ n ≤ 32 := by
  unfold nodeOf; split <;> simp_all

theorem isSome_slotOf (n : Nat) : (slotOf n).isSome = true ↔ 1 ≤ n ∧ n ≤ 128 := by
  unfold slotOf; split <;> simp_all

theorem isSome_outletOf (n : Nat) : (outletOf n).isSome = true ↔ 1 ≤ n ∧ n ≤ 48 := by
  unfold outletOf; split <;> simp_all

theorem outletOf_val {n : Nat} {o : Fin 48} (h : outletOf n = some o) : o.val + 1 = n := by
  unfold outletOf at h; split at h
  · cases h; simp; omega
  · cases h

theorem isSome_tenantOf (n : Nat) : (tenantOf n).isSome = true ↔ n ≤ 128 := by
  unfold tenantOf; split
  · simp; omega
  · rw [Option.isSome_map, isSome_slotOf]; omega

/-- A reader by cases on a code takes exactly the codes up to its last. -/
theorem isSome_of_codes {α : Type} {f : Nat → Option α} (k : Nat) (low : ∀ n, n ≤ k → (f n).isSome = true)
    (high : ∀ n, f (n + k + 1) = none) (n : Nat) : (f n).isSome = true ↔ n ≤ k := by
  constructor
  · intro h
    refine Nat.le_of_not_lt fun hn => ?_
    obtain ⟨m, rfl⟩ : ∃ m, n = m + k + 1 := ⟨n - k - 1, by omega⟩
    rw [high] at h; cases h
  · exact low n

theorem isSome_boolOf (n : Nat) : (boolOf n).isSome = true ↔ n ≤ 1 :=
  isSome_of_codes 1 (by decide) (fun _ => rfl) n

theorem isSome_feedOf (n : Nat) : (feedOf n).isSome = true ↔ n ≤ 1 :=
  isSome_of_codes 1 (by decide) (fun _ => rfl) n

theorem isSome_basisOf (n : Nat) : (basisOf n).isSome = true ↔ n ≤ 1 :=
  isSome_of_codes 1 (by decide) (fun _ => rfl) n

theorem isSome_flagOpOf (n : Nat) : (flagOpOf n).isSome = true ↔ n ≤ 2 :=
  isSome_of_codes 2 (by decide) (fun _ => rfl) n

theorem isSome_opStateOf (n : Nat) : (opStateOf n).isSome = true ↔ n ≤ 2 :=
  isSome_of_codes 2 (by decide) (fun _ => rfl) n

theorem isSome_linkModeOf (n : Nat) : (linkModeOf n).isSome = true ↔ n ≤ 3 :=
  isSome_of_codes 3 (by decide) (fun _ => rfl) n

theorem isSome_relayActionOf (n : Nat) : (relayActionOf n).isSome = true ↔ n ≤ 3 :=
  isSome_of_codes 3 (by decide) (fun _ => rfl) n

theorem isSome_indicatorActionOf (n : Nat) : (indicatorActionOf n).isSome = true ↔ n ≤ 3 :=
  isSome_of_codes 3 (by decide) (fun _ => rfl) n

theorem isSome_unitOf (n : Nat) : (unitOf n).isSome = true ↔ 1 ≤ n ∧ n ≤ 8 := by
  match n with
  | 0 => decide
  | 1 | 2 | 3 | 4 | 5 | 6 | 7 | 8 => decide
  | n + 9 => exact ⟨fun h => absurd h (by simp [unitOf]), fun h => absurd h.2 (by omega)⟩

theorem isSome_sixBitsOf (n : Nat) : (sixBitsOf n).isSome = true ↔ n ≤ 63 := by
  unfold sixBitsOf; split <;> simp <;> omega

theorem isSome_profileIndex (n : Nat) : (Args.profileIndex n).isSome = true ↔ n ≤ 15 := by
  unfold Args.profileIndex; split <;> simp <;> omega

theorem isSome_linkIndex (n : Nat) : (Args.linkIndex n).isSome = true ↔ n ≤ 63 := by
  unfold Args.linkIndex; split <;> simp <;> omega

/-- Bits 13..10 of a power value are zero exactly when bits 5..2 of its first byte are. -/
theorem isSome_capacityOf (hi lo : Byte) : (capacityOf (hi.toNat * 256 + lo.toNat)).isSome = true ↔ hi.toNat / 4 % 16 = 0 := by
  have : (hi.toNat * 256 + lo.toNat) / 2 ^ 10 % 2 ^ 4 = hi.toNat / 4 % 16 := by omega
  unfold capacityOf; rw [this]; split <;> simp_all

/-- A yes or no byte is 0 or 1 (R171). -/
theorem boolOf_byte (b : Byte) :
    (b = 0 ∧ boolOf b.toNat = some false) ∨ (b = 1 ∧ boolOf b.toNat = some true) ∨
      (¬ b = 0#8 ∧ ¬ b = 1#8 ∧ boolOf b.toNat = none) := by
  by_cases h0 : b = 0
  · exact .inl ⟨h0, by rw [h0]; rfl⟩
  · by_cases h1 : b = 1
    · exact .inr (.inl ⟨h1, by rw [h1]; rfl⟩)
    · refine .inr (.inr ⟨h0, h1, ?_⟩)
      cases h : boolOf b.toNat with
      | none => rfl
      | some x =>
        have le := (isSome_boolOf b.toNat).mp (by rw [h]; rfl)
        have n0 : b.toNat ≠ 0 := fun e => h0 (BitVec.eq_of_toNat_eq e)
        exact absurd (BitVec.eq_of_toNat_eq (x := b) (y := 1) (by show b.toNat = 1; omega)) h1

theorem boolOf_zero : boolOf 0 = some false := rfl
theorem boolOf_one : boolOf 1 = some true := rfl

theorem byte_eq_iff (b : Byte) (k : Nat) (hk : k < 256) : b = BitVec.ofNat 8 k ↔ b.toNat = k := by
  rw [← BitVec.toNat_inj, BitVec.toNat_ofNat, Nat.mod_eq_of_lt hk]

/-! ### Explicit byte lists -/

theorem fieldAt_zero (a : Byte) (l : List Byte) : fieldAt (a :: l) 0 1 = a.toNat := by
  simp [fieldAt, fieldBytes, beNat]

theorem fieldAt_two (a b : Byte) (l : List Byte) : fieldAt (a :: b :: l) 0 2 = a.toNat * 256 + b.toNat := by
  simp [fieldAt, fieldBytes, beNat]

theorem fieldAt_three (a b c : Byte) (l : List Byte) :
    fieldAt (a :: b :: c :: l) 0 3 = (a.toNat * 256 + b.toNat) * 256 + c.toNat := by
  simp [fieldAt, fieldBytes, beNat]

theorem fieldAt_succ (a : Byte) (l : List Byte) (k n : Nat) : fieldAt (a :: l) (k + 1) n = fieldAt l k n := rfl

namespace Args

/-! ### Readers, one lemma each -/

theorem isSome_nothing (a : List Byte) : (nothing a).isSome = true ↔ a = [] := by
  unfold nothing; split <;> simp_all

theorem isSome_slot (a : List Byte) : (slot a).isSome = true ↔ ∃ t, a = [t] ∧ 1 ≤ t.toNat ∧ t.toNat ≤ 128 := by
  match a with
  | [] => simp [slot]
  | [t] => simp [slot, fieldAt_zero, isSome_slotOf]
  | _ :: _ :: _ => simp [slot]

theorem isSome_readProfile (a : List Byte) : (readProfile a).isSome = true ↔ ∃ i, a = [i] ∧ i.toNat ≤ 15 := by
  match a with
  | [] => simp [readProfile]
  | [t] => simp [readProfile, fieldAt_zero, isSome_profileIndex]
  | _ :: _ :: _ => simp [readProfile]

theorem isSome_link (a : List Byte) : (link a).isSome = true ↔ ∃ l, a = [l] ∧ l.toNat ≤ 63 := by
  match a with
  | [] => simp [link]
  | [t] => simp [link, fieldAt_zero, isSome_linkIndex]
  | _ :: _ :: _ => simp [link]

theorem isSome_setState (a : List Byte) : (setState a).isSome = true ↔ ∃ x, a = [x] ∧ x.toNat ≤ 2 := by
  match a with
  | [] => simp [setState]
  | [t] => simp [setState, fieldAt_zero, isSome_opStateOf]
  | _ :: _ :: _ => simp [setState]

theorem isSome_setForward (a : List Byte) : (setForward a).isSome = true ↔ ∃ x, a = [x] ∧ x.toNat ≤ 2 := by
  match a with
  | [] => simp [setForward]
  | [t] =>
    have : (setForward [t]).isSome = true ↔ t.toNat ≤ 2 :=
      isSome_of_codes (f := fun n => (match [n] with
        | [0] => some .plain
        | [1] => some .tagged
        | [2] => some .absorb
        | _ => none : Option ForwardMode)) 2 (by decide) (fun _ => rfl) t.toNat
    simp [this]
  | _ :: _ :: _ => simp [setForward]

theorem isSome_readStatus (a : List Byte) : (readStatus a).isSome = true ↔ ∃ x, a = [x] ∧ x.toNat ≤ 1 := by
  match a with
  | [] => simp [readStatus]
  | [t] => simp [readStatus, fieldAt_zero, isSome_boolOf]
  | _ :: _ :: _ => simp [readStatus]

theorem isSome_resetUnit (a : List Byte) :
    (resetUnit a).isSome = true ↔ ∃ u, a = [u] ∧ 1 ≤ u.toNat ∧ u.toNat ≤ 8 := by
  match a with
  | [] => simp [resetUnit]
  | [t] => simp [resetUnit, fieldAt_zero, isSome_unitOf]
  | _ :: _ :: _ => simp [resetUnit]

/-- A chain of readers succeeds when its first part does and the rest does with what that part read. -/
theorem isSome_bind {α β : Type} (o : Option α) (f : α → Option β) :
    (o.bind f).isSome = true ↔ ∃ a, o = some a ∧ (f a).isSome = true := by
  cases o <;> simp

/-! Readers of several fields: the bytes of a list of the right length, and that length. -/

theorem isSome_setNode_bytes (n x : Byte) :
    (setNode [n, x]).isSome = true ↔ (1 ≤ n.toNat ∧ n.toNat ≤ 32) ∧ x.toNat ≤ 1 := by
  rw [← isSome_nodeOf, ← isSome_boolOf]
  cases h0 : nodeOf n.toNat <;> cases h1 : boolOf x.toNat <;>
    simp [setNode, fieldAt_succ, fieldAt_zero, h0, h1]

theorem length_of_setNode (a : List Byte) (h : (setNode a).isSome = true) : a.length = 2 := by
  simp only [setNode, bind, isSome_bind] at h
  grind

theorem isSome_setNode (a : List Byte) : (setNode a).isSome = true ↔
    ∃ n x, a = [n, x] ∧
      (1 ≤ n.toNat ∧ n.toNat ≤ 32) ∧ x.toNat ≤ 1 := by
  constructor
  · intro h
    match a, h, length_of_setNode a h with
    | [n, x], h, _ => exact ⟨n, x, rfl, (isSome_setNode_bytes ..).mp h⟩
  · rintro ⟨n, x, rfl, h⟩
    exact (isSome_setNode_bytes ..).mpr h

theorem isSome_readEntries_bytes (n o k : Byte) :
    (readEntries [n, o, k]).isSome = true ↔ (1 ≤ n.toNat ∧ n.toNat ≤ 32) ∧ (1 ≤ o.toNat ∧ o.toNat ≤ 48) ∧ 1 ≤ k.toNat ∧ k.toNat ≤ 8 ∧ o.toNat + k.toNat - 1 ≤ 48 := by
  rw [← isSome_nodeOf n.toNat, ← isSome_outletOf o.toNat]
  cases h0 : nodeOf n.toNat <;> cases h1 : outletOf o.toNat <;>
    simp [readEntries, fieldAt_succ, fieldAt_zero, h0, h1]
  have := outletOf_val h1
  omega

theorem length_of_readEntries (a : List Byte) (h : (readEntries a).isSome = true) : a.length = 3 := by
  simp only [readEntries, bind, isSome_bind] at h
  grind

theorem isSome_readEntries (a : List Byte) : (readEntries a).isSome = true ↔
    ∃ n o k, a = [n, o, k] ∧
      (1 ≤ n.toNat ∧ n.toNat ≤ 32) ∧ (1 ≤ o.toNat ∧ o.toNat ≤ 48) ∧ 1 ≤ k.toNat ∧ k.toNat ≤ 8 ∧ o.toNat + k.toNat - 1 ≤ 48 := by
  constructor
  · intro h
    match a, h, length_of_readEntries a h with
    | [n, o, k], h, _ => exact ⟨n, o, k, rfl, (isSome_readEntries_bytes ..).mp h⟩
  · rintro ⟨n, o, k, rfl, h⟩
    exact (isSome_readEntries_bytes ..).mpr h

theorem isSome_setLimit_bytes (n hi lo : Byte) :
    (setLimit [n, hi, lo]).isSome = true ↔ (1 ≤ n.toNat ∧ n.toNat ≤ 32) ∧ hi.toNat / 4 % 16 = 0 := by
  rw [← isSome_nodeOf, ← isSome_capacityOf hi lo]
  cases h0 : nodeOf n.toNat <;> cases h1 : capacityOf (hi.toNat * 256 + lo.toNat) <;>
    simp [setLimit, fieldAt_succ, fieldAt_zero, fieldAt_two, h0, h1]

theorem length_of_setLimit (a : List Byte) (h : (setLimit a).isSome = true) : a.length = 3 := by
  simp only [setLimit, bind, isSome_bind] at h
  grind

theorem isSome_setLimit (a : List Byte) : (setLimit a).isSome = true ↔
    ∃ n hi lo, a = [n, hi, lo] ∧
      (1 ≤ n.toNat ∧ n.toNat ≤ 32) ∧ hi.toNat / 4 % 16 = 0 := by
  constructor
  · intro h
    match a, h, length_of_setLimit a h with
    | [n, hi, lo], h, _ => exact ⟨n, hi, lo, rfl, (isSome_setLimit_bytes ..).mp h⟩
  · rintro ⟨n, hi, lo, rfl, h⟩
    exact (isSome_setLimit_bytes ..).mpr h

theorem isSome_setOutlet_bytes (n o p k : Byte) :
    (setOutlet [n, o, p, k]).isSome = true ↔ (1 ≤ n.toNat ∧ n.toNat ≤ 32) ∧ (1 ≤ o.toNat ∧ o.toNat ≤ 48) ∧ p.toNat ≤ 15 ∧ k.toNat ≤ 15 := by
  rw [← isSome_nodeOf n.toNat, ← isSome_outletOf o.toNat]
  cases h0 : nodeOf n.toNat <;> cases h1 : outletOf o.toNat <;>
    simp [setOutlet, fieldAt_succ, fieldAt_zero, h0, h1]
  omega

theorem length_of_setOutlet (a : List Byte) (h : (setOutlet a).isSome = true) : a.length = 4 := by
  simp only [setOutlet, bind, isSome_bind] at h
  grind

theorem isSome_setOutlet (a : List Byte) : (setOutlet a).isSome = true ↔
    ∃ n o p k, a = [n, o, p, k] ∧
      (1 ≤ n.toNat ∧ n.toNat ≤ 32) ∧ (1 ≤ o.toNat ∧ o.toNat ≤ 48) ∧ p.toNat ≤ 15 ∧ k.toNat ≤ 15 := by
  constructor
  · intro h
    match a, h, length_of_setOutlet a h with
    | [n, o, p, k], h, _ => exact ⟨n, o, p, k, rfl, (isSome_setOutlet_bytes ..).mp h⟩
  · rintro ⟨n, o, p, k, rfl, h⟩
    exact (isSome_setOutlet_bytes ..).mpr h

theorem isSome_order_bytes (n o x y : Byte) :
    (order [n, o, x, y]).isSome = true ↔ (1 ≤ n.toNat ∧ n.toNat ≤ 32) ∧ (1 ≤ o.toNat ∧ o.toNat ≤ 48) ∧ x.toNat ≤ 3 ∧ y.toNat ≤ 3 := by
  rw [← isSome_nodeOf n.toNat, ← isSome_outletOf o.toNat, ← isSome_relayActionOf x.toNat, ← isSome_indicatorActionOf y.toNat]
  cases h0 : nodeOf n.toNat <;> cases h1 : outletOf o.toNat <;> cases h2 : relayActionOf x.toNat <;> cases h3 : indicatorActionOf y.toNat <;>
    simp [order, fieldAt_succ, fieldAt_zero, h0, h1, h2, h3]

theorem length_of_order (a : List Byte) (h : (order a).isSome = true) : a.length = 4 := by
  simp only [order, bind, isSome_bind] at h
  grind

theorem isSome_order (a : List Byte) : (order a).isSome = true ↔
    ∃ n o x y, a = [n, o, x, y] ∧
      (1 ≤ n.toNat ∧ n.toNat ≤ 32) ∧ (1 ≤ o.toNat ∧ o.toNat ≤ 48) ∧ x.toNat ≤ 3 ∧ y.toNat ≤ 3 := by
  constructor
  · intro h
    match a, h, length_of_order a h with
    | [n, o, x, y], h, _ => exact ⟨n, o, x, y, rfl, (isSome_order_bytes ..).mp h⟩
  · rintro ⟨n, o, x, y, rfl, h⟩
    exact (isSome_order_bytes ..).mpr h

theorem isSome_assign_bytes (n o k t f x : Byte) :
    (assign [n, o, k, t, f, x]).isSome = true ↔ (1 ≤ n.toNat ∧ n.toNat ≤ 32) ∧ (1 ≤ o.toNat ∧ o.toNat ≤ 48) ∧
      1 ≤ k.toNat ∧ k.toNat ≤ 48 ∧ o.toNat + k.toNat - 1 ≤ 48 ∧ t.toNat ≤ 128 ∧ f.toNat ≤ 1 ∧ x.toNat ≤ 1 := by
  rw [← isSome_nodeOf n.toNat, ← isSome_outletOf o.toNat, ← isSome_tenantOf t.toNat, ← isSome_feedOf f.toNat, ← isSome_boolOf x.toNat]
  cases h0 : nodeOf n.toNat <;> cases h1 : outletOf o.toNat <;> cases h2 : tenantOf t.toNat <;> cases h3 : feedOf f.toNat <;> cases h4 : boolOf x.toNat <;>
    simp [assign, fieldAt_succ, fieldAt_zero, h0, h1, h2, h3, h4]
  have := outletOf_val h1
  omega

theorem length_of_assign (a : List Byte) (h : (assign a).isSome = true) : a.length = 6 := by
  simp only [assign, bind, isSome_bind] at h
  grind

theorem isSome_assign (a : List Byte) : (assign a).isSome = true ↔
    ∃ n o k t f x, a = [n, o, k, t, f, x] ∧
      (1 ≤ n.toNat ∧ n.toNat ≤ 32) ∧ (1 ≤ o.toNat ∧ o.toNat ≤ 48) ∧
      1 ≤ k.toNat ∧ k.toNat ≤ 48 ∧ o.toNat + k.toNat - 1 ≤ 48 ∧ t.toNat ≤ 128 ∧ f.toNat ≤ 1 ∧ x.toNat ≤ 1 := by
  constructor
  · intro h
    match a, h, length_of_assign a h with
    | [n, o, k, t, f, x], h, _ => exact ⟨n, o, k, t, f, x, rfl, (isSome_assign_bytes ..).mp h⟩
  · rintro ⟨n, o, k, t, f, x, rfl, h⟩
    exact (isSome_assign_bytes ..).mpr h

theorem isSome_alterFlags_bytes (i1 i0 k1 k0 mask op : Byte) :
    (alterFlags [i1, i0, k1, k0, mask, op]).isSome = true ↔ i1.toNat * 256 + i0.toNat ≤ 1535 ∧
      1 ≤ k1.toNat * 256 + k0.toNat ∧ i1.toNat * 256 + i0.toNat + (k1.toNat * 256 + k0.toNat) ≤ 1536 ∧
      mask.toNat ≤ 63 ∧ op.toNat ≤ 2 := by
  rw [← isSome_sixBitsOf mask.toNat, ← isSome_flagOpOf op.toNat]
  cases h0 : sixBitsOf mask.toNat <;> cases h1 : flagOpOf op.toNat <;>
    simp [alterFlags, fieldAt_succ, fieldAt_zero, fieldAt_two, h0, h1]
  split <;> simp <;> omega

theorem length_of_alterFlags (a : List Byte) (h : (alterFlags a).isSome = true) : a.length = 6 := by
  simp only [alterFlags, bind, isSome_bind] at h
  grind

theorem isSome_alterFlags (a : List Byte) : (alterFlags a).isSome = true ↔
    ∃ i1 i0 k1 k0 mask op, a = [i1, i0, k1, k0, mask, op] ∧
      i1.toNat * 256 + i0.toNat ≤ 1535 ∧
      1 ≤ k1.toNat * 256 + k0.toNat ∧ i1.toNat * 256 + i0.toNat + (k1.toNat * 256 + k0.toNat) ≤ 1536 ∧
      mask.toNat ≤ 63 ∧ op.toNat ≤ 2 := by
  constructor
  · intro h
    match a, h, length_of_alterFlags a h with
    | [i1, i0, k1, k0, mask, op], h, _ => exact ⟨i1, i0, k1, k0, mask, op, rfl, (isSome_alterFlags_bytes ..).mp h⟩
  · rintro ⟨i1, i0, k1, k0, mask, op, rfl, h⟩
    exact (isSome_alterFlags_bytes ..).mpr h

theorem isSome_setTiming_bytes (p hi lo w : Byte) :
    (setTiming [p, hi, lo, w]).isSome = true ↔ p.toNat ≤ 6 ∧ 250 ≤ hi.toNat * 256 + lo.toNat ∧
      hi.toNat * 256 + lo.toNat ≤ 8000 ∧ 1 ≤ w.toNat ∧ w.toNat ≤ 60 := by
  simp only [setTiming, fieldAt_succ, fieldAt_zero, fieldAt_two]
  split
  · split <;> simp_all <;> omega
  · simp; omega

theorem length_of_setTiming (a : List Byte) (h : (setTiming a).isSome = true) : a.length = 4 := by
  unfold setTiming at h
  grind

theorem isSome_setTiming (a : List Byte) : (setTiming a).isSome = true ↔
    ∃ p hi lo w, a = [p, hi, lo, w] ∧
      p.toNat ≤ 6 ∧ 250 ≤ hi.toNat * 256 + lo.toNat ∧
      hi.toNat * 256 + lo.toNat ≤ 8000 ∧ 1 ≤ w.toNat ∧ w.toNat ≤ 60 := by
  constructor
  · intro h
    match a, h, length_of_setTiming a h with
    | [p, hi, lo, w], h, _ => exact ⟨p, hi, lo, w, rfl, (isSome_setTiming_bytes ..).mp h⟩
  · rintro ⟨p, hi, lo, w, rfl, h⟩
    exact (isSome_setTiming_bytes ..).mpr h

theorem isSome_setPreset_bytes (t : Byte) (preset : List Byte) :
    (setPreset (t :: preset)).isSome = true ↔ (1 ≤ t.toNat ∧ t.toNat ≤ 128) ∧ preset.length = 8 := by
  rw [← isSome_slotOf]
  cases h : slotOf t.toNat <;> simp [setPreset, fieldAt_zero, h]

theorem setPreset_nil : setPreset [] = none := rfl

theorem isSome_setPreset (a : List Byte) : (setPreset a).isSome = true ↔
    ∃ t preset, a = t :: preset ∧ (1 ≤ t.toNat ∧ t.toNat ≤ 128) ∧ preset.length = 8 := by
  match a with
  | [] => simp [setPreset_nil]
  | t :: p =>
    refine (isSome_setPreset_bytes t p).trans ⟨fun h => ⟨t, p, rfl, h⟩, ?_⟩
    rintro ⟨_, _, e, h⟩; cases e; exact h

theorem isSome_condition_bytes (present tenant verdicts : Byte) :
    (condition [present, tenant, verdicts]).isSome = true ↔
      present = 0 ∨ present = 1 ∧ (1 ≤ tenant.toNat ∧ tenant.toNat ≤ 128) ∧ verdicts.toNat ≤ 63 := by
  rw [← isSome_slotOf, ← isSome_sixBitsOf]
  rcases boolOf_byte present with ⟨rfl, _⟩ | ⟨rfl, _⟩ | ⟨h, h', e⟩
  · simp [condition, fieldAt_zero, boolOf_zero]
  · cases h1 : slotOf tenant.toNat <;> cases h2 : sixBitsOf verdicts.toNat <;>
      simp [condition, fieldAt_succ, fieldAt_zero, boolOf_one, h1, h2]
  · simp [condition, fieldAt_zero, e, h, h']

theorem isSome_linkActionOf (action target : Byte) :
    (linkActionOf action.toNat target.toNat).isSome = true ↔
      (action = 0 ∨ action = 1 ∨ action = 3) ∧ (1 ≤ target.toNat ∧ target.toNat ≤ 128) ∨
        (action = 2 ∨ action = 4) ∧ target = 0 := by
  rw [← isSome_slotOf, show ((0 : Byte) = BitVec.ofNat 8 0) from rfl, show ((1 : Byte) = BitVec.ofNat 8 1) from rfl,
    show ((2 : Byte) = BitVec.ofNat 8 2) from rfl, show ((3 : Byte) = BitVec.ofNat 8 3) from rfl,
    show ((4 : Byte) = BitVec.ofNat 8 4) from rfl]
  simp only [byte_eq_iff _ _ (show 0 < 256 by decide), byte_eq_iff _ _ (show 1 < 256 by decide),
    byte_eq_iff _ _ (show 2 < 256 by decide), byte_eq_iff _ _ (show 3 < 256 by decide),
    byte_eq_iff _ _ (show 4 < 256 by decide)]
  generalize target.toNat = m
  match action.toNat with
  | 0 | 1 | 3 => simp [linkActionOf]
  | 2 | 4 => simp [linkActionOf]
  | k + 5 => simp [linkActionOf]

theorem isSome_setLink_bytes (l mode e1 e0 present tenant verdicts action target guard : Byte) :
    (setLink [l, mode, e1, e0, present, tenant, verdicts, action, target, guard]).isSome = true ↔
      l.toNat ≤ 63 ∧ mode.toNat ≤ 3 ∧
      (present = 0 ∨ present = 1 ∧ (1 ≤ tenant.toNat ∧ tenant.toNat ≤ 128) ∧ verdicts.toNat ≤ 63) ∧
      ((action = 0 ∨ action = 1 ∨ action = 3) ∧ (1 ≤ target.toNat ∧ target.toNat ≤ 128) ∨
        (action = 2 ∨ action = 4) ∧ target = 0) ∧ guard.toNat ≤ 1 := by
  rw [← isSome_linkIndex, ← isSome_linkModeOf, ← isSome_condition_bytes, ← isSome_linkActionOf, ← isSome_boolOf]
  cases h0 : linkIndex l.toNat <;> cases h1 : linkModeOf mode.toNat <;>
    cases h2 : condition [present, tenant, verdicts] <;> cases h3 : linkActionOf action.toNat target.toNat <;>
    cases h4 : boolOf guard.toNat <;>
    simp [setLink, fieldAt_succ, fieldAt_zero, fieldBytes, h0, h1, h2, h3, h4]

theorem length_of_setLink (a : List Byte) (h : (setLink a).isSome = true) : a.length = 10 := by
  simp only [setLink, bind, isSome_bind] at h
  grind

theorem isSome_setLink (a : List Byte) : (setLink a).isSome = true ↔
    ∃ l mode e1 e0 present tenant verdicts action target guard, a = [l, mode, e1, e0, present, tenant, verdicts, action, target, guard] ∧
      l.toNat ≤ 63 ∧ mode.toNat ≤ 3 ∧
      (present = 0 ∨ present = 1 ∧ (1 ≤ tenant.toNat ∧ tenant.toNat ≤ 128) ∧ verdicts.toNat ≤ 63) ∧
      ((action = 0 ∨ action = 1 ∨ action = 3) ∧ (1 ≤ target.toNat ∧ target.toNat ≤ 128) ∨
        (action = 2 ∨ action = 4) ∧ target = 0) ∧ guard.toNat ≤ 1 := by
  constructor
  · intro h
    match a, h, length_of_setLink a h with
    | [l, mode, e1, e0, present, tenant, verdicts, action, target, guard], h, _ => exact ⟨l, mode, e1, e0, present, tenant, verdicts, action, target, guard, rfl, (isSome_setLink_bytes ..).mp h⟩
  · rintro ⟨l, mode, e1, e0, present, tenant, verdicts, action, target, guard, rfl, h⟩
    exact (isSome_setLink_bytes ..).mpr h

/-- The checks of R43 over what the readers of a contract's fields give. -/
theorem isSome_contract_parts (basis : Option Basis) (capA capB : Option Capacity) (present : Byte) (w t r e f : Nat)
    (he : e ≤ 65535) (hf : f ≤ 65535) :
    (basis.bind fun basis => capA.bind fun capA => capB.bind fun capB => (boolOf present.toNat).bind fun present =>
      let c : Contract :=
        { basis, capacity := ⟨capA, capB⟩, warn := w, tolerance := t, release := r,
          burst := if present then some ⟨e, f⟩ else none }
      if c.valid then some c else none).isSome = true ↔
      basis.isSome = true ∧ capA.isSome = true ∧ capB.isSome = true ∧ 50 ≤ w ∧ w ≤ 100 ∧ t ≤ 15 ∧ 1 ≤ r ∧ r ≤ 15 ∧
      (present = 0 ∨ present = 1 ∧ 1 ≤ e) := by
  cases basis <;> cases capA <;> cases capB <;> simp
  rcases boolOf_byte present with ⟨rfl, _⟩ | ⟨rfl, _⟩ | ⟨h, h', e'⟩
  · simp [boolOf_zero, Contract.valid]
  · simp [boolOf_one, Contract.valid]; omega
  · simp [e', h, h']

theorem isSome_contractOf_bytes (basis a1 a0 b1 b0 warn tolerance release present e1 e0 f1 f0 : Byte) :
    (contractOf [basis, a1, a0, b1, b0, warn, tolerance, release, present, e1, e0, f1, f0]).isSome = true ↔
      basis.toNat ≤ 1 ∧ a1.toNat / 4 % 16 = 0 ∧ b1.toNat / 4 % 16 = 0 ∧ 50 ≤ warn.toNat ∧ warn.toNat ≤ 100 ∧
      tolerance.toNat ≤ 15 ∧ 1 ≤ release.toNat ∧ release.toNat ≤ 15 ∧
      (present = 0 ∨ present = 1 ∧ 1 ≤ e1.toNat * 256 + e0.toNat) := by
  have le (x y : Byte) : x.toNat * 256 + y.toNat ≤ 65535 := by have := x.isLt; have := y.isLt; omega
  rw [← isSome_basisOf, ← isSome_capacityOf a1 a0, ← isSome_capacityOf b1 b0,
    ← isSome_contract_parts _ _ _ present _ _ _ _ (f1.toNat * 256 + f0.toNat) (le e1 e0) (le f1 f0)]
  simp only [contractOf, bind, fieldAt_succ, fieldAt_zero, fieldAt_two, List.length_cons, List.length_nil, true_and]

theorem length_of_contractOf (a : List Byte) (h : (contractOf a).isSome = true) : a.length = 13 := by
  simp only [contractOf, bind, isSome_bind] at h
  grind

theorem isSome_slotContract_cons (t : Byte) (a : List Byte) :
    (slotContract (t :: a)).isSome = true ↔ (1 ≤ t.toNat ∧ t.toNat ≤ 128) ∧ (contractOf a).isSome = true := by
  rw [← isSome_slotOf]
  cases h0 : slotOf t.toNat <;> cases h1 : contractOf a <;> simp [slotContract, fieldAt_zero, h0, h1]

theorem slotContract_nil : slotContract [] = none := rfl

theorem isSome_slotContract (a : List Byte) : (slotContract a).isSome = true ↔
    ∃ t basis a1 a0 b1 b0 warn tolerance release present e1 e0 f1 f0,
      a = [t, basis, a1, a0, b1, b0, warn, tolerance, release, present, e1, e0, f1, f0] ∧
      (1 ≤ t.toNat ∧ t.toNat ≤ 128) ∧ basis.toNat ≤ 1 ∧ a1.toNat / 4 % 16 = 0 ∧ b1.toNat / 4 % 16 = 0 ∧ 50 ≤ warn.toNat ∧ warn.toNat ≤ 100 ∧
      tolerance.toNat ≤ 15 ∧ 1 ≤ release.toNat ∧ release.toNat ≤ 15 ∧
      (present = 0 ∨ present = 1 ∧ 1 ≤ e1.toNat * 256 + e0.toNat) := by
  constructor
  · intro h
    match a, h with
    | [], h => cases h
    | t :: p, h =>
      have h := (isSome_slotContract_cons t p).mp h
      match p, h, length_of_contractOf _ h.2 with
      | [basis, a1, a0, b1, b0, warn, tolerance, release, present, e1, e0, f1, f0], h, _ =>
        exact ⟨t, basis, a1, a0, b1, b0, warn, tolerance, release, present, e1, e0, f1, f0, rfl, h.1,
          (isSome_contractOf_bytes ..).mp h.2⟩
  · rintro ⟨t, basis, a1, a0, b1, b0, warn, tolerance, release, present, e1, e0, f1, f0, rfl, h1, h2⟩
    exact (isSome_slotContract_cons ..).mpr ⟨h1, (isSome_contractOf_bytes ..).mpr h2⟩

theorem isSome_profileOf_bytes (degree c2 c1 c0 k1 k0 x present j1 j0 y d1 d0 l2 l1 l0 : Byte) :
    (profileOf [degree, c2, c1, c0, k1, k0, x, present, j1, j0, y, d1, d0, l2, l1, l0]).isSome = true ↔
      x.toNat ≤ 63 ∧ (present = 0 ∧ degree = 1 ∨ present = 1 ∧ degree = 2 ∧ y.toNat ≤ 63) ∧
      ¬ (l2 = 0 ∧ l1 = 0 ∧ l0 = 0) := by
  have ceiling : 1 ≤ (l2.toNat * 256 + l1.toNat) * 256 + l0.toNat ↔ ¬ (l2 = 0#8 ∧ l1 = 0#8 ∧ l0 = 0#8) := by
    rw [byte_eq_iff l2 0 (by decide), byte_eq_iff l1 0 (by decide), byte_eq_iff l0 0 (by decide)]; omega
  have one := byte_eq_iff degree 1 (by decide)
  have two := byte_eq_iff degree 2 (by decide)
  rcases boolOf_byte present with ⟨rfl, _⟩ | ⟨rfl, _⟩ | ⟨h, h', e⟩
  · simp [profileOf, coefficientOf, fieldBytes, fieldAt_succ, fieldAt_zero, fieldAt_three, boolOf_zero, ceiling, one]
    by_cases hx : x.toNat ≤ 63 <;> simp [hx]
  · simp [profileOf, coefficientOf, fieldBytes, fieldAt_succ, fieldAt_zero, fieldAt_three, boolOf_one, ceiling, two]
    by_cases hx : x.toNat ≤ 63 <;> by_cases hy : y.toNat ≤ 63 <;> simp [hx, hy]
  · simp [profileOf, fieldAt_succ, fieldAt_zero, e, h, h']

theorem length_of_profileOf (a : List Byte) (h : (profileOf a).isSome = true) : a.length = 16 := by
  simp only [profileOf, bind, isSome_bind] at h
  obtain ⟨_, _, present, _, h⟩ := h
  cases present
  · simp only [Bool.false_eq_true, if_false, isSome_bind] at h; grind
  · simp only [if_true, isSome_bind] at h; grind

theorem isSome_setProfile_cons (i : Byte) (a : List Byte) :
    (setProfile (i :: a)).isSome = true ↔ i.toNat ≤ 15 ∧ (profileOf a).isSome = true := by
  rw [← isSome_profileIndex]
  cases h0 : profileIndex i.toNat <;> cases h1 : profileOf a <;> simp [setProfile, fieldAt_zero, h0, h1]

theorem isSome_setProfile (a : List Byte) : (setProfile a).isSome = true ↔
    ∃ i degree c2 c1 c0 k1 k0 x present j1 j0 y d1 d0 l2 l1 l0,
      a = [i, degree, c2, c1, c0, k1, k0, x, present, j1, j0, y, d1, d0, l2, l1, l0] ∧ i.toNat ≤ 15 ∧
      x.toNat ≤ 63 ∧ (present = 0 ∧ degree = 1 ∨ present = 1 ∧ degree = 2 ∧ y.toNat ≤ 63) ∧
      ¬ (l2 = 0 ∧ l1 = 0 ∧ l0 = 0) := by
  constructor
  · intro h
    match a, h with
    | [], h => cases h
    | i :: p, h =>
      have h := (isSome_setProfile_cons i p).mp h
      match p, h, length_of_profileOf _ h.2 with
      | [degree, c2, c1, c0, k1, k0, x, present, j1, j0, y, d1, d0, l2, l1, l0], h, _ =>
        exact ⟨i, degree, c2, c1, c0, k1, k0, x, present, j1, j0, y, d1, d0, l2, l1, l0, rfl, h.1, (isSome_profileOf_bytes ..).mp h.2⟩
  · rintro ⟨i, degree, c2, c1, c0, k1, k0, x, present, j1, j0, y, d1, d0, l2, l1, l0, rfl, h1, h2⟩
    exact (isSome_setProfile_cons ..).mpr ⟨h1, (isSome_profileOf_bytes ..).mpr h2⟩

theorem isSome_importRecord_cons (t : Byte) (a : List Byte) :
    (importRecord (t :: a)).isSome = true ↔ (1 ≤ t.toNat ∧ t.toNat ≤ 128) ∧ (transferOf a).isSome = true := by
  rw [← isSome_slotOf]
  cases h0 : slotOf t.toNat <;> cases h1 : transferOf a <;> simp [importRecord, fieldAt_zero, h0, h1]

/-- What every record that IMPORT takes meets (R159). -/
theorem transferOf_checks (a : List Byte) (h : (transferOf a).isSome = true) :
    a.length = 115 ∧ fieldAt a 0 1 = 2 ∧ fieldAt a 113 2 = (crc16 (a.take 113)).toNat ∧
      fieldAt a 50 8 ≤ fieldAt a 34 8 ∧ fieldAt a 58 8 ≤ fieldAt a 42 8 := by
  simp only [transferOf, bind, isSome_bind] at h
  obtain ⟨_, _, _, _, _, _, _, _, _, _, h⟩ := h
  split at h
  · rename_i c; exact ⟨c.1, c.2.1, c.2.2.1, c.2.2.2.1, c.2.2.2.2.1⟩
  · cases h

/-- What the arguments of every IMPORT that is taken meet (R159). -/
theorem importRecord_checks (a : List Byte) (h : (importRecord a).isSome = true) :
    ∃ t record, a = t :: record ∧ (1 ≤ t.toNat ∧ t.toNat ≤ 128) ∧ record.length = 115 ∧ record.head? = some 2 ∧
      beNat (record.drop 113) = (crc16 (record.take 113)).toNat ∧
      beNat ((record.drop 50).take 8) ≤ beNat ((record.drop 34).take 8) ∧
      beNat ((record.drop 58).take 8) ≤ beNat ((record.drop 42).take 8) := by
  match a, h with
  | [], h => cases h
  | t :: p, h =>
    have h := (isSome_importRecord_cons t p).mp h
    have c := transferOf_checks p h.2
    refine ⟨t, p, rfl, h.1, c.1, ?_, ?_, c.2.2.2.1, c.2.2.2.2⟩
    · match p, c with
      | [], c => exact absurd c.1 (by decide)
      | a :: q, c =>
        have : a = 2 := BitVec.eq_of_toNat_eq ((fieldAt_zero a q).symm.trans c.2.1)
        rw [this]; rfl
    · rw [← c.2.2.1]
      show beNat (p.drop 113) = beNat ((p.drop 113).take 2)
      have : (p.drop 113).length = 2 := by simp [c.1]
      rw [List.take_of_length_le (by omega)]

end Args

/-! ### What the bytes spell: codes and indices read back as what they stand for -/

theorem toNat_byte {v : Nat} (h : v < 256) : (BitVec.ofNat 8 v).toNat = v := by
  rw [BitVec.toNat_ofNat]; exact Nat.mod_eq_of_lt h

theorem nodeOf_succ (n : NodeIx) : nodeOf (n.val + 1) = some n := by
  unfold nodeOf; rw [dif_pos (by omega)]; rfl

theorem slotOf_succ (a : Slot) : slotOf (a.val + 1) = some a := by
  unfold slotOf; rw [dif_pos (by omega)]; rfl

theorem outletOf_succ (o : Fin 48) : outletOf (o.val + 1) = some o := by
  unfold outletOf; rw [dif_pos (by omega)]; rfl

theorem tenantOf_succ (a : Slot) : tenantOf (a.val + 1) = some (some a) := by
  unfold tenantOf; rw [if_neg (by omega), slotOf_succ]; rfl

theorem profileIndex_val (i : Fin 16) : Args.profileIndex i.val = some i := by
  unfold Args.profileIndex; rw [dif_pos i.isLt]

theorem linkIndex_val (l : LinkIx) : Args.linkIndex l.val = some l := by
  unfold Args.linkIndex; rw [dif_pos l.isLt]

theorem boolOf_code (x : Bool) : boolOf (if x then 1 else 0 : Byte).toNat = some x := by cases x <;> rfl

theorem sixBitsOf_byte (m : BitVec 6) : sixBitsOf (m.setWidth 8).toNat = some m := by
  have h : (m.setWidth 8).toNat = m.toNat := by
    rw [BitVec.toNat_setWidth]; exact Nat.mod_eq_of_lt (Nat.lt_trans m.isLt (by decide))
  unfold sixBitsOf
  rw [h, if_pos m.isLt]
  simp

/-- The two bytes of a power value read back as it (Table 9.5). -/
theorem capacityOf_bytes (c : Capacity) :
    capacityOf ((BitVec.ofNat 8 (c.scale.toNat * 64 + c.value.toNat / 256)).toNat * 256 +
      (BitVec.ofNat 8 c.value.toNat).toNat) = some c := by
  obtain ⟨v, k⟩ := c
  have hv := v.isLt
  have hk := k.isLt
  have e : (BitVec.ofNat 8 (k.toNat * 64 + v.toNat / 256)).toNat * 256 + (BitVec.ofNat 8 v.toNat).toNat =
      k.toNat * 2 ^ 14 + v.toNat := by
    simp only [BitVec.toNat_ofNat]; omega
  simp only [e]
  unfold capacityOf
  rw [if_pos (by omega)]
  congr 2
  · apply BitVec.eq_of_toNat_eq; simp only [BitVec.toNat_ofNat]; omega
  · apply BitVec.eq_of_toNat_eq; simp only [BitVec.toNat_ofNat]; omega

/-- Two bytes spell the number they are cut from. -/
theorem two_bytes {v : Nat} (h : v < 65536) :
    (BitVec.ofNat 8 (v / 256)).toNat * 256 + (BitVec.ofNat 8 v).toNat = v := by
  simp only [BitVec.toNat_ofNat]; omega

theorem three_bytes {v : Nat} (h : v < 16777216) :
    ((BitVec.ofNat 8 (v / 65536)).toNat * 256 + (BitVec.ofNat 8 (v / 256)).toNat) * 256 + (BitVec.ofNat 8 v).toNat = v := by
  simp only [BitVec.toNat_ofNat]; omega

/-- The number that the bytes of a field spell, when it fits. -/
theorem beNat_beBytes (k : Nat) : ∀ v, v < 256 ^ k → beNat (beBytes k v) = v := by
  have step (k : Nat) : ∀ v acc, (beBytes k v).foldl (fun acc b => acc * 256 + b.toNat) acc = acc * 256 ^ k + v % 256 ^ k := by
    induction k with
    | zero => intro v acc; simp [beBytes, Nat.mod_one]
    | succ k ih =>
      intro v acc
      simp only [beBytes, List.foldl_cons, ih, BitVec.toNat_ofNat]
      have e : v % 256 ^ (k + 1) = (v / 256 ^ k) % 256 * 256 ^ k + v % 256 ^ k := by
        rw [Nat.pow_succ, Nat.mod_mul, Nat.mul_comm (256 ^ k), Nat.add_comm]
      rw [e, Nat.add_mul, Nat.pow_succ, Nat.mul_assoc, Nat.mul_comm 256 (256 ^ k), Nat.add_assoc]
      rfl
  intro v h
  unfold beNat
  rw [step, Nat.mod_eq_of_lt h, Nat.zero_mul, Nat.zero_add]

namespace Args

theorem readEntries_eq (n : NodeIx) (o : Fin 48) (k : Nat) (h1 : 1 ≤ k) (h2 : k ≤ 8) (h3 : o.val + k ≤ 48) :
    readEntries [BitVec.ofNat 8 (n.val + 1), BitVec.ofNat 8 (o.val + 1), BitVec.ofNat 8 k] = some (mapIndex n o, k) := by
  simp only [readEntries, bind, fieldAt_succ, fieldAt_zero, toNat_byte (v := n.val + 1) (by omega),
    toNat_byte (v := o.val + 1) (by omega), toNat_byte (v := k) (by omega), nodeOf_succ, outletOf_succ, Option.bind_some]
  exact if_pos ⟨rfl, h1, h2, h3⟩

theorem setOutlet_eq (n : NodeIx) (o : Fin 48) (p k : Fin 16) :
    setOutlet [BitVec.ofNat 8 (n.val + 1), BitVec.ofNat 8 (o.val + 1), BitVec.ofNat 8 p.val, BitVec.ofNat 8 k.val] =
      some (mapIndex n o, p, k) := by
  simp only [setOutlet, bind, fieldAt_succ, fieldAt_zero, toNat_byte (v := n.val + 1) (by omega),
    toNat_byte (v := o.val + 1) (by omega), toNat_byte (v := p.val) (by omega), toNat_byte (v := k.val) (by omega),
    nodeOf_succ, outletOf_succ, Option.bind_some]
  exact (dif_pos ⟨p.isLt, k.isLt⟩).trans (if_pos rfl)

theorem assign_eq (n : NodeIx) (o : Fin 48) (k : Nat) (tenant feed excluded : Byte) (m : Membership)
    (h1 : 1 ≤ k) (h2 : o.val + k ≤ 48) (ht : tenantOf tenant.toNat = some m.tenant) (hf : feedOf feed.toNat = some m.feed)
    (hx : boolOf excluded.toNat = some m.excluded) :
    assign [BitVec.ofNat 8 (n.val + 1), BitVec.ofNat 8 (o.val + 1), BitVec.ofNat 8 k, tenant, feed, excluded] =
      some (mapIndex n o, k, m) := by
  simp only [assign, bind, fieldAt_succ, fieldAt_zero, toNat_byte (v := n.val + 1) (by omega),
    toNat_byte (v := o.val + 1) (by omega), toNat_byte (v := k) (by omega), nodeOf_succ, outletOf_succ, ht, hf, hx,
    Option.bind_some]
  exact if_pos ⟨rfl, h1, h2⟩

theorem alterFlags_eq (i : OutletIx) (k : Nat) (m : BitVec 6) (op : Byte) (f : FlagOp)
    (h1 : 1 ≤ k) (h2 : i.val + k ≤ 1536) (ho : flagOpOf op.toNat = some f) :
    alterFlags [BitVec.ofNat 8 (i.val / 256), BitVec.ofNat 8 i.val, BitVec.ofNat 8 (k / 256), BitVec.ofNat 8 k,
      m.setWidth 8, op] = some (i, k, m, f) := by
  simp only [alterFlags, bind, fieldAt_succ, fieldAt_zero, fieldAt_two, two_bytes (v := i.val) (by omega),
    two_bytes (v := k) (by omega), sixBitsOf_byte, ho, Option.bind_some]
  exact (dif_pos i.isLt).trans (if_pos ⟨rfl, h1, h2⟩)

theorem order_eq (n : NodeIx) (o : Fin 48) (x y : Byte) (r : RelayAction) (d : IndicatorAction)
    (hr : relayActionOf x.toNat = some r) (hd : indicatorActionOf y.toNat = some d) :
    order [BitVec.ofNat 8 (n.val + 1), BitVec.ofNat 8 (o.val + 1), x, y] = some (mapIndex n o, r, d) := by
  simp only [order, bind, fieldAt_succ, fieldAt_zero, toNat_byte (v := n.val + 1) (by omega),
    toNat_byte (v := o.val + 1) (by omega), nodeOf_succ, outletOf_succ, hr, hd, Option.bind_some]
  exact if_pos rfl

theorem setNode_eq (n : NodeIx) (x : Bool) :
    setNode [BitVec.ofNat 8 (n.val + 1), if x then 1 else 0] = some (n, x) := by
  simp only [setNode, bind, fieldAt_succ, fieldAt_zero, toNat_byte (v := n.val + 1) (by omega), nodeOf_succ, boolOf_code,
    Option.bind_some]
  exact if_pos rfl

theorem setLimit_eq (n : NodeIx) (c : Capacity) :
    setLimit [BitVec.ofNat 8 (n.val + 1), BitVec.ofNat 8 (c.scale.toNat * 64 + c.value.toNat / 256),
      BitVec.ofNat 8 c.value.toNat] = some (n, c) := by
  simp only [setLimit, bind, fieldAt_succ, fieldAt_zero, fieldAt_two, toNat_byte (v := n.val + 1) (by omega), nodeOf_succ,
    capacityOf_bytes, Option.bind_some]
  exact if_pos rfl

theorem setTiming_eq (p : Fin 7) (t w : Nat) (h1 : 250 ≤ t) (h2 : t ≤ 8000) (h3 : 1 ≤ w) (h4 : w ≤ 60) :
    setTiming [BitVec.ofNat 8 p.val, BitVec.ofNat 8 (t / 256), BitVec.ofNat 8 t, BitVec.ofNat 8 w] = some (p, t, w) := by
  simp only [setTiming, fieldAt_succ, fieldAt_zero, fieldAt_two, toNat_byte (v := p.val) (by omega),
    two_bytes (v := t) (by omega), toNat_byte (v := w) (by omega)]
  exact (dif_pos p.isLt).trans (if_pos ⟨rfl, h1, h2, h3, h4⟩)

theorem slot_eq (a : Slot) : slot [BitVec.ofNat 8 (a.val + 1)] = some a := by
  simp only [slot, fieldAt_zero, toNat_byte (v := a.val + 1) (by omega), slotOf_succ]
  exact if_pos rfl

theorem link_eq (l : LinkIx) : link [BitVec.ofNat 8 l.val] = some l := by
  simp only [link, fieldAt_zero, toNat_byte (v := l.val) (by omega), linkIndex_val]
  exact if_pos rfl

theorem readProfile_eq (i : Fin 16) : readProfile [BitVec.ofNat 8 i.val] = some i := by
  simp only [readProfile, fieldAt_zero, toNat_byte (v := i.val) (by omega), profileIndex_val]
  exact if_pos rfl

theorem setPreset_eq (a : Slot) (p : BitVec 64) :
    setPreset (BitVec.ofNat 8 (a.val + 1) :: beBytes 8 p.toNat) = some (a, p) := by
  have field : fieldAt (BitVec.ofNat 8 (a.val + 1) :: beBytes 8 p.toNat) 1 8 = p.toNat := beNat_beBytes 8 _ p.isLt
  simp only [setPreset, bind, fieldAt_zero, field, toNat_byte (v := a.val + 1) (by omega), slotOf_succ, Option.bind_some]
  exact (if_pos rfl).trans (by rw [BitVec.ofNat_toNat, BitVec.setWidth_eq])

theorem importRecord_eq (a : Slot) (bs : List Byte) :
    importRecord (BitVec.ofNat 8 (a.val + 1) :: bs) = (transferOf bs).map (fun r => (a, r)) := by
  simp only [importRecord, bind, fieldAt_zero, toNat_byte (v := a.val + 1) (by omega), slotOf_succ, Option.bind_some]
  cases h : transferOf bs with
  | none => rw [List.drop_succ_cons, List.drop_zero, h]; rfl
  | some r => rw [List.drop_succ_cons, List.drop_zero, h]; rfl

theorem condition_absent (x y : Byte) : condition [0, x, y] = some none := rfl

theorem condition_present (a : Slot) (v : BitVec 6) :
    condition [1, BitVec.ofNat 8 (a.val + 1), v.setWidth 8] = some (some ⟨a, v⟩) := by
  simp only [condition, bind, fieldAt_succ, fieldAt_zero, toNat_byte (v := a.val + 1) (by omega), slotOf_succ, sixBitsOf_byte]
  rfl

theorem setLink_eq (l : LinkIx) (mode e1 e0 c1 c2 c3 code target : Byte) (guard : Bool) (m : LinkMode)
    (c : Option Condition) (action : LinkAction) (hm : linkModeOf mode.toNat = some m)
    (hc : condition [c1, c2, c3] = some c) (ha : linkActionOf code.toNat target.toNat = some action) :
    setLink [BitVec.ofNat 8 l.val, mode, e1, e0, c1, c2, c3, code, target, if guard then 1 else 0] =
      some (l, { mode := m, trigger := e1 ++ e0, condition := c, action, guard, armed := true, lastCondition := false,
                 guardSet := false, fireCount := 0 }) := by
  have trigger : BitVec.ofNat 16 (e1.toNat * 256 + e0.toNat) = e1 ++ e0 := by
    apply BitVec.eq_of_toNat_eq
    have := e1.isLt; have := e0.isLt
    rw [BitVec.toNat_ofNat, BitVec.toNat_append, ← Nat.shiftLeft_add_eq_or_of_lt e0.isLt, Nat.shiftLeft_eq]; omega
  have field : fieldBytes [BitVec.ofNat 8 l.val, mode, e1, e0, c1, c2, c3, code, target, if guard then 1 else 0] 4 3 =
      [c1, c2, c3] := rfl
  simp only [setLink, bind, fieldAt_succ, fieldAt_zero, fieldAt_two, field, toNat_byte (v := l.val) (by omega), linkIndex_val,
    hm, hc, ha, boolOf_code, trigger, Option.bind_some]
  exact if_pos rfl

/-- The fields of a contract: the burst part absent, whatever stands in its bytes, or present (R43, R171). -/
theorem slotContract_eq (a : Slot) (c : Contract) (basis present e1 e0 f1 f0 : Byte) (hb : basisOf basis.toNat = some c.basis)
    (hw : 50 ≤ c.warn ∧ c.warn ≤ 100) (ht : c.tolerance ≤ 15) (hr : 1 ≤ c.release ∧ c.release ≤ 15)
    (hp : c.burst = none ∧ present = 0 ∨ c.burst = some ⟨e1.toNat * 256 + e0.toNat, f1.toNat * 256 + f0.toNat⟩ ∧
      present = 1 ∧ 1 ≤ e1.toNat * 256 + e0.toNat) :
    slotContract [BitVec.ofNat 8 (a.val + 1), basis,
      BitVec.ofNat 8 (c.capacity.a.scale.toNat * 64 + c.capacity.a.value.toNat / 256), BitVec.ofNat 8 c.capacity.a.value.toNat,
      BitVec.ofNat 8 (c.capacity.b.scale.toNat * 64 + c.capacity.b.value.toNat / 256), BitVec.ofNat 8 c.capacity.b.value.toNat,
      BitVec.ofNat 8 c.warn, BitVec.ofNat 8 c.tolerance, BitVec.ofNat 8 c.release, present, e1, e0, f1, f0] = some (a, c) := by
  obtain ⟨cb, ⟨ca, cb'⟩, w, t, r, burst⟩ := c
  simp only at hb hw ht hr hp ⊢
  have := e1.isLt; have := e0.isLt; have := f1.isLt; have := f0.isLt
  simp only [slotContract, contractOf, bind, List.drop_succ_cons, List.drop_zero, fieldAt_succ, fieldAt_zero, fieldAt_two,
    toNat_byte (v := a.val + 1) (by omega), slotOf_succ, hb, capacityOf_bytes, toNat_byte (v := w) (by omega),
    toNat_byte (v := t) (by omega), toNat_byte (v := r) (by omega), Option.bind_some]
  rcases hp with ⟨rfl, rfl⟩ | ⟨rfl, rfl, h⟩
  · simp [boolOf_zero, Contract.valid, hw, ht, hr]
  · have le : e1.toNat * 256 + e0.toNat ≤ 65535 ∧ f1.toNat * 256 + f0.toNat ≤ 65535 := by omega
    simp [boolOf_one, Contract.valid, hw, ht, hr, h, le]

/-- The fields of a profile: the square coefficient absent, whatever stands in its bytes, or present (R36, R171). -/
theorem setProfile_eq (i : Fin 16) (p : Profile) (degree present j1 j0 y : Byte) (hc : 1 ≤ p.ceiling.toNat)
    (hp : p.c2 = none ∧ degree = 1 ∧ present = 0 ∨
      ∃ c, p.c2 = some c ∧ degree = 2 ∧ present = 1 ∧ j1 = BitVec.ofNat 8 (c.k.toNat / 256) ∧
        j0 = BitVec.ofNat 8 c.k.toNat ∧ y = BitVec.ofNat 8 c.x.toNat) :
    setProfile [BitVec.ofNat 8 i.val, degree, BitVec.ofNat 8 (p.c0.toNat / 65536), BitVec.ofNat 8 (p.c0.toNat / 256),
      BitVec.ofNat 8 p.c0.toNat, BitVec.ofNat 8 (p.c1.k.toNat / 256), BitVec.ofNat 8 p.c1.k.toNat,
      BitVec.ofNat 8 p.c1.x.toNat, present, j1, j0, y, BitVec.ofNat 8 (p.deadband.toNat / 256),
      BitVec.ofNat 8 p.deadband.toNat, BitVec.ofNat 8 (p.ceiling.toNat / 65536), BitVec.ofNat 8 (p.ceiling.toNat / 256),
      BitVec.ofNat 8 p.ceiling.toNat] = some (i, p) := by
  obtain ⟨c0, ⟨k, x⟩, c2, d, l⟩ := p
  have hx := x.isLt
  have coefficient (c : Coefficient) : coefficientOf [BitVec.ofNat 8 (c.k.toNat / 256), BitVec.ofNat 8 c.k.toNat,
      BitVec.ofNat 8 c.x.toNat] = some c := by
    have := c.x.isLt
    simp only [coefficientOf, fieldAt_succ, fieldAt_zero, fieldAt_two, two_bytes c.k.isLt,
      toNat_byte (v := c.x.toNat) (by omega)]
    rw [if_pos (by omega)]; simp
  simp only [setProfile, profileOf, bind, List.drop_succ_cons, List.drop_zero, fieldAt_succ, fieldAt_zero, fieldAt_two,
    fieldAt_three, fieldBytes, toNat_byte (v := i.val) (by omega), profileIndex_val, List.take_succ_cons, List.take_zero,
    coefficient ⟨k, x⟩, two_bytes d.isLt, three_bytes c0.isLt, three_bytes l.isLt, Option.bind_some]
  rcases hp with ⟨hp, rfl, rfl⟩ | ⟨c, hp, rfl, rfl, rfl, rfl, rfl⟩
  · simp only at hp hc; subst hp
    simp [boolOf_zero, hc]
  · simp only at hp hc; subst hp
    have e := coefficient c
    simp only [BitVec.ofNat_toNat] at e
    simp [boolOf_one, hc, e]

end Args

end Sys2Proof.Machine
end

