-- ==== Sys2Proof/Laws/PerInstr.lean ====
section
/-! SUPPORT. Per command: the unit and op byte of a served request lie within the unit's table (Table 9.7, R173). -/

namespace Sys2Proof.Laws.OpCodes

open Sys2Proof.Machine

/-- The op byte that the row stands for is one of its unit's op bytes, which count from 1 (Table 9.7). -/
def Statement (i : Instr) : Prop := ∀ u op r, i.served = some (u, op, r) → 1 ≤ op ∧ op ≤ unitOps u

/-- A row that carries no served request. -/
theorem of_none {i : Instr} (h : i.served = none) : Statement i := by
  intro u op r e; rw [h] at e; cases e

/-- A row that carries a request of a unit with an op byte in range. -/
theorem of_some {i : Instr} {u : RequestUnit} {op : Nat} {r : Request} (h : i.served = some (u, op, r))
    (ok : 1 ≤ op ∧ op ≤ unitOps u) : Statement i := by
  intro u' op' r' e; rw [h] at e; cases e; exact ok

theorem coldReset : Statement .coldReset := of_none rfl
theorem nodeReadings (f : NodeFrame) : Statement (.nodeReadings f) := of_none rfl
theorem nodeJoin (f : NodeFrame) : Statement (.nodeJoin f) := of_none rfl
theorem nodeOrderDone (f : NodeFrame) : Statement (.nodeOrderDone f) := of_none rfl
theorem nodeThrough (f : NodeFrame) : Statement (.nodeThrough f) := of_none rfl
theorem passDown (kind : DownKind) (f : NodeFrame) : Statement (.passDown kind f) := of_none rfl
theorem frameDiscard (port : Port) (kind : Byte) (f : NodeFrame) : Statement (.frameDiscard port kind f) := of_none rfl
theorem frameError (port : Port) (bytes : List Byte) : Statement (.frameError port bytes) := of_none rfl
theorem byteGapTimeout (port : Port) (bytes : List Byte) : Statement (.byteGapTimeout port bytes) := of_none rfl
theorem requestUnserved (payload : List Byte) : Statement (.requestUnserved payload) := of_none rfl
theorem nodeSendDone : Statement .nodeSendDone := of_none rfl
theorem limitNoteOwedSent : Statement .limitNoteOwedSent := of_none rfl
theorem uplinkSendDone : Statement .uplinkSendDone := of_none rfl
theorem visitRetry : Statement .visitRetry := of_none rfl
theorem exportResume : Statement .exportResume := of_none rfl
theorem tickExpiry (g : Fin 6) : Statement (.tickExpiry g) := of_none rfl
theorem reviewTick : Statement .reviewTick := of_none rfl
theorem orderTimeout (number : Byte) : Statement (.orderTimeout number) := of_none rfl
theorem nodeSilence (node : NodeIx) : Statement (.nodeSilence node) := of_none rfl
theorem reviewVisit : Statement .reviewVisit := of_none rfl
theorem passEnd : Statement .passEnd := of_none rfl
theorem eventScan (prefer : Option EventSource) : Statement (.eventScan prefer) := of_none rfl
theorem shedReport : Statement .shedReport := of_none rfl
theorem shedRequestTake : Statement .shedRequestTake := of_none rfl
theorem shedSearchStep : Statement .shedSearchStep := of_none rfl
theorem shedSearchEnd : Statement .shedSearchEnd := of_none rfl
theorem assignEntry : Statement .assignEntry := of_none rfl
theorem alterFlagsEntry : Statement .alterFlagsEntry := of_none rfl
theorem readEntries (r : Request) : Statement (.readEntries r) := of_some rfl (by decide)
theorem assign (r : Request) : Statement (.assign r) := of_some rfl (by decide)
theorem setOutlet (r : Request) : Statement (.setOutlet r) := of_some rfl (by decide)
theorem alterFlags (r : Request) : Statement (.alterFlags r) := of_some rfl (by decide)
theorem setProfile (r : Request) : Statement (.setProfile r) := of_some rfl (by decide)
theorem readProfile (r : Request) : Statement (.readProfile r) := of_some rfl (by decide)
theorem create (r : Request) : Statement (.create r) := of_some rfl (by decide)
theorem setContract (r : Request) : Statement (.setContract r) := of_some rfl (by decide)
theorem activate (r : Request) : Statement (.activate r) := of_some rfl (by decide)
theorem suspend (r : Request) : Statement (.suspend r) := of_some rfl (by decide)
theorem remove (r : Request) : Statement (.remove r) := of_some rfl (by decide)
theorem setPreset (r : Request) : Statement (.setPreset r) := of_some rfl (by decide)
theorem readTenant (r : Request) : Statement (.readTenant r) := of_some rfl (by decide)
theorem setLink (r : Request) : Statement (.setLink r) := of_some rfl (by decide)
theorem readLink (r : Request) : Statement (.readLink r) := of_some rfl (by decide)
theorem rearm (r : Request) : Statement (.rearm r) := of_some rfl (by decide)
theorem switchOrder (r : Request) : Statement (.switchOrder r) := of_some rfl (by decide)
theorem shedTenant (r : Request) : Statement (.shedTenant r) := of_some rfl (by decide)
theorem restoreTenant (r : Request) : Statement (.restoreTenant r) := of_some rfl (by decide)
theorem setNodeDisable (r : Request) : Statement (.setNodeDisable r) := of_some rfl (by decide)
theorem setNodeEnable (r : Request) : Statement (.setNodeEnable r) := of_some rfl (by decide)
theorem setLimit (r : Request) : Statement (.setLimit r) := of_some rfl (by decide)
theorem readNode (r : Request) : Statement (.readNode r) := of_some rfl (by decide)
theorem readStates (r : Request) : Statement (.readStates r) := of_some rfl (by decide)
theorem close (r : Request) : Statement (.close r) := of_some rfl (by decide)
theorem exportTenant (r : Request) : Statement (.exportTenant r) := of_some rfl (by decide)
theorem importTenant (r : Request) : Statement (.importTenant r) := of_some rfl (by decide)
theorem readIdent (r : Request) : Statement (.readIdent r) := of_some rfl (by decide)
theorem setState (r : Request) : Statement (.setState r) := of_some rfl (by decide)
theorem setTiming (r : Request) : Statement (.setTiming r) := of_some rfl (by decide)
theorem setForward (r : Request) : Statement (.setForward r) := of_some rfl (by decide)
theorem readStatus (r : Request) : Statement (.readStatus r) := of_some rfl (by decide)
theorem readTags (r : Request) : Statement (.readTags r) := of_some rfl (by decide)
theorem restart (r : Request) : Statement (.restart r) := of_some rfl (by decide)
theorem resetUnit (r : Request) : Statement (.resetUnit r) := of_some rfl (by decide)

end Sys2Proof.Laws.OpCodes
end

