-- ==== Sys2Proof/WellFormed.lean ====
section
/-! DEFINITION. The well-formed commands: those whose operands describe an occurrence that the spec gives their row. -/

namespace Sys2Proof

open Sys2Proof.Machine

/-- The payload fits a frame (R161). -/
def NodeFrame.fits (f : NodeFrame) : Bool := decide (f.payload.length ≤ Config.maxPayload)

/-- A frame that the roster takes: it fits, and its address is 1..32 (R129). -/
def NodeFrame.fromNode (f : NodeFrame) : Bool := f.fits && (nodeOf f.addr.toNat).isSome

/-- What the bytes bring to a receiver in HUNT has an error in it and no good frame (R162). -/
def endsInError (bytes : List Byte) : Bool :=
  let events := (Receiver.hunt.takeAll bytes).2
  !events.isEmpty && !events.contains .good

/-- The bytes leave a receiver that was in HUNT with a frame in progress, and complete no good frame (R162). -/
def leavesFrame (bytes : List Byte) : Bool :=
  let got := Receiver.hunt.takeAll bytes
  decide (got.1 ≠ .hunt) && !got.2.contains .good

/-- A REQUEST that reaches its unit: the tag is not 0 and the payload of 4 bytes and the arguments fits (Table 9.7). -/
def Request.fits (r : Request) : Bool := decide (r.tag ≠ 0 ∧ 4 + r.args.length ≤ Config.maxPayload)

/-- The enabled argument of a SET_NODE is yes. -/
def Request.enables (r : Request) : Bool := decide (fieldAt r.args 1 1 = 1)

/-- The command is well-formed. -/
def Instr.wellFormed : Instr → Bool
  | .coldReset => true
  | .nodeReadings f => f.fromNode
  | .nodeJoin f => f.fromNode
  | .nodeOrderDone f => f.fromNode
  | .nodeThrough f => f.fromNode
  | .passDown _ f => f.fromNode
  | .frameDiscard p kind f => f.fits && (dispatchOf p kind f.addr).discards
  | .frameError _ bytes => endsInError bytes
  | .byteGapTimeout _ bytes => leavesFrame bytes
  | .requestUnserved p => decide (p.length ≤ Config.maxPayload ∧ unservedResult p ≠ .served)
  | .nodeSendDone => true
  | .limitNoteOwedSent => true
  | .uplinkSendDone => true
  | .visitRetry => true
  | .exportResume => true
  | .tickExpiry _ => true
  | .reviewTick => true
  | .orderTimeout number => decide (number ≠ 0)
  | .nodeSilence _ => true
  | .reviewVisit => true
  | .passEnd => true
  | .eventScan _ => true
  | .shedReport => true
  | .shedRequestTake => true
  | .shedSearchStep => true
  | .shedSearchEnd => true
  | .assignEntry => true
  | .alterFlagsEntry => true
  | .readEntries r => r.fits
  | .assign r => r.fits
  | .setOutlet r => r.fits
  | .alterFlags r => r.fits
  | .setProfile r => r.fits
  | .readProfile r => r.fits
  | .create r => r.fits
  | .setContract r => r.fits
  | .activate r => r.fits
  | .suspend r => r.fits
  | .remove r => r.fits
  | .setPreset r => r.fits
  | .readTenant r => r.fits
  | .setLink r => r.fits
  | .readLink r => r.fits
  | .rearm r => r.fits
  | .switchOrder r => r.fits
  | .shedTenant r => r.fits
  | .restoreTenant r => r.fits
  | .setNodeDisable r => r.fits && !r.enables
  | .setNodeEnable r => r.fits && r.enables
  | .setLimit r => r.fits
  | .readNode r => r.fits
  | .readStates r => r.fits
  | .close r => r.fits
  | .exportTenant r => r.fits
  | .importTenant r => r.fits
  | .readIdent r => r.fits
  | .setState r => r.fits
  | .setTiming r => r.fits
  | .setForward r => r.fits
  | .readStatus r => r.fits
  | .readTags r => r.fits
  | .restart r => r.fits
  | .resetUnit r => r.fits

end Sys2Proof
end

