-- ==== Sys2Proof/Tests/Slice0.lean ====
section
/-! SUPPORT. The author's own tests: ill-formed commands refused, the spec's worked examples, one step of each family on
a small state, and for each statement for the provers a state and operands that meet its hypotheses. -/

namespace Sys2Proof.Tests

set_option Elab.async false

open Sys2Proof.Machine

/-! ### Well-formedness: one ill-formed command for each check -/

theorem test_illformed_node_address : (Instr.nodeReadings ⟨33, 0, []⟩).wellFormed = false := by decide +kernel
theorem test_illformed_node_address_zero : (Instr.nodeJoin ⟨0, 0, [1]⟩).wellFormed = false := by decide +kernel
theorem test_illformed_payload : (Instr.nodeThrough ⟨1, 0, List.replicate 201 0⟩).wellFormed = false := by decide +kernel
theorem test_illformed_pass_down : (Instr.passDown .request ⟨0, 0, []⟩).wellFormed = false := by decide +kernel
theorem test_illformed_discard : (Instr.frameDiscard .node 0x21 ⟨1, 0, []⟩).wellFormed = false := by decide +kernel
theorem test_illformed_frame_error_good :
    (Instr.frameError .node (Frame.make 0x21 1 0 []).wire).wellFormed = false := by decide +kernel
theorem test_illformed_frame_error_none : (Instr.frameError .node [0xC5, 0x21]).wellFormed = false := by decide +kernel
theorem test_illformed_gap : (Instr.byteGapTimeout .uplink [0x00]).wellFormed = false := by decide +kernel
theorem test_illformed_served : (Instr.requestUnserved [1, 1, 1, 0]).wellFormed = false := by decide +kernel
theorem test_illformed_order_number : (Instr.orderTimeout 0).wellFormed = false := by decide +kernel
theorem test_illformed_tag : (Instr.readIdent ⟨0, 0, []⟩).wellFormed = false := by decide +kernel
theorem test_illformed_args : (Instr.readIdent ⟨1, 0, List.replicate 197 0⟩).wellFormed = false := by decide +kernel
theorem test_illformed_disable : (Instr.setNodeDisable ⟨1, 0, [1, 1]⟩).wellFormed = false := by decide +kernel
theorem test_illformed_enable : (Instr.setNodeEnable ⟨1, 0, [1, 0]⟩).wellFormed = false := by decide +kernel
theorem test_wellformed_commands :
    (Instr.nodeReadings ⟨32, 0, []⟩).wellFormed ∧ (Instr.frameError .node [0xC5, 0x21, 1, 0, 201]).wellFormed ∧
    (Instr.byteGapTimeout .uplink [0xC5]).wellFormed ∧ (Instr.requestUnserved [1, 0, 1, 0]).wellFormed ∧
    (Instr.setNodeDisable ⟨1, 0, [1, 0]⟩).wellFormed := by decide +kernel

/-! ### Worked examples of the spec -/

/-- The check value of this CRC over the digits 1 to 9. -/
theorem test_crc : crc16 [0x31, 0x32, 0x33, 0x34, 0x35, 0x36, 0x37, 0x38, 0x39] = 0xAEE7 := by decide +kernel

/-- Profile 3 of section 2.7. -/
def profile3 : Profile :=
  { c0 := BitVec.ofInt 24 (-1500), c1 := ⟨17, 32⟩, c2 := some ⟨1, 0⟩, deadband := 500, ceiling := 6000000 }

theorem test_table_2_6 :
    [0x0000, 0x3D48, 0x4C1C, 0x9800, 0xFFFE, 0x57D0, 0xFFFF].map profile3.updateOf =
      [(.apply 0, some .negative), (.apply 0, none), (.apply 1793, none), (.apply 68133, none),
       (.apply 6000000, some .saturated), (.flagOnly, some .malformed), (.hold, some .noMeasurement)] := by
  decide +kernel

/-- Tenant 33 of section 4.8, before its first visit. -/
def tenant33 : Tenant :=
  { Tenant.cleared with
    state := .active, verdict := .within, budget := 10 ^ 9, draw := ⟨3000000, 2600000⟩,
    contract := { basis := .combined, capacity := ⟨⟨5, 3⟩, ⟨0, 0⟩⟩, warn := 90, tolerance := 1, release := 2,
                  burst := some ⟨1, 500⟩ } }

theorem test_table_4_3 :
    let v1 := tenant33.visit 1000
    let v2 := v1.visit 2000
    let v3 := { v2 with draw := ⟨2500000, 1900000⟩ }.visit 3000
    let v4 := v3.visit 4000
    let v5 := { v4 with draw := ⟨2600000, 2000000⟩ }.visit 5000
    [v1, v2, v3, v4, v5].map (fun k => (k.budget, k.streak, k.verdict)) =
      [(400000000, 0, .excursion), (0, 0, .breach), (500000000, 1, .breach), (1000000000, 0, .within),
       (1000000000, 0, .near)] ∧
    (v5.peak, v5.excursionTime, v5.breachTime, v5.lifetime.a, v5.lifetime.b) =
      (5600000, 1000, 2000, 13600000000, 11000000000) := by decide +kernel

theorem test_table_7_5 :
    let k0 : Node := { Node.cold with state := .up, lastSeq := some 250 }
    let k := ([251, 251, 4, 2, 132, 131] : List Byte).foldl Node.judged k0
    (k.lastSeq, k.accepted, k.gaps, k.duplicates, k.outOfOrder) = (some 131, 3, 134, 1, 2) := by decide +kernel

theorem test_map_index : mapIndex 2 4 = 100 ∧ nodeOfOutlet 100 = 2 ∧ outletByte 100 = 5 := by decide +kernel

theorem test_verdict_event : verdictEvent 32 .excursion = 0x1102 ∧ nodeEvent 10 3 = 0x202B := by decide +kernel

/-! ### Small states -/

/-- A contract with a burst part. -/
def contract : Contract :=
  { basis := .perFeed, capacity := ⟨⟨1, 0⟩, ⟨2, 0⟩⟩, warn := 90, tolerance := 1, release := 2, burst := some ⟨1, 5⟩ }

/-- The bytes of `contract`. -/
def contractArgs : List Byte := [1, 0, 1, 0, 2, 90, 1, 2, 1, 0, 1, 0, 5]

/-- Node 1 is UP with last sequence 7, node 2 SILENT, node 3 DISABLED; RUN; tenant 1 ACTIVE with outlet 1 of node 1,
which is ON with rank 1 and switchable, tenant 2 SUSPENDED. -/
def live : State :=
  let s := State.reset
  let nodes := s.roster.nodes.set 0 { Node.cold with state := .up, lastSeq := some 7 }
  let nodes := (nodes.set 1 { Node.cold with state := .silent }).set 2 { Node.cold with state := .disabled }
  let tenants := s.tenants.set 0 { Tenant.cleared with state := .active, contract := contract, members := ⟨1, 0⟩ }
  let tenants := tenants.set 1 { Tenant.cleared with state := .suspended }
  let outlet : Outlet :=
    { Outlet.cold with effective := ⟨some 0, .a, false⟩, rank := 1, relay := .on, fresh := true, flags := 0b100000 }
  { s with
    mgmt := { s.mgmt with opState := .run }, roster := { s.roster with nodes }, tenants,
    map := { s.map with entries := s.map.entries.set 0 outlet } }

/-- `live` with a pass at slot `i`. -/
def visiting (i : Slot) (closing : Bool) : State :=
  live.withReview { Review.cold with
    pass := .visiting, position := i, closing, closeNumber := if closing then 1 else 0, closePending := closing }

/-- A management order for an outlet. -/
def orderFor (number : Byte) (i : OutletIx) : Order :=
  { number, outlet := i, relay := .on, indicator := .dark, origin := .management 5 true, issued := 0, expires := 2000 }

/-- `live` with one order outstanding for outlet 1 of node 1. -/
def ordered : State := live.withOrders { live.orders with orders := [orderFor 255 0], next := 255 }

/-- A period record to fill the record buffer with. -/
def record : AccountRecord := .period (Tenant.cleared.periodRecord 0 0 0)

/-- A state with so many records, replies, notices and frames waiting. -/
def waiting (s : State) (records replies notices transit : Nat) : State :=
  s.withUp { s.up with
    records := List.replicate records record, replies := List.replicate replies ⟨1, 1, .ok, .none⟩
    notices := List.replicate notices ⟨0, .chain 0⟩, transit := List.replicate transit (Frame.make 0x30 1 0 []) }

/-- A state with so many entries in the node transmit queue. -/
def queued (s : State) (n : Nat) : State :=
  s.withDown { s.down with queue := List.replicate n (.limit 0 ⟨0, 0⟩), tx := some (Frame.make 0x42 1 0 []) }

/-- A state with so many shed requests queued. -/
def requested (s : State) (n : Nat) : State :=
  s.withLinks { s.links with shedQueue := List.replicate n ⟨.shed, 0, .link 0 1⟩ }

/-- A request with tag 5 and ACK_WANTED. -/
def req (args : List Byte) : Request := ⟨5, 1, args⟩

theorem req_admitted {u : RequestUnit} {args : List Byte} {s : State} (hl : args.length ≤ 196)
    (hf : unitBusy u s = false) : Admitted u (req args) s :=
  ⟨(by decide : (5 : Byte) ≠ 0), (by simp only [req, Config.maxPayload]; omega), (by decide : (1 : Byte) &&& 0xFE#8 = 0#8), hf⟩

/-- A profile as 16 bytes with ceiling 1. -/
def profileArgs : List Byte := [1, 0, 0, 0, 0, 1, 36, 0, 0, 0, 0, 0, 0, 0, 0, 1]

/-! ### One step of each family -/

/-- What a command leaves, read by `f`. -/
def after {α : Type} (c : Instr) (s : State) (f : State → α) : Option α :=
  match exec c s with
  | .next t => some (f t)
  | .fault _ => none
  | .refused _ => none

theorem test_step_readings :
    after (.nodeReadings ⟨1, 9, [0, 0, 1, 1, 0x98, 0x00]⟩) live
      (fun t => ((t.map.entries.get 0).reading, (t.tenants.get 0).draw.a, (t.roster.nodes.get 0).gaps,
        t.links.arrivals)) = some (65536, 65536, 1, [⟨.roster, ⟨0x2003, 0⟩⟩]) := by decide +kernel

theorem test_step_readings_tagged :
    taggedPayload 0 [1, 2, 2, 1, 3, 4, 49, 5, 6] live = [1, 2, 2, 1, 3, 4, 1, 49, 5, 6, 0] := by decide +kernel

theorem test_step_create :
    after (.create (req (4 :: contractArgs))) live
      (fun t => ((t.tenants.get 3).state, (t.tenants.get 3).budget, t.mgmt.tags.get 2,
        t.up.tx.map (·.payload))) = some (.suspended, 10 ^ 9, 5, some [3, 5, 0]) := by decide +kernel

theorem test_step_order :
    after (.switchOrder (req [1, 1, 2, 3])) live
      (fun t => (t.orders.orders.map (·.number), t.orders.next, t.down.tx.map (·.payload), t.mgmt.switchJob))
      = some ([1], 2, some [1, 1, 2, 3], some ⟨5, true⟩) := by decide +kernel

theorem test_step_order_done :
    after (.nodeOrderDone ⟨1, 0, [255, 1, 0, 1]⟩) ordered
      (fun t => (t.orders.orders, (t.map.entries.get 0).relay, (t.map.entries.get 0).indicator))
      = some ([], .on, .dark) := by decide +kernel

theorem test_step_shed_search :
    after .shedSearchStep (live.withOrders { live.orders with
        search := some { tenant := 0, origin := .link 3 1, position := 0, best := none } })
      (fun t => t.orders.search) = some (some { tenant := 0, origin := .link 3 1, position := 1, best := some (0, 1) }) := by
  decide +kernel

theorem test_step_close : after (.close (req [])) live (fun t => (t.review.closeNumber, t.review.closePending,
    t.up.tx.map (·.payload))) = some (1, true, some [8, 5, 0, 0, 1]) := by decide +kernel

theorem test_step_link :
    after (.eventScan none) (live.withLinks { live.links with
        links := live.links.links.set 5 { Link.cold with mode := .every, trigger := 0x0010 }
        arrivals := [⟨.timeBase, ⟨0x0010, 0⟩⟩] })
      (fun t => ((t.links.links.get 5).fireCount, t.links.chain, t.up.tx.map (·.payload)))
      = some (1, [⟨0x300A, 1⟩], some [1, 0, 0, 0, 0, 0, 5, 0, 0x10, 0, 1, 0]) := by decide +kernel

theorem test_step_wait_again :
    after .visitRetry ((waiting (visiting 0 true) 4 0 0 0).withReview { (visiting 0 true).review with pass := .waiting }
        |>.withUp { (waiting live 4 0 0 0).up with recordFreed := true })
      (fun t => (t.review.pass, t.up.recordFreed, (t.tenants.get 0).lastVisit)) = some (.waiting, false, 0) := by decide +kernel

/-- `visiting 127` past its last slot on a closing pass whose every tenant is closed, with a link on 0x0022. -/
def closed : State :=
  let s := visiting 127 true
  let links := (s.links.links.set 5 { Link.cold with mode := .every, trigger := 0x0022 }).set 6
    { Link.cold with guard := true, guardSet := true }
  { s with
    review := { s.review with walked := true }
    tenants := s.tenants.map (fun k => { k with lastClose := 1 }), links := { s.links with links } }

theorem test_step_close_completed_out_of_run :
    after (.setState (req [1])) closed (fun t => (t.review.closePending, t.links.arrivals.map (·.event.id)))
      = some (false, [0x0021, 0x0022]) ∧
    (after (.setState (req [1])) closed (fun t => after (.setState (req [2])) t (fun u =>
      (u.links.arrivals, (u.links.links.get 5).fireCount, (u.links.links.get 6).guardSet))))
      = some (some ([], 0, false)) := by decide +kernel

theorem test_step_ticks_in_order :
    after (.eventScan (some .timeBase)) (live.withLinks { live.links with
        arrivals := [⟨.review, ⟨0x0020, 0⟩⟩, ⟨.timeBase, ⟨0x0010, 0⟩⟩, ⟨.timeBase, ⟨0x0011, 0⟩⟩] })
      (fun t => t.links.arrivals) = some [⟨.review, ⟨0x0020, 0⟩⟩, ⟨.timeBase, ⟨0x0011, 0⟩⟩] := by decide +kernel

theorem test_step_identity : after (.readIdent (req [])) State.reset (fun t => t.up.tx.map (·.payload))
    = some (some [1, 5, 0, 0x06, 0x40, 0x01]) := by decide +kernel

theorem test_step_cold_reset : after .coldReset live (fun t => (t.mgmt.opState, (t.tenants.get 0).state))
    = some (.transparent, .free) := by decide +kernel

/-! ### Hypotheses met: for each statement, states and operands at the boundaries of its clauses -/

theorem test_meets_StepRunsTheFrontCommand :
    (live.withPending [.passEnd, .reviewTick]).pending = .passEnd :: [.reviewTick] := rfl

theorem test_meets_EmptyQueueOnlyAdvancesRowTime : live.pending = [] := rfl

theorem test_meets_RequestChecksFollowTheirOrder :
    (Instr.setOutlet (req (List.replicate 196 0))).served = some (.map, 3, req (List.replicate 196 0)) ∧
    (5 : Byte) ≠ 0 ∧ 4 + (List.replicate 196 (0 : Byte)).length ≤ Config.maxPayload ∧
    (2 : Byte) &&& 0xFE#8 ≠ 0#8 ∧ (1 : Byte) &&& 0xFE#8 = 0#8 ∧
    unitBusy .map (live.withMgmt { live.mgmt with mapJob := some (.assign 1 true ⟨none, .a, false⟩ 0 2 0 0 0) }) = true ∧
    unitBusy .map live = false ∧ argsReadable (.setOutlet (req [1, 49, 0, 0])) = false ∧
    argsReadable (.setOutlet (req [1, 48, 15, 15])) = true := by decide +kernel

theorem test_meets_argument_forms :
    argsReadable (.setTiming (req [6, 0, 250, 60])) = true ∧ argsReadable (.setTiming (req [7, 0, 250, 60])) = false ∧
    argsReadable (.assign (req [32, 1, 48, 128, 1, 1])) = true ∧ argsReadable (.assign (req [32, 2, 48, 128, 1, 1])) = false ∧
    argsReadable (.alterFlags (req [5, 0xFF, 0, 1, 63, 2])) = true ∧
    argsReadable (.alterFlags (req [5, 0xFF, 0, 2, 63, 2])) = false ∧
    argsReadable (.setLink (req [63, 3, 0, 0x20, 1, 128, 63, 1, 1, 1])) = true ∧
    argsReadable (.setLink (req [63, 3, 0, 0x20, 2, 1, 63, 1, 1, 1])) = false ∧
    argsReadable (.create (req (128 :: contractArgs))) = true ∧ argsReadable (.create (req contractArgs)) = false ∧
    argsReadable (.setProfile (req (15 :: profileArgs))) = true ∧
    argsReadable (.setProfile (req (16 :: profileArgs))) = false := by decide +kernel

/-- The readers at the ends of their ranges: each field in the order its rule lists it. -/
theorem test_readers_take_each_field :
    Args.readEntries [32, 41, 8] = some (⟨1528, by decide⟩, 8) ∧ Args.readEntries [1, 1, 1] = some (0, 1) ∧
    Args.assign [32, 48, 1, 128, 1, 0] = some (⟨1535, by decide⟩, 1, ⟨some 127, .b, false⟩) ∧
    Args.assign [1, 1, 48, 0, 0, 1] = some (0, 48, ⟨none, .a, true⟩) ∧
    Args.setOutlet [1, 1, 15, 2] = some (0, 15, 2) ∧ Args.order [1, 1, 3, 1] = some (0, .cycle, .dark) ∧
    Args.alterFlags [5, 0xFF, 0, 1, 63, 2] = some (⟨1535, by decide⟩, 1, 63, .xor) ∧
    Args.alterFlags [0, 0, 6, 0, 1, 0] = some (0, 1536, 1, .and) ∧
    Args.setTiming [6, 0x1F, 0x40, 60] = some (6, 8000, 60) ∧ Args.setTiming [0, 0, 250, 1] = some (0, 250, 1) ∧
    Args.setPreset [128, 0x80, 0, 0, 0, 0, 0, 0, 1] = some (127, 0x8000000000000001) ∧
    Args.setLink [63, 1, 0x30, 0x01, 1, 128, 0b100000, 0, 1, 1] = some (63, { Link.cold with
      mode := .once, trigger := 0x3001, condition := some ⟨127, 0b100000⟩, action := .shed 0, guard := true, armed := true }) ∧
    Args.setLink [0, 3, 0, 0x20, 0, 9, 9, 4, 0, 0] = some (0, { Link.cold with
      mode := .every, trigger := 0x0020, action := .close, armed := true }) := by
  repeat' apply And.intro
  all_goals decide +kernel

/-- What the clauses on the readers ask of a contract and of a profile, at both forms of their optional parts. -/
theorem test_meets_reader_values :
    (50 ≤ contract.warn ∧ contract.warn ≤ 100 ∧ contract.tolerance ≤ 15 ∧ 1 ≤ contract.release ∧ contract.release ≤ 15 ∧
      ∃ x, contract.burst = some x ∧ 1 ≤ x.allowance ∧ x.allowance ≤ 65535 ∧ x.refill ≤ 65535) ∧
    { contract with burst := none }.burst = none ∧ 1 ≤ profile3.ceiling.toNat ∧ profile3.c2 = some ⟨1, 0⟩ ∧
    { profile3 with c2 := none }.c2 = none :=
  ⟨⟨by decide, by decide, by decide, by decide, by decide, _, rfl, by decide, by decide, by decide⟩, rfl, by decide, rfl, rfl⟩

theorem test_meets_UnservedRequestsAreRefusedByName :
    ([1, 2, 3] : List Byte).length < 4 ∧ 4 + (List.replicate 196 (0 : Byte)).length ≤ Config.maxPayload ∧
    (1 : Byte) ≠ 0 ∧ ((0 : Byte).toNat = 0 ∧ 8 < (9 : Byte).toNat) ∧ ((0 : Byte).toNat = 0 ∧ unitOps .map < (5 : Byte).toNat) :=
  by decide +kernel

theorem test_meets_AnswersAndNoticesJoinTheirQueues :
    (Status.ok.accepts = true ∧ Status.busy.accepts = false) ∧
    (waiting live 0 7 31 0).up.replies.length < 8 ∧ 8 ≤ (waiting live 0 8 0 0).up.replies.length ∧
    (waiting live 0 7 31 0).up.notices.length < 32 ∧ 32 ≤ (waiting live 0 0 32 0).up.notices.length := by decide +kernel

theorem test_meets_TransmittersTakeTheirNextFrame :
    (waiting live 1 1 1 1).up.replies = ⟨1, 1, .ok, .none⟩ :: [] ∧
    ((waiting live 1 0 1 1).up.replies = [] ∧ (waiting live 1 0 1 1).up.notices = ⟨0, .chain 0⟩ :: []) ∧
    ((waiting live 1 0 0 1).up.notices = [] ∧ (waiting live 1 0 0 1).up.transit = Frame.make 0x30 1 0 [] :: [] ∧
      (waiting live 1 0 0 1).up.turn = .transit) ∧
    ((waiting live 1 0 0 0).up.transit = [] ∧ (waiting live 1 0 0 0).up.records = record :: []) ∧
    (live.up.replies = [] ∧ live.up.notices = [] ∧ live.up.transit = [] ∧ live.up.records = []) ∧
    (live.down.queue = [] ∧ (queued live 1).down.queue = .limit 0 ⟨0, 0⟩ :: []) := by decide +kernel

/-- A REPLY, a NOTICE and an ORDER payload as their tables lay them out, and an idle and a busy uplink transmitter. -/
theorem test_payload_layouts :
    live.up.tx = none ∧ { live.up with tx := some (Frame.make 0x30 1 0 []) }.tx ≠ none ∧
    (⟨7, 3, .ok, .link { Link.cold with mode := .once, trigger := 0x3001, guard := true }⟩ : Reply).payload 0 =
      [7, 3, 0, 1, 0x30, 0x01, 0, 0, 0, 2, 0, 1, 0, 0, 0, 0, 0] ∧
    (⟨2, .conversion (mapIndex 1 3) .saturated⟩ : Notice).payload = [2, 0, 0, 0, 0, 2, 2, 4, 4] ∧
    record.bytes.length = 91 := by decide +kernel

theorem test_meets_OwedLimitNoteGoesToTheLowestNode :
    let owing (n : NodeIx) := live.withRoster { live.roster with
      nodes := live.roster.nodes.set n { Node.cold with state := .up, noteOwed := true } }
    (queued (owing 0) 15).down.queue.length < 16 ∧ ((owing 31).roster.nodes.get 31).noteOwed = true ∧
    ((owing 31).roster.nodes.get 31).state = .up ∧
    (∀ m : NodeIx, m < 31 →
      ¬ (((owing 31).roster.nodes.get m).state = .up ∧ ((owing 31).roster.nodes.get m).noteOwed = true)) ∧
    16 ≤ (queued live 16).down.queue.length ∧
    (∀ n, ¬ ((live.roster.nodes.get n).state = .up ∧ (live.roster.nodes.get n).noteOwed = true)) := by decide +kernel

theorem test_meets_SequenceCheckJudgesReadings :
    (live.roster.nodes.get 1).lastSeq = none ∧ (live.roster.nodes.get 0).lastSeq = some 7 ∧
    ([7, 8, 9, 134, 135, 6] : List Byte).map (fun q => (q.toNat + 256 - (7 : Byte).toNat) % 256) = [0, 1, 2, 127, 128, 255] ∧
    (nodeByte 0 = 1 ∧ (live.roster.nodes.get 0).state = .up ∧ ([] : List Byte).length ≤ Config.maxPayload) ∧
    (live.withMgmt { live.mgmt with opState := .transparent }).mgmt.opState = .transparent := by decide +kernel

theorem test_meets_AcceptedReadingIsConvertedAndApplied :
    (live.roster.nodes.get 0).state = .up ∧ (live.roster.nodes.get 0).lastSeq = some 7 ∧
    ([8, 134] : List Byte).map (fun q => (q.toNat + 256 - (7 : Byte).toNat) % 256) = [1, 127] ∧
    ((profile3.updateOf 0).2 = some .negative ∧ (0b110000 : BitVec 6) &&& ConvFlag.bit .negative = 0#6 ∧
      (0b110000 : BitVec 6).getLsbD 4 = true ∧ (0b100000 : BitVec 6).getLsbD 4 = false) ∧
    (47 : Fin 48).val + 1 ≤ (live.roster.nodes.get 0).fitted ∧ live.mgmt.opState ≠ .transparent ∧
    (live.map.entries.get (mapIndex 0 0)).effective.memberOf = some (0, .a) ∧
    (live.map.entries.get (mapIndex 0 47)).effective.memberOf = none ∧
    (nodeByte 0 = 1 ∧ (1 : Byte).toNat ≤ 48 ∧ (List.replicate 3 (0 : Byte)).length = 3 * (1 : Byte).toNat) ∧
    48 < (49 : Byte).toNat ∧ 24 < (25 : Byte).toNat := by decide +kernel

/-- Table 2.2 where its classes meet, and the flags of an entry that owes attention and of one that does not. -/
theorem test_table_2_2_boundaries :
    [0x0FFF, 0x1000, 0x17FF, 0x1800, 0xF7FF, 0xFFFE, 0xFFFF].map (fun code => (profile3.updateOf code).1) =
      [.apply (profile3.convert 0x0FFF).1, .flagOnly, .flagOnly, .apply (profile3.convert 0x1000).1, .flagOnly,
       .apply 6000000, .hold] ∧
    (0b110000 : BitVec 6) &&& 0b001111 = 0 ∧ (0b111000 : BitVec 6) &&& 0b001111 ≠ 0 := by decide +kernel

theorem test_meets_NodeFramesKeepTheirBounds :
    (∃ t, exec (.nodeReadings ⟨1, 8, []⟩) live = .next t) ∧
    (nodeByte 2 = 3 ∧ (List.replicate 200 (0 : Byte)).length ≤ Config.maxPayload ∧
      (live.roster.nodes.get 2).state = .disabled) := ⟨⟨_, rfl⟩, by decide +kernel⟩

theorem test_meets_JoinAndReadingsBringTheNodeUp :
    (nodeByte 0 = 1 ∧ (live.roster.nodes.get 0).state = .up) ∧
    (nodeByte 1 = 2 ∧ (live.roster.nodes.get 1).state = .silent) ∧
    (nodeByte 31 = 32 ∧ (live.roster.nodes.get 31).state = .absent) ∧
    (1 ≤ (1 : Byte).toNat ∧ (48 : Byte).toNat ≤ 48 ∧ (0 : Byte).toNat = 0 ∧ 48 < (49 : Byte).toNat) ∧
    storeRoom live = true := by decide +kernel

theorem test_meets_OrdersEndByReportOrTimeout :
    (ordered.orders.orders.map (·.number)).Nodup ∧ orderFor 255 0 ∈ ordered.orders.orders ∧
    (ordered.roster.nodes.get 0).state ≠ .disabled ∧ nodeOfOutlet (orderFor 255 0).outlet = 0 ∧
    endingOf 0 0 = some (.done false) ∧ endingOf 2 1 = some (.fault true) ∧
    (∀ o ∈ ordered.orders.orders, ¬ (o.number = 254 ∧ nodeOfOutlet o.outlet = 0 ∧ outletByte o.outlet = 1)) ∧
    (2 < (3 : Byte).toNat ∧ 1 < (2 : Byte).toNat) ∧ ([1, 2, 3] : List Byte).length ≠ 4 ∧
    reached 2000 (orderFor 255 0).expires = true ∧ reached 1999 (orderFor 255 0).expires = false ∧
    (∀ o ∈ ordered.orders.orders, o.number ≠ 1) := by decide +kernel

theorem test_meets_ThroughFramesPassUnchanged :
    nodeByte 0 = 1 ∧ (live.roster.nodes.get 0).state ≠ .disabled ∧
    (waiting live 0 0 0 15).up.transit.length < 16 ∧ 16 ≤ (waiting live 0 0 0 16).up.transit.length ∧
    (queued live 15).down.queue.length < 16 ∧ 16 ≤ (queued live 16).down.queue.length ∧
    (State.reset.ports.forward = .plain ∧ (48 : Byte).toNat ≤ 48 ∧
      (List.replicate 48 ((1, 0, 0) : Byte × Byte × Byte)).length = (48 : Byte).toNat) := by decide +kernel

theorem test_meets_tag :
    (∀ o : Fin 48, tagOf 0 (BitVec.ofNat 8 (o.val + 1)) live =
      match (live.map.entries.get (mapIndex 0 o)).effective.tenant with
      | none => 0
      | some a => BitVec.ofNat 8 (a.val + 1)) ∧
    (∀ b : Byte, b = 0 ∨ 48 < b.toNat → tagOf 0 b live = 0) := by
  refine ⟨by decide +kernel, fun b h => ?_⟩
  have : outletOf b.toNat = none := by
    unfold outletOf
    rw [dif_neg]
    rcases h with h | h
    · rw [h]; decide
    · omega
  unfold tagOf
  rw [this]

theorem test_meets_ReceiverTakesEveryGoodFrame :
    (List.replicate 200 (0xC5 : Byte)).length ≤ Config.maxPayload ∧ ([] : List Byte).length ≤ Config.maxPayload := by
  decide +kernel

theorem test_meets_BadFramesAreCountedByCause :
    (0x20 : Byte) ∉ ([0x21, 0x22, 0x23, 0x30, 0x41, 0x42, 0x51, 0x52, 0x53, 0x54] : List Byte) ∧
    ((0x30 : Byte) ∈ ([0x21, 0x22, 0x23, 0x30] : List Byte) ∧ (0 : Byte).toNat = 0 ∧ 32 < (33 : Byte).toNat) ∧
    (0x51 : Byte) ∈ ([0x51, 0x30] : List Byte) ∧ receiver .node live = .hunt ∧ receiver .uplink live = .hunt ∧
    200 < (201 : Byte).toNat ∧
    (let f : Frame := { Frame.make 0x21 1 0 [] with check := 0 }
     f.check ≠ crc16 ([f.kind, f.addr, f.seq, BitVec.ofNat 8 f.payload.length] ++ f.payload) ∧ 6 < f.wire.length) := by
  decide +kernel

theorem test_meets_TicksExpireAtTheirDueTimes :
    reached 100 (live.time.due.get 0) = true ∧ reached 99 (live.time.due.get 0) = false ∧ storeRoom live = true ∧
    storeRoom (live.withLinks { live.links with arrivals := List.replicate 64 ⟨.review, ⟨0, 0⟩⟩ }) = false ∧
    reached 1000 live.time.reviewDue = true ∧ live.mgmt.opState = .run ∧ live.review.pass = .idle ∧
    (visiting 0 false).review.pass ≠ .idle ∧ (State.reset).mgmt.opState ≠ .run := by decide +kernel

theorem test_meets_NodeSilenceClearsTheNode :
    (live.roster.nodes.get 0).state = .up ∧ (live.roster.nodes.get 1).state ≠ .up ∧
    live.roster.timeout * 1000 ≤ elapsed 5000 (live.roster.nodes.get 0).lastHeard ∧
    elapsed 4999 (live.roster.nodes.get 0).lastHeard < live.roster.timeout * 1000 ∧
    (ordered.orders.orders.map (·.number)).Nodup ∧ storeRoom live = true := by decide +kernel

/-- The order of a node that goes SILENT ends NODE_LOST: relay and indicator UNKNOWN, and the answer is status 0x24. -/
theorem test_silence_ends_orders :
    after (.nodeSilence 0) ((ordered.withTime { ordered.time with rowTime := 5000 }).withMgmt
        { ordered.mgmt with switchJob := some ⟨5, true⟩ })
      (fun t => ((t.map.entries.get 0).relay, (t.map.entries.get 0).indicator, t.orders.orders,
        t.up.tx.map (fun f => f.payload.take 3))) =
      some (.unknown, .unknown, [], some [7, 5, 0x24]) := by decide +kernel

theorem test_meets_ReviewVisitTakesTheSlotAtThePosition :
    ((visiting 2 false).review.pass = .visiting ∧ (visiting 2 false).review.walked = false ∧
      (live.tenants.get 2).state = .free) ∧
    ((live.tenants.get 0).state ≠ .free ∧ (visiting 0 false).review.closing = false) ∧
    ((visiting 0 true).review.closing = true ∧
      (live.tenants.get 0).lastClose ≠ (visiting 0 true).review.closeNumber) ∧
    (waiting live 3 0 0 0).up.records.length < 4 ∧ 4 ≤ (waiting live 4 0 0 0).up.records.length ∧
    ((live.withReview { Review.cold with pass := .waiting }).review.pass = .waiting ∧ Review.cold.walked = false) ∧
    ({ (waiting live 4 0 0 0).up with recordFreed := true } : Uplink).recordFreed = true ∧
    live.up.recordFreed = false ∧ live.review.pass ≠ .waiting := by decide +kernel

theorem test_meets_VisitIntegratesAndChecksStaleness :
    { tenant33 with state := .suspended }.state = .suspended ∧ tenant33.state = .active ∧
    { tenant33 with stale := 2 }.takeUp.contract.tolerance < 2 := by decide +kernel

theorem test_meets_OverAndExcessFollowTheBasis :
    tenant33.contract.basis = .combined ∧ contract.basis = .perFeed ∧ tenant33.over = true ∧
    { tenant33 with draw := ⟨2500000, 2500000⟩ }.over = false := by decide +kernel

theorem test_meets_OverTenantSpendsItsBudget :
    tenant33.stale ≤ tenant33.contract.tolerance ∧ tenant33.over = true ∧ tenant33.contract.burst = some ⟨1, 500⟩ ∧
    tenant33.excess * 1666 ≤ tenant33.budget ∧ tenant33.budget < tenant33.excess * 1667 ∧
    Contract.cleared.burst = none ∧ tenant33.budget ≤ tenant33.contract.allowance := by decide +kernel

theorem test_meets_TenantNotOverRefillsAndPeriodFieldsFollow :
    let k := { tenant33 with draw := ⟨2500000, 1900000⟩, verdict := .breach }
    k.stale ≤ k.contract.tolerance ∧ k.over = false ∧ k.contract.burst = some ⟨1, 500⟩ ∧ k.verdict = .breach ∧
    k.streak + 1 < k.contract.release ∧ k.contract.release ≤ 1 + 1 ∧ tenant33.verdict ≠ .breach := by decide +kernel

theorem test_meets_ContractTakeUpAdjustsBudgetAndStreak :
    tenant33.pendingContract = none ∧ { tenant33 with pendingContract := some contract }.pendingContract = some contract ∧
    contract.burst ≠ none ∧ Contract.cleared.burst = none ∧ contract.basis ≠ tenant33.contract.basis ∧
    contract.capacity.a.mW = (⟨⟨1, 0⟩, ⟨2, 0⟩⟩ : PerFeed Capacity).a.mW := by decide +kernel

theorem test_meets_EventScanTakesTheNextEvent :
    let s := live.withLinks { live.links with arrivals := [⟨.review, ⟨0x0021, 0⟩⟩, ⟨.roster, ⟨0x2000, 0⟩⟩] }
    (s.links.chain = [] ∧ s.links.arrivals = [⟨.review, ⟨0x0021, 0⟩⟩] ++ ⟨.roster, ⟨0x2000, 0⟩⟩ :: [] ∧
      ∀ b ∈ ([⟨.review, ⟨0x0021, 0⟩⟩] : List Arrival), b.source ≠ .roster) ∧
    (∀ b ∈ s.links.arrivals, some EventSource.tenants ≠ some b.source) ∧
    (live.withLinks { live.links with chain := [⟨0x3000, 4⟩] }).links.chain = ⟨0x3000, 4⟩ :: [] ∧
    live.mgmt.opState = .run ∧ State.reset.mgmt.opState ≠ .run ∧ 4 ≤ (⟨0x3000, 4⟩ : Event).depth ∧
    (⟨0x3000, 3⟩ : Event).depth < 4 := by decide +kernel

theorem test_meets_LinkActsByItsMode :
    let held : Link := { Link.cold with mode := .once, condition := some ⟨0, 0b100000⟩ }
    (held.condition = some ⟨0, 0b100000⟩ ∧ (live.tenants.get 0).state ≠ .free ∧ (live.tenants.get 0).verdict = .held ∧
      (0b100000 : BitVec 6).getLsbD 5 = true ∧ (0b011111 : BitVec 6).getLsbD 5 = false) ∧
    held.armed = true ∧ ¬ (held.guard = true ∧ held.guardSet = true) ∧ Link.cold.condition = none ∧
    Link.cold.lastCondition = false ∧ Link.cold.trigger = (⟨0, 0⟩ : Event).id ∧ Link.cold.mode = .off ∧
    8 ≤ (requested live 8).links.shedQueue.length := by decide +kernel

theorem test_meets_PerformedActionHasItsOutcome :
    (requested live 7).links.shedQueue.length < 8 ∧ 8 ≤ (requested live 8).links.shedQueue.length ∧
    (live.tenants.get 0).state ≠ .free ∧ (live.tenants.get 127).state = .free ∧ live.review.closePending = false ∧
    (visiting 0 true).review.closePending = true := by decide +kernel

/-- The event store one short of full and full, and a pass end discarded at a full store. -/
theorem test_event_store_bounds :
    let holding (n : Nat) := live.withLinks { live.links with
      chain := [⟨0x1000, 1⟩], arrivals := List.replicate n ⟨.review, ⟨0, 0⟩⟩,
      links := live.links.links.set 5 { Link.cold with guard := true, guardSet := true } }
    (holding 62).links.chain.length + (holding 62).links.arrivals.length < 64 ∧
    64 ≤ (holding 63).links.chain.length + (holding 63).links.arrivals.length ∧
    (postOutcome 5 false 2 (holding 62)).links.chain = [⟨0x1000, 1⟩, ⟨0x300B, 2⟩] ∧
    (postOutcome 5 true 2 (holding 63)).links.chain = [⟨0x1000, 1⟩] ∧
    (postOutcome 5 true 2 (holding 63)).mgmt.sticky.chainLimit = true ∧
    ((post .review 0x0022 (holding 63)).links.links.get 5).guardSet = true ∧
    ((post .review 0x0021 (holding 63)).links.links.get 5).guardSet = false := by decide +kernel

theorem test_meets_ShedReportRearmsAndPosts :
    let s := live.withLinks { live.links with
      reports := [⟨63, 4, false, false⟩], arrivals := List.replicate 63 ⟨.review, ⟨0, 0⟩⟩ }
    s.links.chain = [] ∧ s.links.reports = ⟨63, 4, false, false⟩ :: [] ∧ s.links.arrivals.length < 64 ∧
    64 ≤ (List.replicate 64 (⟨.review, ⟨0, 0⟩⟩ : Arrival)).length ∧ live.links.reports = [] := by decide +kernel

/-- A link as ten bytes: mode EVERY, trigger 0x0010, no condition, NOTIFY. -/
def linkArgs : List Byte := [63, 3, 0, 0x10, 0, 0, 0, 2, 0, 0]

theorem test_meets_LinksUnitWorksBetweenChains :
    (Args.setLink linkArgs).isSome ∧ Args.link [63] = some 63 ∧ live.links.chain = [] := by decide +kernel

theorem test_admitted_links : Admitted .links (req linkArgs) live := req_admitted (by decide) (by decide +kernel)

theorem test_meets_ShedRequestTakeHandlesTheHead :
    let full := { live.tenants.get 0 with stack := List.replicate 16 ⟨0, true⟩ }
    (requested live 1).orders.search = none ∧ (requested live 1).links.shedQueue = ⟨.shed, 0, .link 0 1⟩ :: [] ∧
    (live.tenants.get 2).state = .free ∧ (live.tenants.get 0).state ≠ .free ∧ 16 ≤ full.stack.length ∧
    (live.tenants.get 0).stack = [] ∧ placeRefusal 0 live = none ∧ placeRefusal 48 live = some .nodeNotUp ∧
    full.stack = List.replicate 15 ⟨0, true⟩ ++ [⟨0, true⟩] := by decide +kernel

theorem test_meets_ShedSearchFindsAndPlaces :
    let q : Search := { tenant := 0, origin := .link 0 1, position := 1535, best := none }
    let s := live.withOrders { live.orders with search := some q }
    s.orders.search = some q ∧ q.position = (1535 : OutletIx).val ∧ isCandidate 0 0 live = true ∧
    isCandidate 0 1535 live = false ∧ 1536 ≤ ({ q with position := 1536 } : Search).position ∧
    (live.tenants.get 0).stack.length < 16 ∧ placeRefusal 0 live = none ∧ placeRefusal 48 live = some .nodeNotUp ∧
    (live.tenants.get 2).state = .free := by decide +kernel

theorem test_meets_FailedShedRequestIsNotedAndReported :
    (live.withMgmt { live.mgmt with switchJob := some ⟨5, true⟩ }).mgmt.switchJob = some ⟨5, true⟩ := rfl

theorem test_meets_SwitchUnitPlacesItsRequests :
    Args.order [1, 1, 0, 0] = some (0, .noChange, .noChange) ∧ Args.order [32, 48, 3, 3] = some (1535, .cycle, .blink) ∧
    Args.slot [128] = some 127 ∧ State.reset.mgmt.opState = .transparent ∧ live.mgmt.opState ≠ .transparent ∧
    (live.map.entries.get 0).relay ≠ .offShed ∧ placeRefusal 0 live = none ∧
    (requested live 7).links.shedQueue.length < 8 ∧ 8 ≤ (requested live 8).links.shedQueue.length ∧
    (let s := live.withMap { live.map with
      entries := live.map.entries.set 0 { live.map.entries.get 0 with relay := .offShed } }
     (s.map.entries.get 0).relay = .offShed ∧ (s.map.entries.get 0).effective.memberOf = some (0, .a) ∧
     placeRefusal 0 s = none) := by decide +kernel

theorem test_admitted_switch : Admitted .switch (req [1, 1, 2, 0]) live := req_admitted (by decide) (by decide +kernel)

theorem test_meets_MapUnitTakesItsRequests :
    Args.readEntries [32, 41, 8] = some (1528, 8) ∧ Args.setOutlet [1, 48, 15, 15] = some (47, 15, 15) ∧
    Args.assign [1, 1, 1, 1, 1, 1] = some (0, 1, ⟨some 0, .b, true⟩) ∧ assignResult 0 ⟨some 0, .b, true⟩ live ≠ .stopped ∧
    assignResult 0 ⟨some 127, .b, true⟩ live = .stopped ∧
    Args.assign [1, 1, 48, 0, 0, 0] = some (0, 48, ⟨none, .a, false⟩) ∧
    Args.alterFlags [0, 0, 6, 0, 0x3F, 2] = some (0, 1536, 0x3F, .xor) := by decide +kernel

theorem test_admitted_map : Admitted .map (req [1, 1, 1, 1, 1, 1]) live := req_admitted (by decide) (by decide +kernel)

theorem test_meets_LongMapOperationsStepEntryByEntry :
    let s := live.withMgmt { live.mgmt with mapJob := some (.assign 5 true ⟨some 0, .a, false⟩ 0 2 0 0 0) }
    let u := live.withMgmt { live.mgmt with mapJob := some (.alterFlags 5 true .or 1 0 1 0) }
    s.mgmt.mapJob = some (.assign 5 true ⟨some 0, .a, false⟩ 0 2 0 0 0) ∧
    assignResult 0 ⟨some 0, .a, false⟩ s = .applied ∧ assignResult 0 ⟨some 5, .a, false⟩ s = .stopped ∧
    u.mgmt.mapJob = some (.alterFlags 5 true .or 1 0 1 0) := by decide +kernel

theorem test_meets_CalibUnitWritesAndReadsProfiles :
    Args.setProfile (15 :: profileArgs) = some (15, { Profile.cold with ceiling := 1 }) ∧ Args.readProfile [15] = some 15 ∧
    1 ≤ ({ Profile.cold with ceiling := 1 } : Profile).ceiling.toNat := by decide +kernel

theorem test_admitted_calib : Admitted .calib (req (15 :: profileArgs)) live :=
  req_admitted (by decide) (by decide +kernel)

theorem test_meets_TenantUnitFollowsTheSlotState :
    Args.slotContract (128 :: contractArgs) = some (127, contract) ∧ Args.slot [1] = some 0 ∧
    Args.setPreset [1, 0x80, 0, 0, 0, 0, 0, 0, 0] = some (0, 0x8000000000000000) ∧
    (live.tenants.get 127).state = .free ∧ (live.tenants.get 0).state = .active ∧
    (live.tenants.get 1).state = .suspended ∧ (live.tenants.get 0).verdict = .held ∧ tenant33.verdict ≠ .held ∧
    0 < (live.tenants.get 0).members.a + (live.tenants.get 0).members.b ∧
    (live.tenants.get 1).members.a + (live.tenants.get 1).members.b = 0 ∧ (live.tenants.get 1).pendingIn = 0 ∧
    (live.tenants.get 1).stack = [] ∧
    (live.withReview { Review.cold with pass := .waiting, position := 1 }).review.position = 1 := by decide +kernel

theorem test_admitted_tenant : Admitted .tenant (req (128 :: contractArgs)) live :=
  req_admitted (by decide) (by decide +kernel)

theorem test_meets_RosterUnitSetsAndReadsNodes :
    Args.setNode [32, 0] = some (31, false) ∧ Args.setNode [1, 1] = some (0, true) ∧
    Args.setLimit [1, 0xC3, 0xFF] = some (0, ⟨1023, 3⟩) ∧ Args.readNode [1, 1] = some (0, true) ∧
    (live.roster.nodes.get 2).state = .disabled ∧ (live.roster.nodes.get 0).state = .up ∧
    (queued live 15).down.queue.length < 16 ∧ 16 ≤ (queued live 16).down.queue.length := by decide +kernel

theorem test_admitted_roster : Admitted .roster (req [1, 1]) live := req_admitted (by decide) (by decide +kernel)

/-- A TRANSFER record of tenant 33. -/
def transfer33 : TransferRecord := tenant33.transferRecord 32 5000

theorem test_meets_RecordUnitClosesExportsAndImports :
    live.review.closePending = false ∧ (visiting 0 true).review.closePending = true ∧ Args.slot [1] = some 0 ∧
    (live.tenants.get 0).state ≠ .free ∧ (live.tenants.get 127).state = .free ∧
    (waiting live 3 0 0 0).up.records.length < 4 ∧ 4 ≤ (waiting live 4 0 0 0).up.records.length ∧
    (live.withMgmt { live.mgmt with exportJob := some ⟨5, true, 0⟩ }).mgmt.exportJob = some ⟨5, true, 0⟩ := by
  decide +kernel

theorem test_transfer_reads_back : Args.importRecord (128 :: transfer33.bytes) = some (127, transfer33) := by
  decide +kernel

theorem test_admitted_record : Admitted .record (req (128 :: transfer33.bytes)) live :=
  req_admitted (by decide +kernel) (by decide +kernel)

theorem test_meets_ControlUnitReadsAndSets :
    Args.setState [2] = some .run ∧ Args.setState [0] = some .transparent ∧ State.reset.mgmt.opState ≠ .run ∧
    live.mgmt.opState = .run ∧ (visiting 0 false).review.pass ≠ .idle ∧ live.review.pass = .idle ∧
    Args.setForward [2] = some .absorb ∧ Args.readStatus [1] = some true ∧
    Args.setTiming [0, 0, 250, 1] = some (0, 250, 1) ∧ Args.setTiming [6, 0x1F, 0x40, 60] = some (6, 8000, 60) := by
  decide +kernel

theorem test_admitted_control : Admitted .control (req [2]) live := req_admitted (by decide) (by decide +kernel)

theorem test_meets_RestartLeavesHoldWithAccountsKept :
    Admitted .control (req []) ordered ∧ (req []).args = [] ∧ (∃ o ∈ ordered.orders.orders, o.outlet = 0) ∧
    (∀ o ∈ ordered.orders.orders, o.outlet ≠ 1) :=
  ⟨req_admitted (by decide) (by decide +kernel), rfl, by decide +kernel, by decide +kernel⟩

theorem test_meets_ResetUnitFreesTheUnit :
    Admitted .control (req [7]) live ∧ Args.resetUnit [7] = some .switch ∧ Args.resetUnit [1] = some .control ∧
    Args.resetUnit [8] = some .record ∧ (RequestUnit.record ≠ .switch) :=
  ⟨req_admitted (by decide) (by decide +kernel), by decide +kernel, by decide +kernel, by decide +kernel, by decide⟩

theorem test_meets_ScaledReadingClasses :
    [0, 1, 0x0FFF, 0x1000, 0x17FF, 0x1800, 0xF7FF, 0xF800, 0xFFFE, 0xFFFF].map classify =
      [.value 0, .value 1, .value 4095, .malformed, .malformed, .value 4096, .malformed, .value 67108864,
       .value 134152192, .noMeasurement] := by decide +kernel

theorem test_meets_ConversionTestsTheGuardedValue :
    profile3.guarded 0 < 0 ∧ (0 ≤ profile3.guarded 27200 ∧ profile3.guarded 27200 < 16 * profile3.deadband.toNat) ∧
    16 * profile3.ceiling.toNat < profile3.guarded 134152192 ∧
    (16 * profile3.deadband.toNat ≤ profile3.guarded 49600 ∧ profile3.guarded 49600 ≤ 16 * profile3.ceiling.toNat) := by
  decide +kernel

theorem test_meets_TransferRecordReadsBackWhole :
    transfer33.state ≠ .free ∧ transfer33.contract.valid = true ∧ transfer33.pendingContract = none ∧
    transfer33.baseline.a ≤ transfer33.lifetime.a ∧ transfer33.baseline.b ≤ transfer33.lifetime.b ∧
    transfer33.lifetime.a < 2 ^ 64 ∧ transfer33.lifetime.b < 2 ^ 64 ∧ transfer33.budget < 2 ^ 64 ∧ transfer33.streak ≤ 15 ∧
    transfer33.unmetered < 2 ^ 32 ∧ transfer33.peak < 2 ^ 40 ∧ transfer33.breachTime < 2 ^ 32 ∧
    transfer33.excursionTime < 2 ^ 32 := by decide +kernel

/-! ### States that meet the invariants -/

/-- Accounts are exact over the map of cold reset when no tenant has anything and FREE slots are cleared. -/
theorem accounts_empty {s : State} (hm : s.map = State.reset.map)
    (ht : ∀ a, (s.tenants.get a).draw = ⟨0, 0⟩ ∧ (s.tenants.get a).members = ⟨0, 0⟩ ∧ (s.tenants.get a).stale = 0 ∧
      (s.tenants.get a).pendingIn = 0 ∧ ((s.tenants.get a).state = .free → s.tenants.get a = Tenant.cleared)) :
    Accounts s := by
  have count (p : Outlet → Bool) (hp : p Outlet.cold = false) : s.map.entries.rows.countP p = 0 := by
    rw [hm, List.countP_eq_zero]
    intro e he
    have : e = Outlet.cold := List.eq_of_mem_replicate (n := 1536) he
    rw [this, hp]; decide
  have member (t : Slot) (f : Feed) : Outlet.cold.isMember t f = false := rfl
  refine ⟨fun t f => ?_, fun t f => ?_, fun t => ?_, fun t => ?_, ?_, ?_, fun t => (ht t).2.2.2.2⟩
  · have none : s.map.entries.rows.filter (fun e => e.isMember t f) = [] := by
      rw [List.filter_eq_nil_iff]
      intro e he
      rw [hm] at he
      have : e = Outlet.cold := List.eq_of_mem_replicate (n := 1536) he
      rw [this, member]; decide
    rw [(ht t).1, memberReadings, none]; cases f <;> rfl
  · rw [(ht t).2.1, count _ (member t f)]; cases f <;> rfl
  · rw [(ht t).2.2.1, count _ rfl]
  · rw [(ht t).2.2.2.1, count _ rfl]
  · rw [count _ rfl, hm]; rfl
  · rw [count _ (by decide), hm]; rfl

/-- A pass at its end over the map of cold reset, with tenant 1 created. -/
def quiet : State :=
  let s := State.reset
  { s with
    mgmt := { s.mgmt with opState := .run }, tenants := s.tenants.set 0 (Tenant.created contract 0 0),
    review := { s.review with pass := .visiting, position := 127, walked := true } }

theorem quiet_tenants (a : Slot) :
    quiet.tenants.get a = Tenant.created contract 0 0 ∨ quiet.tenants.get a = Tenant.cleared := by
  by_cases h : a = 0
  · subst h; left; exact Table.get_set_same _ _ _
  · right
    exact (Table.get_set_other _ _ h).trans (Table.get_fill _ _)

theorem test_quiet_accounts : Accounts quiet := by
  refine accounts_empty rfl fun a => ?_
  rcases quiet_tenants a with h | h <;> rw [h] <;> exact ⟨rfl, rfl, rfl, rfl, by decide⟩

theorem test_quiet_periods : Periods quiet := by
  refine ⟨fun a => ?_, by decide, by decide, fun _ => ⟨rfl, rfl⟩, fun _ => rfl, by decide⟩
  rcases quiet_tenants a with h | h <;> rw [h] <;>
    exact ⟨by decide, by decide, by decide, by decide, by decide, by decide, by decide⟩

/-- Outlet 1 of node 1, which is UP, is being shed for tenant 1 by order 255. -/
def sheddingState : State :=
  let s := State.reset
  let order : Order := { orderFor 255 0 with relay := .off, indicator := .blink, origin := .shed 0 (.link 0 1) }
  { s with
    mgmt := { s.mgmt with opState := .run }
    tenants := s.tenants.set 0 { Tenant.cleared with state := .active, stack := [⟨0, false⟩] }
    map := { s.map with entries := s.map.entries.set 0 { Outlet.cold with effective := ⟨some 0, .a, false⟩, relay := .on } }
    orders := { s.orders with orders := [order], next := 255 }
    roster := { s.roster with nodes := s.roster.nodes.set 0 { Node.cold with state := .up } } }

theorem sheddingState_stack (a : Slot) :
    (sheddingState.tenants.get a).stack = if a = 0 then [⟨0, false⟩] else [] := by
  by_cases h : a = 0
  · subst h; exact congrArg Tenant.stack (Table.get_set_same _ _ _)
  · rw [if_neg h]
    exact congrArg Tenant.stack ((Table.get_set_other _ _ h).trans (Table.get_fill _ _))

theorem test_shedding_sound : Shedding sheddingState := by
  have relay (i : OutletIx) : (sheddingState.map.entries.get i).relay ≠ .offShed := by
    by_cases h : i = 0
    · subst h
      rw [show sheddingState.map.entries.get 0 = _ from Table.get_set_same _ _ _]; decide
    · rw [show sheddingState.map.entries.get i = _ from (Table.get_set_other _ _ h).trans (Table.get_fill _ _)]; decide
  have member : (sheddingState.map.entries.get 0).effective.memberOf = some (0, .a) := by decide +kernel
  refine ⟨fun t => ?_, fun t => ?_, fun t e he => ?_, fun i => ?_, fun t i he => ?_, fun t i he => ?_, by decide, by decide,
    by decide, by decide⟩
  · rw [sheddingState_stack]; split <;> decide
  · rw [sheddingState_stack]; split <;> decide
  · rw [sheddingState_stack] at he
    split at he
    · rename_i h; subst h; rw [List.mem_singleton] at he; subst he; exact ⟨.a, member⟩
    · cases he
  · refine ⟨fun h => absurd h (relay i), ?_⟩
    rintro ⟨t, ht⟩
    rw [sheddingState_stack] at ht
    split at ht
    · rw [List.mem_singleton] at ht; cases ht
    · cases ht
  · rw [sheddingState_stack] at he
    split at he
    · rename_i h; rw [List.mem_singleton] at he; cases he
      exact ⟨_, List.mem_singleton.mpr rfl, rfl, _, by rw [h]⟩
    · cases he
  · rw [sheddingState_stack] at he
    split at he
    · rw [List.mem_singleton] at he; cases he
    · cases he

theorem test_meets_OrderEndingWritesTheRelayAndFreesTheOrder :
    Shedding sheddingState ∧ ∃ o, o ∈ sheddingState.orders.orders ∧ o.origin = .shed 0 (.link 0 1) ∧
      ⟨o.outlet, false⟩ ∈ (sheddingState.tenants.get 0).stack :=
  ⟨test_shedding_sound, _, List.mem_singleton.mpr rfl, rfl, by rw [sheddingState_stack]; decide⟩

/-- `sheddingState` with no stack entry and an order of origin `g`, while the SWITCH unit waits. -/
def orderedBy (g : OrderOrigin) : State :=
  let s := sheddingState
  { s with
    mgmt := { s.mgmt with switchJob := some ⟨5, true⟩ }
    tenants := State.reset.tenants, orders := { s.orders with orders := [{ orderFor 255 0 with origin := g }] } }

theorem test_orderedBy_sound (g : OrderOrigin) : Shedding (orderedBy g) := by
  have stack (a : Slot) : ((orderedBy g).tenants.get a).stack = [] := congrArg Tenant.stack (Table.get_fill _ _)
  refine ⟨fun t => ?_, fun t => ?_, fun t e he => ?_, fun i => ⟨fun h => ?_, fun ⟨t, ht⟩ => ?_⟩, fun t i he => ?_,
    fun t i he => ?_, ?_, ?_, ?_, ?_, ?_⟩
  · rw [stack]; decide
  · rw [stack]; decide
  · rw [stack] at he; cases he
  · obtain ⟨t, ht⟩ := (test_shedding_sound.offShed i).mp h
    rw [sheddingState_stack] at ht
    split at ht
    · rw [List.mem_singleton] at ht; cases ht
    · cases ht
  · rw [stack] at ht; cases ht
  · rw [stack] at he; cases he
  · rw [stack] at he; cases he
  · exact (by decide : 1 ≤ Config.orderDepth)
  · exact (by decide : ([255] : List Byte).Nodup)
  · exact (by decide : ([0] : List OutletIx).Nodup)
  · intro o ho; rw [List.mem_singleton.mp ho]; exact (by decide : (255 : Byte) ≠ 0)
  · exact (by decide : (255 : Byte) ≠ 0)

theorem test_meets_ending_reports (g : OrderOrigin) :
    Shedding (orderedBy g) ∧ (∃ o ∈ (orderedBy g).orders.orders, o.origin = g) ∧
    (orderedBy g).mgmt.switchJob = some ⟨5, true⟩ ∧ ((orderedBy g).tenants.get 0).stack = [] :=
  ⟨test_orderedBy_sound g, ⟨_, List.mem_singleton.mpr rfl, rfl⟩, rfl, congrArg Tenant.stack (Table.get_fill _ _)⟩

theorem test_meets_OrderNumbersRoll : Shedding sheddingState ∧ placeRefusal 1 sheddingState = none :=
  ⟨test_shedding_sound, by decide +kernel⟩

theorem test_meets_place_checks :
    let many := { live with orders := { live.orders with orders := List.replicate 32 (orderFor 1 5) } }
    State.reset.mgmt.opState = .transparent ∧ (live.mgmt.opState ≠ .transparent ∧ (live.roster.nodes.get 1).state ≠ .up) ∧
    ((live.roster.nodes.get 0).state = .up ∧ ¬ ∀ o ∈ ordered.orders.orders, o.outlet ≠ 0) ∧
    ((∀ o ∈ many.orders.orders, o.outlet ≠ 0) ∧ 32 ≤ many.orders.orders.length) ∧
    ((∀ o ∈ live.orders.orders, o.outlet ≠ 0) ∧ 16 ≤ (queued live 16).down.queue.length ∧
      (queued live 15).down.queue.length < 16) ∧
    ((queued live 1).down.tx ≠ none ∧ live.down.tx = none ∧ live.down.queue = []) := by decide +kernel

theorem test_meets_PassEndAppliesStagedChanges :
    quiet.review.pass = .visiting ∧ quiet.review.walked = true ∧ Accounts quiet ∧ quiet.review.closing = false ∧
    storeRoom quiet = true :=
  ⟨rfl, rfl, test_quiet_accounts, rfl, by decide⟩

/-- Outlet 1 of node 1 is shed for tenant 1, and a pending change takes it out of the tenant. -/
def leavingState : State :=
  let s := sheddingState
  { s with
    tenants := s.tenants.set 0 { Tenant.cleared with state := .active, stack := [⟨0, true⟩] }
    map := { s.map with entries := s.map.entries.set 0 { Outlet.cold with
      effective := ⟨some 0, .a, false⟩, pending := some ⟨none, .a, false⟩, relay := .offShed } }
    orders := { s.orders with orders := [] } }

theorem leavingState_stack (a : Slot) : (leavingState.tenants.get a).stack = if a = 0 then [⟨0, true⟩] else [] := by
  by_cases h : a = 0
  · subst h; exact congrArg Tenant.stack (Table.get_set_same _ _ _)
  · rw [if_neg h]
    refine (congrArg Tenant.stack (Table.get_set_other _ _ h)).trans ?_
    rw [sheddingState_stack, if_neg h]

theorem test_leaving_shedding_sound : Shedding leavingState := by
  have member : (leavingState.map.entries.get 0).effective.memberOf = some (0, .a) := by decide +kernel
  refine ⟨fun t => ?_, fun t => ?_, fun t e he => ?_, fun i => ⟨fun h => ?_, fun ⟨t, ht⟩ => ?_⟩, fun t i he => ?_,
    fun _ _ _ o ho => absurd ho List.not_mem_nil, by decide, by decide, by decide, by decide⟩
  · rw [leavingState_stack]; split <;> decide
  · rw [leavingState_stack]; split <;> decide
  · rw [leavingState_stack] at he
    split at he
    · rename_i h; subst h; rw [List.mem_singleton] at he; subst he; exact ⟨.a, member⟩
    · cases he
  · by_cases hi : i = 0
    · subst hi; exact ⟨0, by rw [leavingState_stack]; exact List.mem_singleton.mpr rfl⟩
    · refine absurd h ?_
      rw [show leavingState.map.entries.get i = sheddingState.map.entries.get i from Table.get_set_other _ _ hi,
        show sheddingState.map.entries.get i = _ from (Table.get_set_other _ _ hi).trans (Table.get_fill _ _)]
      decide
  · rw [leavingState_stack] at ht
    split at ht
    · rw [List.mem_singleton] at ht; cases ht
      exact congrArg Outlet.relay (Table.get_set_same _ _ _)
    · cases ht
  · rw [leavingState_stack] at he
    split at he
    · rw [List.mem_singleton] at he; cases he
    · cases he

/-- A confirmed entry whose outlet leaves the tenant at the end of the pass, and one that stays in a stack. -/
theorem test_meets_PassEndMovesStacks :
    Shedding leavingState ∧ (leavingState.tenants.get 0).stack = [⟨0, true⟩] ∧
    ((endPass leavingState).tenants.get 0).stack = [] ∧ ((endPass leavingState).map.entries.get 0).relay = .off ∧
    ((endPass sheddingState).tenants.get 0).stack = [⟨0, false⟩] :=
  ⟨test_leaving_shedding_sound, by decide +kernel, by decide +kernel, by decide +kernel, by decide +kernel⟩

/-- The same where ASSIGN applies the change out of a pass. -/
theorem test_meets_AssignMovesTheStack :
    leavingState.review.pass = .idle ∧ (leavingState.map.entries.get 0).effective.memberOf = some (0, .a) ∧
    ⟨0, true⟩ ∈ (leavingState.tenants.get 0).stack ∧
    ((assignAt 0 ⟨none, .a, false⟩ leavingState).map.entries.get 0).relay = .off := by decide +kernel

/-- A step ends in a next state that `p` holds of. -/
def stepsTo (s : State) (p : State → Bool) : Bool :=
  match step s with
  | .next t => p t
  | .fault _ => false
  | .refused _ => false

theorem test_meets_MembershipHoldsStillDuringAPass :
    passInFlight (visiting 0 false) = true ∧
    stepsTo ((visiting 0 false).withPending [.reviewVisit]) passInFlight = true := by decide +kernel

theorem test_meets_LifetimeEnergyNeverDecreases :
    Periods quiet ∧ (∃ t, step quiet = .next t) ∧ (quiet.tenants.get 0).state ≠ .free ∧
    stepsTo quiet (fun t => decide ((t.tenants.get 0).state ≠ .free)) = true :=
  ⟨test_quiet_periods, ⟨_, rfl⟩, by decide +kernel, by decide +kernel⟩

theorem test_meets_AssignAppliesOrStagesAtTheEntry :
    (quiet.tenants.get 127).state = .free ∧ (quiet.tenants.get 0).state ≠ .free ∧ quiet.review.pass ≠ .idle ∧
    live.review.pass = .idle ∧ (live.tenants.get 0).state ≠ .free := by decide +kernel

theorem test_meets_EveryStepKeepsTheAccountsExact : Accounts quiet ∧ ∃ t, step quiet = .next t :=
  ⟨test_quiet_accounts, _, rfl⟩

theorem test_meets_EveryStepKeepsThePeriodsSound : Periods quiet ∧ ∃ t, step quiet = .next t :=
  ⟨test_quiet_periods, _, rfl⟩

theorem test_meets_EveryStepKeepsSheddingSound :
    Accounts (quiet.withPending [.passEnd]) ∧ Shedding (quiet.withPending [.passEnd]) ∧
    ∃ t, step (quiet.withPending [.passEnd]) = .next t := by
  have stack (a : Slot) : ((quiet.withPending [.passEnd]).tenants.get a).stack = [] := by
    rcases quiet_tenants a with h | h <;> exact congrArg Tenant.stack h
  refine ⟨⟨test_quiet_accounts.1, test_quiet_accounts.2, test_quiet_accounts.3, test_quiet_accounts.4,
    test_quiet_accounts.5, test_quiet_accounts.6, test_quiet_accounts.7⟩, ?_, _, rfl⟩
  refine ⟨fun t => ?_, fun t => ?_, fun t e he => ?_, fun i => ?_, fun t i he => ?_, fun t i he => ?_, by decide, by decide,
    by decide, by decide⟩
  · rw [stack]; decide
  · rw [stack]; decide
  · rw [stack] at he; cases he
  · refine ⟨fun h => ?_, fun ⟨t, ht⟩ => ?_⟩
    · rw [show (quiet.withPending [.passEnd]).map.entries.get i = Outlet.cold from Table.get_fill _ _] at h; cases h
    · rw [stack] at ht; cases ht
  · rw [stack] at he; cases he
  · rw [stack] at he; cases he

theorem test_meets_EveryStepKeepsTheRosterSound : RosterSound sheddingState ∧ ∃ t, step sheddingState = .next t := by
  refine ⟨⟨fun n => ?_, by decide +kernel⟩, _, rfl⟩
  by_cases h : n = 0
  · subst h
    rw [show sheddingState.roster.nodes.get 0 = _ from Table.get_set_same _ _ _]
    exact ⟨by decide, by decide, by decide⟩
  · rw [show sheddingState.roster.nodes.get n = _ from (Table.get_set_other _ _ h).trans (Table.get_fill _ _)]
    exact ⟨by decide, by decide, by decide⟩

theorem test_meets_EveryStepKeepsTheLinksSound : LinksSound sheddingState ∧ ∃ t, step sheddingState = .next t := by
  refine ⟨⟨fun l _ => ?_, by decide, by decide, by decide, fun q hq => (List.not_mem_nil hq).elim, fun q hq => (Option.some_ne_none q hq.symm).elim, fun o ho => ?_⟩, _, rfl⟩
  · exact congrArg Link.armed (Table.get_fill (n := 64) Link.cold l)
  · rw [show sheddingState.orders.orders = [_] from rfl, List.mem_singleton] at ho
    subst ho; exact ⟨by decide, by decide⟩

/-- A chain in hand at the depth that is not scanned further. -/
theorem test_meets_chain_in_hand :
    let s := sheddingState.withLinks { sheddingState.links with chain := [⟨0x3000, 4⟩] }
    LinksSound s ∧ s.links.chain ≠ [] ∧ ∃ t, exec (.eventScan (some .review)) s = .next t := by
  obtain ⟨base, -⟩ := test_meets_EveryStepKeepsTheLinksSound
  refine ⟨⟨base.armed, fun e he => ?_, base.arrivals, base.reports, base.queue, base.search, base.orders⟩,
    List.cons_ne_nil _ _, _, rfl⟩
  rw [List.mem_singleton.mp he]; decide

theorem test_meets_EveryStepKeepsTheQueuesBounded : Bounds (waiting (queued live 16) 4 8 32 16 |>.withUp
    { (waiting live 4 8 32 16).up with tx := some (Frame.make 0x30 1 0 []) }) := by
  exact ⟨by decide, by decide, by decide, by decide, by decide, by decide, by decide, by decide, by decide⟩

end Sys2Proof.Tests
end

/-! The sums over the map and what keeps them exact: how each operation on one entry moves the sums (R2, R5, R7, R9, R11),
and which operations leave them alone. -/

namespace Sys2Proof.Machine

/-! ### Counts and sums over a table -/

/-- Two tables of one length whose rows have the same value at the same indices list the same values. -/
theorem map_rows_congr {α β γ : Type} {n : Nat} {t : Table α n} {u : Table β n} {f : α → γ} {g : β → γ}
    (h : ∀ i, f (t.get i) = g (u.get i)) : t.rows.map f = u.rows.map g := by
  apply List.ext_getElem
  · rw [List.length_map, List.length_map, t.size, u.size]
  · intro k hk _
    rw [List.length_map, t.size] at hk
    rw [List.getElem_map, List.getElem_map]
    exact h ⟨k, hk⟩

theorem sum_rows_congr {α β : Type} {n : Nat} {t : Table α n} {u : Table β n} {f : α → Nat} {g : β → Nat}
    (h : ∀ i, f (t.get i) = g (u.get i)) : (t.rows.map f).sum = (u.rows.map g).sum :=
  congrArg List.sum (map_rows_congr h)

theorem countP_rows_congr {α β : Type} {n : Nat} {t : Table α n} {u : Table β n} {p : α → Bool} {q : β → Bool}
    (h : ∀ i, p (t.get i) = q (u.get i)) : t.rows.countP p = u.rows.countP q := by
  simpa [List.countP_map, Function.comp_def] using congrArg (List.countP id) (map_rows_congr h)

/-- One for a test that holds, 0 for one that does not. -/
def tally (p : Bool) : Nat := if p then 1 else 0

@[simp] theorem tally_true : tally true = 1 := rfl
@[simp] theorem tally_false : tally false = 0 := rfl

theorem tally_le_countP {α : Type} {n : Nat} (t : Table α n) (i : Fin n) (p : α → Bool) :
    tally (p (t.get i)) ≤ t.rows.countP p := by
  cases hp : p (t.get i) with
  | false => exact Nat.zero_le _
  | true => exact List.countP_pos_iff.mpr ⟨_, t.get_mem i, hp⟩

/-- What a row replaced does to a count over the rows. -/
theorem countP_set_tally {α : Type} {n : Nat} (t : Table α n) (i : Fin n) (x : α) (p : α → Bool) :
    (t.set i x).rows.countP p + tally (p (t.get i)) = t.rows.countP p + tally (p x) :=
  t.countP_set i x p

theorem le_sum_of_mem {l : List Nat} {x : Nat} (h : x ∈ l) : x ≤ l.sum := by
  induction h with
  | head l => rw [List.sum_cons]; exact Nat.le_add_right _ _
  | tail y _ ih => rw [List.sum_cons]; exact Nat.le_trans ih (Nat.le_add_left _ _)

theorem sum_map_zero {α : Type} (l : List α) : (l.map (fun _ => 0)).sum = 0 := by
  induction l with
  | nil => rfl
  | cons x l ih => rw [List.map_cons, List.sum_cons, ih]

theorem get_le_sum_rows {α : Type} {n : Nat} (t : Table α n) (f : α → Nat) (i : Fin n) :
    f (t.get i) ≤ (t.rows.map f).sum :=
  le_sum_of_mem (List.mem_map_of_mem (t.get_mem i))

/-! ### What one entry adds to the sums -/

/-- The power that an entry adds to a tenant's draw on a feed (R46). -/
def Outlet.drawOn (e : Outlet) (a : Slot) (f : Feed) : Nat := if e.isMember a f then e.reading else 0

/-- A tenant's draw on a feed is the sum of what the entries add to it. -/
theorem memberReadings_eq (s : State) (a : Slot) (f : Feed) :
    memberReadings s a f = (s.map.entries.rows.map (fun e => e.drawOn a f)).sum := by
  unfold memberReadings Outlet.drawOn
  induction s.map.entries.rows with
  | nil => rfl
  | cons e l ih => rw [List.filter_cons, List.map_cons, List.sum_cons, ← ih]; split <;> simp

@[simp] theorem get_modify_feed {α : Type} (p : PerFeed α) (f g : Feed) (h : α → α) :
    (p.modify f h).get g = if g = f then h (p.get f) else p.get g := by
  cases f <;> cases g <;> rfl

theorem perFeed_ext {α : Type} {p q : PerFeed α} (h : ∀ f, p.get f = q.get f) : p = q := by
  obtain ⟨a, b⟩ := p
  obtain ⟨c, d⟩ := q
  have ha : a = c := h .a
  have hb : b = d := h .b
  rw [ha, hb]

/-- An entry that is nobody's member adds to no sum. -/
theorem shares_of_no_member {e : Outlet} (h : e.effective.memberOf = none) (a : Slot) (f : Feed) :
    e.isMember a f = false ∧ e.drawOn a f = 0 ∧ e.isStaleMember a = false := by
  simp [Outlet.drawOn, Outlet.isStaleMember, Outlet.isMember, h]

/-- A member adds to its own tenant's sums, and to the draw and the count of its own feed. -/
theorem shares_of_member {e : Outlet} {b : Slot} {g : Feed} (h : e.effective.memberOf = some (b, g)) (a : Slot)
    (f : Feed) :
    e.isMember a f = decide (a = b ∧ f = g) ∧ e.drawOn a f = (if a = b ∧ f = g then e.reading else 0) ∧
    e.isStaleMember a = (decide (a = b) && !e.fresh) := by
  have member (c : Feed) : e.isMember a c = decide (a = b ∧ c = g) := by
    simp only [Outlet.isMember, h, Option.some.injEq, Prod.mk.injEq, @eq_comm _ b, @eq_comm _ g]
  refine ⟨member f, ?_, ?_⟩
  · simp only [Outlet.drawOn, member, decide_eq_true_eq]
  · unfold Outlet.isStaleMember
    rw [member, member]
    cases g <;> simp

theorem isMember_iff (e : Outlet) (a : Slot) (f : Feed) : e.isMember a f = true ↔ e.effective.memberOf = some (a, f) := by
  simp [Outlet.isMember]

namespace Accounts

variable {s : State} (h : Accounts s)
include h

theorem draw_sum (a : Slot) (f : Feed) :
    (s.tenants.get a).draw.get f = (s.map.entries.rows.map (fun e => e.drawOn a f)).sum := by
  rw [h.draw, memberReadings_eq]

/-- An entry's reading is within its tenant's draw. -/
theorem drawOn_le (i : OutletIx) (a : Slot) (f : Feed) :
    (s.map.entries.get i).drawOn a f ≤ (s.tenants.get a).draw.get f := by
  rw [h.draw_sum]; exact get_le_sum_rows s.map.entries (fun e => e.drawOn a f) i

theorem members_ge (i : OutletIx) (a : Slot) (f : Feed) :
    tally ((s.map.entries.get i).isMember a f) ≤ (s.tenants.get a).members.get f := by
  rw [h.members]; exact tally_le_countP s.map.entries i (fun e => e.isMember a f)

theorem stale_ge (i : OutletIx) (a : Slot) :
    tally ((s.map.entries.get i).isStaleMember a) ≤ (s.tenants.get a).stale := by
  rw [h.stale]; exact tally_le_countP s.map.entries i (fun e => e.isStaleMember a)

theorem pendingIn_ge (i : OutletIx) (a : Slot) :
    tally ((s.map.entries.get i).movesTo a) ≤ (s.tenants.get a).pendingIn := by
  rw [h.pendingIn]; exact tally_le_countP s.map.entries i (fun e => e.movesTo a)

theorem pendingCount_ge (i : OutletIx) : tally (s.map.entries.get i).pending.isSome ≤ s.map.pendingCount := by
  rw [h.pendingCount]; exact tally_le_countP s.map.entries i (fun e => e.pending.isSome)

theorem attention_ge (i : OutletIx) : tally (anySticky (s.map.entries.get i).flags) ≤ s.map.attention := by
  rw [h.attention]; exact tally_le_countP s.map.entries i (fun e => anySticky e.flags)

/-- A FREE tenant has no members. -/
theorem not_free_of_memberOf {i : OutletIx} {a : Slot} {f : Feed}
    (m : (s.map.entries.get i).effective.memberOf = some (a, f)) : (s.tenants.get a).state ≠ .free := by
  intro free
  have counted := h.members_ge i a f
  rw [(isMember_iff _ a f).mpr m, h.freeCleared a free] at counted
  cases f <;> exact absurd counted (by decide)

/-- No pending change names a FREE tenant. -/
theorem not_free_of_movesTo {i : OutletIx} {a : Slot} (m : (s.map.entries.get i).movesTo a = true) :
    (s.tenants.get a).state ≠ .free := by
  intro free
  have counted := h.pendingIn_ge i a
  rw [m, h.freeCleared a free] at counted
  exact absurd counted (by decide)

end Accounts

/-! ### One entry replaced -/

/-- From `s` to `t` one entry is replaced, and the tenants and the map's counts take the differences. -/
structure EntryReplaced (i : OutletIx) (e : Outlet) (s t : State) : Prop where
  entries : t.map.entries = s.map.entries.set i e
  draw : ∀ a f, (t.tenants.get a).draw.get f + (s.map.entries.get i).drawOn a f =
    (s.tenants.get a).draw.get f + e.drawOn a f
  members : ∀ a f, (t.tenants.get a).members.get f + tally ((s.map.entries.get i).isMember a f) =
    (s.tenants.get a).members.get f + tally (e.isMember a f)
  stale : ∀ a, (t.tenants.get a).stale + tally ((s.map.entries.get i).isStaleMember a) =
    (s.tenants.get a).stale + tally (e.isStaleMember a)
  pendingIn : ∀ a, (t.tenants.get a).pendingIn + tally ((s.map.entries.get i).movesTo a) =
    (s.tenants.get a).pendingIn + tally (e.movesTo a)
  pendingCount : t.map.pendingCount + tally (s.map.entries.get i).pending.isSome =
    s.map.pendingCount + tally e.pending.isSome
  attention : t.map.attention + tally (anySticky (s.map.entries.get i).flags) = s.map.attention + tally (anySticky e.flags)
  free : ∀ a, (t.tenants.get a).state = .free → t.tenants.get a = s.tenants.get a

/-- Differences of one entry keep the accounts exact (R46 to R48). -/
theorem EntryReplaced.accounts {i : OutletIx} {e : Outlet} {s t : State} (r : EntryReplaced i e s t) (h : Accounts s) :
    Accounts t := by
  refine ⟨fun a f => ?_, fun a f => ?_, fun a => ?_, fun a => ?_, ?_, ?_, fun a free => ?_⟩
  · rw [memberReadings_eq, r.entries]
    have := Table.sum_set s.map.entries i e (fun e => e.drawOn a f)
    have := r.draw a f
    have := h.draw_sum a f
    omega
  · rw [r.entries]
    have := countP_set_tally s.map.entries i e (fun e => e.isMember a f)
    have := r.members a f
    have := h.members a f
    omega
  · rw [r.entries]
    have := countP_set_tally s.map.entries i e (fun e => e.isStaleMember a)
    have := r.stale a
    have := h.stale a
    omega
  · rw [r.entries]
    have := countP_set_tally s.map.entries i e (fun e => e.movesTo a)
    have := r.pendingIn a
    have := h.pendingIn a
    omega
  · rw [r.entries]
    have := countP_set_tally s.map.entries i e (fun e => e.pending.isSome)
    have := r.pendingCount
    have := h.pendingCount
    omega
  · rw [r.entries]
    have := countP_set_tally s.map.entries i e (fun e => anySticky e.flags)
    have := r.attention
    have := h.attention
    omega
  · rw [r.free a free]
    exact h.freeCleared a (by rw [← r.free a free]; exact free)

/-- The attention count follows the flags of one entry (R7). -/
theorem attentionStep_add {old new : BitVec 6} {n : Nat} (h : tally (anySticky old) ≤ n) :
    attentionStep old new n + tally (anySticky old) = n + tally (anySticky new) := by
  unfold attentionStep
  revert h
  cases anySticky old <;> cases anySticky new
  case true.false => exact Nat.sub_add_cancel
  all_goals exact fun _ => rfl

end Sys2Proof.Machine


namespace Sys2Proof.Machine

/-! ### Reading updates and flags (R5, R7, R19) -/

/-- A reading update leaves an entry's membership and its pending change (R5). -/
theorem updated_keeps (e : Outlet) (now : RowTime) (u : MapUpdate) (flag : Option ConvFlag) :
    (e.updated now u flag).effective = e.effective ∧ (e.updated now u flag).pending = e.pending := by
  cases u <;> exact ⟨rfl, rfl⟩

/-- A reading update in one equation: the entry and the attention count, then the member's tenant (R5, R7). -/
theorem updateReading_member {i : OutletIx} {s : State} {a : Slot} {f : Feed}
    (member : (s.map.entries.get i).effective.memberOf = some (a, f)) (u : MapUpdate) (flag : Option ConvFlag) :
    let old := s.map.entries.get i
    let new := old.updated s.time.rowTime u flag
    updateReading i u flag s = (s.withMap { s.map with
        entries := s.map.entries.set i new, attention := attentionStep old.flags new.flags s.map.attention }).withTenants
      (s.tenants.set a ((s.tenants.get a).readingDelta f old new)) := by
  unfold updateReading
  dsimp only
  rw [member]
  rfl

theorem updateReading_nobody {i : OutletIx} {s : State} (nobody : (s.map.entries.get i).effective.memberOf = none)
    (u : MapUpdate) (flag : Option ConvFlag) :
    let old := s.map.entries.get i
    let new := old.updated s.time.rowTime u flag
    updateReading i u flag s = s.withMap { s.map with
      entries := s.map.entries.set i new, attention := attentionStep old.flags new.flags s.map.attention } := by
  unfold updateReading
  dsimp only
  rw [nobody]

/-- The map after a reading update (R5, R7). -/
theorem updateReading_map (i : OutletIx) (u : MapUpdate) (flag : Option ConvFlag) (s : State) :
    (updateReading i u flag s).map = { s.map with
      entries := s.map.entries.set i ((s.map.entries.get i).updated s.time.rowTime u flag)
      attention := attentionStep (s.map.entries.get i).flags
        ((s.map.entries.get i).updated s.time.rowTime u flag).flags s.map.attention } := by
  rcases member : (s.map.entries.get i).effective.memberOf with _ | ⟨b, f⟩
  · rw [updateReading_nobody member]; rfl
  · rw [updateReading_member member]; rfl

/-- A tenant after a reading update: the member's tenant takes the delta (R5). -/
theorem updateReading_tenant (i : OutletIx) (u : MapUpdate) (flag : Option ConvFlag) (s : State) (a : Slot) :
    let e := s.map.entries.get i
    (updateReading i u flag s).tenants.get a = match e.effective.memberOf with
      | none => s.tenants.get a
      | some (b, f) => if a = b then (s.tenants.get a).readingDelta f e (e.updated s.time.rowTime u flag)
        else s.tenants.get a := by
  intro e
  rcases member : (s.map.entries.get i).effective.memberOf with _ | ⟨b, f⟩
  · rw [updateReading_nobody member]; rfl
  · rw [updateReading_member member]
    refine (Table.get_set _ _ _ _).trans ?_
    by_cases h : a = b
    · subst h; exact (if_pos rfl).trans (if_pos rfl).symm
    · exact (if_neg h).trans (if_neg h).symm

theorem updateReading_replaces {s : State} (h : Accounts s) (i : OutletIx) (u : MapUpdate) (flag : Option ConvFlag) :
    EntryReplaced i ((s.map.entries.get i).updated s.time.rowTime u flag) s (updateReading i u flag s) := by
  obtain ⟨he, hp⟩ := updated_keeps (s.map.entries.get i) s.time.rowTime u flag
  have tenant := updateReading_tenant i u flag s
  have map := updateReading_map i u flag s
  dsimp only at tenant
  generalize hn : (s.map.entries.get i).updated s.time.rowTime u flag = new at *
  have member (a : Slot) (f : Feed) : new.isMember a f = (s.map.entries.get i).isMember a f := by
    unfold Outlet.isMember; rw [he]
  have moves (a : Slot) : new.movesTo a = (s.map.entries.get i).movesTo a := by unfold Outlet.movesTo; rw [hp]
  refine ⟨by rw [map], fun a f => ?_, fun a f => ?_, fun a => ?_, fun a => ?_, by rw [map, hp], ?_, fun a free => ?_⟩
  · have le := h.drawOn_le i a f
    rw [tenant a]
    rcases hm : (s.map.entries.get i).effective.memberOf with _ | ⟨b, g⟩
    · rw [(shares_of_no_member hm a f).2.1, (shares_of_no_member (he ▸ hm) a f).2.1]
    · rw [(shares_of_member hm a f).2.1] at le ⊢
      rw [(shares_of_member (he ▸ hm) a f).2.1]
      by_cases ha : a = b
      · by_cases hf : f = g
        · simp [Tenant.readingDelta, ha, hf] at le ⊢
          omega
        · simp [Tenant.readingDelta, ha, hf]
      · simp [ha]
  · rw [member, tenant a]
    split
    · rfl
    · split <;> rfl
  · have le := h.stale_ge i a
    rw [tenant a]
    rcases hm : (s.map.entries.get i).effective.memberOf with _ | ⟨b, g⟩
    · rw [(shares_of_no_member hm a .a).2.2, (shares_of_no_member (he ▸ hm) a .a).2.2]
    · rw [(shares_of_member hm a .a).2.2] at le ⊢
      rw [(shares_of_member (he ▸ hm) a .a).2.2]
      by_cases ha : a = b
      · simp only [Tenant.readingDelta, ha, decide_true, Bool.true_and, if_true] at le ⊢
        revert le
        cases (s.map.entries.get i).fresh <;> cases new.fresh <;> simp
        exact Nat.sub_add_cancel
      · simp [ha]
  · rw [moves, tenant a]
    split
    · rfl
    · split <;> rfl
  · rw [map]
    exact attentionStep_add (h.attention_ge i)
  · have state : ((updateReading i u flag s).tenants.get a).state = (s.tenants.get a).state := by
      rw [tenant a]
      split
      · rfl
      · split <;> rfl
    rw [state] at free
    rw [tenant a]
    split
    · rfl
    · next b f hm =>
      rw [if_neg]
      rintro rfl
      exact h.not_free_of_memberOf hm free

theorem updateReading_accounts {s : State} (h : Accounts s) (i : OutletIx) (u : MapUpdate) (flag : Option ConvFlag) :
    Accounts (updateReading i u flag s) := (updateReading_replaces h i u flag).accounts h

/-- ALTER_FLAGS at one entry moves the attention count only (R7, R19). -/
theorem alterFlagsAt_accounts {s : State} (h : Accounts s) (i : OutletIx) (op : FlagOp) (mask : BitVec 6) :
    Accounts (alterFlagsAt i op mask s) := by
  refine EntryReplaced.accounts (i := i) (s := s)
    (e := { s.map.entries.get i with flags := op.combine (s.map.entries.get i).flags mask }) ?_ h
  exact ⟨rfl, fun _ _ => rfl, fun _ _ => rfl, fun _ => rfl, fun _ => rfl, rfl,
    attentionStep_add (h.attention_ge i), fun _ _ => rfl⟩

/-! ### Changes staged (R11) -/

theorem pendingInDown_tenant (b : Option Slot) (s : State) (a : Slot) :
    (pendingInDown b s).tenants.get a = { s.tenants.get a with
      pendingIn := (s.tenants.get a).pendingIn - tally (decide (b = some a)) } := by
  cases b with
  | none => rfl
  | some b =>
    refine (Table.get_modify _ _ _ _).trans ?_
    by_cases hb : a = b
    · subst hb; simp
    · rw [if_neg hb]; simp [Ne.symm hb]

theorem pendingInUp_tenant (b : Option Slot) (s : State) (a : Slot) :
    (pendingInUp b s).tenants.get a = { s.tenants.get a with
      pendingIn := (s.tenants.get a).pendingIn + tally (decide (b = some a)) } := by
  cases b with
  | none => rfl
  | some b =>
    refine (Table.get_modify _ _ _ _).trans ?_
    by_cases hb : a = b
    · subst hb; simp
    · rw [if_neg hb]; simp [Ne.symm hb]

@[simp] theorem pendingInDown_map (b : Option Slot) (s : State) : (pendingInDown b s).map = s.map := by cases b <;> rfl
@[simp] theorem pendingInUp_map (b : Option Slot) (s : State) : (pendingInUp b s).map = s.map := by cases b <;> rfl

/-- The map after a change is staged (R11). -/
theorem stageChange_map (i : OutletIx) (m : Membership) (s : State) :
    (stageChange i m s).map = { s.map with
      entries := s.map.entries.set i { s.map.entries.get i with pending := some m }
      pendingCount := if (s.map.entries.get i).pending.isSome then s.map.pendingCount else s.map.pendingCount + 1 } := by
  unfold stageChange
  dsimp only
  rw [pendingInUp_map, pendingInDown_map]
  rfl

/-- A tenant after a change is staged: pending-in goes down for the tenant of the change before and up for the new one
(R11). -/
theorem stageChange_tenant (i : OutletIx) (m : Membership) (s : State) (a : Slot) :
    (stageChange i m s).tenants.get a = { s.tenants.get a with
      pendingIn := (s.tenants.get a).pendingIn - tally ((s.map.entries.get i).movesTo a) +
        tally (decide (m.tenant = some a)) } := by
  unfold stageChange
  dsimp only
  rw [pendingInUp_tenant, pendingInDown_tenant]
  rfl

theorem stageChange_accounts {s : State} (h : Accounts s) (i : OutletIx) {m : Membership}
    (used : ∀ a, m.tenant = some a → (s.tenants.get a).state ≠ .free) : Accounts (stageChange i m s) := by
  have tenant := stageChange_tenant i m s
  have map := stageChange_map i m s
  refine EntryReplaced.accounts (i := i) (s := s) (e := { s.map.entries.get i with pending := some m }) ?_ h
  refine ⟨by rw [map], fun a f => ?_, fun a f => ?_, fun a => ?_, fun a => ?_, ?_, by rw [map], fun a free => ?_⟩
  · rw [tenant a]; rfl
  · rw [tenant a]; rfl
  · rw [tenant a]; rfl
  · have new : Outlet.movesTo { s.map.entries.get i with pending := some m } a = decide (m.tenant = some a) := rfl
    rw [tenant a, new]
    have le := h.pendingIn_ge i a
    dsimp only
    omega
  · rw [map]
    dsimp only
    cases (s.map.entries.get i).pending <;> rfl
  · rw [tenant a] at free ⊢
    have old : (s.map.entries.get i).movesTo a = false :=
      Bool.eq_false_iff.mpr fun ho => h.not_free_of_movesTo ho free
    have new : decide (m.tenant = some a) = false := decide_eq_false fun hm => used a hm free
    rw [old, new]
    rfl

/-! ### Changes applied (R9) -/

/-- A tenant's sums without an entry that is its member (R9, step 1). -/
def Tenant.withoutEntry (k : Tenant) (a : Slot) (e : Outlet) : Tenant :=
  match e.effective.memberOf with
  | none => k
  | some (b, f) => if a = b then k.leave f e else k

/-- A tenant's sums with an entry that has become its member (R9, step 4). -/
def Tenant.withEntry (k : Tenant) (a : Slot) (e : Outlet) : Tenant :=
  match e.effective.memberOf with
  | none => k
  | some (b, f) => if a = b then k.join f e else k

theorem Tenant.withoutEntry_sums (k : Tenant) (a : Slot) (e : Outlet) :
    (∀ f, (k.withoutEntry a e).draw.get f = k.draw.get f - e.drawOn a f) ∧
    (∀ f, (k.withoutEntry a e).members.get f = k.members.get f - tally (e.isMember a f)) ∧
    (k.withoutEntry a e).stale = k.stale - tally (e.isStaleMember a) := by
  unfold Tenant.withoutEntry
  rcases hm : e.effective.memberOf with _ | ⟨b, g⟩
  · have shares := shares_of_no_member hm a
    exact ⟨fun f => by simp [(shares f).2.1], fun f => by simp [(shares f).1], by simp [(shares .a).2.2]⟩
  · have shares := shares_of_member hm a
    refine ⟨fun f => ?_, fun f => ?_, ?_⟩
    · rw [(shares f).2.1]
      by_cases ha : a = b <;> by_cases hf : f = g <;> simp [Tenant.leave, ha, hf]
    · rw [(shares f).1]
      by_cases ha : a = b <;> by_cases hf : f = g <;> simp [Tenant.leave, ha, hf]
    · rw [(shares .a).2.2]
      by_cases ha : a = b <;> cases hf : e.fresh <;> simp [Tenant.leave, ha, hf]

theorem Tenant.withEntry_sums (k : Tenant) (a : Slot) (e : Outlet) :
    (∀ f, (k.withEntry a e).draw.get f = k.draw.get f + e.drawOn a f) ∧
    (∀ f, (k.withEntry a e).members.get f = k.members.get f + tally (e.isMember a f)) ∧
    (k.withEntry a e).stale = k.stale + tally (e.isStaleMember a) := by
  unfold Tenant.withEntry
  rcases hm : e.effective.memberOf with _ | ⟨b, g⟩
  · have shares := shares_of_no_member hm a
    exact ⟨fun f => by simp [(shares f).2.1], fun f => by simp [(shares f).1], by simp [(shares .a).2.2]⟩
  · have shares := shares_of_member hm a
    refine ⟨fun f => ?_, fun f => ?_, ?_⟩
    · rw [(shares f).2.1]
      by_cases ha : a = b <;> by_cases hf : f = g <;> simp [Tenant.join, ha, hf]
    · rw [(shares f).1]
      by_cases ha : a = b <;> by_cases hf : f = g <;> simp [Tenant.join, ha, hf]
    · rw [(shares .a).2.2]
      by_cases ha : a = b <;> cases hf : e.fresh <;> simp [Tenant.join, ha, hf]

/-- A tenant after an application: its sums lose the entry as it was and take it as it is, and its stack takes the stack
step (R9, R10). -/
theorem applyChange_tenant (i : OutletIx) (m : Membership) (s : State) (a : Slot) :
    let e := s.map.entries.get i
    (applyChange i m s).tenants.get a =
      { ((s.tenants.get a).withoutEntry a e).withEntry a { e with effective := m } with
        stack := ((applyChange i m s).tenants.get a).stack } := by
  intro e
  have step (x : State) (b : Slot) : (shedStackStep i e.effective m x).tenants.get b =
      { x.tenants.get b with stack := ((shedStackStep i e.effective m x).tenants.get b).stack } := by
    unfold shedStackStep
    dsimp only
    split
    · rfl
    · split
      · simp only [modifyTenant, State.withTenants_tenants, Table.get_modify]
        split
        · next hb => subst hb; split <;> rfl
        · split <;> rfl
      · rfl
  let x : State := match e.effective.memberOf with
    | none => s
    | some (t0, f0) => modifyTenant t0 (fun k => k.leave f0 e) s
  have left : x.tenants.get a = (s.tenants.get a).withoutEntry a e := by
    unfold Tenant.withoutEntry
    dsimp only [x]
    rcases e.effective.memberOf with _ | ⟨b, f⟩
    · rfl
    · refine (Table.get_modify _ _ _ _).trans ?_
      dsimp only
      split
      · next h => rw [h]
      · rfl
  let y := modifyOutlet i (fun e => { e with effective := m }) (shedStackStep i e.effective m x)
  have stepped : y.tenants.get a = { (s.tenants.get a).withoutEntry a e with stack := (y.tenants.get a).stack } := by
    rw [← left]; exact step x a
  have joined : (applyChange i m s).tenants.get a = (y.tenants.get a).withEntry a { e with effective := m } := by
    change ((match m.memberOf with
      | none => y
      | some (t1, f1) => modifyTenant t1 (fun k => k.join f1 e) y : State)).tenants.get a = _
    unfold Tenant.withEntry
    dsimp only
    rcases m.memberOf with _ | ⟨b, f⟩
    · rfl
    · refine (Table.get_modify _ _ _ _).trans ?_
      dsimp only
      split
      · next h => rw [h]; rfl
      · rfl
  rw [joined, stepped]
  unfold Tenant.withEntry
  dsimp only
  split
  · rfl
  · split <;> rfl

theorem applyChange_replaces {s : State} (h : Accounts s) (i : OutletIx) {m : Membership}
    (used : ∀ a, m.tenant = some a → (s.tenants.get a).state ≠ .free) :
    EntryReplaced i { s.map.entries.get i with effective := m, relay := relayApplied i m s } s (applyChange i m s) := by
  obtain ⟨map, frame⟩ := applyChange_spec i m s
  have tenant := applyChange_tenant i m s
  dsimp only at tenant map frame
  have sums (a : Slot) := ((s.tenants.get a).withoutEntry_sums a (s.map.entries.get i))
  have sums' (a : Slot) := (((s.tenants.get a).withoutEntry a (s.map.entries.get i)).withEntry_sums a
    { s.map.entries.get i with effective := m })
  refine ⟨by rw [map], fun a f => ?_, fun a f => ?_, fun a => ?_, fun a => ?_, by rw [map], by rw [map], fun a free => ?_⟩
  · rw [tenant a]
    have e1 := (sums a).1 f
    have e2 := (sums' a).1 f
    have le := h.drawOn_le i a f
    change _ = _ + Outlet.drawOn { s.map.entries.get i with effective := m } a f
    dsimp only at e2 ⊢
    omega
  · rw [tenant a]
    have e1 := (sums a).2.1 f
    have e2 := (sums' a).2.1 f
    have le := h.members_ge i a f
    change _ = _ + tally (Outlet.isMember { s.map.entries.get i with effective := m } a f)
    dsimp only at e2 ⊢
    omega
  · rw [tenant a]
    have e1 := (sums a).2.2
    have e2 := (sums' a).2.2
    have le := h.stale_ge i a
    change _ = _ + tally (Outlet.isStaleMember { s.map.entries.get i with effective := m } a)
    dsimp only at e2 ⊢
    omega
  · rw [frame a]; rfl
  · have free0 : (s.tenants.get a).state = .free := by rw [frame a] at free; exact free
    have cleared := h.freeCleared a free0
    have stack : ((applyChange i m s).tenants.get a).stack = (s.tenants.get a).stack := by
      rw [frame a, cleared]; dsimp only; split <;> rfl
    have out : (s.tenants.get a).withoutEntry a (s.map.entries.get i) = s.tenants.get a := by
      unfold Tenant.withoutEntry
      split
      · rfl
      · next b f hm => rw [if_neg]; rintro rfl; exact h.not_free_of_memberOf hm free0
    have outside : (s.tenants.get a).withEntry a { s.map.entries.get i with effective := m } = s.tenants.get a := by
      unfold Tenant.withEntry
      dsimp only
      split
      · rfl
      · next b f hm =>
        rw [if_neg]; rintro rfl
        exact used a ((memberOf_fst m a).mp (by rw [hm]; rfl)).1 free0
    rw [tenant a, out, outside, stack]

theorem applyChange_accounts {s : State} (h : Accounts s) (i : OutletIx) {m : Membership}
    (used : ∀ a, m.tenant = some a → (s.tenants.get a).state ≠ .free) : Accounts (applyChange i m s) :=
  (applyChange_replaces h i used).accounts h

/-- Putting a pending change in force keeps the accounts exact (R9, R12). -/
theorem applyPending_accounts {s : State} (h : Accounts s) (i : OutletIx) : Accounts (applyPending i s) := by
  unfold applyPending
  split
  · exact h
  · next m hp =>
    have moves (a : Slot) : (s.map.entries.get i).movesTo a = decide (m.tenant = some a) := by
      unfold Outlet.movesTo; rw [hp]; rfl
    have used (a : Slot) (hm : m.tenant = some a) : (s.tenants.get a).state ≠ .free :=
      h.not_free_of_movesTo ((moves a).trans (decide_eq_true hm))
    have ha := applyChange_accounts h i used
    obtain ⟨map, frame⟩ := applyChange_spec i m s
    dsimp only at map frame ⊢
    generalize applyChange i m s = x at *
    have pending : (x.map.entries.get i).pending = some m := by rw [map]; simp [hp]
    have moves' (a : Slot) : (x.map.entries.get i).movesTo a = decide (m.tenant = some a) := by
      unfold Outlet.movesTo; rw [pending]; rfl
    refine EntryReplaced.accounts (i := i) (s := x) (e := { x.map.entries.get i with pending := none }) ?_ ha
    refine ⟨?_, fun a f => ?_, fun a f => ?_, fun a => ?_, fun a => ?_, ?_, ?_, fun a free => ?_⟩
    · rw [pendingInDown_map]; rfl
    · rw [pendingInDown_tenant]; rfl
    · rw [pendingInDown_tenant]; rfl
    · rw [pendingInDown_tenant]; rfl
    · rw [pendingInDown_tenant, moves', show Outlet.movesTo { x.map.entries.get i with pending := none } a = false from rfl]
      have le := ha.pendingIn_ge i a
      rw [moves'] at le
      exact Nat.sub_add_cancel le
    · have le := ha.pendingCount_ge i
      rw [pending] at le
      rw [pendingInDown_map, pending]
      exact Nat.sub_add_cancel le
    · rw [pendingInDown_map]; rfl
    · rw [pendingInDown_tenant] at free ⊢
      have : decide (m.tenant = some a) = false := by
        rw [← moves' a]
        exact Bool.eq_false_iff.mpr fun hm => ha.not_free_of_movesTo hm free
      rw [this]
      rfl

theorem applyAllPending_accounts {s : State} (h : Accounts s) : Accounts (applyAllPending s) := by
  unfold applyAllPending
  generalize pendingFrom 0 s.map.entries.rows = l
  induction l generalizing s with
  | nil => exact h
  | cons k l ih =>
    rw [List.foldl_cons]
    split
    · exact ih (applyPending_accounts h _)
    · exact ih h

end Sys2Proof.Machine


namespace Sys2Proof.Machine

/-! ### Blocks touched -/

theorem Touches.widen {bs cs : List Block} {s t : State} (h : Touches bs s t)
    (sub : ∀ b ∈ bs, b ∈ cs := by decide) : Touches cs s t :=
  h.mono fun b out => by
    rw [List.contains_eq_mem, decide_eq_false_iff_not] at out ⊢
    exact fun inside => out (sub b inside)

theorem touches_withMgmt (s : State) (x : Management) : Touches [.mgmt] s (s.withMgmt x) :=
  ⟨rfl, fun b out => by cases b <;> first | rfl | exact absurd out (by decide)⟩

theorem touches_withPorts (s : State) (x : Ports) : Touches [.ports] s (s.withPorts x) :=
  ⟨rfl, fun b out => by cases b <;> first | rfl | exact absurd out (by decide)⟩

/-! ### What leaves the sums and the membership alone -/

/-- The fields of an entry on which a sum depends. -/
def Outlet.accounted (e : Outlet) : Membership × Option Membership × Nat × Bool × BitVec 6 :=
  (e.effective, e.pending, e.reading, e.fresh, e.flags)

/-- The sums that a tenant holds. -/
def Tenant.accounted (k : Tenant) : PerFeed Nat × PerFeed Nat × Nat × Nat := (k.draw, k.members, k.stale, k.pendingIn)

/-- A tenant's sums are kept, and a FREE slot holds a cleared record. -/
def TenantKept (k k' : Tenant) : Prop := k'.accounted = k.accounted ∧ (k'.state = .free → k' = .cleared)

/-- The step from `s` to `t` keeps the accounts exact and every effective membership as it is. -/
structure Keeps (s t : State) : Prop where
  accounts : Accounts s → Accounts t
  effective : ∀ i, (t.map.entries.get i).effective = (s.map.entries.get i).effective

namespace Keeps

theorem refl (s : State) : Keeps s s := ⟨id, fun _ => rfl⟩

theorem trans {s t u : State} (h : Keeps s t) (k : Keeps t u) : Keeps s u :=
  ⟨fun a => k.accounts (h.accounts a), fun i => (k.effective i).trans (h.effective i)⟩

/-- `trans`, the later step first. -/
theorem after {s t u : State} (k : Keeps t u) (h : Keeps s t) : Keeps s u := h.trans k

theorem foldl {α : Type} {f : State → α → State} (h : ∀ s a, Keeps s (f s a)) :
    ∀ (l : List α) (s : State), Keeps s (l.foldl f s)
  | [], s => .refl s
  | a :: l, s => (h s a).trans (foldl h l (f s a))

theorem iterate {f : State → State} (h : ∀ s, Keeps s (f s)) : ∀ (n : Nat) (s : State), Keeps s (Machine.iterate f n s)
  | 0, s => .refl s
  | n + 1, s => (h s).trans (iterate h n (f s))

/-- A case split whose two sides both keep. -/
theorem ite {s t u : State} {p : Prop} [Decidable p] (h : p → Keeps s t) (k : ¬ p → Keeps s u) :
    Keeps s (if p then t else u) := by
  split
  · next hp => exact h hp
  · next hp => exact k hp

/-- Kept counts, kept tenants' sums and entries that change only in fields no sum reads keep the accounts. -/
theorem of_accounted {s t : State}
    (entries : ∀ i, (t.map.entries.get i).accounted = (s.map.entries.get i).accounted)
    (counts : t.map.pendingCount = s.map.pendingCount ∧ t.map.attention = s.map.attention)
    (tenants : Accounts s → ∀ a, TenantKept (s.tenants.get a) (t.tenants.get a)) : Keeps s t := by
  have same (i : OutletIx) : (t.map.entries.get i).effective = (s.map.entries.get i).effective ∧
      (t.map.entries.get i).pending = (s.map.entries.get i).pending ∧
      (t.map.entries.get i).reading = (s.map.entries.get i).reading ∧
      (t.map.entries.get i).fresh = (s.map.entries.get i).fresh ∧
      (t.map.entries.get i).flags = (s.map.entries.get i).flags := by
    have h := entries i
    simpa only [Outlet.accounted, Prod.mk.injEq] using h
  have member (i : OutletIx) (a : Slot) (f : Feed) :
      (t.map.entries.get i).isMember a f = (s.map.entries.get i).isMember a f := by
    unfold Outlet.isMember; rw [(same i).1]
  refine ⟨fun h => ?_, fun i => (same i).1⟩
  have sums (a : Slot) : (t.tenants.get a).draw = (s.tenants.get a).draw ∧
      (t.tenants.get a).members = (s.tenants.get a).members ∧ (t.tenants.get a).stale = (s.tenants.get a).stale ∧
      (t.tenants.get a).pendingIn = (s.tenants.get a).pendingIn := by
    have k := (tenants h a).1
    simpa only [Tenant.accounted, Prod.mk.injEq] using k
  refine ⟨fun a f => ?_, fun a f => ?_, fun a => ?_, fun a => ?_, ?_, ?_, fun a => (tenants h a).2⟩
  · rw [(sums a).1, h.draw_sum, memberReadings_eq]
    refine (sum_rows_congr fun i => ?_).symm
    unfold Outlet.drawOn
    rw [member, (same i).2.2.1]
  · rw [(sums a).2.1, h.members]
    exact countP_rows_congr fun i => (member i a f).symm
  · rw [(sums a).2.2.1, h.stale]
    refine countP_rows_congr fun i => ?_
    unfold Outlet.isStaleMember
    rw [member, member, (same i).2.2.2.1]
  · rw [(sums a).2.2.2, h.pendingIn]
    refine countP_rows_congr fun i => ?_
    unfold Outlet.movesTo
    rw [(same i).2.1]
  · rw [counts.1, h.pendingCount]
    exact countP_rows_congr fun i => by rw [(same i).2.1]
  · rw [counts.2, h.attention]
    exact countP_rows_congr fun i => by rw [(same i).2.2.2.2]

theorem kept_refl {s : State} (h : Accounts s) (a : Slot) : TenantKept (s.tenants.get a) (s.tenants.get a) :=
  ⟨rfl, h.freeCleared a⟩

/-- The map and the tenants as they were. -/
theorem of_same {s t : State} (map : t.map = s.map) (tenants : t.tenants = s.tenants) : Keeps s t :=
  of_accounted (fun i => by rw [map]) (by rw [map]; exact ⟨rfl, rfl⟩) (fun h a => by rw [tenants]; exact kept_refl h a)

theorem withPending (s : State) (x : List Instr) : Keeps s (s.withPending x) := .of_same rfl rfl
theorem withTime (s : State) (x : TimeBase) : Keeps s (s.withTime x) := .of_same rfl rfl
theorem withProfiles (s : State) (x : Table Profile 16) : Keeps s (s.withProfiles x) := .of_same rfl rfl
theorem withDown (s : State) (x : NodeTx) : Keeps s (s.withDown x) := .of_same rfl rfl
theorem withUp (s : State) (x : Uplink) : Keeps s (s.withUp x) := .of_same rfl rfl
theorem withPorts (s : State) (x : Ports) : Keeps s (s.withPorts x) := .of_same rfl rfl
theorem withOrders (s : State) (x : OrderTable) : Keeps s (s.withOrders x) := .of_same rfl rfl
theorem withReview (s : State) (x : Review) : Keeps s (s.withReview x) := .of_same rfl rfl
theorem withMgmt (s : State) (x : Management) : Keeps s (s.withMgmt x) := .of_same rfl rfl
theorem withLinks (s : State) (x : LinkTable) : Keeps s (s.withLinks x) := .of_same rfl rfl

/-- What touches neither the map nor the tenants. -/
theorem of_touches {bs : List Block} {s t : State} (h : Touches bs s t)
    (map : bs.contains .map = false := by rfl) (tenants : bs.contains .tenants = false := by rfl) : Keeps s t :=
  of_same (h.2 .map map) (h.2 .tenants tenants)

/-- One tenant record replaced by one that keeps its sums. -/
theorem of_tenant {s : State} {a : Slot} {k : Tenant} (h : Accounts s → TenantKept (s.tenants.get a) k) :
    Keeps s (s.withTenants (s.tenants.set a k)) :=
  of_accounted (fun _ => rfl) ⟨rfl, rfl⟩ fun acc b => by
    rw [State.withTenants_tenants, Table.get_set]
    split
    · next hb => rw [hb]; exact h acc
    · exact kept_refl acc b

/-- Every tenant record changed in what no sum reads. -/
theorem of_tenants {s : State} {f : Tenant → Tenant}
    (h : Accounts s → ∀ a, TenantKept (s.tenants.get a) (f (s.tenants.get a))) : Keeps s (s.withTenants (s.tenants.map f)) :=
  of_accounted (fun _ => rfl) ⟨rfl, rfl⟩ fun acc a => by
    rw [State.withTenants_tenants, Table.get_map]
    exact h acc a

/-- One entry changed in what no sum reads. -/
theorem of_outlet {s : State} {i : OutletIx} {f : Outlet → Outlet} (h : ∀ e, (f e).accounted = e.accounted) :
    Keeps s (modifyOutlet i f s) :=
  of_accounted (fun j => by
    refine (congrArg Outlet.accounted (Table.get_modify _ _ _ _)).trans ?_
    split
    · next hj => rw [hj]; exact h _
    · rfl) ⟨rfl, rfl⟩ fun acc a => kept_refl acc a

end Keeps

/-- A record in use that keeps its sums. -/
theorem TenantKept.of_used {k k' : Tenant} (sums : k'.accounted = k.accounted) (used : k'.state ≠ .free) :
    TenantKept k k' := ⟨sums, fun free => absurd free used⟩

theorem updateReading_keeps (i : OutletIx) (u : MapUpdate) (flag : Option ConvFlag) (s : State) :
    Keeps s (updateReading i u flag s) := by
  refine ⟨fun h => updateReading_accounts h i u flag, fun j => ?_⟩
  rw [updateReading_map]
  dsimp only
  rw [Table.get_set]
  split
  · next hj => rw [hj]; exact (updated_keeps _ _ _ _).1
  · rfl

/-! ### Orders -/

theorem queueNotice_keeps (x : NoticeSubject) (s : State) : Keeps s (queueNotice x s) :=
  .of_touches (queueNotice_touches x s)
theorem sendReply_keeps (r : Reply) (s : State) : Keeps s (sendReply r s) := .of_touches (sendReply_touches r s)
theorem answer_keeps (u : RequestUnit) (tag : Byte) (w : Bool) (st : Status) (d : ReplyData) (s : State) :
    Keeps s (answer u tag w st d s) := .of_touches (answer_touches u tag w st d s)
theorem joinTransit_keeps (f : Frame) (s : State) : Keeps s (joinTransit f s) := .of_touches (joinTransit_touches f s)
theorem postAt_keeps (src : EventSource) (e : Event) (s : State) : Keeps s (postAt src e s) :=
  .of_touches (postAt_touches src e s)
theorem post_keeps (src : EventSource) (id : Word16) (s : State) : Keeps s (post src id s) := postAt_keeps src ⟨id, 0⟩ s
theorem postOutcome_keeps (l : LinkIx) (d : Bool) (n : Nat) (s : State) : Keeps s (postOutcome l d n s) :=
  .of_touches (postOutcome_touches l d n s)
theorem modifyNode_keeps (n : NodeIx) (f : Node → Node) (s : State) : Keeps s (modifyNode n f s) := .of_same rfl rfl
theorem modifyLink_keeps (l : LinkIx) (f : Link → Link) (s : State) : Keeps s (modifyLink l f s) := .of_same rfl rfl
theorem setCounts_keeps (f : Counts → Counts) (s : State) : Keeps s (setCounts f s) := .of_same rfl rfl
theorem setSticky_keeps (f : Sticky → Sticky) (s : State) : Keeps s (setSticky f s) := .of_same rfl rfl
theorem sendLimitNote_keeps (n : NodeIx) (s : State) : Keeps s (sendLimitNote n s) :=
  .of_touches (sendLimitNote_touches n s)
theorem endShedRequest_keeps (e : RequestEnd) (s : State) : Keeps s (endShedRequest e s) :=
  .of_touches (endShedRequest_touches e s)
theorem writeStatus_keeps (i : OutletIx) (r : RelayStatus) (d : Indicator) (s : State) : Keeps s (writeStatus i r d s) :=
  .of_outlet fun _ => rfl

/-- A stack that holds something belongs to a tenant in use, so that the stack may change. -/
theorem modifyStack_keeps {s : State} {a : Slot} {f : List StackEntry → List StackEntry}
    (h : (s.tenants.get a).stack = [] → f [] = []) :
    Keeps s (modifyTenant a (fun k => { k with stack := f k.stack }) s) :=
  .of_tenant fun acc => ⟨rfl, fun free => by
    have cleared := acc.freeCleared a free
    rw [cleared] at h ⊢
    exact congrArg (fun st => { Tenant.cleared with stack := st }) (h rfl)⟩

theorem orderStackStep_keeps (o : Order) (e : Ending) (s : State) : Keeps s (orderStackStep o e s) := by
  unfold orderStackStep
  split
  · exact .ite (fun _ => .ite (fun _ => modifyStack_keeps fun _ => rfl) fun _ => modifyStack_keeps fun _ => rfl)
      fun _ => .refl s
  · exact .refl s
  · exact .refl s

theorem answerSwitch_keeps (st : Status) (d : ReplyData) (s : State) : Keeps s (answerSwitch st d s) := by
  unfold answerSwitch
  split
  · exact .refl s
  · exact (answer_keeps ..).after (.of_same rfl rfl)

theorem endOrder_keeps (o : Order) (e : Ending) (s : State) : Keeps s (endOrder o e s) := by
  have report (d : Bool) (r : RelayStatus) (i : Indicator) (x : State) : Keeps x (orderReport o e d r i x) := by
    unfold orderReport
    dsimp only
    split
    · exact endShedRequest_keeps ..
    · exact endShedRequest_keeps ..
    · exact .ite (fun _ => answerSwitch_keeps ..) fun _ => .refl x
  unfold endOrder
  dsimp only
  exact (report ..).after ((Keeps.withOrders ..).after ((writeStatus_keeps ..).after (orderStackStep_keeps o e s)))

theorem clearFreshness_keeps (n : NodeIx) (s : State) : Keeps s (clearFreshness n s) :=
  .foldl (fun s i => updateReading_keeps i .hold none s) _ s

theorem leaveNode_keeps (n : NodeIx) (after : NodeState) (k : Nat) (s : State) : Keeps s (leaveNode n after k s) :=
  (modifyNode_keeps ..).trans ((clearFreshness_keeps ..).trans
    ((Keeps.foldl (fun s o => endOrder_keeps o .nodeLost s) _ _).trans (post_keeps ..)))

theorem expireNode_keeps (n : NodeIx) (s : State) : Keeps s (expireNode n s) :=
  .ite (fun _ => leaveNode_keeps ..) fun _ => .refl s

theorem placeOrder_keeps (i : OutletIx) (r : RelayAction) (d : IndicatorAction) (o : OrderOrigin) (s : State) :
    Keeps s (placeOrder i r d o s) := .of_same rfl rfl

/-! ### Events -/

theorem scanLink_keeps (e : Event) (s : State) (l : LinkIx) : Keeps s (scanLink e s l) := by
  have shed (k : ShedKind) (t : Slot) (d : Nat) (x : State) : Keeps x (linkShed k t l d x) :=
    .ite (fun _ => .of_same rfl rfl) fun _ => postOutcome_keeps ..
  have dispatch (a : LinkAction) (k c : Bool) (x : State) : Keeps x (dispatchAction l a k c e x) := by
    unfold dispatchAction
    split
    · exact shed ..
    · exact shed ..
    · exact (queueNotice_keeps ..).trans (postOutcome_keeps ..)
    · refine .ite (fun _ => postOutcome_keeps ..) fun used => .trans ?_ (postOutcome_keeps ..)
      exact .of_tenant fun _ => .of_used rfl used
    · exact .ite (fun _ => postOutcome_keeps ..) fun _ => (postOutcome_keeps ..).after (.of_same rfl rfl)
  have act (a : LinkAction) (k c : Bool) (x : State) : Keeps x (performAction l a k c e x) :=
    (modifyLink_keeps ..).trans (dispatch ..)
  unfold scanLink
  dsimp only
  refine .ite (fun _ => .refl s) fun _ => ?_
  split
  · exact .refl s
  · exact .ite (fun _ => (modifyLink_keeps ..).trans (act ..)) fun _ => .refl s
  · exact .ite (fun _ => .refl s) fun _ => (modifyLink_keeps ..).trans (act ..)
  · exact .ite (fun _ => act ..) fun _ => .refl s

theorem takeEvent_keeps (e : Event) (s : State) : Keeps s (takeEvent e s) := by
  have guards : Keeps s (if e.id = 0x0021#16 then releaseGuards s else s) :=
    .ite (fun _ => .of_same rfl rfl) fun _ => .refl s
  refine guards.trans (.ite (fun _ => .refl _) fun _ => .ite (fun _ => ?_) fun _ => ?_)
  · exact (queueNotice_keeps ..).after (.of_same rfl rfl)
  · exact .foldl (fun s l => scanLink_keeps e s l) _ _

theorem scanChain_keeps (s : State) : Keeps s (scanChain s) := by
  unfold scanChain
  split
  · exact .refl s
  · exact (takeEvent_keeps ..).after (.of_same rfl rfl)

theorem finishChain_keeps (s : State) : Keeps s (finishChain s) :=
  .iterate (fun s => .iterate scanChain_keeps _ s) 5 s

theorem takeWaiting_keeps (s : State) : Keeps s (takeWaiting s) :=
  (Keeps.foldl (fun s e => takeEvent_keeps e s) _ _).after (.of_same rfl rfl)

theorem takeNextEvent_keeps (prefer : Option EventSource) (s : State) : Keeps s (takeNextEvent prefer s) := by
  unfold takeNextEvent
  split
  · exact scanChain_keeps s
  · split
    · exact .refl s
    · exact (takeEvent_keeps ..).after (.of_same rfl rfl)

theorem takeReport_keeps (s : State) : Keeps s (takeReport s) := by
  unfold takeReport
  split
  · exact (postAt_keeps ..).after ((modifyLink_keeps ..).after (.of_same rfl rfl))
  · exact .refl s
  · exact .refl s

/-! ### Arrivals and requests -/

/-- A frame that has come in whole is handled on a state that differs in the ports only. -/
theorem arrive_keeps {p : Port} {len : Nat} {k : State → State} (h : ∀ x, Keeps x (k x)) (s : State) :
    Keeps s (arrive p len k s) := by
  have ports (r : Receiver) : Keeps s (setReceiver p r s) := by cases p <;> exact .of_same rfl rfl
  exact (ports .hunt).trans (.ite (fun _ => .of_same rfl rfl) fun _ => (h _).after (.of_same rfl rfl))

/-- A request ends in a refusal, or its operation runs on a state that differs from `s` in the ports only (R173). -/
theorem serve_cases {α : Type} (u : RequestUnit) (r : Request) (parse : List Byte → Option α)
    (act : α → State → State) (s : State) :
    ∃ x, Touches [.ports] s x ∧ (Touches [.up, .mgmt] x (serve u r parse act s) ∨
      ∃ a, parse r.args = some a ∧ serve u r parse act s = act a x) := by
  have ports (f : Counts → Counts) : Touches [.ports] s (setCounts f (setReceiver .uplink .hunt s)) :=
    touches_withPorts s _
  unfold serve arrive
  dsimp only
  split
  · exact ⟨_, ports _, .inl (.refl _ _)⟩
  · refine ⟨countRx .uplink .good (setReceiver .uplink .hunt s), ports _, ?_⟩
    split
    · exact .inl (sendReply_touches ..)
    · split
      · exact .inl (answer_touches ..)
      · split
        · exact .inl (answer_touches ..)
        · split
          · exact .inl (answer_touches ..)
          · next a ha => exact .inr ⟨a, ha, rfl⟩

theorem serve_keeps {α : Type} {u : RequestUnit} {r : Request} {parse : List Byte → Option α}
    {act : α → State → State} (h : ∀ a x, Keeps x (act a x)) (s : State) : Keeps s (serve u r parse act s) := by
  obtain ⟨x, hx, hr | ⟨a, -, ha⟩⟩ := serve_cases u r parse act s
  · exact (Keeps.of_touches hx).trans (.of_touches hr)
  · rw [ha]; exact (Keeps.of_touches hx).trans (h a x)

end Sys2Proof.Machine


namespace Sys2Proof.Machine

/-! ### Node frames -/

theorem convertEntry_keeps (i : OutletIx) (code : Nat) (s : State) : Keeps s (convertEntry i code s) := by
  have notice (old : Outlet) (flag : Option ConvFlag) (x : State) : Keeps x (conversionNotice i old flag x) := by
    unfold conversionNotice
    split
    · exact .refl x
    · exact .ite (fun _ => queueNotice_keeps ..) fun _ => .refl x
  exact (notice ..).after (updateReading_keeps ..)

theorem countBadEntry_keeps (n : NodeIx) (s : State) : Keeps s (countBadEntry n s) := modifyNode_keeps ..

theorem intake_keeps (n : NodeIx) (p : List Byte) (s : State) : Keeps s (intake n p s) := by
  have entry (fitted : Nat) (x : State) (e : Byte × Nat) : Keeps x (intakeEntry n fitted x e) := by
    unfold intakeEntry
    split
    · exact countBadEntry_keeps ..
    · exact .ite (fun _ => countBadEntry_keeps ..) fun _ => convertEntry_keeps ..
  refine .ite (fun _ => .refl s) fun _ => .ite (fun _ => ?_) fun _ => countBadEntry_keeps ..
  exact .foldl (fun x e => entry _ x e) _ s

theorem raiseNode_keeps (n : NodeIx) (s : State) : Keeps s (raiseNode n s) :=
  .ite (fun _ => .refl s) fun _ => (sendLimitNote_keeps ..).after ((post_keeps ..).after (modifyNode_keeps ..))

theorem sequenceCheck_keeps (n : NodeIx) (q : Byte) (s : State) : Keeps s (sequenceCheck n q s) := by
  unfold sequenceCheck
  dsimp only
  split
  · exact (post_keeps ..).after (modifyNode_keeps ..)
  all_goals exact modifyNode_keeps ..

theorem forwardReadings_keeps (n : NodeIx) (f : NodeFrame) (s : State) : Keeps s (forwardReadings n f s) := by
  unfold forwardReadings
  split
  · exact joinTransit_keeps ..
  · exact joinTransit_keeps ..
  · exact .refl s

theorem takeReadings_keeps (f : NodeFrame) (n : NodeIx) (s : State) : Keeps s (takeReadings f n s) := by
  have forwarded : Keeps s (forwardReadings n f (sequenceCheck n f.seq (raiseNode n s))) :=
    (forwardReadings_keeps ..).after ((sequenceCheck_keeps ..).after (raiseNode_keeps ..))
  exact .ite (fun _ => forwarded.trans (intake_keeps ..)) fun _ => forwarded

theorem takeJoin_keeps (f : NodeFrame) (n : NodeIx) (s : State) : Keeps s (takeJoin f n s) := by
  unfold takeJoin
  dsimp only
  refine (joinTransit_keeps ..).after ((raiseNode_keeps n s).trans ?_)
  split
  · exact countBadEntry_keeps ..
  · exact .ite (fun _ => (sendLimitNote_keeps ..).after (modifyNode_keeps ..)) fun _ => modifyNode_keeps ..

theorem takeOrderDone_keeps (f : NodeFrame) (n : NodeIx) (s : State) : Keeps s (takeOrderDone f n s) := by
  unfold takeOrderDone
  split
  · split
    · exact countBadEntry_keeps ..
    · unfold matchOrder
      split
      · exact modifyNode_keeps ..
      · exact endOrder_keeps ..
  · exact countBadEntry_keeps ..

/-- A node frame is handled on a state that differs in the ports and the node's last heard only (R129, R163). -/
theorem nodePortFrame_keeps {f : NodeFrame} {k : NodeIx → State → State} (h : ∀ n x, Keeps x (k n x)) (s : State) :
    Keeps s (nodePortFrame f k s) := by
  refine arrive_keeps (fun x => ?_) s
  split
  · exact .of_same rfl rfl
  · exact .ite (fun _ => .of_same rfl rfl) fun _ => (h _ _).after (modifyNode_keeps ..)

/-! ### The link interface and the expiries -/

theorem passDownFrame_keeps (k : DownKind) (f : NodeFrame) (s : State) : Keeps s (passDownFrame k f s) := by
  unfold passDownFrame
  split
  · exact arrive_keeps (k := joinDown _) (fun x => .ite (fun _ => .of_same rfl rfl) fun _ => setCounts_keeps ..) s
  · exact arrive_keeps (fun x => setCounts_keeps ..) s
  all_goals exact .refl s

theorem receiveBytes_keeps (p : Port) (bytes : List Byte) (s : State) : Keeps s (receiveBytes p bytes s) := by
  refine (Keeps.foldl (fun x e => setCounts_keeps ..) _ _).after ?_
  cases p <;> exact .of_same rfl rfl

theorem abandonFrame_keeps (p : Port) (s : State) : Keeps s (abandonFrame p s) := by
  unfold abandonFrame
  split
  · exact .refl s
  · cases p <;> exact .of_same rfl rfl

theorem takeUnserved_keeps (p : List Byte) (s : State) : Keeps s (takeUnserved p s) := by
  unfold takeUnserved
  split
  · exact arrive_keeps Keeps.refl s
  · exact arrive_keeps (sendReply_keeps _) s
  · exact .refl s

theorem sendOwedNote_keeps (s : State) : Keeps s (sendOwedNote s) := by
  refine .ite (fun _ => ?_) fun _ => .refl s
  split
  · exact .refl s
  · exact sendLimitNote_keeps ..

theorem expireTick_keeps (g : Fin 6) (s : State) : Keeps s (expireTick g s) :=
  (post_keeps .timeBase (tickEvent g) s).trans (.of_same rfl rfl)

theorem expireReviewTick_keeps (s : State) : Keeps s (expireReviewTick s) := by
  have take (x : State) : Keeps x (takeReviewTick x) := by
    unfold takeReviewTick
    split
    · refine .ite (fun _ => ?_) fun _ => ?_
      · exact (queueNotice_keeps ..).after ((post_keeps ..).after (setSticky_keeps ..))
      · exact (post_keeps ..).after (.withReview ..)
    · exact .refl _
    · exact .refl _
  exact (take _).after (.of_same rfl rfl)

theorem expireOrder_keeps (number : Byte) (s : State) : Keeps s (expireOrder number s) := by
  unfold expireOrder
  split
  · exact .refl s
  · exact .ite (fun _ => endOrder_keeps ..) fun _ => .refl s

/-! ### Visits -/

/-- A visit keeps a tenant's sums and its state (R70 to R78). -/
theorem visit_accounted (k : Tenant) (now : RowTime) :
    (k.visit now).accounted = k.accounted ∧ (k.visit now).state = k.state := by
  have takeUp : k.takeUp.accounted = k.accounted ∧ k.takeUp.state = k.state := by
    unfold Tenant.takeUp
    split <;> exact ⟨rfl, rfl⟩
  have isOver (x : Tenant) (dt : Nat) : (x.isOver dt).accounted = x.accounted ∧ (x.isOver dt).state = x.state := by
    unfold Tenant.isOver
    dsimp only
    split
    · exact ⟨rfl, rfl⟩
    · split <;> exact ⟨rfl, rfl⟩
  have notOver (x : Tenant) (dt : Nat) : (x.notOver dt).accounted = x.accounted ∧ (x.notOver dt).state = x.state := by
    unfold Tenant.notOver
    dsimp only
    split <;> exact ⟨rfl, rfl⟩
  have judge (x : Tenant) (dt : Nat) : (x.judge dt).accounted = x.accounted ∧ (x.judge dt).state = x.state := by
    unfold Tenant.judge
    split
    · exact ⟨rfl, rfl⟩
    · split
      · exact isOver x dt
      · exact notOver x dt
  unfold Tenant.visit
  dsimp only
  split
  · obtain ⟨h1, h2⟩ := judge (k.takeUp.integrate now) (elapsed now k.lastVisit)
    exact ⟨h1.trans takeUp.1, h2.trans takeUp.2⟩
  · exact takeUp

theorem visitSlot_keeps (i : Slot) (s : State) : Keeps s (visitSlot i s) := by
  have close (x : State) (used : (x.tenants.get i).state ≠ .free) : Keeps x (closeStep i x) := by
    refine .ite (fun _ => .ite (fun _ => ?_) fun _ => .of_same rfl rfl) fun _ => .withReview ..
    exact (Keeps.withReview ..).after ((Keeps.of_tenant (s := placeRecord _ x)
      (k := (x.tenants.get i).periodReset _ _) fun _ => .of_used rfl used).after (.of_same rfl rfl))
  obtain ⟨sums, state⟩ := visit_accounted (s.tenants.get i) s.time.rowTime
  refine .ite (fun _ => .withReview ..) fun used => ?_
  have visited : Keeps s (s.withTenants (s.tenants.set i ((s.tenants.get i).visit s.time.rowTime))) :=
    .of_tenant fun _ => .of_used sums (state ▸ used)
  have usedAfter : ((s.tenants.set i ((s.tenants.get i).visit s.time.rowTime)).get i).state ≠ .free := by
    rw [Table.get_set_same, state]; exact used
  split
  · exact (close _ usedAfter).after visited
  · refine (close _ ?_).after ((post_keeps ..).after visited)
    rw [show (post .review _ _).tenants = _ from (postAt_touches ..).2 .tenants rfl]
    exact usedAfter

theorem retryVisit_keeps (s : State) : Keeps s (retryVisit s) := (visitSlot_keeps ..).after (.withReview ..)

/-! ### The shed engine and the SWITCH unit -/

theorem failShedRequest_keeps (k : ShedKind) (t : Slot) (o : RequestOrigin) (r : Status) (s : State) :
    Keeps s (failShedRequest k t o r s) := endShedRequest_keeps ..

theorem relayOff_keeps (i : OutletIx) (s : State) : Keeps s (modifyOutlet i (fun e => { e with relay := .off }) s) :=
  .of_outlet fun _ => rfl

theorem takeShedRequest_keeps (s : State) : Keeps s (takeShedRequest s) := by
  have shed (t : Slot) (o : RequestOrigin) (x : State) : Keeps x (takeShed t o x) := by
    unfold takeShed
    split
    · exact failShedRequest_keeps ..
    · exact .withOrders ..
  have restore (t : Slot) (o : RequestOrigin) (x : State) : Keeps x (takeRestore t o x) := by
    unfold takeRestore
    split
    · exact failShedRequest_keeps ..
    · exact (relayOff_keeps ..).after ((modifyStack_keeps (f := List.dropLast) fun _ => rfl).after (placeOrder_keeps ..))
  unfold takeShedRequest
  split
  · dsimp only
    split
    · exact (shed ..).after (.withLinks ..)
    · exact (restore ..).after (.withLinks ..)
  · exact .refl s
  · exact .refl s

theorem endSearch_keeps (q : Search) (s : State) : Keeps s (endSearch q s) := by
  unfold endSearch
  split
  · exact (failShedRequest_keeps ..).after (.withOrders ..)
  · next i hi =>
    refine Keeps.trans (t := placeOrder i .off .blink (.shed q.tenant q.origin) (setSearch none s))
      (.of_same rfl rfl) (.of_tenant fun _ => .of_used rfl ?_)
    intro (free : (s.tenants.get q.tenant).state = .free)
    have refused : shedTarget q s = .error .notFound := if_pos free
    rw [refused] at hi
    cases hi

theorem placeSwitch_keeps (r : Request) (i : OutletIx) (a : RelayAction) (d : IndicatorAction) (s : State) :
    Keeps s (placeSwitch r i a d s) := by
  have placed : Keeps s (holdSwitch r (placeOrder i a d (.management r.tag true) s)) :=
    (Keeps.withMgmt ..).after (placeOrder_keeps ..)
  refine .ite (fun _ => placed.trans ?_) fun _ => placed
  unfold releaseShed
  dsimp only
  split
  · exact relayOff_keeps ..
  · exact (modifyStack_keeps (f := removeEntry i) fun _ => rfl).after (relayOff_keeps ..)

theorem takeSwitchOrder_keeps (r : Request) (a : OutletIx × RelayAction × IndicatorAction) (s : State) :
    Keeps s (takeSwitchOrder r a s) := by
  refine .ite (fun _ => answer_keeps ..) fun _ => .ite (fun _ => answer_keeps ..) fun _ => ?_
  split
  · exact answer_keeps ..
  · exact placeSwitch_keeps ..

theorem takeSwitchShed_keeps (k : ShedKind) (r : Request) (t : Slot) (s : State) : Keeps s (takeSwitchShed k r t s) :=
  .ite (fun _ => answer_keeps ..) fun _ => .ite (fun _ => .of_same rfl rfl) fun _ => answer_keeps ..

/-! ### The TENANT and RECORD units -/

/-- A FREE slot's cleared record replaced by one in use that has no sums (R51, R159). -/
theorem fillSlot_keeps {s : State} {a : Slot} {k : Tenant} (free : (s.tenants.get a).state = .free)
    (sums : k.accounted = Tenant.cleared.accounted) (used : k.state ≠ .free) :
    Keeps s (s.withTenants (s.tenants.set a k)) :=
  .of_tenant fun acc => .of_used (by rw [acc.freeCleared a free, sums]) used

theorem takeCreate_keeps (r : Request) (a : Slot × Contract) (s : State) : Keeps s (takeCreate r a s) :=
  .ite (fun free => (answer_keeps ..).after (fillSlot_keeps free rfl TenantState.noConfusion)) fun _ => answer_keeps ..

theorem takeImport_keeps (r : Request) (a : Slot × TransferRecord) (s : State) : Keeps s (takeImport r a s) :=
  .ite (fun free => (answer_keeps ..).after (fillSlot_keeps free rfl TenantState.noConfusion)) fun _ => answer_keeps ..

theorem takeSetContract_keeps (r : Request) (a : Slot × Contract) (s : State) : Keeps s (takeSetContract r a s) :=
  .ite (fun _ => answer_keeps ..) fun used => (answer_keeps ..).after (.of_tenant fun _ => .of_used rfl used)

theorem takeSetPreset_keeps (r : Request) (a : Slot × BitVec 64) (s : State) : Keeps s (takeSetPreset r a s) :=
  .ite (fun _ => answer_keeps ..) fun used => (answer_keeps ..).after (.of_tenant fun _ => .of_used rfl used)

theorem takeActivate_keeps (r : Request) (t : Slot) (s : State) : Keeps s (takeActivate r t s) :=
  .ite (fun _ => (answer_keeps ..).after (.of_tenant fun _ => .of_used rfl TenantState.noConfusion))
    fun _ => answer_keeps ..

theorem takeSuspend_keeps (r : Request) (t : Slot) (s : State) : Keeps s (takeSuspend r t s) := by
  refine .ite (fun _ => (answer_keeps ..).after ?_) fun _ => answer_keeps ..
  have suspended : Keeps s (setTenant t { s.tenants.get t with state := .suspended, verdict := .held, streak := 0 } s) :=
    .of_tenant fun _ => .of_used rfl TenantState.noConfusion
  exact .ite (fun _ => suspended) fun _ => suspended.trans (post_keeps ..)

/-- A tenant without members has no draw and no stale members (R46, R47). -/
theorem Accounts.sums_of_unused {s : State} (h : Accounts s) {a : Slot} (unused : (s.tenants.get a).inUse = false) :
    (s.tenants.get a).accounted = Tenant.cleared.accounted := by
  unfold Tenant.inUse at unused
  simp only [Bool.or_eq_false_iff, decide_eq_false_iff_not] at unused
  obtain ⟨⟨hm, hp⟩, -⟩ := unused
  have none (f : Feed) : (s.tenants.get a).members.get f = 0 := by
    cases f
    · show (s.tenants.get a).members.a = 0; omega
    · show (s.tenants.get a).members.b = 0; omega
  have nobody (f : Feed) : ∀ e ∈ s.map.entries.rows, e.isMember a f = false := by
    have count := (h.members a f).symm.trans (none f)
    rw [List.countP_eq_zero] at count
    exact fun e he => Bool.eq_false_iff.mpr (count e he)
  have draw : (s.tenants.get a).draw = ⟨0, 0⟩ := perFeed_ext fun f => by
    rw [h.draw_sum]
    have zero : s.map.entries.rows.map (fun e => e.drawOn a f) = s.map.entries.rows.map (fun _ => 0) :=
      List.map_congr_left fun e he => by unfold Outlet.drawOn; rw [nobody f e he]; rfl
    rw [zero, sum_map_zero]
    cases f <;> rfl
  have members : (s.tenants.get a).members = ⟨0, 0⟩ := perFeed_ext fun f => (none f).trans (by cases f <;> rfl)
  have stale : (s.tenants.get a).stale = 0 := by
    rw [h.stale, List.countP_eq_zero]
    intro e he
    unfold Outlet.isStaleMember
    rw [nobody .a e he, nobody .b e he]
    exact Bool.false_ne_true
  unfold Tenant.accounted
  rw [draw, members, stale, show (s.tenants.get a).pendingIn = 0 by omega]
  rfl

theorem takeRemove_keeps (r : Request) (t : Slot) (s : State) : Keeps s (takeRemove r t s) := by
  refine .ite (fun _ => answer_keeps ..) fun _ => .ite (fun _ => answer_keeps ..) fun unused => (answer_keeps ..).after ?_
  have cleared : Keeps s (setTenant t .cleared s) :=
    .of_tenant fun acc => ⟨(acc.sums_of_unused (Bool.eq_false_iff.mpr unused)).symm, fun _ => rfl⟩
  exact .ite (fun _ => cleared.trans ((Keeps.withReview ..).after (.withReview ..))) fun _ => cleared

theorem placeExport_keeps (tag : Byte) (ack : Bool) (t : Slot) (s : State) : Keeps s (placeExport tag ack t s) :=
  (answer_keeps ..).after (.of_same rfl rfl)

theorem takeExport_keeps (r : Request) (t : Slot) (s : State) : Keeps s (takeExport r t s) :=
  .ite (fun _ => answer_keeps ..) fun _ => .ite (fun _ => placeExport_keeps ..) fun _ => .withMgmt ..

theorem resumeExport_keeps (j : ExportJob) (s : State) : Keeps s (resumeExport j s) :=
  .trans (.withMgmt ..) (.ite (fun _ => answer_keeps ..) fun _ => placeExport_keeps ..)

theorem takeClose_keeps (r : Request) (s : State) : Keeps s (takeClose r s) :=
  .ite (fun _ => answer_keeps ..) fun _ => (answer_keeps ..).after (.withReview ..)

/-! ### The ROSTER and CONTROL units -/

theorem takeSetNode_keeps (r : Request) (a : NodeIx × Bool) (s : State) : Keeps s (takeSetNode r a s) :=
  (answer_keeps ..).after (.ite (fun _ => .ite (fun _ => modifyNode_keeps ..) fun _ => .refl s)
    fun _ => .ite (fun _ => .refl s) fun _ => leaveNode_keeps ..)

theorem writeLimit_keeps (n : NodeIx) (c : Capacity) (s : State) : Keeps s (writeLimit n c s) :=
  .ite (fun _ => (sendLimitNote_keeps ..).after (modifyNode_keeps ..)) fun _ => modifyNode_keeps ..

theorem takeReadNode_keeps (r : Request) (a : NodeIx × Bool) (s : State) : Keeps s (takeReadNode r a s) := by
  unfold takeReadNode answerRead
  refine (answer_keeps ..).after ?_
  exact .ite (fun _ => modifyNode_keeps ..) fun _ => .refl s

theorem takeReadStatus_keeps (r : Request) (clear : Bool) (s : State) : Keeps s (takeReadStatus r clear s) := by
  unfold takeReadStatus answerRead
  refine (answer_keeps ..).after ?_
  exact .ite (fun _ => (setCounts_keeps ..).after (setSticky_keeps ..)) fun _ => .refl s

theorem expireSilent_keeps (s : State) : Keeps s (expireSilent s) := .foldl (fun x n => expireNode_keeps n x) _ s

theorem abandonUnit_keeps (u : RequestUnit) (s : State) : Keeps s (abandonUnit u s) := by
  cases u <;> exact .of_same rfl rfl

/-- Time set aside on entry to RUN keeps every tenant's sums (R60). -/
theorem enterRun_keeps (s : State) : Keeps s (enterRun s) := by
  refine .of_tenants fun acc a => ?_
  unfold Tenant.enterRun
  split
  · exact Keeps.kept_refl acc a
  · next used => exact .of_used rfl used

end Sys2Proof.Machine


namespace Sys2Proof.Machine

/-! ### Every step -/

/-- The step from `s` to `t` keeps the accounts exact, and the effective memberships too when a pass is in flight before and
after it. -/
structure SoundStep (s t : State) : Prop where
  accounts : Accounts s → Accounts t
  inPass : passInFlight s = true → passInFlight t = true →
    ∀ i, (t.map.entries.get i).effective = (s.map.entries.get i).effective

theorem Keeps.sound {s t : State} (h : Keeps s t) : SoundStep s t := ⟨h.accounts, fun _ _ => h.effective⟩

theorem passInFlight_congr {s t : State} (h : t.review = s.review) : passInFlight t = passInFlight s := by
  unfold passInFlight; rw [h]

namespace SoundStep

/-- A step that ends any pass has its accounts to keep only. -/
theorem of_idle {s t : State} (accounts : Accounts s → Accounts t) (idle : passInFlight t = false) : SoundStep s t :=
  ⟨accounts, fun _ inPass => absurd inPass (by rw [idle]; exact Bool.false_ne_true)⟩

theorem before {s t u : State} (h : SoundStep s t) (k : Keeps t u) (review : u.review = t.review) : SoundStep s u :=
  ⟨fun a => k.accounts (h.accounts a), fun ps pu i => (k.effective i).trans
    (h.inPass ps (by rw [← passInFlight_congr review]; exact pu) i)⟩

theorem after {s t u : State} (h : SoundStep t u) (k : Keeps s t) (review : t.review = s.review) : SoundStep s u :=
  ⟨fun a => h.accounts (k.accounts a), fun ps pu i => (h.inPass (by rw [passInFlight_congr review]; exact ps) pu i).trans
    (k.effective i)⟩

theorem answered {s t : State} (h : SoundStep s t) (u : RequestUnit) (tag : Byte) (w : Bool) (st : Status)
    (d : ReplyData) : SoundStep s (answer u tag w st d t) :=
  h.before (answer_keeps ..) ((answer_touches ..).2 .review rfl)

end SoundStep

theorem serve_sound {α : Type} {u : RequestUnit} {r : Request} {parse : List Byte → Option α}
    {act : α → State → State} (h : ∀ a x, SoundStep x (act a x)) (s : State) : SoundStep s (serve u r parse act s) := by
  obtain ⟨x, hx, hr | ⟨a, -, ha⟩⟩ := serve_cases u r parse act s
  · exact ((Keeps.of_touches hx).trans (.of_touches hr)).sound
  · rw [ha]; exact (h a x).after (.of_touches hx) (hx.2 .review rfl)

/-! The commands that move members: ASSIGN, the end of a pass, and the resets. -/

/-- An ASSIGN that names a FREE tenant stops (R16). -/
theorem assignResult_free {i : OutletIx} {m : Membership} {s : State} {a : Slot} (hm : m.tenant = some a)
    (free : (s.tenants.get a).state = .free) : assignResult i m s = .stopped := by
  simp [assignResult, hm, free]

/-- Any other ASSIGN applies its change out of a pass, and stages it in one (R9, R11, R16). -/
theorem assignResult_used {i : OutletIx} {m : Membership} {s : State}
    (used : ∀ a, m.tenant = some a → (s.tenants.get a).state ≠ .free) :
    assignResult i m s = if passInFlight s then
      (if (s.map.entries.get i).pending.isSome then .superseded else .staged) else .applied := by
  unfold assignResult
  rcases hm : m.tenant with _ | a
  · cases passInFlight s <;> rfl
  · cases passInFlight s <;> simp [used a hm]

/-- Where an ASSIGN does not stop, the tenant it names is in use. -/
theorem used_of_assignResult {i : OutletIx} {m : Membership} {s : State} (h : assignResult i m s ≠ .stopped) (a : Slot)
    (hm : m.tenant = some a) : (s.tenants.get a).state ≠ .free :=
  fun free => h (assignResult_free hm free)

/-- During a pass nothing is applied. -/
theorem assignResult_inPass {i : OutletIx} {m : Membership} {s : State} (h : passInFlight s = true) :
    assignResult i m s ≠ .applied := by
  intro applied
  have used := used_of_assignResult (i := i) (m := m) (s := s) (by rw [applied]; exact EntryResult.noConfusion)
  have stages := assignResult_used (i := i) used
  rw [applied, if_pos h] at stages
  split at stages <;> cases stages

/-- A change staged leaves every effective membership as it is (R11). -/
theorem stageChange_effective (i : OutletIx) (m : Membership) (s : State) (j : OutletIx) :
    ((stageChange i m s).map.entries.get j).effective = (s.map.entries.get j).effective := by
  rw [stageChange_map]
  dsimp only
  rw [Table.get_set]
  split
  · next h => rw [h]
  · rfl

theorem assignAt_sound (i : OutletIx) (m : Membership) (s : State) : SoundStep s (assignAt i m s) := by
  have staged (h : assignResult i m s ≠ .stopped) : SoundStep s (stageChange i m s) :=
    ⟨fun acc => stageChange_accounts acc i (used_of_assignResult h), fun _ _ => stageChange_effective i m s⟩
  unfold assignAt
  split
  · exact (Keeps.refl s).sound
  · next h =>
    exact ⟨fun acc => applyChange_accounts acc i (used_of_assignResult (by rw [h]; exact EntryResult.noConfusion)),
      fun inPass => absurd h (assignResult_inPass inPass)⟩
  · next h => exact staged (by rw [h]; exact EntryResult.noConfusion)
  · next h => exact staged (by rw [h]; exact EntryResult.noConfusion)

theorem assignStep_sound (tag : Byte) (ack : Bool) (m : Membership) (i : OutletIx) (left : Nat) (c : Nat × Nat × Nat)
    (s : State) : SoundStep s (assignStep tag ack m i left c s) := by
  have handled (j : Option MapJob) : SoundStep s (setMapJob j (assignAt i m s)) :=
    (assignAt_sound i m s).before (.withMgmt ..) rfl
  unfold assignStep
  dsimp only
  split
  · exact (handled none).answered ..
  · exact handled _

theorem takeAssign_sound (r : Request) (a : OutletIx × Nat × Membership) (s : State) : SoundStep s (takeAssign r a s) := by
  unfold takeAssign
  split
  · exact assignStep_sound ..
  · exact (Keeps.withMgmt ..).sound

theorem alterStep_keeps (tag : Byte) (ack : Bool) (op : FlagOp) (mask : BitVec 6) (i : OutletIx) (left changed : Nat)
    (s : State) : Keeps s (alterStep tag ack op mask i left changed s) := by
  have altered : Keeps s (alterFlagsAt i op mask s) := by
    refine ⟨fun acc => alterFlagsAt_accounts acc i op mask, fun j => ?_⟩
    refine (congrArg Outlet.effective (Table.get_modify _ _ _ _)).trans ?_
    split
    · next h => rw [h]
    · rfl
  exact .ite (fun _ => (answer_keeps ..).after ((Keeps.withMgmt ..).after altered))
    fun _ => (Keeps.withMgmt ..).after altered

theorem writeProfile_keeps (i : OutletIx) (p k : Fin 16) (s : State) :
    Keeps s (modifyOutlet i (fun e => { e with profile := p, rank := k }) s) := .of_outlet fun _ => rfl

theorem writeTiming_keeps (a : Fin 7 × Nat × Nat) (s : State) : Keeps s (writeTiming a s) := .of_same rfl rfl

theorem endPass_accounts {s : State} (h : Accounts s) : Accounts (endPass s) := by
  have posted : Accounts (post .review 0x0021 (applyAllPending s)) :=
    (post_keeps ..).accounts (applyAllPending_accounts h)
  refine (Keeps.withReview _ _).accounts ?_
  exact (Keeps.ite (fun _ => (post_keeps ..).after (.withReview ..)) fun _ => .refl _).accounts posted

theorem endPass_sound (s : State) : SoundStep s (endPass s) := .of_idle endPass_accounts rfl

theorem changeState_sound (x : OpState) (s : State) : SoundStep s (changeState x s) := by
  unfold changeState
  split
  · exact (Keeps.refl s).sound
  · split
    · exact ((enterRun_keeps _).after ((Keeps.withMgmt ..).after (takeWaiting_keeps s))).sound
    · split
      · exact (endPass_sound _).after (.withMgmt ..) rfl
      · exact (Keeps.withMgmt ..).sound

/-- The accounts of the cold-reset values: nothing is anybody's member and every slot is cleared. -/
theorem accounts_of_reset {s : State} (map : s.map = State.reset.map) (tenants : s.tenants = State.reset.tenants) :
    Accounts s := by
  have cold : ∀ e ∈ s.map.entries.rows, e = Outlet.cold := fun e he => by
    rw [map] at he; exact List.eq_of_mem_replicate he
  have cleared (a : Slot) : s.tenants.get a = Tenant.cleared := by rw [tenants]; exact Table.get_fill _ _
  have none (p : Outlet → Bool) (h : p .cold = false) : s.map.entries.rows.countP p = 0 :=
    List.countP_eq_zero.mpr fun e he => by rw [cold e he, h]; exact Bool.false_ne_true
  refine ⟨fun a f => ?_, fun a f => ?_, fun a => ?_, fun a => ?_, ?_, ?_, fun a _ => cleared a⟩
  · have zero : s.map.entries.rows.map (fun e => e.drawOn a f) = s.map.entries.rows.map (fun _ => 0) :=
      List.map_congr_left fun e he => by rw [cold e he]; rfl
    rw [cleared, memberReadings_eq, zero, sum_map_zero]
    cases f <;> rfl
  · rw [cleared, none _ rfl]
    cases f <;> rfl
  · rw [cleared, none _ rfl]; rfl
  · rw [cleared, none _ rfl]; rfl
  · rw [map, ← map, none _ rfl, map]; rfl
  · rw [map, ← map, none _ rfl, map]; rfl

/-- Readings and freshness cleared over the whole map, and every tenant told (R22, R61). -/
theorem restartReadings_accounts {s : State} (h : Accounts s) : Accounts (restartReadings s) := by
  have entry (i : OutletIx) : (restartReadings s).map.entries.get i =
      { s.map.entries.get i with reading := 0, fresh := false } := Table.get_map _ _ _
  have tenant (a : Slot) : (restartReadings s).tenants.get a = (s.tenants.get a).readingsZeroed := Table.get_map _ _ _
  have sums (a : Slot) : (s.tenants.get a).readingsZeroed.members = (s.tenants.get a).members ∧
      (s.tenants.get a).readingsZeroed.pendingIn = (s.tenants.get a).pendingIn ∧
      (s.tenants.get a).readingsZeroed.draw = ⟨0, 0⟩ ∧
      (s.tenants.get a).readingsZeroed.stale = (s.tenants.get a).members.a + (s.tenants.get a).members.b ∧
      ((s.tenants.get a).readingsZeroed.state = .free → (s.tenants.get a).readingsZeroed = .cleared) := by
    unfold Tenant.readingsZeroed
    split
    · next free => rw [h.freeCleared a free]; exact ⟨rfl, rfl, rfl, rfl, fun _ => rfl⟩
    · next used => exact ⟨rfl, rfl, rfl, rfl, fun free => absurd free used⟩
  refine ⟨fun a f => ?_, fun a f => ?_, fun a => ?_, fun a => ?_, ?_, ?_, fun a free => ?_⟩
  · have zero : ((restartReadings s).map.entries.rows.map (fun e => e.drawOn a f)).sum =
        (s.map.entries.rows.map (fun _ => 0)).sum := sum_rows_congr fun i => by
      rw [entry]; unfold Outlet.drawOn; split <;> rfl
    rw [tenant, (sums a).2.2.1, memberReadings_eq, zero, sum_map_zero]
    cases f <;> rfl
  · rw [tenant, (sums a).1, h.members]
    exact countP_rows_congr fun i => by rw [entry]; rfl
  · have disjoint : ∀ l : List Outlet, l.countP (fun e => e.isMember a .a || e.isMember a .b) =
        l.countP (fun e => e.isMember a .a) + l.countP (fun e => e.isMember a .b) := fun l => by
      induction l with
      | nil => rfl
      | cons e l ih =>
        simp only [List.countP_cons, ih]
        have apart : ¬ (e.isMember a .a = true ∧ e.isMember a .b = true) := by
          rintro ⟨ha, hb⟩
          have := (isMember_iff e a .a).mp ha
          rw [(isMember_iff e a .b).mp hb] at this
          cases this
        cases ha : e.isMember a .a <;> cases hb : e.isMember a .b <;> simp_all <;> omega
    rw [tenant, (sums a).2.2.2.1]
    have ma : (s.tenants.get a).members.a = _ := h.members a .a
    have mb : (s.tenants.get a).members.b = _ := h.members a .b
    rw [ma, mb, ← disjoint]
    exact countP_rows_congr fun i => by rw [entry]; unfold Outlet.isStaleMember; rw [Bool.not_false, Bool.and_true]; rfl
  · rw [tenant, (sums a).2.1, h.pendingIn]
    exact countP_rows_congr fun i => by rw [entry]; rfl
  · refine h.pendingCount.trans (countP_rows_congr fun i => ?_)
    rw [entry]
  · refine h.attention.trans (countP_rows_congr fun i => ?_)
    rw [entry]
  · rw [tenant] at free ⊢
    exact (sums a).2.2.2.2 free

theorem restartOrders_keeps (s : State) : Keeps s (restartOrders s) := by
  have dropped : Keeps s (s.withTenants (s.tenants.map Tenant.dropUnconfirmed)) :=
    .of_tenants fun acc a => ⟨rfl, fun free => by rw [acc.freeCleared a free]; rfl⟩
  exact (Keeps.withOrders ..).after ((Keeps.foldl (fun x o => writeStatus_keeps ..) _ _).after dropped)

theorem restartOrders_review (s : State) : (restartOrders s).review = s.review :=
  (Touches.foldl (f := fun x (o : Order) => writeStatus o.outlet .unknown .unknown x)
    (fun x o => modifyOutlet_touches o.outlet _ x) _ _).2 .review rfl

theorem restartUnits_keeps (s : State) : Keeps s (restartUnits s) := .of_same rfl rfl
theorem restartReview_keeps (s : State) : Keeps s (restartReview s) := .withReview ..
theorem restartLinks_keeps (s : State) : Keeps s (restartLinks s) := .of_same rfl rfl
theorem restartRoster_keeps (s : State) : Keeps s (restartRoster s) := .of_same rfl rfl
theorem restartPorts_keeps (s : State) : Keeps s (restartPorts s) := .of_same rfl rfl
theorem restartState_keeps (s : State) : Keeps s (restartState s) := .withMgmt ..

theorem warmRestart_accounts {s : State} (h : Accounts s) : Accounts (warmRestart s) := by
  have ended := ((restartReview_keeps _).after (restartUnits_keeps s)).accounts h
  have settled := ((restartOrders_keeps _).after (restartLinks_keeps _)).accounts (applyAllPending_accounts ended)
  exact ((restartState_keeps _).after ((restartPorts_keeps _).after (restartRoster_keeps _))).accounts
    (restartReadings_accounts settled)

theorem warmRestart_idle (s : State) : (warmRestart s).review.pass = .idle := by
  change (restartOrders (restartLinks (applyAllPending (restartReview (restartUnits s))))).review.pass = .idle
  rw [restartOrders_review]
  change (applyAllPending (restartReview (restartUnits s))).review.pass = .idle
  rw [(applyAllPending_touches _).2 .review rfl]
  rfl

theorem warmRestart_sound (s : State) : SoundStep s (warmRestart s) :=
  .of_idle warmRestart_accounts (by unfold passInFlight; rw [warmRestart_idle]; rfl)

/-- Every command keeps the accounts exact, and during a pass the effective memberships. -/
theorem exec_sound (c : Instr) (s : State) : ∃ t, exec c s = .next t ∧ SoundStep s t := by
  cases c with
  | coldReset => exact ⟨_, rfl, .of_idle (fun _ => accounts_of_reset rfl rfl) rfl⟩
  | nodeReadings f => exact ⟨_, rfl, (nodePortFrame_keeps (takeReadings_keeps f) s).sound⟩
  | nodeJoin f => exact ⟨_, rfl, (nodePortFrame_keeps (takeJoin_keeps f) s).sound⟩
  | nodeOrderDone f => exact ⟨_, rfl, (nodePortFrame_keeps (takeOrderDone_keeps f) s).sound⟩
  | nodeThrough f => exact ⟨_, rfl, (nodePortFrame_keeps (fun _ x => joinTransit_keeps _ x) s).sound⟩
  | passDown k f => exact ⟨_, rfl, (passDownFrame_keeps k f s).sound⟩
  | frameDiscard p k f =>
    exact ⟨_, rfl, (Keeps.ite (fun _ => arrive_keeps (fun x => setCounts_keeps _ x) s) fun _ => .refl s).sound⟩
  | frameError p b => exact ⟨_, rfl, (Keeps.ite (fun _ => .refl s) fun _ => receiveBytes_keeps p b s).sound⟩
  | byteGapTimeout p b =>
    exact ⟨_, rfl, (Keeps.ite (fun _ => .refl s)
      fun _ => (abandonFrame_keeps p _).after (receiveBytes_keeps p b s)).sound⟩
  | requestUnserved p => exact ⟨_, rfl, (takeUnserved_keeps p s).sound⟩
  | nodeSendDone => exact ⟨_, rfl, (Keeps.withDown ..).sound⟩
  | limitNoteOwedSent => exact ⟨_, rfl, (sendOwedNote_keeps s).sound⟩
  | uplinkSendDone => exact ⟨_, rfl, (Keeps.withUp ..).sound⟩
  | visitRetry => exact ⟨_, rfl, (Keeps.ite (fun _ => retryVisit_keeps s) fun _ => .refl s).sound⟩
  | exportResume =>
    refine ⟨_, rfl, Keeps.sound ?_⟩
    split
    · exact .refl s
    · exact .ite (fun _ => resumeExport_keeps ..) fun _ => .refl s
  | tickExpiry g => exact ⟨_, rfl, (Keeps.ite (fun _ => expireTick_keeps g s) fun _ => .refl s).sound⟩
  | reviewTick => exact ⟨_, rfl, (Keeps.ite (fun _ => expireReviewTick_keeps s) fun _ => .refl s).sound⟩
  | orderTimeout n => exact ⟨_, rfl, (expireOrder_keeps n s).sound⟩
  | nodeSilence n => exact ⟨_, rfl, (expireNode_keeps n s).sound⟩
  | reviewVisit => exact ⟨_, rfl, (Keeps.ite (fun _ => visitSlot_keeps _ s) fun _ => .refl s).sound⟩
  | passEnd =>
    refine ⟨_, rfl, ?_⟩
    split
    · exact endPass_sound s
    · exact (Keeps.refl s).sound
  | eventScan p => exact ⟨_, rfl, (takeNextEvent_keeps p s).sound⟩
  | shedReport => exact ⟨_, rfl, (takeReport_keeps s).sound⟩
  | shedRequestTake => exact ⟨_, rfl, (takeShedRequest_keeps s).sound⟩
  | shedSearchStep =>
    refine ⟨_, rfl, Keeps.sound ?_⟩
    split
    · exact .refl s
    · exact .withOrders ..
  | shedSearchEnd =>
    refine ⟨_, rfl, Keeps.sound ?_⟩
    split
    · exact .refl s
    · exact .ite (fun _ => endSearch_keeps ..) fun _ => .refl s
  | assignEntry =>
    refine ⟨_, rfl, ?_⟩
    split
    · exact assignStep_sound ..
    · exact (Keeps.refl s).sound
    · exact (Keeps.refl s).sound
  | alterFlagsEntry =>
    refine ⟨_, rfl, Keeps.sound ?_⟩
    split
    · exact alterStep_keeps ..
    · exact .refl s
    · exact .refl s
  | readEntries r => exact ⟨_, rfl, (serve_keeps (fun _ _ => answer_keeps ..) s).sound⟩
  | assign r => exact ⟨_, rfl, serve_sound (takeAssign_sound r) s⟩
  | setOutlet r => exact ⟨_, rfl, (serve_keeps (fun _ _ => (answer_keeps ..).after (writeProfile_keeps ..)) s).sound⟩
  | alterFlags r => exact ⟨_, rfl, (serve_keeps (fun _ _ => .withMgmt ..) s).sound⟩
  | setProfile r => exact ⟨_, rfl, (serve_keeps (fun _ _ => (answer_keeps ..).after (.withProfiles ..)) s).sound⟩
  | readProfile r => exact ⟨_, rfl, (serve_keeps (fun _ _ => answer_keeps ..) s).sound⟩
  | create r => exact ⟨_, rfl, (serve_keeps (takeCreate_keeps r) s).sound⟩
  | setContract r => exact ⟨_, rfl, (serve_keeps (takeSetContract_keeps r) s).sound⟩
  | activate r => exact ⟨_, rfl, (serve_keeps (takeActivate_keeps r) s).sound⟩
  | suspend r => exact ⟨_, rfl, (serve_keeps (takeSuspend_keeps r) s).sound⟩
  | remove r => exact ⟨_, rfl, (serve_keeps (takeRemove_keeps r) s).sound⟩
  | setPreset r => exact ⟨_, rfl, (serve_keeps (takeSetPreset_keeps r) s).sound⟩
  | readTenant r => exact ⟨_, rfl, (serve_keeps (fun _ _ => answer_keeps ..) s).sound⟩
  | setLink r =>
    exact ⟨_, rfl, ((serve_keeps (fun _ _ => (answer_keeps ..).after (modifyLink_keeps ..)) _).after
      (finishChain_keeps s)).sound⟩
  | readLink r => exact ⟨_, rfl, ((serve_keeps (fun _ _ => answer_keeps ..) _).after (finishChain_keeps s)).sound⟩
  | rearm r =>
    exact ⟨_, rfl, ((serve_keeps (fun _ _ => (answer_keeps ..).after (modifyLink_keeps ..)) _).after
      (finishChain_keeps s)).sound⟩
  | switchOrder r => exact ⟨_, rfl, (serve_keeps (takeSwitchOrder_keeps r) s).sound⟩
  | shedTenant r => exact ⟨_, rfl, (serve_keeps (takeSwitchShed_keeps .shed r) s).sound⟩
  | restoreTenant r => exact ⟨_, rfl, (serve_keeps (takeSwitchShed_keeps .restore r) s).sound⟩
  | setNodeDisable r => exact ⟨_, rfl, (serve_keeps (takeSetNode_keeps r) s).sound⟩
  | setNodeEnable r => exact ⟨_, rfl, (serve_keeps (takeSetNode_keeps r) s).sound⟩
  | setLimit r => exact ⟨_, rfl, (serve_keeps (fun _ _ => (answer_keeps ..).after (writeLimit_keeps ..)) s).sound⟩
  | readNode r => exact ⟨_, rfl, (serve_keeps (takeReadNode_keeps r) s).sound⟩
  | readStates r => exact ⟨_, rfl, (serve_keeps (fun _ _ => answer_keeps ..) s).sound⟩
  | close r => exact ⟨_, rfl, (serve_keeps (fun _ x => takeClose_keeps r x) s).sound⟩
  | exportTenant r => exact ⟨_, rfl, (serve_keeps (takeExport_keeps r) s).sound⟩
  | importTenant r => exact ⟨_, rfl, (serve_keeps (takeImport_keeps r) s).sound⟩
  | readIdent r => exact ⟨_, rfl, (serve_keeps (fun _ _ => answer_keeps ..) s).sound⟩
  | setState r => exact ⟨_, rfl, serve_sound (fun x y => (changeState_sound x y).answered ..) s⟩
  | setTiming r =>
    exact ⟨_, rfl, (serve_keeps (fun a x => (answer_keeps ..).after
      ((expireSilent_keeps _).after (writeTiming_keeps a x))) s).sound⟩
  | setForward r => exact ⟨_, rfl, (serve_keeps (fun _ _ => (answer_keeps ..).after (.withPorts ..)) s).sound⟩
  | readStatus r => exact ⟨_, rfl, (serve_keeps (takeReadStatus_keeps r) s).sound⟩
  | readTags r => exact ⟨_, rfl, (serve_keeps (fun _ _ => answer_keeps ..) s).sound⟩
  | restart r => exact ⟨_, rfl, serve_sound (fun _ x => (warmRestart_sound x).answered ..) s⟩
  | resetUnit r =>
    exact ⟨_, rfl, (serve_keeps (fun u x => (answer_keeps ..).after
      ((Keeps.withMgmt ..).after (abandonUnit_keeps u x))) s).sound⟩

/-- Every step keeps the accounts exact, and during a pass the effective memberships. -/
theorem step_sound {s t : State} (h : step s = .next t) : SoundStep s t := by
  cases hp : s.pending with
  | nil =>
    have ht : t = idle s := by
      unfold step at h
      rw [hp] at h
      exact (Host.Outcome.next.inj h).symm
    rw [ht]
    exact (Keeps.withTime ..).sound
  | cons c rest =>
    obtain ⟨x, hx, sound⟩ := exec_sound c (s.withPending rest)
    have ht : t = x := by
      unfold step at h
      rw [hp] at h
      exact Host.Outcome.next.inj (h.symm.trans hx)
    rw [ht]
    exact sound.after (.of_same rfl rfl) rfl

/-- Settles O54: each command is a chain of operations that keep the sums (`exec_sound`). -/
theorem everyStepKeepsTheAccountsExact : Obligations.EveryStepKeepsTheAccountsExact :=
  fun _ _ accounts h => (step_sound h).accounts accounts

/-- Settles O29: during a pass an ASSIGN stages its change, and no other command writes an effective membership. -/
theorem membershipHoldsStillDuringAPass : Obligations.MembershipHoldsStillDuringAPass :=
  fun _ _ h before after => (step_sound h).inPass before after

end Sys2Proof.Machine


/-! The end of a pass (R9, R10, R12, R81, R154). -/

namespace Sys2Proof.Machine

/-! A posted event leaves the map, the tenants, the orders, the roster and the review engine alone. -/

theorem post_map (src : EventSource) (id : Word16) (s : State) : (post src id s).map = s.map :=
  (postAt_touches src ⟨id, 0⟩ s).2 .map rfl

theorem post_tenants (src : EventSource) (id : Word16) (s : State) : (post src id s).tenants = s.tenants :=
  (postAt_touches src ⟨id, 0⟩ s).2 .tenants rfl

theorem post_orders (src : EventSource) (id : Word16) (s : State) : (post src id s).orders = s.orders :=
  (postAt_touches src ⟨id, 0⟩ s).2 .orders rfl

theorem post_roster (src : EventSource) (id : Word16) (s : State) : (post src id s).roster = s.roster :=
  (postAt_touches src ⟨id, 0⟩ s).2 .roster rfl

theorem post_review (src : EventSource) (id : Word16) (s : State) : (post src id s).review = s.review :=
  (postAt_touches src ⟨id, 0⟩ s).2 .review rfl

/-- The state in which the end of a pass looks at the close: every change is in force and 0x0021 is posted. -/
def passSettled (s : State) : State := post .review 0x0021 (applyAllPending s)

theorem passSettled_review (s : State) : (passSettled s).review = s.review :=
  (post_review ..).trans ((applyAllPending_touches s).2 .review rfl)

theorem passSettled_tenants (s : State) : (passSettled s).tenants = (applyAllPending s).tenants :=
  post_tenants ..

theorem allClosed_iff (s : State) : allClosed s = true ↔
    ∀ a, (s.tenants.get a).state ≠ .free → (s.tenants.get a).lastClose = s.review.closeNumber := by
  unfold allClosed
  rw [Table.all_rows]
  refine forall_congr' fun a => ?_
  rw [Bool.or_eq_true, decide_eq_true_iff, decide_eq_true_iff, Ne, Classical.or_iff_not_imp_left]

/-- A membership change leaves states and close numbers alone, so that the close is judged on the tenants as they were. -/
theorem allClosed_passSettled (s : State) : allClosed (passSettled s) = true ↔
    ∀ a, (s.tenants.get a).state ≠ .free → (s.tenants.get a).lastClose = s.review.closeNumber := by
  rw [allClosed_iff, passSettled_review, passSettled_tenants]
  refine forall_congr' fun a => ?_
  rw [(applyAllPending_spec s).2 a]

/-- The review engine as the end of a pass leaves it, but for `closePending`. -/
def Review.ended (r : Review) : Review := { r with pass := .idle, position := 0, walked := false, closing := false }

/-- A closing pass that has closed every tenant ends its close (R81, R154). -/
theorem endPass_closed {s : State} (closing : s.review.closing = true)
    (all : ∀ a, (s.tenants.get a).state ≠ .free → (s.tenants.get a).lastClose = s.review.closeNumber) :
    endPass s = (post .review 0x0022 ((passSettled s).withReview { s.review with closePending := false })).withReview
      { s.review with closePending := false }.ended := by
  have test : ((passSettled s).review.closing && allClosed (passSettled s)) = true := by
    rw [passSettled_review, closing, (allClosed_passSettled s).mpr all]; rfl
  unfold endPass
  dsimp only
  rw [← passSettled, if_pos test, passSettled_review, post_review]
  rfl

/-- Any other pass leaves the close as it is (R81). -/
theorem endPass_open {s : State} (still : s.review.closing = false ∨
      ∃ a, (s.tenants.get a).state ≠ .free ∧ (s.tenants.get a).lastClose ≠ s.review.closeNumber) :
    endPass s = (passSettled s).withReview s.review.ended := by
  have test : ¬ ((passSettled s).review.closing && allClosed (passSettled s)) = true := by
    rw [passSettled_review, Bool.and_eq_true, allClosed_passSettled]
    rintro ⟨closing, all⟩
    rcases still with h | ⟨a, used, other⟩
    · rw [h] at closing; cases closing
    · exact other (all a used)
  unfold endPass
  dsimp only
  rw [← passSettled, if_neg test, passSettled_review]
  rfl

theorem endPass_cases (s : State) :
    (s.review.closing = true ∧ ∀ a, (s.tenants.get a).state ≠ .free → (s.tenants.get a).lastClose = s.review.closeNumber) ∨
    (s.review.closing = false ∨
      ∃ a, (s.tenants.get a).state ≠ .free ∧ (s.tenants.get a).lastClose ≠ s.review.closeNumber) := by
  by_cases h : s.review.closing = true ∧
      ∀ a, (s.tenants.get a).state ≠ .free → (s.tenants.get a).lastClose = s.review.closeNumber
  · exact .inl h
  · refine .inr ?_
    rw [Classical.not_and_iff_not_or_not, Bool.not_eq_true] at h
    refine h.imp_right fun notAll => ?_
    obtain ⟨a, ha⟩ := Classical.not_forall.mp notAll
    exact ⟨a, Classical.not_imp.mp ha⟩

/-- The events come after the changes and leave the map and the tenants as those left them. -/
theorem endPass_map_tenants (s : State) :
    (endPass s).map = (applyAllPending s).map ∧ (endPass s).tenants = (applyAllPending s).tenants := by
  have settled : (passSettled s).map = (applyAllPending s).map := post_map ..
  rcases endPass_cases s with ⟨closing, all⟩ | still
  · rw [endPass_closed closing all, State.withReview_map, State.withReview_tenants, post_map, post_tenants]
    exact ⟨settled, passSettled_tenants s⟩
  · rw [endPass_open still]
    exact ⟨settled, passSettled_tenants s⟩

theorem endPass_entry (s : State) (i : OutletIx) : (endPass s).map.entries.get i = settledEntry i s := by
  rw [(endPass_map_tenants s).1]; exact (applyAllPending_spec s).1 i

theorem endPass_stack (s : State) (a : Slot) : ((endPass s).tenants.get a).stack =
    (s.tenants.get a).stack.filter (fun x => !decide
      (leavesTenant (s.map.entries.get x.outlet).effective (s.map.entries.get x.outlet).settled a)) := by
  rw [(endPass_map_tenants s).2]; exact congrArg Tenant.stack ((applyAllPending_spec s).2 a)

theorem endPass_tenant (s : State) (a : Slot) :
    (endPass s).tenants.get a = { s.tenants.get a with
      draw := ((endPass s).tenants.get a).draw, members := ((endPass s).tenants.get a).members
      stale := ((endPass s).tenants.get a).stale, pendingIn := ((endPass s).tenants.get a).pendingIn
      stack := ((endPass s).tenants.get a).stack } := by
  rw [endPass_stack, (endPass_map_tenants s).2]; exact (applyAllPending_spec s).2 a

theorem endPass_review (s : State) : (endPass s).review.pass = .idle ∧ (endPass s).review.position = 0 ∧
    (endPass s).review.walked = false ∧ (endPass s).review.closing = false ∧
    (endPass s).review.closeNumber = s.review.closeNumber := by
  refine ⟨rfl, rfl, rfl, rfl, ?_⟩
  rcases endPass_cases s with ⟨closing, all⟩ | still
  · rw [endPass_closed closing all]; rfl
  · rw [endPass_open still]; rfl

/-- With no pending change left, exact accounts count none (R2). -/
theorem endPass_pendingCount {s : State} (h : Accounts s) : (endPass s).map.pendingCount = 0 := by
  rw [(endPass_accounts h).pendingCount, List.countP_eq_zero]
  intro e he
  obtain ⟨i, rfl⟩ := Table.mem_rows.mp he
  rw [endPass_entry]
  exact Bool.false_ne_true

theorem mem_of_hasConfirmed {i : OutletIx} {st : List StackEntry} : hasConfirmed i st = true ↔ ⟨i, true⟩ ∈ st := by
  unfold hasConfirmed
  rw [List.any_eq_true]
  constructor
  · rintro ⟨⟨j, c⟩, hx, h⟩
    rw [Bool.and_eq_true, beq_iff_eq] at h
    obtain ⟨rfl, rfl⟩ := h
    exact hx
  · exact fun hx => ⟨_, hx, by simp⟩

/-- A confirmed entry that leaves its tenant has its relay status set to OFF (R10). -/
theorem relayApplied_leaves {i : OutletIx} {m : Membership} {s : State} {a : Slot} {f : Feed}
    (member : (s.map.entries.get i).effective.memberOf = some (a, f)) (leaves : m.memberOf.map (·.1) ≠ some a)
    (entry : ⟨i, true⟩ ∈ (s.tenants.get a).stack) : relayApplied i m s = .off := by
  unfold relayApplied
  simp only [member]
  exact if_pos ⟨leaves, mem_of_hasConfirmed.mpr entry⟩

/-- An outlet that leaves no tenant of which it is a confirmed entry keeps its relay status (R10). -/
theorem relayApplied_stays {i : OutletIx} {m : Membership} {s : State}
    (stays : ∀ a f, (s.map.entries.get i).effective.memberOf = some (a, f) → ⟨i, true⟩ ∈ (s.tenants.get a).stack →
      m.memberOf.map (·.1) = some a) : relayApplied i m s = (s.map.entries.get i).relay := by
  unfold relayApplied
  dsimp only
  split
  · rfl
  · next a f member => exact if_neg fun h => h.1 (stays a f member (mem_of_hasConfirmed.mp h.2))

/-- What the end of a pass does to stacks that agree with the memberships (R10, R49). -/
theorem endPass_stacks {s : State} (h : Shedding s) :
    (∀ a, ((endPass s).tenants.get a).stack = (s.tenants.get a).stack.filter (fun x =>
      decide (((endPass s).map.entries.get x.outlet).effective.memberOf.map (·.1) = some a))) ∧
    (∀ i a, ⟨i, true⟩ ∈ (s.tenants.get a).stack → ⟨i, true⟩ ∉ ((endPass s).tenants.get a).stack →
      ((endPass s).map.entries.get i).relay = .off) ∧
    (∀ i, (∀ a, ⟨i, true⟩ ∈ (s.tenants.get a).stack → ⟨i, true⟩ ∈ ((endPass s).tenants.get a).stack) →
      ((endPass s).map.entries.get i).relay = (s.map.entries.get i).relay) := by
  have stack (a : Slot) : ((endPass s).tenants.get a).stack = (s.tenants.get a).stack.filter (fun x =>
      decide (((endPass s).map.entries.get x.outlet).effective.memberOf.map (·.1) = some a)) := by
    refine (endPass_stack s a).trans (List.filter_congr fun x hx => ?_)
    obtain ⟨f, member⟩ := h.stackMembers a x hx
    rw [endPass_entry, ← decide_not, decide_eq_decide]
    simp only [leavesTenant, member, settledEntry, Option.map_some, true_and, Ne, Classical.not_not]
  have stays {i : OutletIx} {a : Slot} (before : ⟨i, true⟩ ∈ (s.tenants.get a).stack) :
      ⟨i, true⟩ ∈ ((endPass s).tenants.get a).stack ↔ (s.map.entries.get i).settled.memberOf.map (·.1) = some a := by
    rw [stack, List.mem_filter, decide_eq_true_iff, endPass_entry]
    exact and_iff_right before
  refine ⟨stack, fun i a before gone => ?_, fun i all => ?_⟩
  · obtain ⟨f, member⟩ := h.stackMembers a _ before
    rw [endPass_entry]
    exact relayApplied_leaves member (fun k => gone ((stays before).mpr k)) before
  · rw [endPass_entry]
    exact relayApplied_stays fun a f _ before => (stays before).mp (all a before)

theorem storeRoom_iff (s : State) : storeRoom s = true ↔ s.links.chain.length + s.links.arrivals.length < 64 :=
  decide_eq_true_iff

theorem applyAllPending_links (s : State) : (applyAllPending s).links = s.links :=
  (applyAllPending_touches s).2 .links rfl

theorem passSettled_links {s : State} (room : storeRoom s = true) :
    (passSettled s).links = { s.links with arrivals := s.links.arrivals ++ [⟨.review, ⟨0x0021, 0⟩⟩] } := by
  have room' : storeRoom (applyAllPending s) = true := by
    rw [storeRoom_iff, applyAllPending_links]; exact (storeRoom_iff s).mp room
  unfold passSettled
  rw [post_room room', applyAllPending_links]
  rfl

/-- The events of a pass that ends a close (R81, R154). -/
theorem endPass_closed_events {s : State} (closing : s.review.closing = true)
    (all : ∀ a, (s.tenants.get a).state ≠ .free → (s.tenants.get a).lastClose = s.review.closeNumber) :
    (endPass s).review.closePending = false ∧ (s.links.chain.length + s.links.arrivals.length < 63 →
      (endPass s).links.arrivals = s.links.arrivals ++ [⟨.review, ⟨0x0021, 0⟩⟩, ⟨.review, ⟨0x0022, 0⟩⟩]) := by
  rw [endPass_closed closing all]
  refine ⟨rfl, fun room => ?_⟩
  have settled := passSettled_links ((storeRoom_iff s).mpr (by omega))
  have room' : storeRoom ((passSettled s).withReview { s.review with closePending := false }) = true := by
    rw [storeRoom_iff, State.withReview_links, settled]
    simp only [List.length_append, List.length_singleton]
    omega
  rw [State.withReview_links, post_room room', State.withLinks_links, State.withReview_links, settled]
  simp only [List.append_assoc, List.cons_append, List.nil_append]

/-- The event of any other pass (R81). -/
theorem endPass_open_events {s : State} (still : s.review.closing = false ∨
      ∃ a, (s.tenants.get a).state ≠ .free ∧ (s.tenants.get a).lastClose ≠ s.review.closeNumber) :
    (endPass s).review.closePending = s.review.closePending ∧ (storeRoom s = true →
      (endPass s).links.arrivals = s.links.arrivals ++ [⟨.review, ⟨0x0021, 0⟩⟩]) := by
  rw [endPass_open still]
  exact ⟨rfl, fun room => by rw [State.withReview_links, passSettled_links room]⟩

/-- Settles O28: the changes of `applyAllPending_spec`, then the events, then the engine at rest. -/
theorem passEndAppliesStagedChanges : Obligations.PassEndAppliesStagedChanges := by
  refine ⟨fun s visiting walked => ?_, fun s => ?_⟩
  · have due : passEndDue s = true := by unfold passEndDue; rw [visiting, walked]; rfl
    exact congrArg Host.Outcome.next (if_pos due)
  · have touched := (endPass_touches s).2
    obtain ⟨pass, position, walked, closing, number⟩ := endPass_review s
    refine ⟨fun i => ?_, fun a => ?_, endPass_accounts, endPass_stacks, touched .time rfl, touched .profiles rfl,
      touched .orders rfl, touched .roster rfl, touched .down rfl, touched .ports rfl, endPass_pendingCount,
      pass, position, walked, closing, number, endPass_closed_events, endPass_open_events⟩
    · rw [endPass_entry]; rfl
    · exact endPass_tenant s a

end Sys2Proof.Machine


/-! The MAP unit: ASSIGN and ALTER_FLAGS at one entry, the steps of the long operations, and the acceptance of requests
(R9 to R20). -/

namespace Sys2Proof.Machine

/-! ### ASSIGN at one entry -/

theorem passInFlight_of_idle {s : State} (h : s.review.pass = .idle) : passInFlight s = false := by
  unfold passInFlight; rw [h]; rfl

theorem passInFlight_of_not_idle {s : State} (h : s.review.pass ≠ .idle) : passInFlight s = true := decide_eq_true h

theorem assignAt_free {i : OutletIx} {m : Membership} {s : State} {a : Slot} (hm : m.tenant = some a)
    (free : (s.tenants.get a).state = .free) : assignAt i m s = s := by
  unfold assignAt; rw [assignResult_free hm free]

section
variable {i : OutletIx} {m : Membership} {s : State}
  (used : ∀ a, m.tenant = some a → (s.tenants.get a).state ≠ .free)
include used

theorem assignResult_idle (idle : s.review.pass = .idle) : assignResult i m s = .applied := by
  rw [assignResult_used used, passInFlight_of_idle idle]; rfl

theorem assignAt_idle (idle : s.review.pass = .idle) : assignAt i m s = applyChange i m s := by
  unfold assignAt; rw [assignResult_idle used idle]

theorem assignResult_busy (busy : s.review.pass ≠ .idle) :
    assignResult i m s = if (s.map.entries.get i).pending = none then .staged else .superseded := by
  rw [assignResult_used used, if_pos (passInFlight_of_not_idle busy)]
  cases (s.map.entries.get i).pending <;> rfl

theorem assignAt_busy (busy : s.review.pass ≠ .idle) : assignAt i m s = stageChange i m s := by
  have result := assignResult_busy (i := i) used busy
  unfold assignAt
  rw [result]
  split
  · next h => split at h <;> cases h
  · next h => split at h <;> cases h
  · rfl
  · rfl

end

theorem removeEntry_eq (i : OutletIx) (st : List StackEntry) :
    removeEntry i st = st.filter (fun x => decide (x.outlet ≠ i)) :=
  List.filter_congr fun x _ => by rw [decide_not]; rfl

/-- The outlet leaves tenant `a` when it is a member and would be none under `m` (R10). -/
theorem leavesTenant_iff (before m : Membership) (a : Slot) :
    leavesTenant before m a ↔ (∃ f, before.memberOf = some (a, f)) ∧ (m.tenant ≠ some a ∨ m.excluded = true) := by
  have out : m.memberOf.map (·.1) ≠ some a ↔ m.tenant ≠ some a ∨ m.excluded = true := by
    rw [Ne, memberOf_fst, Classical.not_and_iff_not_or_not, Bool.not_eq_false]
  have inside : before.memberOf.map (·.1) = some a ↔ ∃ f, before.memberOf = some (a, f) := by
    rcases before.memberOf with _ | ⟨b, f⟩ <;> simp
  exact and_congr inside out

theorem applyChange_entry (i : OutletIx) (m : Membership) (s : State) :
    (applyChange i m s).map.entries.get i =
      { s.map.entries.get i with effective := m, relay := relayApplied i m s } := by
  rw [(applyChange_spec i m s).1]; exact Table.get_set_same _ _ _

theorem applyChange_other {i j : OutletIx} (h : j ≠ i) (m : Membership) (s : State) :
    (applyChange i m s).map.entries.get j = s.map.entries.get j := by
  rw [(applyChange_spec i m s).1]; exact Table.get_set_other _ _ h

theorem applyChange_stack (i : OutletIx) (m : Membership) (s : State) (a : Slot) :
    ((applyChange i m s).tenants.get a).stack =
      if leavesTenant (s.map.entries.get i).effective m a then removeEntry i (s.tenants.get a).stack
      else (s.tenants.get a).stack := congrArg Tenant.stack ((applyChange_spec i m s).2 a)

/-- Settles O42: a FREE tenant stops the ASSIGN, an idle engine has it applied, a pass in flight has it staged. -/
theorem assignAppliesOrStagesAtTheEntry : Obligations.AssignAppliesOrStagesAtTheEntry := by
  intro s i m e t
  refine ⟨fun a hm free => ⟨assignResult_free hm free, assignAt_free hm free⟩, fun used => ⟨fun idle => ?_, fun busy => ?_⟩⟩
  · have ht : t = applyChange i m s := assignAt_idle used idle
    rw [ht]
    have entry := applyChange_entry i m s
    refine ⟨assignResult_idle used idle, by rw [entry], by rw [entry], fun j hj => applyChange_other hj m s, fun a => ?_,
      fun a => ⟨fun leaves => ?_, fun leaves inStack => ?_, fun stays => ?_⟩, fun stays => ?_,
      fun accounts => applyChange_accounts accounts i used⟩
    · have frame := (applyChange_spec i m s).2 a
      rw [← applyChange_stack] at frame
      exact frame
    · rw [applyChange_stack, if_pos ((leavesTenant_iff ..).mpr leaves), removeEntry_eq]
    · obtain ⟨f, member⟩ := leaves.1
      rw [entry]
      exact relayApplied_leaves member ((leavesTenant_iff ..).mpr leaves).2 inStack
    · rw [applyChange_stack, if_neg (fun h => stays ((leavesTenant_iff ..).mp h))]
    · rw [entry]
      exact relayApplied_stays fun a f member inStack => (memberOf_fst m a).mpr (stays a f member inStack)
  · have ht : t = stageChange i m s := assignAt_busy used busy
    rw [ht, stageChange_map]
    refine ⟨assignResult_busy used busy, rfl, ?_, fun a => ?_⟩
    · cases hp : e.pending <;> simp
    · rw [stageChange_tenant]
      exact ⟨rfl, rfl, rfl, rfl⟩

/-! ### The steps of the long operations -/

/-- The counts of an ASSIGN after one more entry, count by count (R17). -/
theorem countEntry_eq (res : EntryResult) (a st su : Nat) : countEntry res (a, st, su) =
    (a + if res = .applied then 1 else 0, st + if res = .staged then 1 else 0, su + if res = .superseded then 1 else 0) := by
  cases res <;> rfl

theorem assignStep_stopped {m : Membership} {i : OutletIx} {s : State} (h : assignResult i m s = .stopped) (tag : Byte)
    (ack : Bool) (left a st su : Nat) : assignStep tag ack m i left (a, st, su) s =
      answer .map tag ack .notFound (.assigned a st su) (setMapJob none (assignAt i m s)) := by
  unfold assignStep
  dsimp only
  rw [if_pos (.inl h), h]
  rfl

theorem assignStep_goes_on {m : Membership} {i : OutletIx} {s : State} (h : assignResult i m s ≠ .stopped) {left : Nat}
    (more : 2 ≤ left) (tag : Byte) (ack : Bool) (c : Nat × Nat × Nat) : assignStep tag ack m i left c s =
      setMapJob (some (.assign tag ack m (i + 1) (left - 1) (countEntry (assignResult i m s) c).1
        (countEntry (assignResult i m s) c).2.1 (countEntry (assignResult i m s) c).2.2)) (assignAt i m s) :=
  if_neg (not_or.mpr ⟨h, by omega⟩)

theorem assignStep_ends {m : Membership} {i : OutletIx} {s : State} (h : assignResult i m s ≠ .stopped) {left : Nat}
    (last : left ≤ 1) (tag : Byte) (ack : Bool) (c : Nat × Nat × Nat) : assignStep tag ack m i left c s =
      answerAssign tag ack false (countEntry (assignResult i m s) c) (setMapJob none (assignAt i m s)) := by
  unfold assignStep
  dsimp only
  rw [if_pos (.inr last), beq_eq_false_iff_ne.mpr h]

theorem flagsChange_tally (i : OutletIx) (op : FlagOp) (mask : BitVec 6) (s : State) (changed : Nat) :
    (if flagsChange i op mask s then changed + 1 else changed) =
      changed + if op.combine (s.map.entries.get i).flags mask = (s.map.entries.get i).flags then 0 else 1 := by
  unfold flagsChange
  by_cases h : op.combine (s.map.entries.get i).flags mask = (s.map.entries.get i).flags <;> simp [h]

/-- Settles O43: each command runs one step of its job, which stops, goes on or ends by the lemmas above. -/
theorem longMapOperationsStepEntryByEntry : Obligations.LongMapOperationsStepEntryByEntry := by
  refine fun s => ⟨fun tag ack m i left a st su job => ?_, fun tag ack op mask i left changed job => ?_⟩
  · have run : exec .assignEntry s = .next (assignStep tag ack m i left (a, st, su) s) := by
      show Host.Outcome.next _ = _
      rw [job]
    refine ⟨fun stopped => ?_, fun handled more => ?_, fun handled last => ?_⟩
    · rw [run, assignStep_stopped stopped]; rfl
    · rw [run, assignStep_goes_on handled more, countEntry_eq]; rfl
    · rw [run, assignStep_ends handled last, countEntry_eq]; rfl
  · intro f g changed' t
    have run : exec .alterFlagsEntry s = .next (alterStep tag ack op mask i left changed s) := by
      show Host.Outcome.next _ = _
      rw [job]
    have combined : op.combine (s.map.entries.get i).flags mask = g := by cases op <;> rfl
    have altered : alterFlagsAt i op mask s = t := by
      unfold alterFlagsAt
      dsimp only
      rw [combined]
      rfl
    have count := flagsChange_tally i op mask s changed
    rw [combined] at count
    refine ⟨fun more => ?_, fun last => ?_⟩
    · rw [run]
      unfold alterStep
      dsimp only
      rw [if_neg (by omega), count, altered]
      rfl
    · rw [run]
      unfold alterStep
      dsimp only
      rw [if_pos last, count, altered]
      rfl

/-! ### The acceptance of requests -/

/-- A refusal is answered whether or not an answer is wanted (R174). -/
theorem answer_refusal {st : Status} (h : st.accepts = false) (u : RequestUnit) (tag : Byte) (w : Bool) (d : ReplyData)
    (s : State) : answer u tag w st d s = answer u tag true st d s := by
  unfold answer
  simp [h]

/-- Writing that the MAP unit has no request in execution changes nothing where it has none. -/
theorem setMapJob_none {s : State} (h : s.mgmt.mapJob = none) : setMapJob none s = s := by
  unfold setMapJob
  rw [← h]
  rfl

theorem Admitted.mapJob {r : Request} {s : State} (h : Admitted .map r s) : s.mgmt.mapJob = none :=
  Option.not_isSome_iff_eq_none.mp (Bool.eq_false_iff.mp h.free)

theorem assignResult_received (i : OutletIx) (m : Membership) (s : State) :
    assignResult i m (received .uplink s) = assignResult i m s := rfl

/-- Settles O41: each request passes the checks (`serve_admitted`) and runs on the received state. -/
theorem mapUnitTakesItsRequests : Obligations.MapUnitTakesItsRequests := by
  intro s r admitted s'
  have single {i : OutletIx} {m : Membership} (ha : Args.assign r.args = some (i, 1, m)) :
      exec (.assign r) s = .next (assignStep r.tag (ackWanted r) m i 1 (0, 0, 0) s') :=
    congrArg Host.Outcome.next (serve_admitted admitted ha)
  have idle (i : OutletIx) (m : Membership) : setMapJob none (assignAt i m s') = assignAt i m s' :=
    setMapJob_none (by rw [(assignAt_touches i m s').2 .mgmt rfl]; exact admitted.mapJob)
  refine ⟨fun i count ha => ?_, fun i p k ha => ?_, fun i m ha handled => ?_, fun i m ha stopped => ?_,
    fun i count m ha many => ?_, fun i count mask op ha => ?_⟩
  · exact congrArg Host.Outcome.next (serve_admitted admitted ha)
  · exact congrArg Host.Outcome.next (serve_admitted admitted ha)
  · rw [single ha, assignStep_ends (s := s') handled (Nat.le_refl _), idle]
    unfold answerAssign
    rw [assignResult_received]
    cases hr : assignResult i m s with
    | stopped => exact absurd hr handled
    | applied => rfl
    | staged => rfl
    | superseded => rfl
  · have same : assignAt i m s' = s' := by unfold assignAt; rw [assignResult_received, stopped]
    rw [single ha, assignStep_stopped (s := s') stopped, idle, same, answer_refusal rfl]
  · refine congrArg Host.Outcome.next ((serve_admitted admitted ha).trans ?_)
    exact if_neg (by show ¬ count = 1; omega)
  · exact congrArg Host.Outcome.next (serve_admitted admitted ha)

end Sys2Proof.Machine


/-! A node that goes SILENT: its record, the freshness of its outlets, its orders, its event (R113, R133, R134). -/

namespace Sys2Proof.Machine

/-! ### What the end of an order leaves in the map, the orders and the event store -/

theorem orderStackStep_touches (o : Order) (e : Ending) (s : State) : Touches [.tenants] s (orderStackStep o e s) := by
  unfold orderStackStep
  split
  · split
    · split <;> exact modifyTenant_touches ..
    · exact .refl _ _
  · exact .refl _ _
  · exact .refl _ _

theorem answerSwitch_touches (st : Status) (d : ReplyData) (s : State) : Touches [.up, .mgmt] s (answerSwitch st d s) := by
  unfold answerSwitch
  split
  · exact .refl _ _
  · exact (touches_withMgmt s _).widen.trans (answer_touches ..)

/-- The end of a shed request adds to the link table's reports only (R98, R122). -/
theorem endShedRequest_links (e : RequestEnd) (s : State) :
    ∃ r, (endShedRequest e s).links = { s.links with reports := r } := by
  have noted (n : NoticeSubject) : (if e.done then s else queueNotice n s).links = s.links := by
    split
    · rfl
    · exact (queueNotice_touches ..).2 .links rfl
  unfold endShedRequest
  dsimp only
  split
  · rw [State.withLinks_links, noted]; exact ⟨_, rfl⟩
  · refine ⟨s.links.reports, ?_⟩
    split
    · exact ((answerSwitch_touches ..).2 .links rfl).trans (noted _)
    · exact noted _

/-- The report step leaves the event store alone (R122). -/
theorem orderReport_store (o : Order) (e : Ending) (d : Bool) (r : RelayStatus) (i : Indicator) (s : State) :
    (orderReport o e d r i s).links.chain = s.links.chain ∧ (orderReport o e d r i s).links.arrivals = s.links.arrivals := by
  have request (x : RequestEnd) : (endShedRequest x s).links.chain = s.links.chain ∧
      (endShedRequest x s).links.arrivals = s.links.arrivals := by
    obtain ⟨p, h⟩ := endShedRequest_links x s
    rw [h]; exact ⟨rfl, rfl⟩
  unfold orderReport
  dsimp only
  split
  · exact request _
  · exact request _
  · split
    · rw [(answerSwitch_touches ..).2 .links rfl]; exact ⟨rfl, rfl⟩
    · exact ⟨rfl, rfl⟩

theorem orderReport_touches (o : Order) (e : Ending) (d : Bool) (r : RelayStatus) (i : Indicator) (s : State) :
    Touches [.links, .up, .mgmt] s (orderReport o e d r i s) := by
  unfold orderReport
  dsimp only
  split
  · exact endShedRequest_touches ..
  · exact endShedRequest_touches ..
  · split
    · exact (answerSwitch_touches ..).widen
    · exact .refl _ _

/-- An order that ends NODE_LOST writes UNKNOWN into relay status and indicator, and nothing else of the map (R113). -/
theorem endOrder_lost_map (o : Order) (s : State) : (endOrder o .nodeLost s).map = { s.map with
    entries := s.map.entries.modify o.outlet (fun x => { x with relay := .unknown, indicator := .unknown }) } := by
  unfold endOrder
  dsimp only
  rw [(orderReport_touches ..).2 .map rfl, State.withOrders_map]
  unfold writeStatus modifyOutlet
  rw [State.withMap_map, (orderStackStep_touches o .nodeLost s).2 .map rfl]
  rfl

/-- The record of an ended order is freed (R114). -/
theorem endOrder_orders (o : Order) (e : Ending) (s : State) : (endOrder o e s).orders =
    { s.orders with orders := s.orders.orders.filter (fun x => x.number != o.number) } := by
  have stacked : (orderStackStep o e s).orders = s.orders := (orderStackStep_touches o e s).2 .orders rfl
  unfold endOrder
  dsimp only
  rw [(orderReport_touches ..).2 .orders rfl, State.withOrders_orders]
  unfold writeStatus modifyOutlet
  rw [State.withMap_orders, stacked]

/-- The end of an order leaves the event store alone. -/
theorem endOrder_store (o : Order) (e : Ending) (s : State) :
    (endOrder o e s).links.chain = s.links.chain ∧ (endOrder o e s).links.arrivals = s.links.arrivals := by
  have stacked : (orderStackStep o e s).links = s.links := (orderStackStep_touches o e s).2 .links rfl
  unfold endOrder
  dsimp only
  rw [(orderReport_store ..).1, (orderReport_store ..).2]
  show (orderStackStep o e s).links.chain = _ ∧ (orderStackStep o e s).links.arrivals = _
  rw [stacked]
  exact ⟨rfl, rfl⟩

/-! ### Orders that end one after the other -/

/-- The orders of a list end NODE_LOST, one after the other (R113). -/
abbrev loseOrders (l : List Order) (s : State) : State := l.foldl (fun y o => endOrder o .nodeLost y) s

theorem loseOrders_entry (l : List Order) (s : State) (i : OutletIx) : (loseOrders l s).map.entries.get i =
    if ∃ o ∈ l, o.outlet = i then { s.map.entries.get i with relay := .unknown, indicator := .unknown }
    else s.map.entries.get i := by
  induction l generalizing s with
  | nil => simp [loseOrders]
  | cons o l ih =>
    have first : (endOrder o .nodeLost s).map.entries.get i = if o.outlet = i
        then { s.map.entries.get i with relay := .unknown, indicator := .unknown } else s.map.entries.get i := by
      rw [endOrder_lost_map, Table.get_modify]
      by_cases h : i = o.outlet
      · rw [if_pos h, if_pos h.symm, h]
      · rw [if_neg h, if_neg (Ne.symm h)]
    refine (ih (endOrder o .nodeLost s)).trans ?_
    rw [first]
    by_cases ho : o.outlet = i
    · rw [if_pos ho, if_pos (⟨o, .head _, ho⟩ : ∃ p ∈ o :: l, p.outlet = i), ite_self]
    · have later : (∃ p ∈ o :: l, p.outlet = i) ↔ ∃ p ∈ l, p.outlet = i := by
        simp only [List.mem_cons, exists_eq_or_imp, ho, false_or]
      rw [if_neg ho]
      simp only [later]

theorem loseOrders_orders (l : List Order) (s : State) :
    (loseOrders l s).orders.orders = s.orders.orders.filter (fun p => decide (∀ o ∈ l, p.number ≠ o.number)) := by
  induction l generalizing s with
  | nil => exact (List.filter_eq_self.mpr fun p _ => decide_eq_true fun o ho => absurd ho List.not_mem_nil).symm
  | cons o l ih =>
    refine (ih (endOrder o .nodeLost s)).trans ?_
    rw [endOrder_orders, List.filter_filter]
    refine List.filter_congr fun p _ => ?_
    rw [Bool.eq_iff_iff]
    simp [and_comm]

theorem loseOrders_store (l : List Order) (s : State) :
    (loseOrders l s).links.chain = s.links.chain ∧ (loseOrders l s).links.arrivals = s.links.arrivals := by
  induction l generalizing s with
  | nil => exact ⟨rfl, rfl⟩
  | cons o l ih =>
    obtain ⟨chain, arrivals⟩ := ih (endOrder o .nodeLost s)
    obtain ⟨chain', arrivals'⟩ := endOrder_store o .nodeLost s
    exact ⟨chain.trans chain', arrivals.trans arrivals'⟩

theorem loseOrders_touches (l : List Order) (s : State) :
    Touches [.map, .tenants, .orders, .links, .up, .mgmt] s (loseOrders l s) :=
  Touches.foldl (fun y o => endOrder_touches o .nodeLost y) l s

/-- The outstanding orders of a node, in the order they were placed. -/
def ordersOf (n : NodeIx) (s : State) : List Order := s.orders.orders.filter (fun o => nodeOfOutlet o.outlet == n)

theorem mem_ordersOf {n : NodeIx} {s : State} {o : Order} :
    o ∈ ordersOf n s ↔ o ∈ s.orders.orders ∧ nodeOfOutlet o.outlet = n := by
  unfold ordersOf; rw [List.mem_filter, beq_iff_eq]

theorem eq_of_same_number {l : List Order} (h : (l.map (·.number)).Nodup) {o p : Order} (ho : o ∈ l) (hp : p ∈ l)
    (same : o.number = p.number) : o = p := by
  induction l with
  | nil => cases ho
  | cons q l ih =>
    rw [List.map_cons, List.nodup_cons] at h
    obtain ⟨fresh, rest⟩ := h
    rw [List.mem_cons] at ho hp
    rcases ho with rfl | ho <;> rcases hp with rfl | hp
    · rfl
    · exact absurd (List.mem_map.mpr ⟨p, hp, same.symm⟩) fresh
    · exact absurd (List.mem_map.mpr ⟨o, ho, same⟩) fresh
    · exact ih rest ho hp

/-- With distinct numbers the orders of a node leave exactly those of the other nodes (R106, R113). -/
theorem loseOrders_of_node {s : State} (n : NodeIx) (distinct : (s.orders.orders.map (·.number)).Nodup) :
    s.orders.orders.filter (fun p => decide (∀ o ∈ ordersOf n s, p.number ≠ o.number)) =
      s.orders.orders.filter (fun o => nodeOfOutlet o.outlet != n) := by
  refine List.filter_congr fun p hp => ?_
  rw [Bool.eq_iff_iff, decide_eq_true_iff, bne_iff_ne]
  constructor
  · exact fun h node => h p (mem_ordersOf.mpr ⟨hp, node⟩) rfl
  · intro node o ho same
    obtain ⟨hm, hn⟩ := mem_ordersOf.mp ho
    exact node (eq_of_same_number distinct hp hm same ▸ hn)

/-! ### NODE_SILENCE -/

theorem silenceDue_iff (n : NodeIx) (s : State) : silenceDue n s = true ↔ (s.roster.nodes.get n).state = .up ∧
    s.roster.timeout * 1000 ≤ (s.time.rowTime - (s.roster.nodes.get n).lastHeard).toNat := decide_eq_true_iff

/-- The orders of a node, found by the outlet's map index (R1). -/
theorem filter_node_index (n : NodeIx) (s : State) :
    s.orders.orders.filter (fun o => decide (o.outlet.val / 48 = n.val)) = ordersOf n s :=
  List.filter_congr fun o _ => by
    rw [Bool.eq_iff_iff, decide_eq_true_iff, beq_iff_eq, Fin.ext_iff]; rfl

/-- The clearing of a node leaves relay statuses, indicators and readings alone. -/
theorem NodeCleared.entry {n : NodeIx} {after : NodeState} {s x : State} (c : NodeCleared n after s x) (i : OutletIx) :
    x.map.entries.get i = { s.map.entries.get i with fresh := (x.map.entries.get i).fresh } := by
  rw [c.outlets i]
  split <;> rfl

/-- Settles O20: `leaveNode_spec` gives the four steps; the rest reads the map, the orders and the event store after them. -/
theorem nodeSilenceClearsTheNode : Obligations.NodeSilenceClearsTheNode := by
  refine fun s n => ⟨fun early => ?_, fun up late => ?_⟩
  · refine congrArg Host.Outcome.next (if_neg ?_)
    rw [silenceDue_iff]
    rintro ⟨up, late⟩
    rcases early with h | h
    · exact h up
    · omega
  · obtain ⟨x, cleared, left⟩ := leaveNode_spec n .silent 1 s
    have due : expireNode n s = leaveNode n .silent 1 s := if_pos ((silenceDue_iff n s).mpr ⟨up, late⟩)
    change leaveNode n .silent 1 s = post .roster (nodeEvent n 1) (loseOrders (ordersOf n s) x) at left
    have touched := (leaveNode_touches n .silent 1 s).2
    have entry (i : OutletIx) : (leaveNode n .silent 1 s).map.entries.get i = if ∃ o ∈ ordersOf n s, o.outlet = i
        then { x.map.entries.get i with relay := .unknown, indicator := .unknown } else x.map.entries.get i := by
      rw [left, post_map]; exact loseOrders_entry (ordersOf n s) x i
    have orders : x.orders = s.orders := by rw [cleared.rest]; rfl
    have links : x.links = s.links := by rw [cleared.rest]; rfl
    refine ⟨x, leaveNode n .silent 1 s, congrArg Host.Outcome.next due, cleared, ?_, fun o ho hn => ?_, fun i other => ?_,
      ?_, fun i hi => ?_, fun i hi => ?_, fun i => ?_, fun distinct => ?_, fun room => ?_, touched .time rfl,
      touched .review rfl, touched .profiles rfl, touched .down rfl, touched .ports rfl⟩
    · rw [filter_node_index]; exact left
    · rw [entry, if_pos ⟨o, mem_ordersOf.mpr ⟨ho, hn⟩, rfl⟩]
      exact ⟨rfl, rfl⟩
    · rw [entry, if_neg, cleared.entry]
      · exact ⟨rfl, rfl⟩
      · rintro ⟨o, ho, hi⟩
        exact other o (mem_ordersOf.mp ho).1 (mem_ordersOf.mp ho).2 hi
    · rw [left, post_roster, (loseOrders_touches (ordersOf n s) x).2 .roster rfl, cleared.record]
    · have stale : (x.map.entries.get i).fresh = false := by rw [cleared.outlets, if_pos hi]
      rw [entry]
      split <;> exact stale
    · rw [entry, if_neg, cleared.outlets, if_neg hi]
      rintro ⟨o, ho, rfl⟩
      exact hi (mem_ordersOf.mp ho).2
    · rw [entry, cleared.entry]
      split <;> exact ⟨rfl, rfl, rfl, rfl⟩
    · rw [left, post_orders]
      refine (loseOrders_orders (ordersOf n s) x).trans ?_
      rw [orders]
      exact loseOrders_of_node n distinct
    · obtain ⟨chain, arrivals⟩ := loseOrders_store (ordersOf n s) x
      have room' : storeRoom (loseOrders (ordersOf n s) x) = true := by
        rw [storeRoom_iff, chain, arrivals, links]; exact (storeRoom_iff s).mp room
      rw [left, post_room room', State.withLinks_links]
      dsimp only
      rw [arrivals, links]
      rfl

end Sys2Proof.Machine


/-! The intake of an accepted READINGS frame (R5, R7, R23 to R34, R132). -/

namespace Sys2Proof.Machine

/-! ### The way of a READINGS frame to the intake -/

/-- Of the management unit only the sticky flags may have changed. -/
def OnlySticky (s t : State) : Prop := t.mgmt = { s.mgmt with sticky := t.mgmt.sticky }

theorem OnlySticky.of_same {s t : State} (h : t.mgmt = s.mgmt) : OnlySticky s t := by unfold OnlySticky; rw [h]

theorem OnlySticky.trans {s t u : State} (h : OnlySticky s t) (k : OnlySticky t u) : OnlySticky s u := by
  unfold OnlySticky at *
  rw [k, h]

theorem queueNotice_sticky (x : NoticeSubject) (s : State) : OnlySticky s (queueNotice x s) := by
  obtain ⟨u, f, h⟩ := queueNotice_only x s
  rw [h]; rfl

theorem joinTransit_sticky (f : Frame) (s : State) : OnlySticky s (joinTransit f s) := by
  obtain ⟨u, k, c, h⟩ := joinTransit_only f s
  rw [h]; rfl

theorem postAt_sticky (src : EventSource) (e : Event) (s : State) : OnlySticky s (postAt src e s) := by
  obtain ⟨ls, as, u, f, h⟩ := postAt_only src e s
  rw [h]; rfl

theorem forwardReadings_touches (n : NodeIx) (f : NodeFrame) (s : State) :
    Touches [.up, .mgmt, .ports] s (forwardReadings n f s) ∧ OnlySticky s (forwardReadings n f s) := by
  unfold forwardReadings
  split
  · exact ⟨joinTransit_touches .., joinTransit_sticky ..⟩
  · exact ⟨joinTransit_touches .., joinTransit_sticky ..⟩
  · exact ⟨.refl _ _, rfl⟩

/-- The sequence check writes the node's record, and posts at most one event (R132). -/
theorem sequenceCheck_touches (n : NodeIx) (q : Byte) (s : State) :
    Touches [.roster, .links, .up, .mgmt] s (sequenceCheck n q s) ∧ OnlySticky s (sequenceCheck n q s) ∧
      (sequenceCheck n q s).roster = { s.roster with
        nodes := s.roster.nodes.set n ((s.roster.nodes.get n).judged q) } := by
  have record : Touches [.roster, .links, .up, .mgmt] s (modifyNode n (fun k => k.judged q) s) :=
    (modifyNode_touches ..).widen
  unfold sequenceCheck
  dsimp only
  split
  · refine ⟨record.trans (postAt_touches ..).widen, ?_, post_roster ..⟩
    exact (OnlySticky.of_same (t := modifyNode n (fun k => k.judged q) s) rfl).trans (postAt_sticky ..)
  all_goals exact ⟨record, rfl, rfl⟩

/-- The state in which the intake finds a READINGS frame of an UP node: heard, checked and forwarded (R129, R132, R165). -/
abbrev readyForIntake (n : NodeIx) (f : NodeFrame) (s : State) : State :=
  forwardReadings n f (sequenceCheck n f.seq (heardFrom n s))

theorem readyForIntake_touches (n : NodeIx) (f : NodeFrame) (s : State) :
    Touches [.roster, .links, .up, .mgmt, .ports] s (readyForIntake n f s) := by
  have heard : Touches [.roster, .ports] s (heardFrom n s) :=
    (touches_withPorts s _).widen.trans (modifyNode_touches ..).widen
  exact heard.widen.trans ((sequenceCheck_touches ..).1.widen.trans (forwardReadings_touches ..).1.widen)

theorem readyForIntake_sticky (n : NodeIx) (f : NodeFrame) (s : State) : OnlySticky s (readyForIntake n f s) :=
  (OnlySticky.of_same (t := heardFrom n s) rfl).trans
    ((sequenceCheck_touches ..).2.1.trans (forwardReadings_touches ..).2)

theorem readyForIntake_roster (n : NodeIx) (f : NodeFrame) (s : State) : (readyForIntake n f s).roster = { s.roster with
    nodes := s.roster.nodes.set n
      (Node.judged { s.roster.nodes.get n with lastHeard := s.time.rowTime } f.seq) } := by
  rw [(forwardReadings_touches ..).1.2 .roster rfl, (sequenceCheck_touches ..).2.2]
  have heard : (heardFrom n s).roster = { s.roster with
      nodes := s.roster.nodes.set n { s.roster.nodes.get n with lastHeard := s.time.rowTime } } := rfl
  rw [heard, Table.set_set, Table.get_set_same]

theorem judged_fitted (k : Node) (q : Byte) : (k.judged q).fitted = k.fitted := by
  unfold Node.judged
  split <;> rfl

/-- A sequence is accepted when there was none before, or when it lies 1 to 127 past the last (Table 7.3). -/
theorem sequenceDecision_accepts {last : Option Byte} {q : Byte}
    (h : ∀ l : Byte, last = some l → 1 ≤ (q.toNat + 256 - l.toNat) % 256 ∧ (q.toNat + 256 - l.toNat) % 256 ≤ 127) :
    (sequenceDecision last q).accepts = true := by
  cases last with
  | none => rfl
  | some l =>
    obtain ⟨low, high⟩ := h l rfl
    have distance : (q - l).toNat = (q.toNat + 256 - l.toNat) % 256 := by
      rw [BitVec.toNat_sub]
      have := l.isLt
      omega
    unfold sequenceDecision
    dsimp only
    rw [distance, if_neg (by omega)]
    split
    · rfl
    · rfl

/-- A node frame of at most 200 bytes from an enabled node is handled on the state that has heard the node (R129). -/
theorem nodePortFrame_heard {f : NodeFrame} {n : NodeIx} {s : State} (addr : f.addr = nodeByte n)
    (fits : f.payload.length ≤ Config.maxPayload) (enabled : (s.roster.nodes.get n).state ≠ .disabled)
    (k : NodeIx → State → State) : nodePortFrame f k s = k n (heardFrom n s) := by
  have node : nodeOf f.addr.toNat = some n := by
    rw [addr, show (nodeByte n).toNat = n.val + 1 from Nat.mod_eq_of_lt (by omega)]
    exact nodeOf_succ n
  unfold nodePortFrame arrive
  dsimp only
  rw [if_neg (Nat.not_lt.mpr fits), node]
  exact if_neg enabled

/-- A READINGS frame of an UP node that the sequence check accepts is taken in, when the part is not TRANSPARENT
(R23 to R25, R132). -/
theorem exec_nodeReadings_accepted {f : NodeFrame} {n : NodeIx} {s : State} (addr : f.addr = nodeByte n)
    (fits : f.payload.length ≤ Config.maxPayload) (up : (s.roster.nodes.get n).state = .up)
    (sequence : ∀ l : Byte, (s.roster.nodes.get n).lastSeq = some l →
      1 ≤ (f.seq.toNat + 256 - l.toNat) % 256 ∧ (f.seq.toNat + 256 - l.toNat) % 256 ≤ 127)
    (state : s.mgmt.opState ≠ .transparent) :
    exec (.nodeReadings f) s = .next (if readingsShape f.payload then
      (entriesOf (f.payload.drop 3)).foldl (intakeEntry n (s.roster.nodes.get n).fitted) (readyForIntake n f s)
      else countBadEntry n (readyForIntake n f s)) := by
  have heard : (heardFrom n s).roster.nodes.get n = { s.roster.nodes.get n with lastHeard := s.time.rowTime } :=
    Table.get_set_same _ _ _
  have raised : raiseNode n (heardFrom n s) = heardFrom n s := if_pos (by rw [heard]; exact up)
  have accepted : (decisionAt n f.seq (heardFrom n s)).accepts = true := by
    unfold decisionAt
    rw [heard]
    exact sequenceDecision_accepts sequence
  have fitted : ((readyForIntake n f s).roster.nodes.get n).fitted = (s.roster.nodes.get n).fitted := by
    rw [readyForIntake_roster, Table.get_set_same, judged_fitted]
  have listening : (readyForIntake n f s).mgmt.opState ≠ .transparent := by
    rw [readyForIntake_sticky n f s]; exact state
  have taken : takeReadings f n (heardFrom n s) = intake n f.payload (readyForIntake n f s) := by
    unfold takeReadings
    dsimp only
    rw [raised, if_pos accepted]
  refine congrArg Host.Outcome.next ((nodePortFrame_heard addr fits (by rw [up]; exact NodeState.noConfusion) _).trans ?_)
  rw [taken]
  unfold intake
  rw [if_neg listening, fitted]

/-- The shape check of R25, field by field. -/
theorem readingsShape_iff (p : List Byte) : readingsShape p = true ↔
    ∃ stamp1 stamp0 count entries, p = stamp1 :: stamp0 :: count :: entries ∧
      1 ≤ count.toNat ∧ count.toNat ≤ 48 ∧ entries.length = 3 * count.toNat := by
  unfold readingsShape
  rw [decide_eq_true_iff]
  match p with
  | [] => simp [fieldAt, fieldBytes, beNat]
  | [_] => simp [fieldAt, fieldBytes, beNat]
  | [_, _] => simp [fieldAt, fieldBytes, beNat]
  | stamp1 :: stamp0 :: count :: entries =>
    rw [fieldAt_succ, fieldAt_succ, fieldAt_zero]
    constructor
    · rintro ⟨low, high, length⟩
      refine ⟨_, _, _, _, rfl, low, high, ?_⟩
      simp only [List.length_cons] at length
      omega
    · rintro ⟨a, b, c, d, same, low, high, length⟩
      simp only [List.cons.injEq] at same
      obtain ⟨rfl, rfl, rfl, rfl⟩ := same
      refine ⟨low, high, ?_⟩
      simp only [List.length_cons]
      omega

theorem entriesOf_cons (o hi lo : Byte) (rest : List Byte) :
    entriesOf (o :: hi :: lo :: rest) = (o, hi.toNat * 256 + lo.toNat) :: entriesOf rest := by
  simp [entriesOf, beNat]

/-! ### One entry -/

/-- An outlet number that names no fitted outlet is a bad entry (R26). -/
theorem intakeEntry_bad {n : NodeIx} {fitted : Nat} {o : Byte} (bad : o.toNat = 0 ∨ 48 < o.toNat ∨ fitted < o.toNat)
    (code : Nat) (s : State) : intakeEntry n fitted s (o, code) = countBadEntry n s := by
  unfold intakeEntry
  dsimp only
  split
  · rfl
  · next k hk =>
    have number := outletOf_val hk
    exact if_pos (by have := k.isLt; omega)

/-- An entry for a fitted outlet is converted (R24). -/
theorem intakeEntry_fitted {n : NodeIx} {fitted : Nat} {o : Fin 48} (h : o.val + 1 ≤ fitted) (code : Nat) (s : State) :
    intakeEntry n fitted s (BitVec.ofNat 8 (o.val + 1), code) = convertEntry (mapIndex n o) code s := by
  have number : outletOf (BitVec.ofNat 8 (o.val + 1)).toNat = some o := by
    rw [show (BitVec.ofNat 8 (o.val + 1)).toNat = o.val + 1 from Nat.mod_eq_of_lt (by omega)]
    exact outletOf_succ o
  unfold intakeEntry
  dsimp only
  rw [number]
  exact if_neg (by omega)

/-- A flag newly set on an outlet with NOTIFY set queues its notice, any other none (R34). -/
theorem conversionNotice_some (i : OutletIx) (old : Outlet) (c : ConvFlag) (s : State) :
    conversionNotice i old (some c) s =
      if old.flags &&& c.bit = 0#6 ∧ old.flags.getLsbD 4 = true then queueNotice (.conversion i c) s else s := by
  simp only [conversionNotice, newlySet, Outlet.notify, Bool.and_eq_true, decide_eq_true_eq]

/-- No flag, a flag set before, or an outlet without NOTIFY: no notice (R34). -/
theorem conversionNotice_none {i : OutletIx} {old : Outlet} {flag : Option ConvFlag}
    (h : ∀ c, flag = some c → old.flags &&& c.bit ≠ 0#6 ∨ old.flags.getLsbD 4 = false) (s : State) :
    conversionNotice i old flag s = s := by
  cases flag with
  | none => rfl
  | some c =>
    rw [conversionNotice_some, if_neg]
    rintro ⟨new, notify⟩
    rcases h c rfl with other | silent
    · exact other new
    · exact Bool.false_ne_true (silent.symm.trans notify)

theorem conversionNotice_touches (i : OutletIx) (old : Outlet) (flag : Option ConvFlag) (s : State) :
    Touches [.up, .mgmt] s (conversionNotice i old flag s) ∧ OnlySticky s (conversionNotice i old flag s) := by
  unfold conversionNotice
  split
  · exact ⟨.refl _ _, rfl⟩
  · split
    · exact ⟨queueNotice_touches .., queueNotice_sticky ..⟩
    · exact ⟨.refl _ _, rfl⟩

/-- A notice looks at the uplink side, the management unit and the row time only, so that a reading update before it makes
no difference to it. -/
theorem queueNotice_updateReading (x : NoticeSubject) (i : OutletIx) (u : MapUpdate) (flag : Option ConvFlag) (s : State) :
    (queueNotice x (updateReading i u flag s)).up = (queueNotice x s).up ∧
    (queueNotice x (updateReading i u flag s)).mgmt = (queueNotice x s).mgmt := by
  obtain ⟨k, ts, h⟩ := updateReading_only i u flag s
  have room (y : OutletMap) : noticeRoom ((s.withMap y).withTenants ts) = noticeRoom s := rfl
  rw [h]
  unfold queueNotice
  rw [room]
  split <;> exact ⟨rfl, rfl⟩

/-! ### Table 2.2 -/

/-- The update and the flag of each class of scaled reading (R28, R29, R33). -/
theorem updateOf_classes (p : Profile) (code : Nat) (_ : code < 2 ^ 16) :
    (code = 0xFFFF → p.updateOf code = (.hold, some .noMeasurement)) ∧
    (1 ≤ code / 2 ^ 12 → code % 2 ^ 12 ≤ 2047 → p.updateOf code = (.flagOnly, some .malformed)) ∧
    (code ≠ 0xFFFF → (code / 2 ^ 12 = 0 ∨ 2048 ≤ code % 2 ^ 12) → p.updateOf code =
      (.apply (p.convert (code % 2 ^ 12 * 2 ^ (code / 2 ^ 12))).1, (p.convert (code % 2 ^ 12 * 2 ^ (code / 2 ^ 12))).2)) := by
  unfold Profile.updateOf
  refine ⟨fun all => ?_, fun exponent mantissa => ?_, fun other value => ?_⟩
  · have none : classify code = .noMeasurement := if_pos all
    simp only [none]
  · have noCode : classify code = .malformed :=
      (if_neg (by omega)).trans (if_pos ⟨exponent, by omega⟩)
    simp only [noCode]
  · have scaled : classify code = .value (code % 2 ^ 12 * 2 ^ (code / 2 ^ 12)) :=
      (if_neg other).trans (if_neg (by omega))
    simp only [scaled]

/-- What a reading update does to the stale count of a member's tenant (R5, R47). -/
theorem readingDelta_eq (k : Tenant) (f : Feed) (old new : Outlet) : k.readingDelta f old new = { k with
    draw := k.draw.modify f (fun d => d + new.reading - old.reading)
    stale := if new.fresh = old.fresh then k.stale else if new.fresh = true then k.stale - 1 else k.stale + 1 } := by
  unfold Tenant.readingDelta
  congr 1
  cases new.fresh <;> cases old.fresh <;> simp

theorem anySticky_eq_false_iff (f : BitVec 6) : anySticky f = false ↔ f &&& 0b001111 = 0 := by
  unfold anySticky
  rw [decide_eq_false_iff_not, Ne, Classical.not_not]
  rfl

theorem attentionStep_cases (old new : BitVec 6) (count : Nat) :
    (old &&& 0b001111 = 0 → new &&& 0b001111 ≠ 0 → attentionStep old new count = count + 1) ∧
    (old &&& 0b001111 ≠ 0 → new &&& 0b001111 = 0 → attentionStep old new count = count - 1) ∧
    ((old &&& 0b001111 = 0 ↔ new &&& 0b001111 = 0) → attentionStep old new count = count) := by
  rw [← anySticky_eq_false_iff, ← anySticky_eq_false_iff, Ne, Ne, ← anySticky_eq_false_iff, ← anySticky_eq_false_iff]
  unfold attentionStep
  cases anySticky old <;> cases anySticky new <;> simp

/-! ### NODE_READINGS -/

/-- One entry of an accepted frame: the state after its intake, read block by block (R24, R29, R132). -/
theorem convertEntry_blocks (i : OutletIx) (code : Nat) (s : State) :
    let old := s.map.entries.get i
    let u := (s.profiles.get old.profile).updateOf code
    let t := convertEntry i code s
    t.map = (updateReading i u.1 u.2 s).map ∧ t.tenants = (updateReading i u.1 u.2 s).tenants ∧
    Touches [.map, .tenants, .up, .mgmt] s t ∧ OnlySticky s t := by
  intro old u t
  obtain ⟨noticed, sticky⟩ := conversionNotice_touches i old u.2 (updateReading i u.1 u.2 s)
  have updated := updateReading_touches i u.1 u.2 s
  refine ⟨noticed.2 .map rfl, noticed.2 .tenants rfl, updated.widen.trans noticed.widen,
    (OnlySticky.of_same (updated.2 .mgmt rfl)).trans sticky⟩

/-- The notice of one entry, told from the state before its intake (R34). -/
theorem convertEntry_notice (i : OutletIx) (code : Nat) (s : State) :
    let old := s.map.entries.get i
    let u := (s.profiles.get old.profile).updateOf code
    let t := convertEntry i code s
    (∀ c, u.2 = some c → old.flags &&& c.bit = 0#6 → old.flags.getLsbD 4 = true →
      t.up = (queueNotice (.conversion i c) s).up ∧ t.mgmt = (queueNotice (.conversion i c) s).mgmt) ∧
    ((∀ c, u.2 = some c → old.flags &&& c.bit ≠ 0#6 ∨ old.flags.getLsbD 4 = false) →
      t.up = s.up ∧ t.mgmt = s.mgmt) := by
  intro old u t
  have updated := (updateReading_touches i u.1 u.2 s).2
  refine ⟨fun c hc new notify => ?_, fun none => ?_⟩
  · have ht : t = queueNotice (.conversion i c) (updateReading i u.1 u.2 s) := by
      show conversionNotice i old u.2 _ = _
      rw [hc, conversionNotice_some, if_pos ⟨new, notify⟩]
    rw [ht]
    exact queueNotice_updateReading ..
  · have ht : t = updateReading i u.1 u.2 s := conversionNotice_none none _
    rw [ht]
    exact ⟨updated .up rfl, updated .mgmt rfl⟩

/-- The state after the intake of an accepted frame with one valid entry, against the state before the frame (R24, R29,
R34, R132). -/
theorem readings_one_entry (s : State) (n : NodeIx) (o : Fin 48) (q stamp1 stamp0 hi lo : Byte) :
    let k := s.roster.nodes.get n
    let heard : Node := { k with lastHeard := s.time.rowTime }
    let i := mapIndex n o
    let old := s.map.entries.get i
    let u := (s.profiles.get old.profile).updateOf (hi.toNat * 256 + lo.toNat)
    let new := old.updated s.time.rowTime u.1 u.2
    let payload := [stamp1, stamp0, 1, BitVec.ofNat 8 (o.val + 1), hi, lo]
    let m := readyForIntake n ⟨nodeByte n, q, payload⟩ s
    k.state = .up → (∀ l : Byte, k.lastSeq = some l →
      1 ≤ (q.toNat + 256 - l.toNat) % 256 ∧ (q.toNat + 256 - l.toNat) % 256 ≤ 127) → o.val + 1 ≤ k.fitted →
    s.mgmt.opState ≠ .transparent →
    ∃ t, exec (.nodeReadings ⟨nodeByte n, q, payload⟩) s = .next t ∧
      t.map.entries = s.map.entries.set i new ∧
      t.map.attention = attentionStep old.flags new.flags s.map.attention ∧
      t.map.pendingCount = s.map.pendingCount ∧
      (old.effective.memberOf = none → t.tenants = s.tenants) ∧
      (∀ a f, old.effective.memberOf = some (a, f) →
        t.tenants = s.tenants.set a ((s.tenants.get a).readingDelta f old new)) ∧
      t.roster = { s.roster with nodes := s.roster.nodes.set n (heard.judged q) } ∧
      t.profiles = s.profiles ∧ t.orders = s.orders ∧ t.review = s.review ∧ t.time = s.time ∧ t.down = s.down ∧
      t.mgmt = { s.mgmt with sticky := t.mgmt.sticky } ∧
      (∀ c, u.2 = some c → old.flags &&& c.bit = 0#6 → old.flags.getLsbD 4 = true →
        t.up = (queueNotice (.conversion i c) m).up ∧ t.mgmt = (queueNotice (.conversion i c) m).mgmt) ∧
      ((∀ c, u.2 = some c → old.flags &&& c.bit ≠ 0#6 ∨ old.flags.getLsbD 4 = false) →
        t.up = m.up ∧ t.mgmt = m.mgmt) := by
  intro k heard i old u new payload m up sequence fitted state
  have ready := readyForIntake_touches n ⟨nodeByte n, q, payload⟩ s
  have map : m.map = s.map := ready.2 .map rfl
  have tenants : m.tenants = s.tenants := ready.2 .tenants rfl
  have profiles : m.profiles = s.profiles := ready.2 .profiles rfl
  have time : m.time = s.time := ready.2 .time rfl
  have run : exec (.nodeReadings ⟨nodeByte n, q, payload⟩) s =
      .next (convertEntry i (hi.toNat * 256 + lo.toNat) m) := by
    rw [exec_nodeReadings_accepted rfl (by simp [payload, Config.maxPayload]) up sequence state,
      if_pos ((readingsShape_iff payload).mpr ⟨_, _, _, _, rfl, by decide, by decide, rfl⟩)]
    refine congrArg Host.Outcome.next ?_
    show (entriesOf [_, hi, lo]).foldl _ m = _
    rw [entriesOf_cons]
    exact intakeEntry_fitted fitted _ m
  obtain ⟨tmap, ttenants, touched, sticky⟩ := convertEntry_blocks i (hi.toNat * 256 + lo.toNat) m
  have notice := convertEntry_notice i (hi.toNat * 256 + lo.toNat) m
  dsimp only at tmap ttenants notice
  rw [map, profiles] at tmap ttenants notice
  have update := updateReading_map i u.1 u.2 m
  rw [map, time] at update
  have after := tmap.trans update
  refine ⟨_, run, congrArg OutletMap.entries after, congrArg OutletMap.attention after,
    (congrArg OutletMap.pendingCount after).trans rfl, fun nobody => ?_, fun a f member => ?_, ?_,
    (touched.2 .profiles rfl).trans profiles, (touched.2 .orders rfl).trans (ready.2 .orders rfl),
    (touched.2 .review rfl).trans (ready.2 .review rfl), (touched.2 .time rfl).trans time,
    (touched.2 .down rfl).trans (ready.2 .down rfl), (readyForIntake_sticky ..).trans sticky, notice.1, notice.2⟩
  · have update := updateReading_nobody (s := m) (i := i) (by rw [map]; exact nobody) u.1 u.2
    rw [ttenants]
    exact (congrArg State.tenants update).trans tenants
  · have update := updateReading_member (s := m) (i := i) (by rw [map]; exact member) u.1 u.2
    rw [map, time, tenants] at update
    rw [ttenants]
    exact congrArg State.tenants update
  · exact (touched.2 .roster rfl).trans (readyForIntake_roster ..)

/-- Settles O11: one entry and any payload by `exec_nodeReadings_accepted`, then each step of an entry's intake. -/
theorem acceptedReadingIsConvertedAndApplied : Obligations.AcceptedReadingIsConvertedAndApplied := by
  refine ⟨readings_one_entry, fun s n f => ?_, fun s n fitted o code bad => intakeEntry_bad bad code s,
    ⟨fun s n fitted o code fits => ?_, updateOf_classes, fun e now mW flag => ?_⟩, fun k old new => ?_,
    attentionStep_cases, ⟨rfl, entriesOf_cons⟩, fun s n => ⟨rfl, rfl⟩⟩
  · intro k rightShape m addr fits up sequence state
    have ready := (readyForIntake_touches n f s).2
    have run := exec_nodeReadings_accepted addr fits up sequence state
    refine ⟨ready .map rfl, ready .tenants rfl, ready .profiles rfl, ready .time rfl, fun right => ?_, fun wrong => ?_⟩
    · rw [run, if_pos ((readingsShape_iff _).mpr right)]
    · rw [run, if_neg (fun right => wrong ((readingsShape_iff _).mp right))]
  · intro i old u new entered counted
    have update : updateReading i u.1 u.2 s = counted := by
      rcases member : (s.map.entries.get i).effective.memberOf with _ | ⟨a, f⟩
      · simp only [counted, old, member]; exact updateReading_nobody member ..
      · simp only [counted, old, member]; exact updateReading_member member ..
    rw [intakeEntry_fitted fits]
    change conversionNotice i old u.2 (updateReading i u.1 u.2 s) = _
    rw [update]
    cases hu : u.2 with
    | none => rfl
    | some c =>
      rw [conversionNotice_some]
      cases c <;> rfl
  · cases flag with
    | none => exact ⟨rfl, rfl, rfl⟩
    | some c => cases c <;> exact ⟨rfl, rfl, rfl⟩
  · exact ⟨readingDelta_eq k .a old new, readingDelta_eq k .b old new⟩

end Sys2Proof.Machine


/-! Scaled readings and their conversion (R28, R31, R32). -/

namespace Sys2Proof.Machine

/-! ### The four classes (R28) -/

theorem classify_malformed {code : Nat} (exponent : 1 ≤ code / 2 ^ 12) (mantissa : code % 2 ^ 12 ≤ 2047) :
    classify code = .malformed :=
  (if_neg (by omega)).trans (if_pos ⟨exponent, by omega⟩)

theorem classify_value {code : Nat} (other : code ≠ 0xFFFF) (scaled : code / 2 ^ 12 = 0 ∨ 2048 ≤ code % 2 ^ 12) :
    classify code = .value (code % 2 ^ 12 * 2 ^ (code / 2 ^ 12)) :=
  (if_neg other).trans (if_neg (by omega))

/-- Only the codes of the classes NORMAL and TRUE ZERO have a value. -/
theorem of_classify_value {code r : Nat} (h : classify code = .value r) :
    code ≠ 0xFFFF ∧ (code / 2 ^ 12 = 0 ∨ 2048 ≤ code % 2 ^ 12) ∧ r = code % 2 ^ 12 * 2 ^ (code / 2 ^ 12) := by
  unfold classify at h
  dsimp only at h
  split at h
  · cases h
  · next other =>
    split at h
    · cases h
    · next scaled =>
      injection h with value
      exact ⟨other, by omega, value.symm⟩

/-- The largest value has the largest mantissa below 0xFFFF's at exponent 15; at a smaller exponent any mantissa stays
below it. -/
theorem classify_value_le {code r : Nat} (bits : code < 2 ^ 16) (h : classify code = .value r) : r ≤ 134152192 := by
  obtain ⟨other, -, rfl⟩ := of_classify_value h
  rcases Nat.lt_or_ge (code / 2 ^ 12) 15 with small | top
  · calc code % 2 ^ 12 * 2 ^ (code / 2 ^ 12)
      _ ≤ 4095 * 2 ^ 14 := Nat.mul_le_mul (by omega) (Nat.pow_le_pow_right (by decide) (by omega))
      _ ≤ 134152192 := by decide
  · have exponent : code / 2 ^ 12 = 15 := by omega
    rw [exponent]
    omega

/-- The mantissa of a code other than 0x0000 that has a value is at least 1. -/
theorem classify_value_pos {code r : Nat} (nonzero : code ≠ 0) (h : classify code = .value r) : 1 ≤ r := by
  obtain ⟨-, scaled, rfl⟩ := of_classify_value h
  have mantissa : 1 ≤ code % 2 ^ 12 := by omega
  exact Nat.mul_pos mantissa (Nat.two_pow_pos _)

/-- Settles O51: a class per branch of `classify`, and the bounds of the value by exponent. -/
theorem scaledReadingClasses : Obligations.ScaledReadingClasses := by
  intro code bits e m
  refine ⟨?_, classify_malformed, classify_value, ?_, fun r h => ⟨classify_value_le bits h, fun nonzero => ?_⟩,
    classify_value (by decide) (by decide), fun p => rfl⟩
  · rintro rfl; rfl
  · rintro rfl; rfl
  · exact classify_value_pos nonzero h

/-! ### The conversion (R31, R32) -/

theorem convert_negative {p : Profile} {r : Nat} (negative : p.guarded r < 0) :
    p.convert r = (0, some .negative) :=
  if_pos negative

theorem convert_below_deadband {p : Profile} {r : Nat} (positive : 0 ≤ p.guarded r)
    (below : p.guarded r < 16 * p.deadband.toNat) : p.convert r = (0, none) :=
  (if_neg (Int.not_lt.mpr positive)).trans (if_pos below)

theorem convert_above_ceiling {p : Profile} {r : Nat} (positive : 0 ≤ p.guarded r)
    (notBelow : 16 * p.deadband.toNat ≤ p.guarded r) (above : 16 * p.ceiling.toNat < p.guarded r) :
    p.convert r = (p.ceiling.toNat, some .saturated) :=
  (if_neg (Int.not_lt.mpr positive)).trans ((if_neg (Int.not_lt.mpr notBelow)).trans (if_pos above))

/-- Cutting to sixteenths first does not change the whole milliwatts of a sum whose guarded value is not negative. -/
theorem sixteenths_to_whole {exact : Int} (positive : 0 ≤ exact.tdiv (2 ^ 36)) :
    (exact.tdiv (2 ^ 36)).toNat / 16 = (exact.tdiv (2 ^ 40)).toNat := by
  rcases Int.le_total 0 exact with nonneg | nonpos
  · rw [Int.tdiv_eq_ediv_of_nonneg nonneg, Int.tdiv_eq_ediv_of_nonneg nonneg]
    omega
  · obtain ⟨n, rfl⟩ : ∃ n, exact = -n := ⟨-exact, (Int.neg_neg exact).symm⟩
    have nonneg : 0 ≤ n := by omega
    rw [Int.neg_tdiv, Int.tdiv_eq_ediv_of_nonneg nonneg] at positive ⊢
    rw [Int.neg_tdiv, Int.tdiv_eq_ediv_of_nonneg nonneg]
    omega

theorem convert_in_range {p : Profile} {r : Nat} (positive : 0 ≤ p.guarded r)
    (notBelow : 16 * p.deadband.toNat ≤ p.guarded r) (notAbove : p.guarded r ≤ 16 * p.ceiling.toNat) :
    p.convert r = (((p.exactScaled r).tdiv (2 ^ 40)).toNat, none) := by
  rw [← sixteenths_to_whole positive]
  exact (if_neg (Int.not_lt.mpr positive)).trans
    ((if_neg (Int.not_lt.mpr notBelow)).trans (if_neg (Int.not_lt.mpr notAbove)))

/-- No test lets a result above the ceiling pass (R32). -/
theorem convert_le_ceiling (p : Profile) (r : Nat) : (p.convert r).1 ≤ p.ceiling.toNat := by
  unfold Profile.convert Profile.clip
  split
  · exact Nat.zero_le _
  · split
    · exact Nat.zero_le _
    · split
      · exact Nat.le_refl _
      · next notAbove => dsimp only; omega

/-- Settles O52: the tests of `Profile.clip` one by one, and `sixteenths_to_whole` for the result without a test. -/
theorem conversionTestsTheGuardedValue : Obligations.ConversionTestsTheGuardedValue := by
  intro p r exact g
  have sum : p.exactScaled r = exact := rfl
  have guarded : p.guarded r = g := congrArg (·.tdiv (2 ^ 36)) sum
  rw [← sum, ← guarded]
  have ceiling : p.ceiling.toNat < 2 ^ 24 := p.ceiling.isLt
  have result := convert_le_ceiling p r
  exact ⟨convert_negative, convert_below_deadband, convert_above_ceiling, convert_in_range, by omega⟩

end Sys2Proof.Machine


/-! The CALIB unit and the bytes of a profile (R36, R38). -/

namespace Sys2Proof.Machine

theorem beBytes_one (v : Nat) : beBytes 1 v = [BitVec.ofNat 8 v] := by
  rw [beBytes, beBytes, Nat.pow_zero, Nat.div_one]

theorem beBytes_two (v : Nat) : beBytes 2 v = [BitVec.ofNat 8 (v / 256), BitVec.ofNat 8 v] := by
  rw [beBytes, beBytes_one, Nat.pow_one]

theorem beBytes_three (v : Nat) :
    beBytes 3 v = [BitVec.ofNat 8 (v / 65536), BitVec.ofNat 8 (v / 256), BitVec.ofNat 8 v] := by
  rw [beBytes, beBytes_two, show 256 ^ 2 = 65536 from rfl]

theorem Profile.bytes_length (p : Profile) : p.bytes.length = 16 := by
  unfold Profile.bytes coefficientBytes
  cases p.c2 <;> rfl

/-- SET_PROFILE's arguments are the profile number and the bytes of the profile (R36). -/
theorem setProfile_cons (i : Fin 16) (bs : List Byte) :
    Args.setProfile (BitVec.ofNat 8 i.val :: bs) = (profileOf bs).map (fun p => (i, p)) := by
  simp only [Args.setProfile, bind, fieldAt_zero, toNat_byte (v := i.val) (by omega), profileIndex_val,
    List.drop_succ_cons, List.drop_zero, Option.bind_some]
  cases profileOf bs <;> rfl

/-- The bytes of a profile are arguments that SET_PROFILE accepts, of either degree (R36, R171). -/
theorem setProfile_bytes (i : Fin 16) {p : Profile} (ceiling : 1 ≤ p.ceiling.toNat) :
    Args.setProfile (BitVec.ofNat 8 i.val :: p.bytes) = some (i, p) := by
  unfold Profile.bytes Profile.degree coefficientBytes
  simp only [beBytes_one, beBytes_two, beBytes_three]
  cases square : p.c2 with
  | none => exact Args.setProfile_eq i p 1 0 0 0 0 ceiling (.inl ⟨square, rfl, rfl⟩)
  | some c => exact Args.setProfile_eq i p 2 1 _ _ _ ceiling (.inr ⟨c, square, rfl, rfl, rfl, rfl, rfl⟩)

theorem profileOf_bytes {p : Profile} (ceiling : 1 ≤ p.ceiling.toNat) : profileOf p.bytes = some p := by
  have read := setProfile_bytes 0 ceiling
  rw [setProfile_cons, Option.map_eq_some_iff] at read
  obtain ⟨q, read, same⟩ := read
  injection same with _ same
  rw [read, same]

/-- Settles O44: an admitted request runs its operation (`serve_admitted`), and `profileOf_bytes` reads the bytes back. -/
theorem calibUnitWritesAndReadsProfiles : Obligations.CalibUnitWritesAndReadsProfiles := by
  refine ⟨fun s r admitted => ⟨fun i p args => ?_, fun i args => ?_⟩, fun p ceiling =>
    ⟨p.bytes_length, profileOf_bytes ceiling⟩⟩
  · exact congrArg Host.Outcome.next (serve_admitted admitted args)
  · exact congrArg Host.Outcome.next (serve_admitted admitted args)

end Sys2Proof.Machine


/-! What the four node frames have no part in, and frames from a DISABLED node (R24, R129). -/

namespace Sys2Proof.Machine

/-- What of an entry no node frame writes. -/
structure OutletTerms where
  effective : Membership
  pending : Option Membership
  profile : Fin 16
  rank : Fin 16

def Outlet.terms (e : Outlet) : OutletTerms := ⟨e.effective, e.pending, e.profile, e.rank⟩

/-- What of a tenant no node frame writes. -/
structure TenantTerms where
  state : TenantState
  contract : Contract
  lifetime : PerFeed Nat
  baseline : PerFeed Nat
  budget : Nat
  verdict : Verdict

def Tenant.terms (k : Tenant) : TenantTerms := ⟨k.state, k.contract, k.lifetime, k.baseline, k.budget, k.verdict⟩

/-- The part of the state in which the node frames have no part. -/
structure BeyondNodes where
  pending : List Instr
  time : TimeBase
  profiles : Table Profile 16
  review : Review
  forward : ForwardMode
  uplinkRx : Receiver
  shedQueue : List ShedRequest
  links : Table Link 64
  opState : OpState
  mapJob : Option MapJob
  exportJob : Option ExportJob
  outlets : OutletIx → OutletTerms
  tenants : Slot → TenantTerms

def State.beyondNodes (s : State) : BeyondNodes where
  pending := s.pending
  time := s.time
  profiles := s.profiles
  review := s.review
  forward := s.ports.forward
  uplinkRx := s.ports.uplinkRx
  shedQueue := s.links.shedQueue
  links := s.links.links
  opState := s.mgmt.opState
  mapJob := s.mgmt.mapJob
  exportJob := s.mgmt.exportJob
  outlets := fun i => (s.map.entries.get i).terms
  tenants := fun a => (s.tenants.get a).terms

/-! ### Blocks written -/

/-- An entry replaced by one with the same terms. -/
theorem beyondNodes_setOutlet {s : State} {x : OutletMap} {i : OutletIx} {e : Outlet}
    (entries : x.entries = s.map.entries.set i e) (h : e.terms = (s.map.entries.get i).terms) :
    (s.withMap x).beyondNodes = s.beyondNodes :=
  congrArg (fun o => { s.beyondNodes with outlets := o }) <| funext fun j => by
    rw [State.withMap_map, entries, Table.get_set]
    split
    · next same => rw [same, h]
    · rfl

/-- A tenant replaced by one with the same terms. -/
theorem beyondNodes_setTenant {s : State} {a : Slot} {k : Tenant} (h : k.terms = (s.tenants.get a).terms) :
    (s.withTenants (s.tenants.set a k)).beyondNodes = s.beyondNodes :=
  congrArg (fun k => { s.beyondNodes with tenants := k }) <| funext fun b => by
    rw [State.withTenants_tenants, Table.get_set]
    split
    · next same => rw [same, h]
    · rfl

theorem beyondNodes_modifyNode (n : NodeIx) (f : Node → Node) (s : State) :
    (modifyNode n f s).beyondNodes = s.beyondNodes := rfl

/-! ### Notices, answers, forwarded frames, LIMIT notes -/

theorem beyondNodes_queueNotice (x : NoticeSubject) (s : State) : (queueNotice x s).beyondNodes = s.beyondNodes := by
  obtain ⟨u, f, h⟩ := queueNotice_only x s
  rw [h]; rfl

theorem beyondNodes_answer (u : RequestUnit) (tag : Byte) (w : Bool) (st : Status) (d : ReplyData) (s : State) :
    (answer u tag w st d s).beyondNodes = s.beyondNodes := by
  obtain ⟨v, f, t, h⟩ := answer_only u tag w st d s
  rw [h]; rfl

theorem beyondNodes_joinTransit (f : Frame) (s : State) : (joinTransit f s).beyondNodes = s.beyondNodes := by
  obtain ⟨u, k, c, h⟩ := joinTransit_only f s
  rw [h]; rfl

theorem beyondNodes_sendLimitNote (n : NodeIx) (s : State) : (sendLimitNote n s).beyondNodes = s.beyondNodes := by
  unfold sendLimitNote
  split <;> rfl

/-! ### Events -/

/-- Only a discarded 0x0021 writes into the links (R90, R91). -/
theorem beyondNodes_post {id : Word16} (other : id ≠ 0x0021#16) (src : EventSource) (s : State) :
    (post src id s).beyondNodes = s.beyondNodes := by
  unfold post postAt
  split
  · rfl
  · unfold discardEvent reportChain
    dsimp only
    rw [if_neg other, beyondNodes_queueNotice]
    rfl

/-- The node events stand apart from the event of the pass end (Table 5.2). -/
theorem nodeEvent_ne_passEnd (n : NodeIx) {k : Nat} (event : k ≤ 3) : nodeEvent n k ≠ 0x0021#16 := by
  intro same
  have number := congrArg BitVec.toNat same
  unfold nodeEvent at number
  rw [BitVec.toNat_ofNat, Nat.mod_eq_of_lt (by omega)] at number
  change _ = 33 at number
  omega

/-! ### Reading updates and orders -/

theorem updated_terms (e : Outlet) (now : RowTime) (u : MapUpdate) (flag : Option ConvFlag) :
    (e.updated now u flag).terms = e.terms := by
  cases u <;> rfl

theorem beyondNodes_updateReading (i : OutletIx) (u : MapUpdate) (flag : Option ConvFlag) (s : State) :
    (updateReading i u flag s).beyondNodes = s.beyondNodes := by
  rcases member : (s.map.entries.get i).effective.memberOf with _ | ⟨a, f⟩
  · rw [updateReading_nobody member]
    exact beyondNodes_setOutlet rfl (updated_terms ..)
  · rw [updateReading_member member]
    refine (beyondNodes_setTenant (s := s.withMap _) ?_).trans ?_
    · rfl
    · exact beyondNodes_setOutlet rfl (updated_terms ..)

theorem beyondNodes_answerSwitch (st : Status) (d : ReplyData) (s : State) :
    (answerSwitch st d s).beyondNodes = s.beyondNodes := by
  unfold answerSwitch
  split
  · rfl
  · exact beyondNodes_answer ..

theorem beyondNodes_endShedRequest (e : RequestEnd) (s : State) : (endShedRequest e s).beyondNodes = s.beyondNodes := by
  have noted (x : NoticeSubject) : (if e.done then s else queueNotice x s).beyondNodes = s.beyondNodes := by
    split
    · rfl
    · exact beyondNodes_queueNotice ..
  have reported (x : State) (r : List ShedReport) :
      (x.withLinks { x.links with reports := r }).beyondNodes = x.beyondNodes := rfl
  unfold endShedRequest
  dsimp only
  split
  · exact (reported ..).trans (noted _)
  · split
    · exact (beyondNodes_answerSwitch ..).trans (noted _)
    · exact noted _

theorem beyondNodes_orderStackStep (o : Order) (e : Ending) (s : State) :
    (orderStackStep o e s).beyondNodes = s.beyondNodes := by
  unfold orderStackStep
  split
  · split
    · split <;> exact beyondNodes_setTenant rfl
    · rfl
  · rfl
  · rfl

theorem beyondNodes_orderReport (o : Order) (e : Ending) (d : Bool) (r : RelayStatus) (i : Indicator) (s : State) :
    (orderReport o e d r i s).beyondNodes = s.beyondNodes := by
  unfold orderReport
  dsimp only
  split
  · exact beyondNodes_endShedRequest ..
  · exact beyondNodes_endShedRequest ..
  · split
    · exact beyondNodes_answerSwitch ..
    · rfl

/-- The end of an order writes stacks, statuses, the order table, reports, notices and answers (R114). -/
theorem beyondNodes_endOrder (o : Order) (e : Ending) (s : State) : (endOrder o e s).beyondNodes = s.beyondNodes := by
  have freed (x : State) (t : OrderTable) : (x.withOrders t).beyondNodes = x.beyondNodes := rfl
  unfold endOrder
  dsimp only
  rw [beyondNodes_orderReport, freed]
  refine Eq.trans ?_ (beyondNodes_orderStackStep o e s)
  exact beyondNodes_setOutlet (i := o.outlet) rfl rfl

/-! ### What the roster, the intake and the order table do with a frame -/

theorem beyondNodes_raiseNode (n : NodeIx) (s : State) : (raiseNode n s).beyondNodes = s.beyondNodes := by
  unfold raiseNode bringUp
  split
  · rfl
  · rw [beyondNodes_sendLimitNote, beyondNodes_post (nodeEvent_ne_passEnd n (by decide)), beyondNodes_modifyNode]

theorem beyondNodes_sequenceCheck (n : NodeIx) (q : Byte) (s : State) :
    (sequenceCheck n q s).beyondNodes = s.beyondNodes := by
  unfold sequenceCheck
  dsimp only
  split
  · rw [beyondNodes_post (nodeEvent_ne_passEnd n (by decide)), beyondNodes_modifyNode]
  all_goals rfl

theorem beyondNodes_forwardReadings (n : NodeIx) (f : NodeFrame) (s : State) :
    (forwardReadings n f s).beyondNodes = s.beyondNodes := by
  unfold forwardReadings
  split
  · exact beyondNodes_joinTransit ..
  · exact beyondNodes_joinTransit ..
  · rfl

theorem beyondNodes_convertEntry (i : OutletIx) (code : Nat) (s : State) :
    (convertEntry i code s).beyondNodes = s.beyondNodes := by
  have noticed (old : Outlet) (flag : Option ConvFlag) (x : State) :
      (conversionNotice i old flag x).beyondNodes = x.beyondNodes := by
    cases flag with
    | none => rfl
    | some c =>
      rw [conversionNotice_some]
      split
      · exact beyondNodes_queueNotice ..
      · rfl
  exact (noticed ..).trans (beyondNodes_updateReading ..)

theorem beyondNodes_intakeEntry (n : NodeIx) (fitted : Nat) (s : State) (e : Byte × Nat) :
    (intakeEntry n fitted s e).beyondNodes = s.beyondNodes := by
  unfold intakeEntry
  split
  · rfl
  · split
    · rfl
    · exact beyondNodes_convertEntry ..

theorem beyondNodes_intake (n : NodeIx) (p : List Byte) (s : State) : (intake n p s).beyondNodes = s.beyondNodes := by
  have entries (fitted : Nat) (l : List (Byte × Nat)) (x : State) :
      (l.foldl (intakeEntry n fitted) x).beyondNodes = x.beyondNodes := by
    induction l generalizing x with
    | nil => rfl
    | cons e l ih => exact (ih _).trans (beyondNodes_intakeEntry n fitted x e)
  unfold intake
  split
  · rfl
  · split
    · exact entries ..
    · rfl

theorem beyondNodes_takeReadings (f : NodeFrame) (n : NodeIx) (s : State) :
    (takeReadings f n s).beyondNodes = s.beyondNodes := by
  have forwarded : (forwardReadings n f (sequenceCheck n f.seq (raiseNode n s))).beyondNodes = s.beyondNodes := by
    rw [beyondNodes_forwardReadings, beyondNodes_sequenceCheck, beyondNodes_raiseNode]
  unfold takeReadings
  dsimp only
  split
  · exact (beyondNodes_intake ..).trans forwarded
  · exact forwarded

theorem beyondNodes_takeJoin (f : NodeFrame) (n : NodeIx) (s : State) :
    (takeJoin f n s).beyondNodes = s.beyondNodes := by
  unfold takeJoin
  dsimp only
  rw [beyondNodes_joinTransit]
  refine Eq.trans ?_ (beyondNodes_raiseNode n s)
  split
  · rfl
  · split
    · exact beyondNodes_sendLimitNote ..
    · rfl

theorem beyondNodes_takeOrderDone (f : NodeFrame) (n : NodeIx) (s : State) :
    (takeOrderDone f n s).beyondNodes = s.beyondNodes := by
  unfold takeOrderDone matchOrder
  split
  · split
    · rfl
    · split
      · rfl
      · exact beyondNodes_endOrder ..
  · rfl

/-! ### The frames -/

/-- Each node frame is a frame on the node port, handled within the bounds (R129). -/
theorem exec_nodeFrame {f : NodeFrame} {c : Instr}
    (frame : c = .nodeReadings f ∨ c = .nodeJoin f ∨ c = .nodeOrderDone f ∨ c = .nodeThrough f) :
    ∃ k : NodeIx → State → State, (∀ n x, (k n x).beyondNodes = x.beyondNodes) ∧
      ∀ s, exec c s = .next (nodePortFrame f k s) := by
  rcases frame with rfl | rfl | rfl | rfl
  · exact ⟨takeReadings f, beyondNodes_takeReadings f, fun _ => rfl⟩
  · exact ⟨takeJoin f, beyondNodes_takeJoin f, fun _ => rfl⟩
  · exact ⟨takeOrderDone f, beyondNodes_takeOrderDone f, fun _ => rfl⟩
  · exact ⟨takeThrough f, fun _ _ => beyondNodes_joinTransit .., fun _ => rfl⟩

theorem beyondNodes_nodePortFrame {f : NodeFrame} {k : NodeIx → State → State}
    (h : ∀ n x, (k n x).beyondNodes = x.beyondNodes) (s : State) :
    (nodePortFrame f k s).beyondNodes = s.beyondNodes := by
  unfold nodePortFrame arrive takeNodeFrame
  dsimp only
  split
  · rfl
  · split
    · rfl
    · split
      · rfl
      · exact h ..

theorem nodeOf_nodeByte (n : NodeIx) : nodeOf (nodeByte n).toNat = some n := by
  unfold nodeByte
  rw [toNat_byte (by omega), nodeOf_succ]

/-- A frame of at most 200 bytes from a DISABLED node is counted and dropped (R129). -/
theorem nodePortFrame_disabled {f : NodeFrame} {n : NodeIx} {s : State} (addr : f.addr = nodeByte n)
    (fits : f.payload.length ≤ Config.maxPayload) (disabled : (s.roster.nodes.get n).state = .disabled)
    (k : NodeIx → State → State) : nodePortFrame f k s =
      setCounts (fun c => { c with disabledDrop := bump16 c.disabledDrop }) (received .node s) := by
  unfold nodePortFrame arrive
  dsimp only
  rw [if_neg (Nat.not_lt.mpr fits), addr, nodeOf_nodeByte]
  exact if_pos disabled

/-- Settles O12: `exec_nodeFrame` brings the four frames to one handler, whose bounds are read field by field. -/
theorem nodeFramesKeepTheirBounds : Obligations.NodeFramesKeepTheirBounds := by
  refine ⟨fun f c s t frame run => ?_, fun s n f c frame addr fits disabled => ?_⟩
  · obtain ⟨k, bounds, meaning⟩ := exec_nodeFrame frame
    rw [meaning] at run
    injection run with after
    have kept : t.beyondNodes = s.beyondNodes := after ▸ beyondNodes_nodePortFrame bounds s
    have outlet (i : OutletIx) := congrArg (fun b => b.outlets i) kept
    have tenant (a : Slot) := congrArg (fun b => b.tenants a) kept
    exact ⟨congrArg BeyondNodes.pending kept, congrArg BeyondNodes.time kept, congrArg BeyondNodes.profiles kept,
      congrArg BeyondNodes.review kept, congrArg BeyondNodes.forward kept, congrArg BeyondNodes.uplinkRx kept,
      congrArg BeyondNodes.shedQueue kept, congrArg BeyondNodes.links kept, congrArg BeyondNodes.opState kept,
      congrArg BeyondNodes.mapJob kept, congrArg BeyondNodes.exportJob kept,
      fun i => ⟨congrArg OutletTerms.effective (outlet i), congrArg OutletTerms.pending (outlet i),
        congrArg OutletTerms.profile (outlet i), congrArg OutletTerms.rank (outlet i)⟩,
      fun a => ⟨congrArg TenantTerms.state (tenant a), congrArg TenantTerms.contract (tenant a),
        congrArg TenantTerms.lifetime (tenant a), congrArg TenantTerms.baseline (tenant a),
        congrArg TenantTerms.budget (tenant a), congrArg TenantTerms.verdict (tenant a)⟩⟩
  · obtain ⟨k, -, meaning⟩ := exec_nodeFrame frame
    rw [meaning, nodePortFrame_disabled addr fits disabled]

end Sys2Proof.Machine


/-! The arithmetic of a visit: over and excess, the budget, the period fields, energy and staleness (R70 to R78). -/

namespace Sys2Proof.Machine

variable {k : Tenant} {dt : Nat}

/-! ### q, over and the excess under each basis (R73, R74) -/

theorem q_combined (basis : k.contract.basis = .combined) : k.q = k.draw.a + k.draw.b := by
  rw [Tenant.q, basis]

theorem q_perFeed (basis : k.contract.basis = .perFeed) : k.q = max k.draw.a k.draw.b := by
  rw [Tenant.q, basis]

theorem over_combined (basis : k.contract.basis = .combined) :
    k.over = true ↔ k.contract.capacity.a.mW < k.draw.a + k.draw.b := by
  rw [Tenant.over, basis]
  exact decide_eq_true_iff

theorem over_perFeed (basis : k.contract.basis = .perFeed) :
    k.over = true ↔ k.contract.capacity.a.mW < k.draw.a ∨ k.contract.capacity.b.mW < k.draw.b := by
  rw [Tenant.over, basis]
  exact decide_eq_true_iff

theorem excess_combined (basis : k.contract.basis = .combined) :
    k.excess = k.draw.a + k.draw.b - k.contract.capacity.a.mW := by
  rw [Tenant.excess, basis]

theorem excess_perFeed (basis : k.contract.basis = .perFeed) :
    k.excess = (k.draw.a - k.contract.capacity.a.mW) + (k.draw.b - k.contract.capacity.b.mW) := by
  rw [Tenant.excess, basis]

/-- The part of a draw above its capacity is what the truncated difference holds. -/
theorem sub_eq_if_above (draw capacity : Nat) : draw - capacity = if capacity < draw then draw - capacity else 0 := by
  split <;> omega

/-- Settles O23: the equations of q, over and excess under the basis in force. -/
theorem overAndExcessFollowTheBasis : Obligations.OverAndExcessFollowTheBasis := by
  refine fun k => ⟨fun basis => ?_, fun basis => ?_⟩
  · have exceeds := over_combined basis
    refine ⟨q_combined basis, exceeds, fun above => ?_, fun within => ?_⟩
    · rw [excess_combined basis, q_combined basis]
      exact Nat.sub_add_cancel (Nat.le_of_lt (exceeds.mp above))
    · rw [excess_combined basis]
      exact Nat.sub_eq_zero_of_le (Nat.le_of_not_lt fun above => Bool.false_ne_true (within.symm.trans (exceeds.mpr above)))
  · refine ⟨q_perFeed basis, over_perFeed basis, ?_⟩
    rw [excess_perFeed basis, sub_eq_if_above k.draw.a, sub_eq_if_above k.draw.b]
    rfl

/-! ### The judgement, case by case (R72, R75 to R77) -/

theorem judge_stale (stale : k.contract.tolerance < k.stale) : k.judge dt = { k with verdict := .stale, streak := 0 } :=
  if_pos stale

theorem judge_over (fresh : k.stale ≤ k.contract.tolerance) (exceeds : k.over = true) :
    k.judge dt = (k.isOver dt).periodFields dt :=
  (if_neg (Nat.not_lt.mpr fresh)).trans (if_pos exceeds)

theorem judge_notOver (fresh : k.stale ≤ k.contract.tolerance) (within : k.over = false) :
    k.judge dt = (k.notOver dt).periodFields dt :=
  (if_neg (Nat.not_lt.mpr fresh)).trans (if_neg (within ▸ Bool.false_ne_true))

theorem isOver_noBurst (burst : k.contract.burst = none) :
    k.isOver dt = { k with streak := 0, budget := 0, verdict := .breach } := by
  rw [Tenant.isOver, burst]

theorem isOver_affordable {b : Burst} (burst : k.contract.burst = some b) (enough : k.excess * dt ≤ k.budget) :
    k.isOver dt = { k with streak := 0, budget := k.budget - k.excess * dt, verdict := .excursion } := by
  rw [Tenant.isOver, burst]
  exact if_pos enough

theorem isOver_exhausted {b : Burst} (burst : k.contract.burst = some b) (short : k.budget < k.excess * dt) :
    k.isOver dt = { k with streak := 0, budget := 0, verdict := .breach } := by
  rw [Tenant.isOver, burst]
  exact if_neg (Nat.not_le.mpr short)

/-- Whatever its contract, an over tenant has streak 0 and a budget no larger than before (R77). -/
theorem isOver_bounds (k : Tenant) (dt : Nat) : (k.isOver dt).streak = 0 ∧ (k.isOver dt).budget ≤ k.budget := by
  cases burst : k.contract.burst with
  | none => rw [isOver_noBurst burst]; exact ⟨rfl, Nat.zero_le _⟩
  | some b =>
    rcases Nat.lt_or_ge k.budget (k.excess * dt) with short | enough
    · rw [isOver_exhausted burst short]; exact ⟨rfl, Nat.zero_le _⟩
    · rw [isOver_affordable burst enough]; exact ⟨rfl, Nat.sub_le ..⟩

/-- Settles O24: `judge_over`, and `isOver` by the burst part and the budget. -/
theorem overTenantSpendsItsBudget : Obligations.OverTenantSpendsItsBudget := by
  intro k dt fresh exceeds
  rw [judge_over fresh exceeds]
  obtain ⟨streak, budget⟩ := isOver_bounds k dt
  refine ⟨streak, fun b burst enough => ?_, fun b burst short => ?_, fun burst => ?_, fun b burst now => ?_,
    Nat.le_trans budget⟩
  · rw [isOver_affordable burst enough]; exact ⟨rfl, rfl⟩
  · rw [isOver_exhausted burst short]; exact ⟨rfl, rfl⟩
  · rw [isOver_noBurst burst]; exact ⟨rfl, rfl⟩
  · have free : k.excess * dt ≤ k.budget := by rw [now]; exact Nat.zero_le _
    rw [isOver_affordable burst free]; rfl

theorem refilled_burst {b : Burst} (burst : k.contract.burst = some b) :
    k.refilled dt = min (k.budget + b.refill * dt * 1000) (b.allowance * 10 ^ 9) := by
  rw [Tenant.refilled, Contract.allowance, burst]

theorem refilled_noBurst (burst : k.contract.burst = none) : k.refilled dt = 0 := by
  rw [Tenant.refilled, burst]

theorem notOver_keepsBreach (breach : k.verdict = .breach) (early : k.streak + 1 < k.contract.release) :
    k.notOver dt = { k with budget := k.refilled dt, streak := k.streak + 1 } :=
  if_pos ⟨breach, early⟩

/-- Outside BREACH, or once released from it, the warning test decides; the refilled budget has no part in it (R76). -/
theorem notOver_warned (free : k.verdict ≠ .breach ∨ k.contract.release ≤ k.streak + 1) :
    k.notOver dt = { k with budget := k.refilled dt, verdict := k.warned, streak := 0 } :=
  if_neg fun ⟨breach, early⟩ => free.elim (· breach) (Nat.not_le.mpr early)

/-- The warning percent is reached, feed by feed under PER_FEED (R76). -/
def Tenant.isNear (k : Tenant) : Prop :=
  match k.contract.basis with
  | .combined => k.contract.warn * k.contract.capacity.a.mW ≤ (k.draw.a + k.draw.b) * 100
  | .perFeed => k.contract.warn * k.contract.capacity.a.mW ≤ k.draw.a * 100 ∨
      k.contract.warn * k.contract.capacity.b.mW ≤ k.draw.b * 100

theorem warned_cases (k : Tenant) : (k.isNear → k.warned = .near) ∧ (¬ k.isNear → k.warned = .within) := by
  unfold Tenant.isNear Tenant.warned
  cases basis : k.contract.basis with
  | combined =>
    rw [q_combined basis]
    exact ⟨fun near => if_pos (decide_eq_true near), fun far => if_neg fun near => far (of_decide_eq_true near)⟩
  | perFeed =>
    exact ⟨fun near => if_pos (decide_eq_true near), fun far => if_neg fun near => far (of_decide_eq_true near)⟩

theorem notOver_budget (k : Tenant) (dt : Nat) : (k.notOver dt).budget = k.refilled dt := by
  unfold Tenant.notOver
  dsimp only
  split <;> rfl

/-! ### What the judgement leaves alone (R72 to R78) -/

/-- Step 7 writes the budget, the verdict and the streak (R77). -/
theorem isOver_only (k : Tenant) (dt : Nat) : k.isOver dt = { k with
    budget := (k.isOver dt).budget, verdict := (k.isOver dt).verdict, streak := (k.isOver dt).streak } := by
  unfold Tenant.isOver
  dsimp only
  split
  · rfl
  · split <;> rfl

/-- Step 6 writes the budget, the verdict and the streak (R75, R76). -/
theorem notOver_only (k : Tenant) (dt : Nat) : k.notOver dt = { k with
    budget := (k.notOver dt).budget, verdict := (k.notOver dt).verdict, streak := (k.notOver dt).streak } := by
  unfold Tenant.notOver
  dsimp only
  split <;> rfl

/-- A tenant that is not STALE gets its budget, verdict and streak from step 6 or step 7, and then its period fields from
step 8, by its own q and the times it had (R75 to R78). -/
theorem judge_fresh (fresh : k.stale ≤ k.contract.tolerance) (dt : Nat) :
    ∃ b v n, k.judge dt = ({ k with budget := b, verdict := v, streak := n } : Tenant).periodFields dt := by
  cases exceeds : k.over with
  | true => exact ⟨_, _, _, (judge_over fresh exceeds).trans (congrArg (·.periodFields dt) (isOver_only k dt))⟩
  | false => exact ⟨_, _, _, (judge_notOver fresh exceeds).trans (congrArg (·.periodFields dt) (notOver_only k dt))⟩

/-- Settles O25: `judge_notOver` with `notOver` by the verdict and the streak, then `judge_fresh` for step 8. -/
theorem tenantNotOverRefillsAndPeriodFieldsFollow : Obligations.TenantNotOverRefillsAndPeriodFieldsFollow := by
  refine ⟨fun k dt fresh within => ?_, fun k dt fresh => ?_⟩
  · rw [judge_notOver fresh within]
    refine ⟨fun x burst => ?_, fun burst => ?_, fun breach early => ?_, fun free => ?_⟩
    · exact (notOver_budget k dt).trans (refilled_burst burst)
    · exact (notOver_budget k dt).trans (refilled_noBurst burst)
    · rw [notOver_keepsBreach breach early]; exact ⟨breach, rfl⟩
    · rw [notOver_warned free]; exact ⟨rfl, warned_cases k⟩
  · obtain ⟨b, v, n, judged⟩ := judge_fresh fresh dt
    rw [judged]
    exact ⟨rfl, rfl, rfl⟩

/-- The judgement writes the verdict, the streak, the budget and the period fields (R72 to R78). -/
theorem judge_only (k : Tenant) (dt : Nat) : ∃ v n b p x y, k.judge dt =
    { k with verdict := v, streak := n, budget := b, peak := p, breachTime := x, excursionTime := y } := by
  rcases Nat.lt_or_ge k.contract.tolerance k.stale with stale | fresh
  · exact ⟨_, _, _, _, _, _, judge_stale stale⟩
  · obtain ⟨b, v, n, judged⟩ := judge_fresh fresh dt
    exact ⟨_, _, _, _, _, _, judged⟩

/-! ### The visit (R70 to R72) -/

/-- A take-up writes the contract, the budget and the streak, and leaves no contract pending (R53). -/
theorem takeUp_only (k : Tenant) : k.takeUp = { k with
    contract := k.takeUp.contract, pendingContract := none, budget := k.takeUp.budget, streak := k.takeUp.streak } := by
  unfold Tenant.takeUp
  split
  · next absent => rw [← absent]
  · rfl

theorem takeUp_state (k : Tenant) : k.takeUp.state = k.state := by
  rw [takeUp_only k]

/-- The record that goes into the judgement of a visit: the contract taken up, then time and energy (R70). -/
theorem integrate_takeUp (k : Tenant) (now : RowTime) : k.takeUp.integrate now = { k with
    contract := k.takeUp.contract, pendingContract := none, budget := k.takeUp.budget, streak := k.takeUp.streak,
    lastVisit := now,
    lifetime := ⟨min (2 ^ 64 - 1) (k.lifetime.a + k.draw.a * (now - k.lastVisit).toNat),
      min (2 ^ 64 - 1) (k.lifetime.b + k.draw.b * (now - k.lastVisit).toNat)⟩ } := by
  rw [takeUp_only k]
  rfl

theorem visit_active (active : k.state = .active) (now : RowTime) :
    k.visit now = (k.takeUp.integrate now).judge (now - k.lastVisit).toNat :=
  if_pos ((takeUp_state k).trans active)

theorem visit_notActive (idle : k.state ≠ .active) (now : RowTime) : k.visit now = k.takeUp.integrate now :=
  if_neg fun active => idle ((takeUp_state k).symm.trans active)

/-- Beside the take-up, time and energy a visit writes what the judgement writes (R70 to R78). -/
theorem visit_only (k : Tenant) (now : RowTime) : ∃ v n b p x y, k.visit now = { k.takeUp.integrate now with
    verdict := v, streak := n, budget := b, peak := p, breachTime := x, excursionTime := y } := by
  by_cases active : k.state = .active
  · rw [visit_active active]; exact judge_only ..
  · exact ⟨_, _, _, _, _, _, visit_notActive active now⟩

theorem visit_stale (active : k.state = .active) (stale : k.takeUp.contract.tolerance < k.stale) (now : RowTime) :
    k.visit now = { k.takeUp.integrate now with verdict := .stale, streak := 0 } := by
  have above : (k.takeUp.integrate now).contract.tolerance < (k.takeUp.integrate now).stale := by
    rw [integrate_takeUp]; exact stale
  rw [visit_active active, judge_stale above]

/-- Settles O22: `visit_only` with `integrate_takeUp` for the fields every visit writes and keeps, then the visit by the
tenant's state and stale count. -/
theorem visitIntegratesAndChecksStaleness : Obligations.VisitIntegratesAndChecksStaleness := by
  intro k now dt u v
  obtain ⟨_, _, _, _, _, _, frame⟩ := visit_only k now
  have lifetime : v.lifetime = (k.takeUp.integrate now).lifetime := (congrArg Tenant.lifetime frame :)
  rw [integrate_takeUp] at frame
  refine ⟨(congrArg Tenant.lastVisit frame :), (congrArg Tenant.pendingContract frame :),
    (congrArg Tenant.contract frame :), (congrArg (·.lifetime.a) frame :), (congrArg (·.lifetime.b) frame :),
    (congrArg Tenant.draw frame :), (congrArg Tenant.members frame :), (congrArg Tenant.stale frame :),
    (congrArg Tenant.stack frame :), (congrArg Tenant.baseline frame :), (congrArg Tenant.lastClose frame :),
    (congrArg Tenant.preset frame :), (congrArg Tenant.unmetered frame :), fun suspended => ?_, fun active stale => ?_,
    fun active => ?_⟩
  · have visited : v = _ := visit_notActive (by rw [suspended]; decide) now
    rw [visited, integrate_takeUp]
    exact ⟨rfl, rfl, rfl, rfl, rfl, rfl⟩
  · have visited : v = _ := visit_stale active stale now
    rw [visited, integrate_takeUp]
    exact ⟨rfl, rfl, rfl, rfl, rfl, rfl⟩
  · rw [lifetime]
    exact visit_active active now

end Sys2Proof.Machine


/-! The tick generators and the review tick (R64 to R67, R86). -/

namespace Sys2Proof.Machine

/-! ### Events at a full store -/

theorem post_time (src : EventSource) (id : Word16) (s : State) : (post src id s).time = s.time :=
  (postAt_touches src ⟨id, 0⟩ s).2 .time rfl

theorem post_records (src : EventSource) (id : Word16) (s : State) : (post src id s).up.records = s.up.records :=
  postAt_records src ⟨id, 0⟩ s

/-- At a full store an event is reported; all but 0x0021 leave the guards alone (R90). -/
theorem post_full {s : State} (full : storeRoom s = false) {id : Word16} (other : id ≠ 0x0021#16) (src : EventSource) :
    post src id s = reportChain id s := by
  unfold post postAt discardEvent
  rw [if_neg (full ▸ Bool.false_ne_true), if_neg other]

/-- The tick events stand apart from the event of the pass end (Tables 5.1, 5.2). -/
theorem tickEvent_ne_passEnd : ∀ g : Fin 6, tickEvent g ≠ 0x0021#16 := by decide

/-! ### TICK_EXPIRY (R86) -/

theorem reached_iff (now due : RowTime) : reached now due = true ↔ (now - due).toNat < 2 ^ 31 := decide_eq_true_iff

theorem exec_tickExpiry_due {g : Fin 6} {s : State} (due : reached s.time.rowTime (s.time.due.get g) = true) :
    exec (.tickExpiry g) s = .next (expireTick g s) :=
  congrArg Host.Outcome.next (if_pos due)

theorem exec_tickExpiry_early {g : Fin 6} {s : State} (early : reached s.time.rowTime (s.time.due.get g) = false) :
    exec (.tickExpiry g) s = .next s :=
  congrArg Host.Outcome.next (if_neg (early ▸ Bool.false_ne_true))

/-- The event leaves the time base alone, so the next due time counts from the old one (R86, log entry 3). -/
theorem expireTick_eq (g : Fin 6) (s : State) : expireTick g s = (post .timeBase (tickEvent g) s).withTime
    { s.time with due := s.time.due.set g (s.time.due.get g + BitVec.ofNat 32 (tickPeriod g)) } := by
  unfold expireTick Table.modify
  dsimp only
  rw [post_time]

/-! ### REVIEW_TICK (R64 to R67) -/

/-- The state in which the engine takes a review tick: the next due time is set by the period in force (R64). -/
def reviewTicked (s : State) : State :=
  s.withTime { s.time with reviewDue := s.time.reviewDue + BitVec.ofNat 32 (reviewPeriodMs s.time.reviewPeriod) }

theorem exec_reviewTick_due {s : State} (due : reached s.time.rowTime s.time.reviewDue = true) :
    exec .reviewTick s = .next (takeReviewTick (reviewTicked s)) :=
  congrArg Host.Outcome.next (if_pos due)

theorem takeReviewTick_starts {s : State} (run : s.mgmt.opState = .run) (idle : s.review.pass = .idle) :
    takeReviewTick s = startPass s := by
  rw [takeReviewTick, run]
  exact if_neg (passInFlight_of_idle idle ▸ Bool.false_ne_true)

theorem takeReviewTick_overruns {s : State} (run : s.mgmt.opState = .run) (inFlight : s.review.pass ≠ .idle) :
    takeReviewTick s = overrun s := by
  rw [takeReviewTick, run]
  exact if_pos (passInFlight_of_not_idle inFlight)

theorem takeReviewTick_outOfRun {s : State} (out : s.mgmt.opState ≠ .run) : takeReviewTick s = s := by
  unfold takeReviewTick
  split
  · next run => exact absurd run out
  · rfl
  · rfl

/-- Settles O19: `expireTick_eq` with the store's room, and the review tick by the operating state and the pass state. -/
theorem ticksExpireAtTheirDueTimes : Obligations.TicksExpireAtTheirDueTimes := by
  refine ⟨fun s g => ⟨fun due room => ?_, fun due full => ?_, exec_tickExpiry_early⟩, fun s due => ?_, reached_iff,
    rfl, rfl⟩
  · rw [exec_tickExpiry_due due, expireTick_eq, post_room room]; rfl
  · rw [exec_tickExpiry_due due, expireTick_eq, post_full full (tickEvent_ne_passEnd g)]; rfl
  · rw [exec_reviewTick_due due]
    exact ⟨fun run idle => congrArg Host.Outcome.next (takeReviewTick_starts (s := reviewTicked s) run idle),
      fun run inFlight => congrArg Host.Outcome.next (takeReviewTick_overruns (s := reviewTicked s) run inFlight),
      fun out => congrArg Host.Outcome.next (takeReviewTick_outOfRun (s := reviewTicked s) out)⟩

end Sys2Proof.Machine


/-! The visit of a review pass: its verdict event, its period close, its wait and its repetition (R68 to R70, R79, R80,
R148, R152). -/

namespace Sys2Proof.Machine

/-! ### The tenant visited (R70 to R79) -/

/-- The state after steps 1 to 9 of a visit to slot `i`: the tenant judged, and its event posted when the verdict
changed. -/
def afterVerdict (i : Slot) (s : State) : State :=
  let k := s.tenants.get i
  let k' := k.visit s.time.rowTime
  let visited := s.withTenants (s.tenants.set i k')
  if k'.verdict = k.verdict then visited else post .review (verdictEvent i k'.verdict) visited

theorem visitSlot_free {i : Slot} {s : State} (free : (s.tenants.get i).state = .free) : visitSlot i s = advance s :=
  if_pos free

theorem visitSlot_used {i : Slot} {s : State} (used : (s.tenants.get i).state ≠ .free) :
    visitSlot i s = closeStep i (afterVerdict i s) :=
  if_neg used

/-- Beside the tenant visited, steps 1 to 9 touch what a posted event touches. -/
theorem afterVerdict_touches (i : Slot) (s : State) : Touches [.links, .up, .mgmt]
    (s.withTenants (s.tenants.set i ((s.tenants.get i).visit s.time.rowTime))) (afterVerdict i s) := by
  unfold afterVerdict
  dsimp only
  split
  · exact .refl _ _
  · exact postAt_touches ..

theorem afterVerdict_tenants (i : Slot) (s : State) :
    (afterVerdict i s).tenants = s.tenants.set i ((s.tenants.get i).visit s.time.rowTime) :=
  (afterVerdict_touches i s).2 .tenants rfl

theorem afterVerdict_review (i : Slot) (s : State) : (afterVerdict i s).review = s.review :=
  (afterVerdict_touches i s).2 .review rfl

theorem afterVerdict_time (i : Slot) (s : State) : (afterVerdict i s).time = s.time :=
  (afterVerdict_touches i s).2 .time rfl

theorem afterVerdict_records (i : Slot) (s : State) : (afterVerdict i s).up.records = s.up.records := by
  unfold afterVerdict
  dsimp only
  split
  · rfl
  · exact post_records ..

/-- A visit leaves the last close number to its period close (R151). -/
theorem visit_lastClose (k : Tenant) (now : RowTime) : (k.visit now).lastClose = k.lastClose := by
  obtain ⟨_, _, _, _, _, _, frame⟩ := visit_only k now
  rw [frame, integrate_takeUp]

theorem afterVerdict_lastClose (i : Slot) (s : State) :
    ((afterVerdict i s).tenants.get i).lastClose = (s.tenants.get i).lastClose := by
  rw [afterVerdict_tenants, Table.get_set_same, visit_lastClose]

/-! ### The period close (R80, R148) -/

theorem recordRoom_iff (s : State) : recordRoom s = true ↔ s.up.records.length < 4 := decide_eq_true_iff

theorem closeStep_skips {i : Slot} {s : State}
    (settled : s.review.closing = false ∨ (s.tenants.get i).lastClose = s.review.closeNumber) :
    closeStep i s = advance s :=
  if_neg fun ⟨closing, owed⟩ => settled.elim (fun notClosing => Bool.false_ne_true (notClosing.symm.trans closing)) owed

theorem closeStep_places {i : Slot} {s : State} (closing : s.review.closing = true)
    (owed : (s.tenants.get i).lastClose ≠ s.review.closeNumber) (room : s.up.records.length < 4) :
    closeStep i s = advance (modifyTenant i (fun k => k.periodReset s.review.closeNumber s.time.rowTime)
      (placeRecord (.period ((s.tenants.get i).periodRecord i s.review.closeNumber s.time.rowTime)) s)) :=
  (if_pos ⟨closing, owed⟩).trans (if_pos ((recordRoom_iff s).mpr room))

theorem closeStep_waits {i : Slot} {s : State} (closing : s.review.closing = true)
    (owed : (s.tenants.get i).lastClose ≠ s.review.closeNumber) (full : 4 ≤ s.up.records.length) :
    closeStep i s = waitForRoom s :=
  (if_pos ⟨closing, owed⟩).trans (if_neg fun room => Nat.not_le.mpr ((recordRoom_iff s).mp room) full)

/-! ### The commands -/

theorem exec_reviewVisit_due {s : State} (visiting : s.review.pass = .visiting) (walking : s.review.walked = false) :
    exec .reviewVisit s = .next (visitSlot s.review.position s) :=
  congrArg Host.Outcome.next (if_pos (by rw [visitDue, visiting, walking]; rfl))

theorem retryDue_iff (s : State) : retryDue s = true ↔
    s.review.pass = .waiting ∧ (s.up.records.length < 4 ∨ s.up.recordFreed = true) := by
  rw [retryDue, Bool.and_eq_true, decide_eq_true_iff, Bool.or_eq_true, recordRoom_iff]

/-- Settles O21: `visitSlot_used` gives the state before step 10, and `closeStep` is taken by its cases there;
VISIT_RETRY is the visit of the slot once more. -/
theorem reviewVisitTakesTheSlotAtThePosition : Obligations.ReviewVisitTakesTheSlotAtThePosition := by
  refine ⟨fun s visiting walking => ?_, fun s => rfl, fun s => ⟨fun waiting walking freed => ?_, fun early => ?_⟩⟩
  · intro i k k' visited s'
    have run : exec .reviewVisit s = .next (visitSlot i s) := exec_reviewVisit_due visiting walking
    have review : s'.review = s.review := afterVerdict_review i s
    have tenants : s'.tenants = s.tenants.set i k' := afterVerdict_tenants i s
    have record : s'.tenants.get i = k' := by rw [tenants, Table.get_set_same]
    have lastClose : (s'.tenants.get i).lastClose = k.lastClose := afterVerdict_lastClose i s
    have records : s'.up.records = s.up.records := afterVerdict_records i s
    have time : s'.time = s.time := afterVerdict_time i s
    have used (state : k.state ≠ .free) : exec .reviewVisit s = .next (closeStep i s') :=
      run.trans (congrArg Host.Outcome.next (visitSlot_used state))
    have owes (owed : k.lastClose ≠ s.review.closeNumber) : (s'.tenants.get i).lastClose ≠ s'.review.closeNumber := by
      rw [lastClose, review]; exact owed
    refine ⟨fun free => ?_, fun state settled => ?_, fun state closing owed room => ?_,
      fun state closing owed full => ?_⟩
    · rw [run, visitSlot_free free]
    · rw [used state, closeStep_skips (by rw [lastClose, review]; exact settled)]
    · rw [used state, closeStep_places (review ▸ closing) (owes owed) (records ▸ room), record, review, time]
      unfold modifyTenant placeRecord Table.modify
      rw [State.withUp_tenants, record, tenants, Table.set_set]
    · rw [used state, closeStep_waits (review ▸ closing) (owes owed) (records ▸ full)]
      unfold waitForRoom
      rw [review]
  · refine ⟨retryVisit s, congrArg Host.Outcome.next (if_pos ((retryDue_iff s).mpr ⟨waiting, freed⟩)), ?_⟩
    exact exec_reviewVisit_due (s := s.withReview { s.review with pass := .visiting }) rfl walking
  · refine congrArg Host.Outcome.next (if_neg fun due => ?_)
    obtain ⟨waiting, freed⟩ := (retryDue_iff s).mp due
    rcases early with other | ⟨full, unfreed⟩
    · exact other waiting
    · exact freed.elim (Nat.not_lt.mpr full) (unfreed ▸ Bool.false_ne_true)

end Sys2Proof.Machine


/-! The event link table, operation by operation: the event store, the taking of an event, the scan at one link, the
performed action, the reports, and the end of the chain in hand (R87 to R100). -/

namespace Sys2Proof.Machine

/-! ### Touched blocks of the link table's operations -/

theorem reportChain_touches (id : Word16) (s : State) : Touches [.up, .mgmt] s (reportChain id s) :=
  (touches_withMgmt s _).widen.trans (queueNotice_touches ..)

theorem withLinks_touches (s : State) (x : LinkTable) : Touches [.links] s (s.withLinks x) :=
  ⟨rfl, fun b out => by cases b <;> first | rfl | exact absurd out (by decide)⟩

/-! ### The event store (R88, R90) -/

theorem storeRoom_eq_false_iff (s : State) :
    storeRoom s = false ↔ 64 ≤ s.links.chain.length + s.links.arrivals.length := by
  rw [← Bool.not_eq_true, storeRoom_iff, Nat.not_lt]

theorem postAt_room {s : State} (room : storeRoom s = true) (src : EventSource) (e : Event) :
    postAt src e s = s.withLinks { s.links with arrivals := s.links.arrivals ++ [⟨src, e⟩] } := if_pos room

theorem postAt_full {s : State} (full : storeRoom s = false) (src : EventSource) (e : Event) :
    postAt src e s = discardEvent e.id s := if_neg (full ▸ Bool.false_ne_true)

theorem postOutcome_room {s : State} (room : storeRoom s = true) (l : LinkIx) (done : Bool) (depth : Nat) :
    postOutcome l done depth s =
      s.withLinks { s.links with chain := s.links.chain ++ [⟨outcomeId l done, depth⟩] } := if_pos room

theorem postOutcome_full {s : State} (full : storeRoom s = false) (l : LinkIx) (done : Bool) (depth : Nat) :
    postOutcome l done depth s = discardEvent (outcomeId l done) s := if_neg (full ▸ Bool.false_ne_true)

theorem discardEvent_passEnd (s : State) : discardEvent 0x0021#16 s = reportChain 0x0021#16 (releaseGuards s) := rfl

theorem discardEvent_other {id : Word16} (other : id ≠ 0x0021#16) (s : State) : discardEvent id s = reportChain id s :=
  congrArg (reportChain id) (if_neg other)

/-- The outcome events stand apart from the event of the pass end (Table 5.2). -/
theorem outcomeId_ne_passEnd (l : LinkIx) (done : Bool) : outcomeId l done ≠ 0x0021#16 := by
  intro same
  have number := congrArg BitVec.toNat same
  unfold outcomeId at number
  rw [BitVec.toNat_ofNat, Nat.mod_eq_of_lt (by split <;> omega)] at number
  change _ = 33 at number
  omega

/-- The arrival that `takeFirst` finds leaves those before and after it. -/
theorem takeFirst_split {p : Arrival → Bool} {a : Arrival} : ∀ {as rest : List Arrival},
    takeFirst p as = some (a, rest) → ∃ before after, as = before ++ a :: after ∧ rest = before ++ after
  | [], _, found => nomatch found
  | b :: as, rest, found => by
    unfold takeFirst at found
    split at found
    · cases found
      exact ⟨[], _, rfl, rfl⟩
    · obtain ⟨⟨c, others⟩, inside, same⟩ := Option.map_eq_some_iff.mp found
      cases same
      obtain ⟨before, after, rfl, rfl⟩ := takeFirst_split inside
      exact ⟨b :: before, after, rfl, rfl⟩

theorem takeFirst_first {p : Arrival → Bool} {a : Arrival} {after : List Arrival} (hit : p a = true) :
    ∀ {before : List Arrival}, (∀ b ∈ before, p b = false) →
      takeFirst p (before ++ a :: after) = some (a, before ++ after)
  | [], _ => if_pos hit
  | b :: before, others => by
    obtain ⟨head, tail⟩ := List.forall_mem_cons.mp others
    rw [List.cons_append, takeFirst, if_neg (head ▸ Bool.false_ne_true), takeFirst_first hit tail]
    rfl

theorem takeFirst_none {p : Arrival → Bool} : ∀ {as : List Arrival}, (∀ a ∈ as, p a = false) → takeFirst p as = none
  | [], _ => rfl
  | a :: as, others => by
    obtain ⟨head, tail⟩ := List.forall_mem_cons.mp others
    rw [takeFirst, if_neg (head ▸ Bool.false_ne_true), takeFirst_none tail]
    rfl

/-- The arrival taken next leaves those before and after it. -/
theorem nextArrival_split {prefer : Option EventSource} {as rest : List Arrival} {a : Arrival}
    (found : nextArrival prefer as = some (a, rest)) :
    ∃ before after, as = before ++ a :: after ∧ rest = before ++ after := by
  unfold nextArrival at found
  split at found
  · exact takeFirst_split found
  · split at found
    · next inside => exact takeFirst_split (inside.trans found)
    · exact takeFirst_split found

/-- The oldest arrival of the preferred poster is taken (log entry 16). -/
theorem nextArrival_preferred {a : Arrival} {before after : List Arrival} (older : ∀ b ∈ before, b.source ≠ a.source) :
    nextArrival (some a.source) (before ++ a :: after) = some (a, before ++ after) := by
  have found : takeFirst (fun x => x.source == a.source) (before ++ a :: after) = some (a, before ++ after) :=
    takeFirst_first (p := fun x => x.source == a.source) (beq_self_eq_true _)
      fun b hb => beq_eq_false_iff_ne.mpr (older b hb)
  unfold nextArrival
  dsimp only
  rw [found]

/-- Where no arrival is of the preferred poster, the oldest of all is taken (R88). -/
theorem nextArrival_oldest {prefer : Option EventSource} {a : Arrival} {after : List Arrival}
    (nobody : prefer = none ∨ ∀ b ∈ a :: after, prefer ≠ some b.source) :
    nextArrival prefer (a :: after) = some (a, after) := by
  unfold nextArrival
  split
  · exact if_pos rfl
  · next source =>
    have other : ∀ b ∈ a :: after, (b.source == source) = false := fun b hb =>
      beq_eq_false_iff_ne.mpr fun same => nobody.elim (fun h => nomatch h) fun h => h b hb (congrArg some same.symm)
    rw [takeFirst_none other]
    exact if_pos rfl

/-! ### The taking of an event (R90, R91) -/

/-- The state in which a taken event is looked at: a 0x0021 has released the guards (R91). -/
def guardsHeeded (e : Event) (s : State) : State := if e.id = 0x0021#16 then releaseGuards s else s

theorem guardsHeeded_touches (e : Event) (s : State) : Touches [.links] s (guardsHeeded e s) := by
  unfold guardsHeeded
  split
  · exact withLinks_touches ..
  · exact .refl ..

theorem guardsHeeded_opState (e : Event) (s : State) : (guardsHeeded e s).mgmt.opState = s.mgmt.opState :=
  congrArg Management.opState ((guardsHeeded_touches e s).2 .mgmt rfl)

theorem takeEvent_discards {e : Event} {s : State} (out : s.mgmt.opState ≠ .run) :
    takeEvent e s = guardsHeeded e s := takeEvent_out_of_run e out

theorem takeEvent_reports {e : Event} {s : State} (run : s.mgmt.opState = .run) (deep : 4 ≤ e.depth) :
    takeEvent e s = reportChain e.id (guardsHeeded e s) :=
  (if_neg (not_not_intro ((guardsHeeded_opState e s).trans run))).trans (if_pos deep)

theorem takeEvent_scans {e : Event} {s : State} (run : s.mgmt.opState = .run) (shallow : e.depth < 4) :
    takeEvent e s = (List.finRange 64).foldl (scanLink e) (guardsHeeded e s) :=
  (if_neg (not_not_intro ((guardsHeeded_opState e s).trans run))).trans (if_neg (Nat.not_le.mpr shallow))

/-- A taken event is discarded, reported or scanned (R91). -/
theorem takeEvent_cases (e : Event) (s : State) :
    takeEvent e s = guardsHeeded e s ∨ takeEvent e s = reportChain e.id (guardsHeeded e s) ∨
      e.depth < 4 ∧ takeEvent e s = (List.finRange 64).foldl (scanLink e) (guardsHeeded e s) := by
  by_cases run : s.mgmt.opState = .run
  · rcases Nat.lt_or_ge e.depth 4 with shallow | deep
    · exact .inr (.inr ⟨shallow, takeEvent_scans run shallow⟩)
    · exact .inr (.inl (takeEvent_reports run deep))
  · exact .inl (takeEvent_discards run)

theorem scanChain_cons {e : Event} {rest : List Event} {s : State} (chain : s.links.chain = e :: rest) :
    scanChain s = takeEvent e (s.withLinks { s.links with chain := rest }) := by
  unfold scanChain; rw [chain]

theorem takeNextEvent_chain {s : State} (chain : s.links.chain ≠ []) (prefer : Option EventSource) :
    takeNextEvent prefer s = scanChain s := by
  unfold takeNextEvent
  split
  · rfl
  · next empty => exact absurd empty chain

theorem takeNextEvent_arrival {s : State} {prefer : Option EventSource} {a : Arrival} {rest : List Arrival}
    (chain : s.links.chain = []) (found : nextArrival prefer s.links.arrivals = some (a, rest)) :
    takeNextEvent prefer s = takeEvent a.event (s.withLinks { s.links with arrivals := rest }) := by
  unfold takeNextEvent
  rw [chain]
  dsimp only
  rw [found]

/-! ### The scan at one link (R92 to R95) -/

/-- The condition of a link (R92). -/
theorem holds_iff (k : Link) (ts : Table Tenant 128) : k.holds ts = true ↔
    ∀ x, k.condition = some x →
      (ts.get x.tenant).state ≠ .free ∧ x.verdicts.getLsbD (ts.get x.tenant).verdict.code = true := by
  unfold Link.holds
  split
  · next absent => simp [absent]
  · next x present => simp [present]

theorem switches_iff (a : LinkAction) : a.switches = true ↔ (∃ t, a = .shed t) ∨ ∃ t, a = .restore t := by
  cases a <;> simp [LinkAction.switches]

theorem shedRoom_iff (s : State) : shedRoom s = true ↔ s.links.shedQueue.length < 8 := decide_eq_true_iff

section
variable {e : Event} {s : State} {l : LinkIx}

theorem scanLink_apart
    (apart : (s.links.links.get l).trigger ≠ e.id ∨
      ((s.links.links.get l).guard = true ∧ (s.links.links.get l).guardSet = true)) : scanLink e s l = s :=
  if_pos (apart.imp_right (Bool.and_eq_true_iff.mpr ·))

theorem scanLink_off (off : (s.links.links.get l).mode = .off) : scanLink e s l = s := by
  unfold scanLink
  dsimp only
  rw [off]
  exact ite_self _

variable (trigger : (s.links.links.get l).trigger = e.id)
  (unguarded : ¬ ((s.links.links.get l).guard = true ∧ (s.links.links.get l).guardSet = true))
include trigger unguarded

theorem not_apart_of_trigger : ¬ ((s.links.links.get l).trigger ≠ e.id ∨
    ((s.links.links.get l).guard && (s.links.links.get l).guardSet) = true) :=
  not_or.mpr ⟨not_not_intro trigger, fun both => unguarded (Bool.and_eq_true_iff.mp both)⟩

theorem scanLink_once (once : (s.links.links.get l).mode = .once) : scanLink e s l =
    if (s.links.links.get l).holds s.tenants && (s.links.links.get l).armed then
      performAction l (s.links.links.get l).action false ((s.links.links.get l).holds s.tenants) e
        (modifyLink l (fun x => { x with armed := (s.links.links.get l).action.switches && !shedRoom s }) s)
    else s := by
  unfold scanLink
  dsimp only
  rw [if_neg (not_apart_of_trigger trigger unguarded), once]

theorem scanLink_onChange (onChange : (s.links.links.get l).mode = .onChange) : scanLink e s l =
    if (s.links.links.get l).holds s.tenants = (s.links.links.get l).lastCondition then s
    else performAction l
      (if (s.links.links.get l).holds s.tenants then (s.links.links.get l).action else (s.links.links.get l).action.counter)
      (!(s.links.links.get l).holds s.tenants) ((s.links.links.get l).holds s.tenants) e
      (modifyLink l (fun x => { x with lastCondition := (s.links.links.get l).holds s.tenants }) s) := by
  unfold scanLink
  dsimp only
  rw [if_neg (not_apart_of_trigger trigger unguarded), onChange]

theorem scanLink_every (every : (s.links.links.get l).mode = .every) : scanLink e s l =
    if (s.links.links.get l).holds s.tenants then
      performAction l (s.links.links.get l).action false ((s.links.links.get l).holds s.tenants) e s
    else s := by
  unfold scanLink
  dsimp only
  rw [if_neg (not_apart_of_trigger trigger unguarded), every]

end

/-- The part of a link in a scan, said once: none, or an action performed, after what a link in mode ONCE writes into its
arm state, or one in mode ON_CHANGE into its last condition (R92 to R95). -/
theorem scanLink_cases (e : Event) (s : State) (l : LinkIx) : scanLink e s l = s ∨
    ∃ a counter c x, scanLink e s l = performAction l a counter c e x ∧
      (x = s ∨ ((s.links.links.get l).mode = .once ∧ ∃ armed, x = modifyLink l (fun k => { k with armed := armed }) s) ∨
        ∃ last, x = modifyLink l (fun k => { k with lastCondition := last }) s) := by
  by_cases trigger : (s.links.links.get l).trigger = e.id
  · by_cases guarded : (s.links.links.get l).guard = true ∧ (s.links.links.get l).guardSet = true
    · exact .inl (scanLink_apart (.inr guarded))
    · rcases mode : (s.links.links.get l).mode with _ | _ | _ | _
      case off => exact .inl (scanLink_off mode)
      case once =>
        rw [scanLink_once trigger guarded mode]
        split
        · exact .inr ⟨_, _, _, _, rfl, .inr (.inl ⟨rfl, _, rfl⟩)⟩
        · exact .inl rfl
      case onChange =>
        rw [scanLink_onChange trigger guarded mode]
        split
        · exact .inl rfl
        · exact .inr ⟨_, _, _, _, rfl, .inr (.inr ⟨_, rfl⟩)⟩
      case every =>
        rw [scanLink_every trigger guarded mode]
        split
        · exact .inr ⟨_, _, _, _, rfl, .inl rfl⟩
        · exact .inl rfl
  · exact .inl (scanLink_apart (.inl trigger))

end Sys2Proof.Machine


/-! What keeps links armed out of ONCE and depths within bounds (R88, R103). -/

namespace Sys2Proof.Machine

/-! ### Invariants of every step -/

/-- An invariant that neither the queue of commands nor a millisecond touches, and that every command keeps, is kept by
every step. -/
theorem invariant_of_exec {Inv : State → Prop} (queue : ∀ s x, Inv s → Inv (s.withPending x))
    (time : ∀ s x, Inv s → Inv (s.withTime x)) (command : ∀ c s, ∃ t, exec c s = .next t ∧ (Inv s → Inv t)) :
    ∀ s t, Inv s → step s = .next t → Inv t := by
  intro s t inv run
  unfold step at run
  split at run
  · cases run; exact time s _ inv
  · next c rest _ =>
    obtain ⟨x, hx, kept⟩ := command c (s.withPending rest)
    cases hx.symm.trans run
    exact kept (queue s rest inv)

/-! ### Combinators -/

/-- The step from `s` to `t` keeps links and depths sound. -/
structure LinksKept (s t : State) : Prop where
  sound : LinksSound s → LinksSound t

namespace LinksKept

theorem refl (s : State) : LinksKept s s := ⟨id⟩

theorem trans {s t u : State} (h : LinksKept s t) (k : LinksKept t u) : LinksKept s u :=
  ⟨fun sound => k.sound (h.sound sound)⟩

/-- `trans`, the later step first. -/
theorem after {s t u : State} (k : LinksKept t u) (h : LinksKept s t) : LinksKept s u := h.trans k

theorem foldl {α : Type} {f : State → α → State} : ∀ {l : List α}, (∀ a ∈ l, ∀ s, LinksKept s (f s a)) →
    ∀ s, LinksKept s (l.foldl f s)
  | [], _, s => .refl s
  | _ :: _, h, s => (h _ List.mem_cons_self s).trans (foldl (fun a ha => h a (List.mem_cons_of_mem _ ha)) _)

theorem iterate {f : State → State} (h : ∀ s, LinksKept s (f s)) :
    ∀ (n : Nat) (s : State), LinksKept s (Machine.iterate f n s)
  | 0, s => .refl s
  | n + 1, s => (h s).trans (iterate h n (f s))

/-- A case split whose two sides both keep. -/
theorem ite {s t u : State} {p : Prop} [Decidable p] (h : p → LinksKept s t) (k : ¬ p → LinksKept s u) :
    LinksKept s (if p then t else u) := by
  split
  · next hp => exact h hp
  · next hp => exact k hp

/-- The link table and the order table as they were. -/
theorem of_same {s t : State} (links : t.links = s.links) (orders : t.orders = s.orders) : LinksKept s t :=
  ⟨fun ⟨armed, chain, arrivals, reports, queue, search, outstanding⟩ =>
    ⟨links ▸ armed, links ▸ chain, links ▸ arrivals, links ▸ reports, links ▸ queue, orders ▸ search,
      orders ▸ outstanding⟩⟩

/-- What touches neither the link table nor the order table. -/
theorem of_touches {bs : List Block} {s t : State} (h : Touches bs s t)
    (links : bs.contains .links = false := by rfl) (orders : bs.contains .orders = false := by rfl) : LinksKept s t :=
  of_same (h.2 .links links) (h.2 .orders orders)

theorem withPending (s : State) (x : List Instr) : LinksKept s (s.withPending x) := .of_same rfl rfl
theorem withTime (s : State) (x : TimeBase) : LinksKept s (s.withTime x) := .of_same rfl rfl
theorem withProfiles (s : State) (x : Table Profile 16) : LinksKept s (s.withProfiles x) := .of_same rfl rfl
theorem withTenants (s : State) (x : Table Tenant 128) : LinksKept s (s.withTenants x) := .of_same rfl rfl
theorem withReview (s : State) (x : Review) : LinksKept s (s.withReview x) := .of_same rfl rfl
theorem withPorts (s : State) (x : Ports) : LinksKept s (s.withPorts x) := .of_same rfl rfl
theorem withMgmt (s : State) (x : Management) : LinksKept s (s.withMgmt x) := .of_same rfl rfl

end LinksKept

/-! ### Links and events -/

/-- A link that is not in mode ONCE is ARMED (R103). -/
def Link.armSound (k : Link) : Prop := k.mode ≠ .once → k.armed = true

theorem modifyLink_linksKept {l : LinkIx} {f : Link → Link} {s : State}
    (arm : (s.links.links.get l).armSound → (f (s.links.links.get l)).armSound) : LinksKept s (modifyLink l f s) :=
  ⟨fun h => { h with
    armed := fun j => by
      show ((s.links.links.modify l f).get j).armSound
      rw [Table.get_modify]
      split
      · exact arm (h.armed l)
      · exact h.armed j }⟩

theorem releaseGuards_linksKept (s : State) : LinksKept s (releaseGuards s) := ⟨fun h => { h with
  armed := fun j => by
    show ((s.links.links.map _).get j).armSound
    rw [Table.get_map]
    exact h.armed j }⟩

theorem reportChain_linksKept (id : Word16) (s : State) : LinksKept s (reportChain id s) :=
  .of_touches (reportChain_touches id s)

theorem queueNotice_linksKept (x : NoticeSubject) (s : State) : LinksKept s (queueNotice x s) :=
  .of_touches (queueNotice_touches x s)

theorem discardEvent_linksKept (id : Word16) (s : State) : LinksKept s (discardEvent id s) :=
  (reportChain_linksKept ..).after (.ite (fun _ => releaseGuards_linksKept s) fun _ => .refl s)

/-- A block's event or a reported outcome joins the arrivals within R88's bound. -/
theorem postAt_linksKept (src : EventSource) {e : Event} (depth : e.depth ≤ 4) (s : State) :
    LinksKept s (postAt src e s) :=
  .ite (fun _ => ⟨fun h => { h with
    arrivals := List.forall_mem_append.mpr ⟨h.arrivals, List.forall_mem_singleton.mpr depth⟩ }⟩)
    fun _ => discardEvent_linksKept ..

theorem post_linksKept (src : EventSource) (id : Word16) (s : State) : LinksKept s (post src id s) :=
  postAt_linksKept src (Nat.zero_le 4) s

theorem postOutcome_linksKept (l : LinkIx) (done : Bool) {depth : Nat} (bounds : 1 ≤ depth ∧ depth ≤ 4) (s : State) :
    LinksKept s (postOutcome l done depth s) :=
  .ite (fun _ => ⟨fun h => { h with
    chain := List.forall_mem_append.mpr ⟨h.chain, List.forall_mem_singleton.mpr bounds⟩ }⟩)
    fun _ => discardEvent_linksKept ..

theorem joinShedQueue_linksKept {r : ShedRequest} (depth : r.origin.depthOk) (s : State) :
    LinksKept s (joinShedQueue r s) := ⟨fun h => { h with
  queue := List.forall_mem_append.mpr ⟨h.queue, List.forall_mem_singleton.mpr depth⟩ }⟩

/-! ### Scans -/

/-- A scanned event has depth 3 at most, so its outcome stays within R88's bounds. -/
theorem performAction_linksKept (l : LinkIx) (a : LinkAction) (counter c : Bool) {e : Event} (shallow : e.depth < 4)
    (s : State) : LinksKept s (performAction l a counter c e s) := by
  have bounds : 1 ≤ e.depth + 1 ∧ e.depth + 1 ≤ 4 := ⟨Nat.le_add_left .., shallow⟩
  have outcome (done : Bool) (x : State) : LinksKept x (postOutcome l done (e.depth + 1) x) :=
    postOutcome_linksKept l done bounds x
  have shed (kind : ShedKind) (t : Slot) (x : State) : LinksKept x (linkShed kind t l (e.depth + 1) x) :=
    .ite (fun _ => joinShedQueue_linksKept (r := ⟨kind, t, .link l (e.depth + 1)⟩) bounds x) fun _ => outcome false x
  have dispatch (x : State) : LinksKept x (dispatchAction l a counter c e x) := by
    cases a with
    | shed t => exact shed .shed t x
    | restore t => exact shed .restore t x
    | notify => exact (outcome ..).after (queueNotice_linksKept ..)
    | latch t => exact .ite (fun _ => outcome ..) fun _ => (outcome ..).after (.of_same rfl rfl)
    | close => exact .ite (fun _ => outcome ..) fun _ => (outcome ..).after (.of_same rfl rfl)
  exact (dispatch _).after (modifyLink_linksKept id)

theorem scanLink_linksKept {e : Event} (shallow : e.depth < 4) (l : LinkIx) (s : State) :
    LinksKept s (scanLink e s l) := by
  rcases scanLink_cases e s l with apart | ⟨a, counter, c, x, acts, before⟩
  · rw [apart]; exact .refl s
  · rw [acts]
    refine (performAction_linksKept l a counter c shallow x).after ?_
    rcases before with rfl | ⟨once, armed, rfl⟩ | ⟨last, rfl⟩
    · exact .refl _
    · exact modifyLink_linksKept fun _ other => absurd once other
    · exact modifyLink_linksKept id

theorem takeEvent_linksKept (e : Event) (s : State) : LinksKept s (takeEvent e s) := by
  have heeded : LinksKept s (guardsHeeded e s) := .ite (fun _ => releaseGuards_linksKept s) fun _ => .refl s
  rcases takeEvent_cases e s with discarded | reported | ⟨shallow, scanned⟩
  · rw [discarded]; exact heeded
  · rw [reported]; exact heeded.trans (reportChain_linksKept ..)
  · rw [scanned]; exact heeded.trans (.foldl (fun l _ x => scanLink_linksKept shallow l x) _)

theorem scanChain_linksKept (s : State) : LinksKept s (scanChain s) := by
  rcases chain : s.links.chain with _ | ⟨e, rest⟩
  · unfold scanChain; rw [chain]; exact .refl s
  · rw [scanChain_cons chain]
    exact (takeEvent_linksKept ..).after ⟨fun h => { h with
      chain := fun x hx => h.chain x (chain ▸ List.mem_cons_of_mem e hx) }⟩

theorem finishChain_linksKept (s : State) : LinksKept s (finishChain s) :=
  .iterate (fun _ => .iterate scanChain_linksKept _ _) 5 s

theorem takeWaiting_linksKept (s : State) : LinksKept s (takeWaiting s) :=
  (LinksKept.foldl (fun e _ x => takeEvent_linksKept e x) _).after ⟨fun h => { h with
    chain := List.forall_mem_nil _
    arrivals := List.forall_mem_nil _ }⟩

theorem takeNextEvent_linksKept (prefer : Option EventSource) (s : State) : LinksKept s (takeNextEvent prefer s) := by
  unfold takeNextEvent
  split
  · exact scanChain_linksKept s
  · split
    · exact .refl s
    · next a rest found =>
      obtain ⟨before, after, split, rfl⟩ := nextArrival_split found
      refine (takeEvent_linksKept ..).after ⟨fun h => { h with arrivals := fun x hx => h.arrivals x ?_ }⟩
      rw [split]
      exact List.mem_append.mpr ((List.mem_append.mp hx).imp_right (List.mem_cons_of_mem a))

theorem takeReport_linksKept (s : State) : LinksKept s (takeReport s) := by
  unfold takeReport
  split
  · next r rest _ waiting =>
    refine ⟨fun h => ?_⟩
    obtain ⟨depth, others⟩ := List.forall_mem_cons.mp (waiting ▸ h.reports)
    refine (postAt_linksKept .report depth.2 _).sound
      ((modifyLink_linksKept fun arm => ?_).sound { h with reports := others })
    unfold Link.rearmed
    split
    · exact fun _ => rfl
    · exact arm
  · exact .refl s
  · exact .refl s

/-! ### Orders and shed requests -/

theorem answer_linksKept (u : RequestUnit) (tag : Byte) (w : Bool) (st : Status) (d : ReplyData) (s : State) :
    LinksKept s (answer u tag w st d s) := .of_touches (answer_touches u tag w st d s)

theorem answerSwitch_linksKept (st : Status) (d : ReplyData) (s : State) : LinksKept s (answerSwitch st d s) :=
  .of_touches (answerSwitch_touches st d s)

/-- The report of an ended request carries the depth of its origin (R98). -/
theorem endShedRequest_linksKept {e : RequestEnd} (depth : e.origin.depthOk) (s : State) :
    LinksKept s (endShedRequest e s) := by
  have noted (n : NoticeSubject) : LinksKept s (if e.done then s else queueNotice n s) :=
    .ite (fun _ => .refl s) fun _ => queueNotice_linksKept ..
  unfold endShedRequest
  dsimp only
  split
  · next l d link =>
    rw [link] at depth
    exact (noted _).trans ⟨fun h => { h with
      reports := List.forall_mem_append.mpr ⟨h.reports, List.forall_mem_singleton.mpr depth⟩ }⟩
  · exact (noted _).trans (.ite (fun _ => answerSwitch_linksKept ..) fun _ => .refl _)

theorem failShedRequest_linksKept (kind : ShedKind) (t : Slot) {origin : RequestOrigin} (depth : origin.depthOk)
    (reason : Status) (s : State) : LinksKept s (failShedRequest kind t origin reason s) :=
  endShedRequest_linksKept depth s

theorem endOrder_linksKept {o : Order} (depth : o.origin.depthOk) (e : Ending) (s : State) :
    LinksKept s (endOrder o e s) := by
  have report (d : Bool) (r : RelayStatus) (i : Indicator) (x : State) : LinksKept x (orderReport o e d r i x) := by
    unfold orderReport
    dsimp only
    split
    · next origin => exact endShedRequest_linksKept (by rw [origin] at depth; exact depth) x
    · next origin => exact endShedRequest_linksKept (by rw [origin] at depth; exact depth) x
    · exact .ite (fun _ => answerSwitch_linksKept ..) fun _ => .refl x
  have freed (x : State) : LinksKept x (x.withOrders { x.orders with
      orders := x.orders.orders.filter (fun y => y.number != o.number) }) := ⟨fun h => { h with
    orders := fun y hy => h.orders y (List.mem_filter.mp hy).1 }⟩
  unfold endOrder
  dsimp only
  exact (report ..).after ((freed _).after
    ((LinksKept.of_touches (orderStackStep_touches o e s)).trans (.of_touches (modifyOutlet_touches ..))))

theorem loseNode_linksKept (n : NodeIx) (s : State) : LinksKept s (loseNode n s) :=
  ⟨fun h => (LinksKept.foldl
    (fun o ho x => endOrder_linksKept (h.orders o (List.mem_filter.mp ho).1) .nodeLost x) s).sound h⟩

theorem leaveNode_linksKept (n : NodeIx) (after : NodeState) (k : Nat) (s : State) :
    LinksKept s (leaveNode n after k s) :=
  (post_linksKept ..).after ((loseNode_linksKept ..).after
    (LinksKept.after (.of_touches (clearFreshness_touches ..)) (.of_touches (modifyNode_touches ..))))

theorem expireNode_linksKept (n : NodeIx) (s : State) : LinksKept s (expireNode n s) :=
  .ite (fun _ => leaveNode_linksKept ..) fun _ => .refl s

theorem placeOrder_linksKept (i : OutletIx) (r : RelayAction) (d : IndicatorAction) {o : OrderOrigin}
    (depth : o.depthOk) (s : State) : LinksKept s (placeOrder i r d o s) := ⟨fun h => { h with
  orders := List.forall_mem_append.mpr ⟨h.orders, List.forall_mem_singleton.mpr depth⟩ }⟩

theorem setSearch_linksKept {q : Option Search} (depth : ∀ x, q = some x → x.origin.depthOk) (s : State) :
    LinksKept s (setSearch q s) := ⟨fun h => { h with search := depth }⟩

theorem takeShed_linksKept (t : Slot) {o : RequestOrigin} (depth : o.depthOk) (s : State) :
    LinksKept s (takeShed t o s) := by
  unfold takeShed
  split
  · exact failShedRequest_linksKept _ _ depth _ s
  · exact setSearch_linksKept (fun x hx => Option.some.inj hx ▸ depth) s

theorem takeRestore_linksKept (t : Slot) {o : RequestOrigin} (depth : o.depthOk) (s : State) :
    LinksKept s (takeRestore t o s) := by
  unfold takeRestore
  split
  · exact failShedRequest_linksKept _ _ depth _ s
  · next i _ =>
    exact (placeOrder_linksKept i .on .dark (o := .restore t o) depth s).trans (.of_same rfl rfl)

theorem takeShedRequest_linksKept (s : State) : LinksKept s (takeShedRequest s) := by
  unfold takeShedRequest
  split
  · next r rest _ waiting =>
    refine ⟨fun h => ?_⟩
    obtain ⟨depth, others⟩ := List.forall_mem_cons.mp (waiting ▸ h.queue)
    have taken : LinksSound (s.withLinks { s.links with shedQueue := rest }) := { h with queue := others }
    dsimp only
    split
    · exact (takeShed_linksKept _ depth _).sound taken
    · exact (takeRestore_linksKept _ depth _).sound taken
  · exact .refl s
  · exact .refl s

theorem searchStep_origin (q : Search) (s : State) : (q.step s).origin = q.origin := by
  unfold Search.step
  split <;> rfl

theorem searchStep_linksKept {q : Search} {s : State} (search : s.orders.search = some q) :
    LinksKept s (setSearch (some (q.step s)) s) := ⟨fun h => { h with
  search := fun x hx => by
    rw [← Option.some.inj hx, searchStep_origin]
    exact h.search q search }⟩

theorem endSearch_linksKept {q : Search} {s : State} (search : s.orders.search = some q) :
    LinksKept s (endSearch q s) := by
  refine ⟨fun h => ?_⟩
  have depth := h.search q search
  have idle : LinksSound (setSearch none s) := { h with search := fun _ found => nomatch found }
  unfold endSearch
  split
  · exact (failShedRequest_linksKept _ _ depth _ _).sound idle
  · next i _ =>
    exact ((LinksKept.withTenants ..).after
      (placeOrder_linksKept i .off .blink (o := .shed q.tenant q.origin) depth _)).sound idle

/-! ### Frames and requests -/

theorem arrive_linksKept {p : Port} {len : Nat} {k : State → State} (h : ∀ x, LinksKept x (k x)) (s : State) :
    LinksKept s (arrive p len k s) := by
  have hunting : LinksKept s (setReceiver p .hunt s) := by cases p <;> exact .of_same rfl rfl
  exact hunting.trans (.ite (fun _ => .of_same rfl rfl) fun _ => (h _).after (.of_same rfl rfl))

theorem serve_linksKept {α : Type} {u : RequestUnit} {r : Request} {parse : List Byte → Option α}
    {act : α → State → State} (h : ∀ a, parse r.args = some a → ∀ x, LinksKept x (act a x)) (s : State) :
    LinksKept s (serve u r parse act s) := by
  obtain ⟨x, ports, refused | ⟨a, read, acted⟩⟩ := serve_cases u r parse act s
  · exact (LinksKept.of_touches ports).trans (.of_touches refused)
  · rw [acted]; exact (LinksKept.of_touches ports).trans (h a read x)

theorem nodePortFrame_linksKept {f : NodeFrame} {k : NodeIx → State → State} (h : ∀ n x, LinksKept x (k n x))
    (s : State) : LinksKept s (nodePortFrame f k s) := by
  refine arrive_linksKept (fun x => ?_) s
  split
  · exact .of_same rfl rfl
  · exact .ite (fun _ => .of_same rfl rfl) fun _ => (h _ _).after (.of_same rfl rfl)

end Sys2Proof.Machine


/-! Every command keeps the links sound (R88, R103). -/

namespace Sys2Proof.Machine

/-! ### Node frames -/

theorem raiseNode_linksKept (n : NodeIx) (s : State) : LinksKept s (raiseNode n s) :=
  .ite (fun _ => .refl s) fun _ => LinksKept.after (.of_touches (sendLimitNote_touches ..))
    ((post_linksKept ..).after (.of_touches (modifyNode_touches ..)))

theorem convertEntry_linksKept (i : OutletIx) (code : Nat) (s : State) : LinksKept s (convertEntry i code s) :=
  (LinksKept.of_touches (updateReading_touches ..)).trans (.of_touches (conversionNotice_touches ..).1)

theorem countBadEntry_linksKept (n : NodeIx) (s : State) : LinksKept s (countBadEntry n s) := .of_same rfl rfl

theorem intake_linksKept (n : NodeIx) (p : List Byte) (s : State) : LinksKept s (intake n p s) := by
  have entry (fitted : Nat) (e : Byte × Nat) (x : State) : LinksKept x (intakeEntry n fitted x e) := by
    unfold intakeEntry
    split
    · exact countBadEntry_linksKept ..
    · exact .ite (fun _ => countBadEntry_linksKept ..) fun _ => convertEntry_linksKept ..
  exact .ite (fun _ => .refl s) fun _ => .ite (fun _ => .foldl (fun e _ x => entry _ e x) s)
    fun _ => countBadEntry_linksKept ..

theorem sequenceCheck_linksKept (n : NodeIx) (q : Byte) (s : State) : LinksKept s (sequenceCheck n q s) := by
  unfold sequenceCheck
  dsimp only
  split
  · exact (post_linksKept ..).after (.of_touches (modifyNode_touches ..))
  all_goals exact .of_touches (modifyNode_touches ..)

theorem takeReadings_linksKept (f : NodeFrame) (n : NodeIx) (s : State) : LinksKept s (takeReadings f n s) := by
  have forwarded : LinksKept s (forwardReadings n f (sequenceCheck n f.seq (raiseNode n s))) :=
    LinksKept.after (.of_touches (forwardReadings_touches ..).1)
      ((sequenceCheck_linksKept ..).after (raiseNode_linksKept ..))
  exact .ite (fun _ => forwarded.trans (intake_linksKept ..)) fun _ => forwarded

theorem takeJoin_linksKept (f : NodeFrame) (n : NodeIx) (s : State) : LinksKept s (takeJoin f n s) := by
  unfold takeJoin
  dsimp only
  refine LinksKept.after (.of_touches (joinTransit_touches ..)) ((raiseNode_linksKept n s).trans ?_)
  split
  · exact countBadEntry_linksKept ..
  · exact .ite (fun _ => LinksKept.after (.of_touches (sendLimitNote_touches ..)) (.of_touches (modifyNode_touches ..)))
      fun _ => .of_touches (modifyNode_touches ..)

theorem takeOrderDone_linksKept (f : NodeFrame) (n : NodeIx) (s : State) : LinksKept s (takeOrderDone f n s) := by
  unfold takeOrderDone
  split
  · split
    · exact countBadEntry_linksKept ..
    · unfold matchOrder
      split
      · exact .of_touches (modifyNode_touches ..)
      · next o found =>
        exact ⟨fun h => (endOrder_linksKept (h.orders o (List.mem_of_find?_eq_some found)) _ s).sound h⟩
  · exact countBadEntry_linksKept ..

/-! ### The link interface and the expiries -/

theorem joinDown_linksKept (f : Frame) (s : State) : LinksKept s (joinDown f s) :=
  .ite (fun _ => .of_same rfl rfl) fun _ => .of_same rfl rfl

theorem passDownFrame_linksKept (k : DownKind) (f : NodeFrame) (s : State) : LinksKept s (passDownFrame k f s) := by
  unfold passDownFrame
  split
  · exact arrive_linksKept (joinDown_linksKept _) s
  · exact arrive_linksKept (fun _ => .withPorts ..) s
  all_goals exact .refl s

theorem receiveBytes_linksKept (p : Port) (bytes : List Byte) (s : State) : LinksKept s (receiveBytes p bytes s) := by
  refine (LinksKept.foldl (f := fun x e => countRx p e x) (fun e _ x => .of_same rfl rfl) _).after ?_
  cases p <;> exact .of_same rfl rfl

theorem abandonFrame_linksKept (p : Port) (s : State) : LinksKept s (abandonFrame p s) := by
  unfold abandonFrame
  split
  · exact .refl s
  · cases p <;> exact .of_same rfl rfl

theorem takeUnserved_linksKept (p : List Byte) (s : State) : LinksKept s (takeUnserved p s) := by
  unfold takeUnserved
  split
  · exact arrive_linksKept LinksKept.refl s
  · exact arrive_linksKept (fun x => .of_touches (sendReply_touches _ x)) s
  · exact .refl s

theorem sendOwedNote_linksKept (s : State) : LinksKept s (sendOwedNote s) := by
  refine .ite (fun _ => ?_) fun _ => .refl s
  split
  · exact .refl s
  · exact .of_touches (sendLimitNote_touches ..)

theorem expireTick_linksKept (g : Fin 6) (s : State) : LinksKept s (expireTick g s) :=
  (post_linksKept .timeBase (tickEvent g) s).trans (.of_same rfl rfl)

theorem takeReviewTick_linksKept (s : State) : LinksKept s (takeReviewTick s) := by
  unfold takeReviewTick
  split
  · exact .ite (fun _ => (queueNotice_linksKept ..).after ((post_linksKept ..).after (.of_same rfl rfl)))
      fun _ => (post_linksKept ..).after (.of_same rfl rfl)
  · exact .refl s
  · exact .refl s

theorem expireOrder_linksKept (number : Byte) (s : State) : LinksKept s (expireOrder number s) := by
  unfold expireOrder
  split
  · exact .refl s
  · next o found =>
    exact .ite (fun _ => ⟨fun h => (endOrder_linksKept (h.orders o (List.mem_of_find?_eq_some found)) _ s).sound h⟩)
      fun _ => .refl s

/-! ### The pass -/

theorem closeStep_linksKept (i : Slot) (s : State) : LinksKept s (closeStep i s) :=
  .ite (fun _ => .ite (fun _ => .of_same rfl rfl) fun _ => .of_same rfl rfl) fun _ => .of_same rfl rfl

theorem visitSlot_linksKept (i : Slot) (s : State) : LinksKept s (visitSlot i s) := by
  refine .ite (fun _ => .of_same rfl rfl) fun _ => (closeStep_linksKept ..).after ?_
  split
  · exact .of_same rfl rfl
  · exact (post_linksKept ..).after (.of_same rfl rfl)

theorem endPass_linksKept (s : State) : LinksKept s (endPass s) := by
  have settled : LinksKept s (passSettled s) := (post_linksKept ..).after (.of_touches (applyAllPending_touches s))
  rcases endPass_cases s with ⟨closing, all⟩ | still
  · rw [endPass_closed closing all]
    exact (LinksKept.withReview ..).after ((post_linksKept ..).after ((LinksKept.withReview ..).after settled))
  · rw [endPass_open still]
    exact (LinksKept.withReview ..).after settled

/-! ### The SWITCH and MAP units -/

theorem releaseShed_linksKept (i : OutletIx) (s : State) : LinksKept s (releaseShed i s) := by
  unfold releaseShed
  dsimp only
  split <;> exact .of_same rfl rfl

theorem takeSwitchOrder_linksKept (r : Request) (a : OutletIx × RelayAction × IndicatorAction) (s : State) :
    LinksKept s (takeSwitchOrder r a s) := by
  refine .ite (fun _ => answer_linksKept ..) fun _ => .ite (fun _ => answer_linksKept ..) fun _ => ?_
  split
  · exact answer_linksKept ..
  · have placed : LinksKept s (holdSwitch r (placeOrder a.1 a.2.1 a.2.2 (.management r.tag true) s)) :=
      (LinksKept.withMgmt ..).after (placeOrder_linksKept _ _ _ (o := .management r.tag true) trivial s)
    exact .ite (fun _ => placed.trans (releaseShed_linksKept ..)) fun _ => placed

theorem takeSwitchShed_linksKept (k : ShedKind) (r : Request) (t : Slot) (s : State) :
    LinksKept s (takeSwitchShed k r t s) :=
  .ite (fun _ => answer_linksKept ..) fun _ => .ite
    (fun _ => (LinksKept.withMgmt ..).after (joinShedQueue_linksKept (r := ⟨k, t, .management r.tag true⟩) trivial s))
    fun _ => answer_linksKept ..

theorem assignStep_linksKept (tag : Byte) (ack : Bool) (m : Membership) (i : OutletIx) (left : Nat) (c : Nat × Nat × Nat)
    (s : State) : LinksKept s (assignStep tag ack m i left c s) := by
  have handled (j : Option MapJob) : LinksKept s (setMapJob j (assignAt i m s)) :=
    (LinksKept.of_touches (assignAt_touches i m s)).trans (.of_same rfl rfl)
  exact .ite (fun _ => (handled none).trans (answer_linksKept ..)) fun _ => handled _

theorem takeAssign_linksKept (r : Request) (a : OutletIx × Nat × Membership) (s : State) :
    LinksKept s (takeAssign r a s) :=
  .ite (fun _ => assignStep_linksKept ..) fun _ => .of_same rfl rfl

theorem alterStep_linksKept (tag : Byte) (ack : Bool) (op : FlagOp) (mask : BitVec 6) (i : OutletIx) (left changed : Nat)
    (s : State) : LinksKept s (alterStep tag ack op mask i left changed s) :=
  .ite (fun _ => (answer_linksKept ..).after (.of_same rfl rfl)) fun _ => .of_same rfl rfl

/-! ### The TENANT and RECORD units -/

theorem takeCreate_linksKept (r : Request) (a : Slot × Contract) (s : State) : LinksKept s (takeCreate r a s) :=
  .ite (fun _ => (answer_linksKept ..).after (.of_same rfl rfl)) fun _ => answer_linksKept ..

theorem takeSetContract_linksKept (r : Request) (a : Slot × Contract) (s : State) :
    LinksKept s (takeSetContract r a s) :=
  .ite (fun _ => answer_linksKept ..) fun _ => (answer_linksKept ..).after (.of_same rfl rfl)

theorem takeActivate_linksKept (r : Request) (t : Slot) (s : State) : LinksKept s (takeActivate r t s) :=
  .ite (fun _ => (answer_linksKept ..).after (.of_same rfl rfl)) fun _ => answer_linksKept ..

theorem suspendTenant_linksKept (t : Slot) (s : State) : LinksKept s (suspendTenant t s) :=
  .ite (fun _ => .of_same rfl rfl) fun _ => (post_linksKept ..).after (.of_same rfl rfl)

theorem takeSuspend_linksKept (r : Request) (t : Slot) (s : State) : LinksKept s (takeSuspend r t s) :=
  .ite (fun _ => (answer_linksKept ..).after (suspendTenant_linksKept t s)) fun _ => answer_linksKept ..

theorem removeTenant_linksKept (t : Slot) (s : State) : LinksKept s (removeTenant t s) :=
  .ite (fun _ => .of_same rfl rfl) fun _ => .of_same rfl rfl

theorem takeRemove_linksKept (r : Request) (t : Slot) (s : State) : LinksKept s (takeRemove r t s) :=
  .ite (fun _ => answer_linksKept ..) fun _ => .ite (fun _ => answer_linksKept ..)
    fun _ => (answer_linksKept ..).after (removeTenant_linksKept t s)

theorem takeSetPreset_linksKept (r : Request) (a : Slot × BitVec 64) (s : State) :
    LinksKept s (takeSetPreset r a s) :=
  .ite (fun _ => answer_linksKept ..) fun _ => (answer_linksKept ..).after (.of_same rfl rfl)

theorem placeExport_linksKept (tag : Byte) (ack : Bool) (t : Slot) (s : State) : LinksKept s (placeExport tag ack t s) :=
  (answer_linksKept ..).after (.of_same rfl rfl)

theorem takeExport_linksKept (r : Request) (t : Slot) (s : State) : LinksKept s (takeExport r t s) :=
  .ite (fun _ => answer_linksKept ..) fun _ => .ite (fun _ => placeExport_linksKept ..) fun _ => .of_same rfl rfl

theorem resumeExport_linksKept (j : ExportJob) (s : State) : LinksKept s (resumeExport j s) :=
  LinksKept.trans (.withMgmt ..) (.ite (fun _ => answer_linksKept ..) fun _ => placeExport_linksKept ..)

theorem takeImport_linksKept (r : Request) (a : Slot × TransferRecord) (s : State) :
    LinksKept s (takeImport r a s) :=
  .ite (fun _ => (answer_linksKept ..).after (.of_same rfl rfl)) fun _ => answer_linksKept ..

theorem takeClose_linksKept (r : Request) (s : State) : LinksKept s (takeClose r s) :=
  .ite (fun _ => answer_linksKept ..) fun _ => (answer_linksKept ..).after (.of_same rfl rfl)

/-! ### The LINKS unit -/

/-- SET_LINK resets the running state (R102). -/
theorem setLink_resets {a : List Byte} {l : LinkIx} {k : Link} (read : Args.setLink a = some (l, k)) :
    k.armed = true ∧ k.lastCondition = false ∧ k.guardSet = false ∧ k.fireCount = 0 := by
  simp only [Args.setLink, Option.bind_eq_bind, Option.bind_eq_some_iff, Option.ite_none_right_eq_some,
    Option.some.injEq, Prod.mk.injEq] at read
  obtain ⟨_, _, _, _, _, _, _, _, _, _, _, _, rfl⟩ := read
  exact ⟨rfl, rfl, rfl, rfl⟩

theorem execSetLink_linksKept (r : Request) (s : State) : LinksKept s (serve .links r Args.setLink
    (fun a s => answerOk .links r .none (modifyLink a.1 (fun _ => a.2) s)) (finishChain s)) := by
  refine (serve_linksKept (fun a read x => ?_) _).after (finishChain_linksKept s)
  exact (answer_linksKept ..).after (modifyLink_linksKept fun _ _ => (setLink_resets read).1)

/-! ### The ROSTER and CONTROL units -/

theorem takeSetNode_linksKept (r : Request) (a : NodeIx × Bool) (s : State) : LinksKept s (takeSetNode r a s) := by
  have enabled : LinksKept s (enableNode a.1 s) := .ite (fun _ => .of_same rfl rfl) fun _ => .refl s
  have disabled : LinksKept s (disableNode a.1 s) := .ite (fun _ => .refl s) fun _ => leaveNode_linksKept ..
  exact (answer_linksKept ..).after (.ite (fun _ => enabled) fun _ => disabled)

theorem writeLimit_linksKept (n : NodeIx) (c : Capacity) (s : State) : LinksKept s (writeLimit n c s) :=
  .ite (fun _ => LinksKept.after (.of_touches (sendLimitNote_touches ..)) (.of_same rfl rfl)) fun _ => .of_same rfl rfl

theorem takeReadNode_linksKept (r : Request) (a : NodeIx × Bool) (s : State) : LinksKept s (takeReadNode r a s) := by
  unfold takeReadNode answerRead
  refine (answer_linksKept ..).after ?_
  exact .ite (fun _ => .of_touches (modifyNode_touches ..)) fun _ => .refl s

theorem takeReadStatus_linksKept (r : Request) (clear : Bool) (s : State) : LinksKept s (takeReadStatus r clear s) := by
  unfold takeReadStatus answerRead
  refine (answer_linksKept ..).after ?_
  exact .ite (fun _ => .of_same rfl rfl) fun _ => .refl s

theorem changeState_linksKept (x : OpState) (s : State) : LinksKept s (changeState x s) :=
  .ite (fun _ => .refl s) fun _ => .ite (fun _ => (takeWaiting_linksKept s).trans (.of_same rfl rfl))
    fun _ => .ite (fun _ => (endPass_linksKept _).after (.of_same rfl rfl)) fun _ => .of_same rfl rfl

theorem writeTiming_linksKept (a : Fin 7 × Nat × Nat) (s : State) : LinksKept s (writeTiming a s) :=
  ⟨fun h => { h with }⟩

theorem expireSilent_linksKept (s : State) : LinksKept s (expireSilent s) :=
  .foldl (fun n _ x => expireNode_linksKept n x) s

/-! ### Resets -/

/-- The cold-reset values: every link armed, no depth anywhere. -/
theorem coldReset_sound (s : State) : LinksSound (coldReset s) where
  armed l _ := congrArg Link.armed (Table.get_fill Link.cold l)
  chain := List.forall_mem_nil _
  arrivals := List.forall_mem_nil _
  reports := List.forall_mem_nil _
  queue := List.forall_mem_nil _
  search _ found := nomatch found
  orders := List.forall_mem_nil _

theorem restartLinks_linksKept (s : State) : LinksKept s (restartLinks s) := ⟨fun h => { h with
  armed := fun l _ => congrArg Link.armed (Table.get_map s.links.links Link.restarted l)
  queue := List.forall_mem_nil _
  search := fun _ found => nomatch found }⟩

theorem restartOrders_linksKept (s : State) : LinksKept s (restartOrders s) := by
  have written (x : State) : LinksKept x (x.orders.orders.foldl (fun x o => writeStatus o.outlet .unknown .unknown x) x) :=
    .foldl (fun _ _ _ => .of_touches (modifyOutlet_touches ..)) x
  have ended (x : State) : LinksKept x (x.withOrders { x.orders with orders := [] }) :=
    ⟨fun h => { h with orders := List.forall_mem_nil _ }⟩
  exact (ended _).after ((written _).after (.of_same rfl rfl))

theorem warmRestart_linksKept (s : State) : LinksKept s (warmRestart s) := by
  have settled : LinksKept s (applyAllPending (restartReview (restartUnits s))) :=
    LinksKept.after (.of_touches (applyAllPending_touches _)) ((LinksKept.withReview ..).after (.of_same rfl rfl))
  have rest (x : State) : LinksKept x (restartState (restartPorts (restartRoster (restartReadings x)))) :=
    .of_same rfl rfl
  exact (rest _).after ((restartOrders_linksKept _).after ((restartLinks_linksKept _).after settled))

theorem disowned_depthOk {g : RequestOrigin} (depth : g.depthOk) : g.disowned.depthOk := by
  cases g with
  | link l d => exact depth
  | management tag owed => trivial

theorem orderDisowned_depthOk {g : OrderOrigin} (depth : g.depthOk) : g.disowned.depthOk := by
  cases g with
  | management tag owed => trivial
  | shed t o => exact disowned_depthOk depth
  | restore t o => exact disowned_depthOk depth

/-- What goes on without an answer goes on with its depths (R127). -/
theorem disownSwitch_linksKept (s : State) : LinksKept s (disownSwitch s) := ⟨fun h => { h with
  queue := List.forall_mem_map.mpr fun q hq => disowned_depthOk (h.queue q hq)
  search := fun q hq => by
    obtain ⟨x, hx, rfl⟩ := Option.map_eq_some_iff.mp hq
    exact disowned_depthOk (h.search x hx)
  orders := List.forall_mem_map.mpr fun o ho => orderDisowned_depthOk (h.orders o ho) }⟩

theorem abandonUnit_linksKept (u : RequestUnit) (s : State) : LinksKept s (abandonUnit u s) := by
  cases u
  case switch => exact (disownSwitch_linksKept _).after (.of_same rfl rfl)
  all_goals exact .of_same rfl rfl

/-! ### Every command -/

theorem exec_linksKept (c : Instr) (s : State) : ∃ t, exec c s = .next t ∧ LinksKept s t := by
  cases c with
  | coldReset => exact ⟨_, rfl, ⟨fun _ => coldReset_sound s⟩⟩
  | nodeReadings f => exact ⟨_, rfl, nodePortFrame_linksKept (takeReadings_linksKept f) s⟩
  | nodeJoin f => exact ⟨_, rfl, nodePortFrame_linksKept (takeJoin_linksKept f) s⟩
  | nodeOrderDone f => exact ⟨_, rfl, nodePortFrame_linksKept (takeOrderDone_linksKept f) s⟩
  | nodeThrough f => exact ⟨_, rfl, nodePortFrame_linksKept (fun _ x => .of_touches (joinTransit_touches _ x)) s⟩
  | passDown k f => exact ⟨_, rfl, passDownFrame_linksKept k f s⟩
  | frameDiscard p k f =>
    exact ⟨_, rfl, .ite (fun _ => arrive_linksKept (fun _ => .withPorts ..) s) fun _ => .refl s⟩
  | frameError p b => exact ⟨_, rfl, .ite (fun _ => .refl s) fun _ => receiveBytes_linksKept p b s⟩
  | byteGapTimeout p b =>
    exact ⟨_, rfl, .ite (fun _ => .refl s) fun _ => (abandonFrame_linksKept p _).after (receiveBytes_linksKept p b s)⟩
  | requestUnserved p => exact ⟨_, rfl, takeUnserved_linksKept p s⟩
  | nodeSendDone => exact ⟨_, rfl, .of_same rfl rfl⟩
  | limitNoteOwedSent => exact ⟨_, rfl, sendOwedNote_linksKept s⟩
  | uplinkSendDone => exact ⟨_, rfl, .of_same rfl rfl⟩
  | visitRetry =>
    exact ⟨_, rfl, .ite (fun _ => (visitSlot_linksKept ..).after (.of_same rfl rfl)) fun _ => .refl s⟩
  | exportResume =>
    refine ⟨_, rfl, ?_⟩
    split
    · exact .refl s
    · exact .ite (fun _ => resumeExport_linksKept ..) fun _ => .refl s
  | tickExpiry g => exact ⟨_, rfl, .ite (fun _ => expireTick_linksKept g s) fun _ => .refl s⟩
  | reviewTick =>
    exact ⟨_, rfl, .ite (fun _ => (takeReviewTick_linksKept _).after (.of_same rfl rfl)) fun _ => .refl s⟩
  | orderTimeout n => exact ⟨_, rfl, expireOrder_linksKept n s⟩
  | nodeSilence n => exact ⟨_, rfl, expireNode_linksKept n s⟩
  | reviewVisit => exact ⟨_, rfl, .ite (fun _ => visitSlot_linksKept _ s) fun _ => .refl s⟩
  | passEnd => exact ⟨_, rfl, .ite (fun _ => endPass_linksKept s) fun _ => .refl s⟩
  | eventScan p => exact ⟨_, rfl, takeNextEvent_linksKept p s⟩
  | shedReport => exact ⟨_, rfl, takeReport_linksKept s⟩
  | shedRequestTake => exact ⟨_, rfl, takeShedRequest_linksKept s⟩
  | shedSearchStep =>
    refine ⟨_, rfl, ?_⟩
    split
    · exact .refl s
    · next search => exact searchStep_linksKept search
  | shedSearchEnd =>
    refine ⟨_, rfl, ?_⟩
    split
    · exact .refl s
    · next search => exact .ite (fun _ => endSearch_linksKept search) fun _ => .refl s
  | assignEntry =>
    refine ⟨_, rfl, ?_⟩
    split
    · exact assignStep_linksKept ..
    · exact .refl s
    · exact .refl s
  | alterFlagsEntry =>
    refine ⟨_, rfl, ?_⟩
    split
    · exact alterStep_linksKept ..
    · exact .refl s
    · exact .refl s
  | readEntries r => exact ⟨_, rfl, serve_linksKept (fun _ _ _ => answer_linksKept ..) s⟩
  | assign r => exact ⟨_, rfl, serve_linksKept (fun a _ => takeAssign_linksKept r a) s⟩
  | setOutlet r =>
    exact ⟨_, rfl, serve_linksKept (fun _ _ _ => (answer_linksKept ..).after (.of_touches (modifyOutlet_touches ..))) s⟩
  | alterFlags r => exact ⟨_, rfl, serve_linksKept (fun _ _ _ => .withMgmt ..) s⟩
  | setProfile r => exact ⟨_, rfl, serve_linksKept (fun _ _ _ => (answer_linksKept ..).after (.withProfiles ..)) s⟩
  | readProfile r => exact ⟨_, rfl, serve_linksKept (fun _ _ _ => answer_linksKept ..) s⟩
  | create r => exact ⟨_, rfl, serve_linksKept (fun a _ => takeCreate_linksKept r a) s⟩
  | setContract r => exact ⟨_, rfl, serve_linksKept (fun a _ => takeSetContract_linksKept r a) s⟩
  | activate r => exact ⟨_, rfl, serve_linksKept (fun t _ => takeActivate_linksKept r t) s⟩
  | suspend r => exact ⟨_, rfl, serve_linksKept (fun t _ => takeSuspend_linksKept r t) s⟩
  | remove r => exact ⟨_, rfl, serve_linksKept (fun t _ => takeRemove_linksKept r t) s⟩
  | setPreset r => exact ⟨_, rfl, serve_linksKept (fun a _ => takeSetPreset_linksKept r a) s⟩
  | readTenant r => exact ⟨_, rfl, serve_linksKept (fun _ _ _ => answer_linksKept ..) s⟩
  | setLink r => exact ⟨_, rfl, execSetLink_linksKept r s⟩
  | readLink r => exact ⟨_, rfl, (serve_linksKept (fun _ _ _ => answer_linksKept ..) _).after (finishChain_linksKept s)⟩
  | rearm r =>
    exact ⟨_, rfl, (serve_linksKept
      (fun _ _ _ => (answer_linksKept ..).after (modifyLink_linksKept fun _ _ => rfl)) _).after (finishChain_linksKept s)⟩
  | switchOrder r => exact ⟨_, rfl, serve_linksKept (fun a _ => takeSwitchOrder_linksKept r a) s⟩
  | shedTenant r => exact ⟨_, rfl, serve_linksKept (fun t _ => takeSwitchShed_linksKept .shed r t) s⟩
  | restoreTenant r => exact ⟨_, rfl, serve_linksKept (fun t _ => takeSwitchShed_linksKept .restore r t) s⟩
  | setNodeDisable r => exact ⟨_, rfl, serve_linksKept (fun a _ => takeSetNode_linksKept r a) s⟩
  | setNodeEnable r => exact ⟨_, rfl, serve_linksKept (fun a _ => takeSetNode_linksKept r a) s⟩
  | setLimit r => exact ⟨_, rfl, serve_linksKept (fun _ _ _ => (answer_linksKept ..).after (writeLimit_linksKept ..)) s⟩
  | readNode r => exact ⟨_, rfl, serve_linksKept (fun a _ => takeReadNode_linksKept r a) s⟩
  | readStates r => exact ⟨_, rfl, serve_linksKept (fun _ _ _ => answer_linksKept ..) s⟩
  | close r => exact ⟨_, rfl, serve_linksKept (fun _ _ => takeClose_linksKept r) s⟩
  | exportTenant r => exact ⟨_, rfl, serve_linksKept (fun t _ => takeExport_linksKept r t) s⟩
  | importTenant r => exact ⟨_, rfl, serve_linksKept (fun a _ => takeImport_linksKept r a) s⟩
  | readIdent r => exact ⟨_, rfl, serve_linksKept (fun _ _ _ => answer_linksKept ..) s⟩
  | setState r => exact ⟨_, rfl, serve_linksKept (fun _ _ _ => (answer_linksKept ..).after (changeState_linksKept ..)) s⟩
  | setTiming r =>
    exact ⟨_, rfl, serve_linksKept (fun a _ x => (answer_linksKept ..).after
      ((expireSilent_linksKept _).after (writeTiming_linksKept a x))) s⟩
  | setForward r => exact ⟨_, rfl, serve_linksKept (fun _ _ _ => (answer_linksKept ..).after (.withPorts ..)) s⟩
  | readStatus r => exact ⟨_, rfl, serve_linksKept (fun clear _ => takeReadStatus_linksKept r clear) s⟩
  | readTags r => exact ⟨_, rfl, serve_linksKept (fun _ _ _ => answer_linksKept ..) s⟩
  | restart r => exact ⟨_, rfl, serve_linksKept (fun _ _ _ => (answer_linksKept ..).after (warmRestart_linksKept _)) s⟩
  | resetUnit r =>
    exact ⟨_, rfl, serve_linksKept (fun u _ x => (answer_linksKept ..).after
      ((LinksKept.withMgmt ..).after (abandonUnit_linksKept u x))) s⟩

/-- Settles O58: each command is a chain of operations that keep the links sound (`exec_linksKept`). -/
theorem everyStepKeepsTheLinksSound : Obligations.EveryStepKeepsTheLinksSound :=
  invariant_of_exec (fun s x => (LinksKept.withPending s x).sound)
    (fun s x => (LinksKept.withTime s x).sound) fun c s => by
      obtain ⟨t, run, kept⟩ := exec_linksKept c s
      exact ⟨t, run, kept.sound⟩

end Sys2Proof.Machine


/-! EVENT_SCAN, the part of a link in a scan, the performed action and SHED_REPORT (R87 to R100, R147). -/

namespace Sys2Proof.Machine

/-! ### EVENT_SCAN (R88, R90, R91) -/

/-- Settles O31: the event taken by `nextArrival`, then the three cases of `takeEvent`. -/
theorem eventScanTakesTheNextEvent : Obligations.EventScanTakesTheNextEvent := by
  intro s prefer e l next s'
  have taken : takeNextEvent prefer s = takeEvent e (s.withLinks l) := by
    rcases next with ⟨rest, chain, rfl⟩ | ⟨chain, a, before, after, rfl, arrivals, rfl, order⟩
    · rw [takeNextEvent_chain (chain ▸ List.cons_ne_nil e rest), scanChain_cons chain]
    · refine takeNextEvent_arrival chain ?_
      rw [arrivals]
      rcases order with ⟨rfl, older⟩ | ⟨rfl, nobody⟩
      · exact nextArrival_preferred older
      · exact nextArrival_oldest (nobody.imp_right fun h => by rw [arrivals] at h; exact h)
  have run : exec (.eventScan prefer) s = .next (takeEvent e (s.withLinks l)) := congrArg Host.Outcome.next taken
  have heeded : guardsHeeded e (s.withLinks l) = s' := rfl
  refine ⟨fun out => ?_, fun inRun deep => ?_, fun inRun shallow => ?_⟩
  · rw [run, takeEvent_discards (s := s.withLinks l) out, heeded]
  · have mgmt : s'.mgmt = s.mgmt := (guardsHeeded_touches e (s.withLinks l)).2 .mgmt rfl
    rw [run, takeEvent_reports (s := s.withLinks l) inRun deep, heeded, ← mgmt]
    rfl
  · rw [run, takeEvent_scans (s := s.withLinks l) inRun shallow, heeded]

/-! ### One link in a scan (R92 to R95) -/

/-- Settles O32: the equation of `scanLink` for the link's mode, at the two values of the condition. -/
theorem linkActsByItsMode : Obligations.LinkActsByItsMode := by
  intro e s l c k code counter queued condition
  have codes (v : Verdict) : code v = v.code := by cases v <;> rfl
  have counters : k.action.counter = counter := rfl
  have holds : k.holds s.tenants = c := by
    rw [Bool.eq_iff_iff, holds_iff, condition]
    simp only [codes]
  refine ⟨fun apart => ?_, fun trigger unguarded => ⟨fun once idle => ?_, fun once met armed arm stays => ?_,
    fun onChange same => ?_, fun onChange met last => ?_, fun onChange unmet last => ?_, fun every unmet => ?_,
    fun every met => ?_⟩⟩
  · rcases apart with other | off | guarded
    · exact scanLink_apart (.inl other)
    · exact scanLink_off off
    · exact scanLink_apart (.inr guarded)
  · rw [scanLink_once trigger unguarded once, holds, if_neg]
    rw [Bool.and_eq_true, Classical.not_and_iff_not_or_not, Bool.not_eq_true, Bool.not_eq_true]
    exact idle
  · have written : (k.action.switches && !shedRoom s) = arm := by
      rw [Bool.eq_iff_iff, Bool.and_eq_true, switches_iff, Bool.not_eq_true', ← Bool.not_eq_true, shedRoom_iff,
        Nat.not_lt, stays]
    rw [scanLink_once trigger unguarded once, holds, if_pos (Bool.and_eq_true_iff.mpr ⟨met, armed⟩), written, met]
  · rw [scanLink_onChange trigger unguarded onChange, holds, if_pos same]
  · rw [scanLink_onChange trigger unguarded onChange, holds, met, if_neg fun same => Bool.false_ne_true (last.symm.trans same.symm)]
    rfl
  · rw [scanLink_onChange trigger unguarded onChange, holds, unmet, if_neg (last ▸ Bool.false_ne_true), counters]
    rfl
  · rw [scanLink_every trigger unguarded every, holds, if_neg (unmet ▸ Bool.false_ne_true)]
  · rw [scanLink_every trigger unguarded every, holds, if_pos met, met]

/-! ### Performed actions (R95 to R100, R147) -/

theorem noticeRoom_iff (s : State) : noticeRoom s = true ↔ s.up.notices.length < 32 := decide_eq_true_iff

theorem linkShed_room {s : State} (room : s.links.shedQueue.length < 8) (kind : ShedKind) (t : Slot) (l : LinkIx)
    (depth : Nat) : linkShed kind t l depth s = joinShedQueue ⟨kind, t, .link l depth⟩ s :=
  if_pos ((shedRoom_iff s).mpr room)

theorem linkShed_full {s : State} (full : 8 ≤ s.links.shedQueue.length) (kind : ShedKind) (t : Slot) (l : LinkIx)
    (depth : Nat) : linkShed kind t l depth s = postOutcome l false depth s :=
  if_neg fun room => Nat.not_lt.mpr full ((shedRoom_iff s).mp room)

/-- The outcome of a NOTIFY is known by the room its notice finds (R99). -/
theorem dispatch_notify (l : LinkIx) (counter c : Bool) (e : Event) (s : State) :
    dispatchAction l .notify counter c e s =
      (if s.up.notices.length < 32 then postOutcome l true (e.depth + 1) else postOutcome l false (e.depth + 1))
        (queueNotice (.link l e.id e.depth c counter) s) := by
  show postOutcome l (noticeRoom s) (e.depth + 1) _ = _
  by_cases room : s.up.notices.length < 32
  · rw [if_pos room, (noticeRoom_iff s).mpr room]
  · rw [if_neg room, Bool.eq_false_iff.mpr fun h => room ((noticeRoom_iff s).mp h)]

/-- Settles O33: each action by its dispatch, and both kinds of event by the room they find. -/
theorem performedActionHasItsOutcome : Obligations.PerformedActionHasItsOutcome := by
  refine ⟨?_, fun s => ⟨fun l done depth => ⟨fun room => ?_, fun full => ?_⟩,
    fun poster id => ⟨fun room => ?_, fun full other => ?_, fun full passEnd => ?_⟩, fun id => rfl⟩⟩
  · intro l counter c e s s' done failed
    refine ⟨fun t room => ?_, fun t full => ?_, dispatch_notify l counter c e s', fun t used => if_neg used,
      fun t free => if_pos free, fun idle => if_neg (idle ▸ Bool.false_ne_true), fun pending => if_pos pending⟩
    · exact ⟨linkShed_room (s := s') room .shed t l _, linkShed_room (s := s') room .restore t l _⟩
    · exact ⟨linkShed_full (s := s') full .shed t l _, linkShed_full (s := s') full .restore t l _⟩
  · exact postOutcome_room ((storeRoom_iff s).mpr room) l done depth
  · exact (postOutcome_full ((storeRoom_eq_false_iff s).mpr full) l done depth).trans
      (discardEvent_other (outcomeId_ne_passEnd l done) s)
  · exact post_room ((storeRoom_iff s).mpr room)
  · exact post_full ((storeRoom_eq_false_iff s).mpr full) other poster
  · rw [passEnd]
    exact (postAt_full ((storeRoom_eq_false_iff s).mpr full) poster ⟨0x0021, 0⟩).trans (discardEvent_passEnd s)

/-! ### SHED_REPORT (R98) -/

/-- The state with the first report taken, in which its event is posted (R98). -/
def reportTaken (r : ShedReport) (rest : List ShedReport) (s : State) : State :=
  modifyLink r.link (fun k => k.rearmed r.placed) (s.withLinks { s.links with reports := rest })

theorem takeReport_taken {s : State} {r : ShedReport} {rest : List ShedReport} (chain : s.links.chain = [])
    (reports : s.links.reports = r :: rest) :
    takeReport s = postAt .report ⟨outcomeId r.link r.done, r.depth⟩ (reportTaken r rest s) := by
  unfold takeReport
  rw [chain, reports]
  rfl

theorem takeReport_waits {s : State} (early : s.links.chain ≠ [] ∨ s.links.reports = []) : takeReport s = s := by
  unfold takeReport
  split
  · next chain reports =>
    rcases early with inHand | empty
    · exact absurd chain inHand
    · rw [reports] at empty; cases empty
  · rfl
  · rfl

theorem rearmed_eq (k : Link) (placed : Bool) :
    k.rearmed placed = if placed = false ∧ k.mode = .once then { k with armed := true } else k := by
  unfold Link.rearmed
  simp only [Bool.and_eq_true, Bool.not_eq_true', decide_eq_true_iff]

/-- Settles O34: the re-arm step, then the event of the outcome at a store with and without room. -/
theorem shedReportRearmsAndPosts : Obligations.ShedReportRearmsAndPosts := by
  intro s
  have store (chain : s.links.chain = []) : s.links.chain.length + s.links.arrivals.length = s.links.arrivals.length := by
    rw [chain, List.length_nil, Nat.zero_add]
  refine ⟨?_, ?_, fun early => congrArg Host.Outcome.next (takeReport_waits early)⟩
  · intro r rest chain reports room k
    have posted := postAt_room ((storeRoom_iff (reportTaken r rest s)).mpr ((store chain).symm ▸ room)) .report
      ⟨outcomeId r.link r.done, r.depth⟩
    rw [← rearmed_eq]
    exact congrArg Host.Outcome.next ((takeReport_taken chain reports).trans posted)
  · intro r rest chain reports full k
    have discarded := postAt_full ((storeRoom_eq_false_iff (reportTaken r rest s)).mpr ((store chain).symm ▸ full)) .report
      ⟨outcomeId r.link r.done, r.depth⟩
    rw [← rearmed_eq]
    exact congrArg Host.Outcome.next ((takeReport_taken chain reports).trans
      (discarded.trans (discardEvent_other (outcomeId_ne_passEnd r.link r.done) _)))

end Sys2Proof.Machine


/-! The end of the chain in hand and the LINKS unit (R90, R101 to R103), and the row time (R85). -/

namespace Sys2Proof.Machine

/-! ### What a taken event adds to the chain in hand (R88, R90) -/

/-- From `s` to `t` the chain in hand only grows, by events deeper than `d`. -/
def ChainGrows (d : Nat) (s t : State) : Prop :=
  ∃ more, t.links.chain = s.links.chain ++ more ∧ ∀ x ∈ more, d < x.depth

namespace ChainGrows

variable {d : Nat} {s t u : State}

theorem of_same (h : t.links.chain = s.links.chain) : ChainGrows d s t :=
  ⟨[], by rw [h, List.append_nil], List.forall_mem_nil _⟩

theorem of_touches {bs : List Block} (h : Touches bs s t) (links : bs.contains .links = false := by rfl) :
    ChainGrows d s t := of_same (congrArg LinkTable.chain (h.2 .links links))

theorem trans (h : ChainGrows d s t) (k : ChainGrows d t u) : ChainGrows d s u := by
  obtain ⟨more, grown, deeper⟩ := h
  obtain ⟨yet, grown', deeper'⟩ := k
  exact ⟨more ++ yet, by rw [grown', grown, List.append_assoc], List.forall_mem_append.mpr ⟨deeper, deeper'⟩⟩

/-- `trans`, the later step first. -/
theorem after (k : ChainGrows d t u) (h : ChainGrows d s t) : ChainGrows d s u := h.trans k

theorem foldl {α : Type} {f : State → α → State} (h : ∀ s a, ChainGrows d s (f s a)) :
    ∀ (l : List α) (s : State), ChainGrows d s (l.foldl f s)
  | [], _ => .of_same rfl
  | a :: l, s => (h s a).trans (foldl h l (f s a))

theorem ite {p : Prop} [Decidable p] (h : ChainGrows d s t) (k : ChainGrows d s u) :
    ChainGrows d s (if p then t else u) := by
  split
  · exact h
  · exact k

end ChainGrows

theorem discardEvent_chainGrows (d : Nat) (id : Word16) (s : State) : ChainGrows d s (discardEvent id s) :=
  ChainGrows.after (.of_touches (reportChain_touches ..)) (.ite (.of_same rfl) (.of_same rfl))

theorem postOutcome_chainGrows (l : LinkIx) (done : Bool) (d : Nat) (s : State) :
    ChainGrows d s (postOutcome l done (d + 1) s) :=
  .ite ⟨[_], rfl, List.forall_mem_singleton.mpr (Nat.lt_succ_self d)⟩ (discardEvent_chainGrows ..)

/-- Every outcome is one level deeper than the event that is scanned (R90). -/
theorem performAction_chainGrows (l : LinkIx) (a : LinkAction) (counter c : Bool) (e : Event) (s : State) :
    ChainGrows e.depth s (performAction l a counter c e s) := by
  have outcome (done : Bool) (x : State) : ChainGrows e.depth x (postOutcome l done (e.depth + 1) x) :=
    postOutcome_chainGrows l done e.depth x
  have shed (kind : ShedKind) (t : Slot) (x : State) : ChainGrows e.depth x (linkShed kind t l (e.depth + 1) x) :=
    .ite (.of_same rfl) (outcome ..)
  have dispatch (x : State) : ChainGrows e.depth x (dispatchAction l a counter c e x) := by
    cases a with
    | shed t => exact shed .shed t x
    | restore t => exact shed .restore t x
    | notify => exact (outcome ..).after (.of_touches (queueNotice_touches ..))
    | latch t => exact .ite (outcome ..) ((outcome ..).after (.of_same rfl))
    | close => exact .ite (outcome ..) ((outcome ..).after (.of_same rfl))
  exact (dispatch _).after (.of_same rfl)

theorem scanLink_chainGrows (e : Event) (s : State) (l : LinkIx) : ChainGrows e.depth s (scanLink e s l) := by
  rcases scanLink_cases e s l with apart | ⟨a, counter, c, x, acts, before⟩
  · rw [apart]; exact .of_same rfl
  · rw [acts]
    refine (performAction_chainGrows l a counter c e x).after (.of_same ?_)
    rcases before with rfl | ⟨-, armed, rfl⟩ | ⟨last, rfl⟩ <;> rfl

theorem takeEvent_chainGrows (e : Event) (s : State) : ChainGrows e.depth s (takeEvent e s) := by
  have heeded : ChainGrows e.depth s (guardsHeeded e s) := .ite (.of_same rfl) (.of_same rfl)
  rcases takeEvent_cases e s with discarded | reported | ⟨-, scanned⟩
  · rw [discarded]; exact heeded
  · rw [reported]; exact heeded.trans (.of_touches (reportChain_touches ..))
  · rw [scanned]; exact heeded.trans (.foldl (scanLink_chainGrows e) _ _)

/-! ### The chain in hand taken to its end (R90) -/

/-- The events at the front of the chain, taken one after another, leave those behind them and deeper ones. -/
theorem iterate_scanChain_front {d : Nat} : ∀ {front rest : List Event} {s : State},
    s.links.chain = front ++ rest → (∀ x ∈ front, d ≤ x.depth) →
    ∃ more, (iterate scanChain front.length s).links.chain = rest ++ more ∧ ∀ x ∈ more, d < x.depth
  | [], rest, s, chain, _ => ⟨[], by rw [List.append_nil]; exact chain, List.forall_mem_nil _⟩
  | e :: front, rest, s, chain, depths => by
    obtain ⟨first, others⟩ := List.forall_mem_cons.mp depths
    obtain ⟨more, grown, deeper⟩ := takeEvent_chainGrows e (s.withLinks { s.links with chain := front ++ rest })
    have scanned : (scanChain s).links.chain = front ++ (rest ++ more) := by
      rw [scanChain_cons chain]
      exact grown.trans (List.append_assoc ..)
    obtain ⟨yet, left, deeper'⟩ := iterate_scanChain_front scanned others
    exact ⟨more ++ yet, left.trans (List.append_assoc ..),
      List.forall_mem_append.mpr ⟨fun x hx => Nat.lt_of_le_of_lt first (deeper x hx), deeper'⟩⟩

/-- One round of `finishChain`: every event that the chain holds is taken. -/
def scanRound (s : State) : State := iterate scanChain s.links.chain.length s

/-- A round leaves deeper events only. -/
theorem scanRound_deepens {d : Nat} {s : State} (depths : ∀ x ∈ s.links.chain, d ≤ x.depth) :
    ∀ x ∈ (scanRound s).links.chain, d < x.depth := by
  obtain ⟨more, left, deeper⟩ := iterate_scanChain_front (List.append_nil s.links.chain).symm depths
  unfold scanRound
  rw [left]
  exact deeper

theorem iterate_scanRound_deepens : ∀ (n : Nat) {s : State}, ∀ x ∈ (iterate scanRound n s).links.chain, n ≤ x.depth
  | 0, _, x, _ => Nat.zero_le _
  | n + 1, s, x, hx => by
    rw [iterate_add scanRound n 1] at hx
    exact scanRound_deepens (iterate_scanRound_deepens n) x hx

/-- Depth 4 is the deepest (R88) and five rounds leave depth 5 at least, so that nothing is left (R90). -/
theorem finishChain_ends {s : State} (sound : LinksSound s) : (finishChain s).links.chain = [] := by
  refine List.eq_nil_iff_forall_not_mem.mpr fun x hx => ?_
  have deep : 5 ≤ x.depth := iterate_scanRound_deepens 5 x hx
  have shallow : x.depth ≤ 4 := (((finishChain_linksKept s).sound sound).chain x hx).2
  omega

theorem finishChain_idle {s : State} (chain : s.links.chain = []) : finishChain s = s := by
  obtain ⟨n, h⟩ := finishChain_iterates s
  rw [h, iterate_scanChain_done chain]

/-- Two runs of scans that both end the chain end in the same state. -/
theorem iterate_scanChain_unique {m n : Nat} {s : State} (ends : (iterate scanChain m s).links.chain = [])
    (ends' : (iterate scanChain n s).links.chain = []) : iterate scanChain m s = iterate scanChain n s := by
  have more {i j : Nat} (le : i ≤ j) (done : (iterate scanChain i s).links.chain = []) :
      iterate scanChain j s = iterate scanChain i s := by
    obtain ⟨k, rfl⟩ := Nat.exists_eq_add_of_le le
    rw [iterate_add, iterate_scanChain_done done]
  rcases Nat.le_total m n with le | le
  · exact (more le ends).symm
  · exact more le ends'

/-- The end of the chain is the same when its first event has been scanned already. -/
theorem finishChain_scanChain {s : State} (sound : LinksSound s) : finishChain (scanChain s) = finishChain s := by
  have ends := finishChain_ends sound
  have ends' := finishChain_ends ((scanChain_linksKept s).sound sound)
  obtain ⟨m, hm⟩ := finishChain_iterates s
  obtain ⟨n, hn⟩ := finishChain_iterates (scanChain s)
  rw [hm] at ends ⊢
  rw [hn] at ends' ⊢
  exact iterate_scanChain_unique (m := n + 1) ends' ends

/-! ### The LINKS unit (R101 to R103) -/

/-- The LINKS unit is never busy, so that a request is admitted in every state or in none. -/
theorem admitted_links {r : Request} {s : State} (h : Admitted .links r s) (t : State) : Admitted .links r t :=
  { h with free := rfl }

/-- An admitted LINKS request with readable arguments runs on the state after the chain in hand (R90, log entry 5). -/
theorem exec_links_admitted {α : Type} {c : Instr} {r : Request} {s : State} {parse : List Byte → Option α}
    {act : α → State → State} {a : α} (links : exec c s = .next (serve .links r parse act (finishChain s)))
    (admitted : Admitted .links r s) (read : parse r.args = some a) :
    exec c s = .next (act a (received .uplink (finishChain s))) := by
  rw [links, serve_admitted (admitted_links admitted (finishChain s)) read]

/-- Settles O35: `exec_links_admitted` for each request, `finishChain_ends` and `finishChain_scanChain`. -/
theorem linksUnitWorksBetweenChains : Obligations.LinksUnitWorksBetweenChains := by
  refine ⟨fun s r admitted => ⟨fun l k read => ?_, fun l read => ⟨?_, ?_⟩, finishChain_idle⟩,
    fun s sound => ⟨finishChain_ends sound, (finishChain_linksKept s).sound sound⟩, fun s t prefer sound chain run => ?_⟩
  · obtain ⟨armed, last, guard, fires⟩ := setLink_resets read
    have run := exec_links_admitted (c := .setLink r) rfl admitted read
    exact ⟨armed, last, guard, fires, run⟩
  · have run := exec_links_admitted (c := .readLink r) rfl admitted read
    exact run
  · have run := exec_links_admitted (c := .rearm r) rfl admitted read
    exact run
  · have scanned : t = scanChain s := (Host.Outcome.next.inj run).symm.trans (takeNextEvent_chain chain prefer)
    rw [scanned, finishChain_scanChain sound]

/-! ### The row time (R85) -/

theorem step_of_pending_nil {s : State} (empty : s.pending = []) : step s = .next (idle s) := by
  unfold step
  rw [empty]

/-- Settles O2: `idle` writes the row time only. -/
theorem emptyQueueOnlyAdvancesRowTime : Obligations.EmptyQueueOnlyAdvancesRowTime :=
  fun _ empty => step_of_pending_nil empty

end Sys2Proof.Machine


/-! How an order ends: by ORDER_DONE, by its timeout (R110, R112). -/

namespace Sys2Proof.Machine

/-! ### The codes of ORDER_DONE (R110, Table 9.5) -/

theorem boolOf_eq_none {n : Nat} (large : 1 < n) : boolOf n = none :=
  Option.not_isSome_iff_eq_none.mp fun read => by
    rw [isSome_boolOf] at read
    omega

theorem endingOf_eq_none {result relay : Byte} (bad : 2 < result.toNat ∨ 1 < relay.toNat) :
    endingOf result relay = none := by
  unfold endingOf
  rcases bad with large | large
  · obtain ⟨k, code⟩ : ∃ k, result.toNat = k + 3 := ⟨result.toNat - 3, by omega⟩
    rw [code]
    cases boolOf relay.toNat <;> rfl
  · rw [boolOf_eq_none large]
    rfl

/-! ### The order found by its number (R106) -/

/-- Among orders with distinct numbers, a test that only one number can pass finds the order of that number. -/
theorem find?_of_number {l : List Order} (distinct : (l.map (·.number)).Nodup) {o : Order} (mem : o ∈ l)
    {p : Order → Bool} (passes : p o = true) (only : ∀ x, p x = true → x.number = o.number) : l.find? p = some o := by
  cases found : l.find? p with
  | none => exact absurd passes (List.find?_eq_none.mp found o mem)
  | some x =>
    have number : x.number = o.number := only x (List.find?_some found)
    rw [eq_of_same_number distinct (List.mem_of_find?_eq_some found) mem number]

theorem answers_iff (o : Order) (n : NodeIx) (number outlet : Byte) :
    o.answers n number outlet = true ↔
      o.number = number ∧ nodeOfOutlet o.outlet = n ∧ outletByte o.outlet = outlet := by
  unfold Order.answers
  rw [Bool.and_eq_true, Bool.and_eq_true, beq_iff_eq, beq_iff_eq, beq_iff_eq, and_assoc]

theorem matchOrder_found {s : State} (distinct : (s.orders.orders.map (·.number)).Nodup) {o : Order}
    (mem : o ∈ s.orders.orders) {n : NodeIx} (node : nodeOfOutlet o.outlet = n) (e : Ending) :
    matchOrder n o.number (outletByte o.outlet) e s = endOrder o e s := by
  unfold matchOrder
  rw [find?_of_number distinct mem ((answers_iff ..).mpr ⟨rfl, node, rfl⟩) fun x hx => ((answers_iff ..).mp hx).1]

theorem matchOrder_late {s : State} {n : NodeIx} {number outlet : Byte}
    (late : ∀ o ∈ s.orders.orders, ¬ (o.number = number ∧ nodeOfOutlet o.outlet = n ∧ outletByte o.outlet = outlet))
    (e : Ending) : matchOrder n number outlet e s =
      modifyNode n (fun k => { k with lateCompletions := bump16 k.lateCompletions }) s := by
  have absent : s.orders.orders.find? (fun o => o.answers n number outlet) = none :=
    List.find?_eq_none.mpr fun o ho hit => late o ho ((answers_iff ..).mp hit)
  unfold matchOrder
  rw [absent]

theorem orderOf_number {s : State} (distinct : (s.orders.orders.map (·.number)).Nodup) {o : Order}
    (mem : o ∈ s.orders.orders) : orderOf o.number s = some o :=
  find?_of_number (p := fun x => x.number == o.number) distinct mem (beq_self_eq_true _) fun _ hx => beq_iff_eq.mp hx

theorem orderOf_unused {s : State} {number : Byte} (unused : ∀ o ∈ s.orders.orders, o.number ≠ number) :
    orderOf number s = none :=
  List.find?_eq_none.mpr fun o ho hit => unused o ho (beq_iff_eq.mp hit)

/-! ### NODE_ORDER_DONE and ORDER_TIMEOUT -/

section
variable {f : NodeFrame} {n : NodeIx} {s : State} {number outlet result relay : Byte}

theorem takeOrderDone_matches {e : Ending} (payload : f.payload = [number, outlet, result, relay])
    (codes : endingOf result relay = some e) : takeOrderDone f n s = matchOrder n number outlet e s := by
  unfold takeOrderDone
  rw [payload]
  dsimp only
  rw [codes]

theorem takeOrderDone_badCodes (payload : f.payload = [number, outlet, result, relay])
    (codes : endingOf result relay = none) : takeOrderDone f n s = countBadEntry n s := by
  unfold takeOrderDone
  rw [payload]
  dsimp only
  rw [codes]

theorem takeOrderDone_badLength (length : f.payload.length ≠ 4) : takeOrderDone f n s = countBadEntry n s := by
  unfold takeOrderDone
  split
  · next four => exact absurd (congrArg List.length four) length
  · rfl

end

theorem exec_nodeOrderDone_heard {n : NodeIx} {s : State} (enabled : (s.roster.nodes.get n).state ≠ .disabled)
    (q : Byte) {p : List Byte} (fits : p.length ≤ Config.maxPayload) :
    exec (.nodeOrderDone ⟨nodeByte n, q, p⟩) s = .next (takeOrderDone ⟨nodeByte n, q, p⟩ n (heardFrom n s)) :=
  congrArg Host.Outcome.next (nodePortFrame_heard (f := ⟨nodeByte n, q, p⟩) rfl fits enabled _)

theorem expireOrder_held {s : State} (distinct : (s.orders.orders.map (·.number)).Nodup) {o : Order}
    (mem : o ∈ s.orders.orders) :
    expireOrder o.number s = if reached s.time.rowTime o.expires then endOrder o .timeout s else s := by
  unfold expireOrder
  rw [orderOf_number distinct mem]

theorem expireOrder_unused {s : State} {number : Byte} (unused : ∀ o ∈ s.orders.orders, o.number ≠ number) :
    expireOrder number s = s := by
  unfold expireOrder
  rw [orderOf_unused unused]

/-- Settles O14: the frame is handled on the state that has heard the node, where its distinct number finds the order. -/
theorem ordersEndByReportOrTimeout : Obligations.OrdersEndByReportOrTimeout := by
  refine ⟨fun s n q enabled => ?_, fun s distinct => ?_, fun on => ?_⟩
  · have four (number outlet result relay : Byte) := exec_nodeOrderDone_heard enabled q
      (p := [number, outlet, result, relay]) (by decide : 4 ≤ 200)
    refine ⟨fun o result relay e distinct mem node codes => ?_, fun number outlet result relay e codes late => ?_,
      fun number outlet result relay bad => ?_, fun p fits length => ?_⟩
    · rw [four, takeOrderDone_matches rfl codes, matchOrder_found (s := heardFrom n s) distinct mem node]
    · rw [four, takeOrderDone_matches rfl codes, matchOrder_late (s := heardFrom n s) late]
    · rw [four, takeOrderDone_badCodes rfl (endingOf_eq_none bad)]
    · rw [exec_nodeOrderDone_heard enabled q fits, takeOrderDone_badLength length]
  · refine ⟨fun o mem late => ?_, fun o mem early => ?_, fun number unused => ?_⟩
    · exact congrArg Host.Outcome.next ((expireOrder_held distinct mem).trans (if_pos late))
    · exact congrArg Host.Outcome.next ((expireOrder_held distinct mem).trans (if_neg (early ▸ Bool.false_ne_true)))
    · exact congrArg Host.Outcome.next (expireOrder_unused unused)
  · cases on
    · exact ⟨rfl, rfl, rfl, rfl, rfl, rfl, rfl, rfl⟩
    · exact ⟨rfl, rfl, rfl, rfl, rfl, rfl, rfl, rfl⟩

end Sys2Proof.Machine


/-! Placing an order: its number, the five checks, its record and its ORDER frame (R107 to R109). -/

namespace Sys2Proof.Machine

/-! ### The numbers from the next order number on (R107) -/

theorem numberAfter_toNat (n : Byte) : (numberAfter n).toNat = n.toNat % 255 + 1 := by
  unfold numberAfter
  split
  · next last => rw [last]; rfl
  · next other =>
    have below : n.toNat ≠ 255 := fun h => other (BitVec.eq_of_toNat_eq h)
    rw [BitVec.toNat_add]
    change (n.toNat + 1) % 256 = _
    omega

/-- The numbers 1 to 255 stand in a ring: k steps from n lead k places on. -/
theorem repeat_numberAfter_toNat {n : Byte} (valid : n ≠ 0) (k : Nat) :
    (Nat.repeat numberAfter k n).toNat = (n.toNat - 1 + k) % 255 + 1 := by
  induction k with
  | zero =>
    have positive : n.toNat ≠ 0 := fun h => valid (BitVec.eq_of_toNat_eq h)
    rw [Nat.repeat]
    omega
  | succ k ih =>
    rw [Nat.repeat, numberAfter_toNat, ih]
    omega

/-- Fewer than 255 steps do not come back to a number. -/
theorem repeat_numberAfter_nodup {n : Byte} (valid : n ≠ 0) {k : Nat} (few : k ≤ 255) :
    ((List.range k).map (fun j => Nat.repeat numberAfter j n)).Nodup := by
  refine List.pairwise_map.mpr (List.Pairwise.imp_of_mem (fun {i j} hi hj differ same => differ ?_) List.nodup_range)
  rw [List.mem_range] at hi hj
  have places := congrArg BitVec.toNat same
  rw [repeat_numberAfter_toNat valid, repeat_numberAfter_toNat valid] at places
  omega

/-- As many numbers in use from n on, as many numbers in use. -/
theorem le_length_of_taken {n : Byte} (valid : n ≠ 0) {k : Nat} (few : k ≤ 255) {used : List Byte}
    (taken : ∀ j, j < k → Nat.repeat numberAfter j n ∈ used) : k ≤ used.length := by
  have all : (List.range k).map (fun j => Nat.repeat numberAfter j n) ⊆ used := fun x hx => by
    obtain ⟨j, hj, rfl⟩ := List.mem_map.mp hx
    exact taken j (List.mem_range.mp hj)
  have shorter := (repeat_numberAfter_nodup valid few).length_le_of_subset all
  rwa [List.length_map, List.length_range] at shorter

/-- The search for a number, begun i places on, stops at the first number that is not in use, or runs out of tries. -/
theorem firstFree_scan (used : List Byte) (n : Byte) : ∀ tries i : Nat,
    (∀ j, j < i → Nat.repeat numberAfter j n ∈ used) →
    ∃ k, k ≤ i + tries ∧ firstFree used tries (Nat.repeat numberAfter i n) = Nat.repeat numberAfter k n ∧
      (∀ j, j < k → Nat.repeat numberAfter j n ∈ used) ∧ (k < i + tries → Nat.repeat numberAfter k n ∉ used)
  | 0, i, taken => ⟨i, Nat.le_refl _, rfl, taken, fun h => absurd h (Nat.lt_irrefl _)⟩
  | tries + 1, i, taken => by
    unfold firstFree
    by_cases here : Nat.repeat numberAfter i n ∈ used
    · have taken' (j : Nat) (hj : j < i + 1) : Nat.repeat numberAfter j n ∈ used := by
        rcases Nat.lt_succ_iff_lt_or_eq.mp hj with before | rfl
        · exact taken j before
        · exact here
      obtain ⟨k, within, found, before, free⟩ := firstFree_scan used n tries (i + 1) taken'
      rw [if_pos (List.contains_iff_mem.mpr here)]
      exact ⟨k, by omega, found, before, fun h => free (by omega)⟩
    · rw [if_neg fun h => here (List.contains_iff_mem.mp h)]
      exact ⟨i, Nat.le_add_right _ _, rfl, taken, fun _ => here⟩

theorem mem_numbers {t : OrderTable} {n : Byte} : n ∈ t.numbers ↔ ∃ o ∈ t.orders, o.number = n := List.mem_map

/-- With at most 32 orders outstanding, the next number is the first that is not in use, and 33 tries find it (R107). -/
theorem nextNumber_spec {s : State} (sound : Shedding s) : ∃ k, k < 33 ∧
    s.orders.nextNumber = Nat.repeat numberAfter k s.orders.next ∧
    (∀ j, j < k → Nat.repeat numberAfter j s.orders.next ∈ s.orders.numbers) ∧
    Nat.repeat numberAfter k s.orders.next ∉ s.orders.numbers := by
  obtain ⟨k, within, found, taken, free⟩ := firstFree_scan s.orders.numbers s.orders.next 33 0
    fun j hj => absurd hj (Nat.not_lt_zero j)
  have count : s.orders.numbers.length ≤ 32 := by
    unfold OrderTable.numbers
    rw [List.length_map]
    exact sound.orderCount
  have fits := le_length_of_taken sound.numbersValid.2 (by omega) taken
  exact ⟨k, by omega, found, taken, free (by omega)⟩

/-! ### The five checks (R108) -/

theorem hasOrder_iff (i : OutletIx) (s : State) : hasOrder i s = true ↔ ∃ o ∈ s.orders.orders, o.outlet = i := by
  unfold hasOrder
  rw [List.any_eq_true]
  simp only [beq_iff_eq]

theorem hasOrder_eq_false_iff (i : OutletIx) (s : State) :
    hasOrder i s = false ↔ ∀ o ∈ s.orders.orders, o.outlet ≠ i := by
  rw [← Bool.not_eq_true, hasOrder_iff]
  exact ⟨fun nobody o ho same => nobody ⟨o, ho, same⟩, fun idle ⟨o, ho, same⟩ => idle o ho same⟩

theorem hasRoom_iff (d : NodeTx) : d.hasRoom = true ↔ d.queue.length < 16 := decide_eq_true_iff

section
variable {s : State} {i : OutletIx}

theorem placeRefusal_transparent (transparent : s.mgmt.opState = .transparent) :
    placeRefusal i s = some .wrongState := if_pos transparent

variable (working : s.mgmt.opState ≠ .transparent)
include working

theorem placeRefusal_nodeNotUp (down : (s.roster.nodes.get (nodeOfOutlet i)).state ≠ .up) :
    placeRefusal i s = some .nodeNotUp := (if_neg working).trans (if_pos down)

variable (up : (s.roster.nodes.get (nodeOfOutlet i)).state = .up)
include up

theorem placeRefusal_busy (busy : hasOrder i s = true) : placeRefusal i s = some .busy :=
  (if_neg working).trans ((if_neg (not_not_intro up)).trans (if_pos busy))

variable (idle : hasOrder i s = false)
include idle

theorem placeRefusal_idle : placeRefusal i s = if ¬ s.orders.orders.length < 32 then some .tableFull
    else if ¬ s.down.hasRoom then some .queueFull else none :=
  (if_neg working).trans ((if_neg (not_not_intro up)).trans (if_neg (idle ▸ Bool.false_ne_true)))

theorem placeRefusal_tableFull (full : 32 ≤ s.orders.orders.length) : placeRefusal i s = some .tableFull :=
  (placeRefusal_idle working up idle).trans (if_pos (Nat.not_lt.mpr full))

theorem placeRefusal_queueFull (room : s.orders.orders.length < 32) (full : 16 ≤ s.down.queue.length) :
    placeRefusal i s = some .queueFull := by
  rw [placeRefusal_idle working up idle, if_neg (not_not_intro room), if_pos]
  exact fun h => Nat.not_lt.mpr full ((hasRoom_iff _).mp h)

theorem placeRefusal_none (room : s.orders.orders.length < 32) (space : s.down.queue.length < 16) :
    placeRefusal i s = none := by
  rw [placeRefusal_idle working up idle, if_neg (not_not_intro room), if_neg]
  exact not_not_intro ((hasRoom_iff _).mpr space)

end

/-! ### The node transmit queue (R168) -/

theorem NodeTx.join_busy {d : NodeTx} (busy : d.tx ≠ none) (x : NodeItem) :
    d.join x = { d with queue := d.queue ++ [x] } := by
  obtain ⟨q, tx, n⟩ := d
  cases tx with
  | none => exact absurd rfl busy
  | some f => rfl

theorem NodeTx.join_idle {d : NodeTx} (idle : d.tx = none) (empty : d.queue = []) (x : NodeItem) :
    d.join x = NodeTx.sendDone { d with queue := [x] } := by
  obtain ⟨q, tx, n⟩ := d
  cases idle
  cases empty
  rfl

/-- Settles O36: `nextNumber_spec` for the number, a lemma per check, and `placeOrder` for the record and the frame. -/
theorem orderNumbersRoll : Obligations.OrderNumbersRoll := by
  refine ⟨fun s i relay indicator origin sound _ => ?_, fun s i => ?_,
    fun s i relay indicator origin => ⟨rfl, rfl, rfl, rfl, rfl, rfl, rfl⟩,
    fun d x => ⟨fun busy => d.join_busy busy x, fun idle empty => d.join_idle idle empty x⟩⟩
  · intro t after
    obtain ⟨k, few, number, taken, free⟩ := nextNumber_spec sound
    exact ⟨k, few, fun j hj => mem_numbers.mp (taken j hj), fun o ho same => free (mem_numbers.mpr ⟨o, ho, same⟩), rfl,
      number, congrArg numberAfter number⟩
  · intro node idle
    have noOrder : hasOrder i s = false ↔ idle := hasOrder_eq_false_iff i s
    refine ⟨placeRefusal_transparent, fun working => ⟨placeRefusal_nodeNotUp working, fun up => ⟨fun taken => ?_,
      fun untaken => ?_, fun untaken room => ⟨?_, ?_⟩⟩⟩⟩
    · exact placeRefusal_busy working up (Bool.of_not_eq_false fun h => taken (noOrder.mp h))
    · exact placeRefusal_tableFull working up (noOrder.mpr untaken)
    · exact placeRefusal_queueFull working up (noOrder.mpr untaken) room
    · exact placeRefusal_none working up (noOrder.mpr untaken) room

end Sys2Proof.Machine


/-! The end of a shed request and its report, with an order placed or without (R122, R125). -/

namespace Sys2Proof.Machine

/-- What a shed request that has failed notes before its report (R122). -/
def RequestEnd.noted (e : RequestEnd) (s : State) : State :=
  if e.done then s
  else queueNotice (.order e.kind e.tenant (e.order.map (·.1)) (e.order.map (·.2)) e.reason e.reported) s

/-- The SWITCH unit with no request in execution. -/
def freeSwitch (s : State) : State := s.withMgmt { s.mgmt with switchJob := none }

theorem noted_touches (e : RequestEnd) (s : State) : Touches [.up, .mgmt] s (e.noted s) := by
  unfold RequestEnd.noted
  split
  · exact .refl ..
  · exact queueNotice_touches ..

theorem queueNotice_switchJob (x : NoticeSubject) (s : State) : (queueNotice x s).mgmt.switchJob = s.mgmt.switchJob :=
  (congrArg Management.switchJob (queueNotice_sticky x s)).trans rfl

theorem noted_switchJob (e : RequestEnd) (s : State) : (e.noted s).mgmt.switchJob = s.mgmt.switchJob := by
  unfold RequestEnd.noted
  split
  · rfl
  · exact queueNotice_switchJob ..

theorem answerSwitch_job {s : State} {j : SwitchJob} (job : s.mgmt.switchJob = some j) (st : Status) (d : ReplyData) :
    answerSwitch st d s = answer .switch j.tag j.ack st d (freeSwitch s) := by
  unfold answerSwitch
  rw [job]
  rfl

section
variable {e : RequestEnd} {s : State}

theorem endShedRequest_link {l : LinkIx} {d : Nat} (origin : e.origin = .link l d) : endShedRequest e s =
    (e.noted s).withLinks { s.links with reports := s.links.reports ++ [⟨l, d, e.done, e.order.isSome⟩] } := by
  have links : (e.noted s).links = s.links := (noted_touches e s).2 .links rfl
  unfold endShedRequest
  rw [origin, ← links]
  rfl

theorem endShedRequest_unowed {tag : Byte} (origin : e.origin = .management tag false) :
    endShedRequest e s = e.noted s := by
  unfold endShedRequest
  rw [origin]
  rfl

theorem endShedRequest_owed {tag : Byte} (origin : e.origin = .management tag true) {j : SwitchJob}
    (job : s.mgmt.switchJob = some j) : endShedRequest e s =
      answer .switch j.tag j.ack (if e.done then .ok else e.reason)
        (.shed (e.order.map (·.2)) (e.order.map (·.1)) e.wrote) (freeSwitch (e.noted s)) := by
  unfold endShedRequest
  rw [origin]
  exact answerSwitch_job ((noted_switchJob e s).trans job) _ _

end

/-- Settles O39: the three origins of a shed request that ends not done, with no order placed. -/
theorem failedShedRequestIsNotedAndReported : Obligations.FailedShedRequestIsNotedAndReported :=
  fun _ _ _ _ => ⟨fun _ _ => endShedRequest_link rfl, fun _ => endShedRequest_unowed rfl,
    fun _ _ job => endShedRequest_owed rfl job⟩

end Sys2Proof.Machine


/-! The end of an order: the stack step, the status step, the freed record and the report (R111 to R114, R119, R121). -/

namespace Sys2Proof.Machine

/-! ### The stack step (R114 step 1, R119, R121) -/

theorem hasUnconfirmed_iff {i : OutletIx} {st : List StackEntry} : hasUnconfirmed i st = true ↔ ⟨i, false⟩ ∈ st := by
  unfold hasUnconfirmed
  rw [List.any_eq_true]
  constructor
  · rintro ⟨⟨j, c⟩, mem, hit⟩
    rw [Bool.and_eq_true, beq_iff_eq, Bool.not_eq_true'] at hit
    obtain ⟨rfl, rfl⟩ := hit
    exact mem
  · exact fun mem => ⟨_, mem, Bool.and_eq_true_iff.mpr ⟨beq_self_eq_true _, rfl⟩⟩

theorem confirmEntry_eq (i : OutletIx) (st : List StackEntry) :
    confirmEntry i st = st.map (fun x => if x.outlet = i then ⟨i, true⟩ else x) := by
  refine List.map_congr_left fun x _ => ?_
  split
  · next same => rw [← same]
  · rfl

/-- The order ends as its SHED request wants it: DONE with OFF, while its entry waits in the stack (R119). -/
def Order.confirms (o : Order) (e : Ending) (s : State) : Prop :=
  e = .done false ∧ ∃ a g, o.origin = .shed a g ∧ ⟨o.outlet, false⟩ ∈ (s.tenants.get a).stack

/-- A stack that holds the order's unconfirmed entry, after the order has ended (R119). -/
def Order.settled (o : Order) (e : Ending) (st : List StackEntry) : List StackEntry :=
  if e = .done false then confirmEntry o.outlet st else removeEntry o.outlet st

section
variable {o : Order} {e : Ending} {s : State}

theorem orderStackStep_settles {a : Slot} {g : RequestOrigin} (origin : o.origin = .shed a g)
    (waits : ⟨o.outlet, false⟩ ∈ (s.tenants.get a).stack) :
    orderStackStep o e s = modifyTenant a (fun k => { k with stack := o.settled e k.stack }) s := by
  unfold orderStackStep Order.settled
  rw [origin]
  dsimp only
  rw [if_pos (hasUnconfirmed_iff.mpr waits)]
  split
  · rfl
  · rfl

theorem orderStackStep_idle
    (idle : ∀ a g, o.origin = .shed a g → ⟨o.outlet, false⟩ ∉ (s.tenants.get a).stack) : orderStackStep o e s = s := by
  unfold orderStackStep
  split
  · next a g origin => exact if_neg fun waits => idle a g origin (hasUnconfirmed_iff.mp waits)
  · rfl
  · rfl

/-- What the stack step does: nothing, or it settles the stack that holds the order's unconfirmed entry. -/
theorem orderStackStep_cases (o : Order) (e : Ending) (s : State) :
    (orderStackStep o e s = s ∧ ∀ a g, o.origin = .shed a g → ⟨o.outlet, false⟩ ∉ (s.tenants.get a).stack) ∨
      ∃ a g, o.origin = .shed a g ∧ ⟨o.outlet, false⟩ ∈ (s.tenants.get a).stack ∧
        orderStackStep o e s = modifyTenant a (fun k => { k with stack := o.settled e k.stack }) s := by
  by_cases waits : ∃ a g, o.origin = .shed a g ∧ ⟨o.outlet, false⟩ ∈ (s.tenants.get a).stack
  · obtain ⟨a, g, origin, waits⟩ := waits
    exact .inr ⟨a, g, origin, waits, orderStackStep_settles origin waits⟩
  · have idle (a : Slot) (g : RequestOrigin) (origin : o.origin = .shed a g) :
        ⟨o.outlet, false⟩ ∉ (s.tenants.get a).stack := fun mem => waits ⟨a, g, origin, mem⟩
    exact .inl ⟨orderStackStep_idle idle, idle⟩

/-- Of a tenant the stack step writes the stack only. -/
theorem orderStackStep_tenant (o : Order) (e : Ending) (s : State) (a : Slot) :
    (orderStackStep o e s).tenants.get a =
      { s.tenants.get a with stack := ((orderStackStep o e s).tenants.get a).stack } := by
  rcases orderStackStep_cases o e s with ⟨idle, -⟩ | ⟨b, g, -, -, settles⟩
  · rw [idle]
  · rw [settles]
    unfold modifyTenant
    rw [State.withTenants_tenants, Table.get_modify]
    split
    · next same => rw [same]
    · rfl

theorem orderStackStep_stack_other {b : Slot} (other : ∀ g, o.origin ≠ .shed b g) :
    ((orderStackStep o e s).tenants.get b).stack = (s.tenants.get b).stack := by
  rcases orderStackStep_cases o e s with ⟨idle, -⟩ | ⟨a, g, origin, -, settles⟩
  · rw [idle]
  · have apart : b ≠ a := fun same => other g (same ▸ origin)
    rw [settles]
    exact congrArg Tenant.stack (Table.get_modify_other _ _ apart)

variable {a : Slot} {g : RequestOrigin} (origin : o.origin = .shed a g)
include origin

theorem orderStackStep_stack_absent (absent : ⟨o.outlet, false⟩ ∉ (s.tenants.get a).stack) :
    ((orderStackStep o e s).tenants.get a).stack = (s.tenants.get a).stack := by
  rw [orderStackStep_idle fun b h owner => ?_]
  rw [origin] at owner
  cases owner
  exact absent

theorem orderStackStep_stack_waits (waits : ⟨o.outlet, false⟩ ∈ (s.tenants.get a).stack) :
    ((orderStackStep o e s).tenants.get a).stack = o.settled e (s.tenants.get a).stack := by
  rw [orderStackStep_settles origin waits]
  exact congrArg Tenant.stack (Table.get_modify_same ..)

end

/-! ### The relay status an ending writes (R111, R112) -/

theorem inConfirmedStack_iff (i : OutletIx) (s : State) :
    inConfirmedStack i s = true ↔ ∃ a, ⟨i, true⟩ ∈ (s.tenants.get a).stack := by
  unfold inConfirmedStack
  rw [List.any_eq_true]
  constructor
  · rintro ⟨k, row, confirmed⟩
    obtain ⟨a, rfl⟩ := Table.mem_rows.mp row
    exact ⟨a, mem_of_hasConfirmed.mp confirmed⟩
  · exact fun ⟨a, mem⟩ => ⟨_, Table.get_mem _ a, mem_of_hasConfirmed.mpr mem⟩

/-- An outlet with an order is a confirmed entry after the stack step exactly when the ending confirms it: before the step
it is none, as Shedding keeps orders and confirmed entries apart. -/
theorem inConfirmedStack_after {s : State} (sound : Shedding s) {o : Order} (mem : o ∈ s.orders.orders) (e : Ending) :
    inConfirmedStack o.outlet (orderStackStep o e s) = true ↔ o.confirms e s := by
  have before (b : Slot) : ⟨o.outlet, true⟩ ∉ (s.tenants.get b).stack :=
    fun confirmed => sound.confirmed b o.outlet confirmed o mem rfl
  rw [inConfirmedStack_iff]
  constructor
  · rintro ⟨b, confirmed⟩
    rcases orderStackStep_cases o e s with ⟨idle, -⟩ | ⟨a, g, origin, waits, -⟩
    · rw [idle] at confirmed
      exact absurd confirmed (before b)
    · by_cases same : b = a
      · rw [same, orderStackStep_stack_waits origin waits] at confirmed
        unfold Order.settled at confirmed
        split at confirmed
        · next off => exact ⟨off, a, g, origin, waits⟩
        · rw [removeEntry_eq, List.mem_filter] at confirmed
          exact absurd rfl (of_decide_eq_true confirmed.2)
      · rw [orderStackStep_stack_other fun h owner => same (by rw [origin] at owner; cases owner; rfl)] at confirmed
        exact absurd confirmed (before b)
  · rintro ⟨off, a, g, origin, waits⟩
    refine ⟨a, ?_⟩
    rw [orderStackStep_stack_waits origin waits, Order.settled, if_pos off, confirmEntry_eq, List.mem_map]
    exact ⟨_, waits, if_pos rfl⟩

section
variable {e : Ending} {i : OutletIx} {s : State}

theorem relay_unreported (silent : e.reported = none) : e.relay i s = .unknown := by
  unfold Ending.relay
  rw [silent]

theorem relay_reportedOn (on : e.reported = some true) : e.relay i s = .on := by
  unfold Ending.relay
  rw [on]

theorem relay_reportedOff (off : e.reported = some false) :
    e.relay i s = if inConfirmedStack i s then .offShed else .off := by
  unfold Ending.relay
  rw [off]

theorem indicator_unreported (silent : e.reported = none) (action : IndicatorAction) (before : Indicator) :
    e.indicator action before = .unknown := by
  cases e with
  | done on => cases silent
  | refused on => cases silent
  | fault on => cases silent
  | timeout => rfl
  | nodeLost => rfl

end

/-! ### The steps before the report (R114) -/

/-- The relay status that the end of an order writes. -/
def endedRelay (o : Order) (e : Ending) (s : State) : RelayStatus := e.relay o.outlet (orderStackStep o e s)

/-- The indicator that the end of an order writes. -/
def endedIndicator (o : Order) (e : Ending) (s : State) : Indicator :=
  e.indicator o.indicator (s.map.entries.get o.outlet).indicator

/-- The state in which the end of an order is reported: stack and status are written and the record is freed. -/
def orderFreed (o : Order) (e : Ending) (s : State) : State :=
  (writeStatus o.outlet (endedRelay o e s) (endedIndicator o e s) (orderStackStep o e s)).withOrders
    { s.orders with orders := s.orders.orders.filter (fun x => x.number != o.number) }

theorem endOrder_reports (o : Order) (e : Ending) (s : State) : endOrder o e s =
    orderReport o e (orderRequestDone o e s) (endedRelay o e s) (endedIndicator o e s) (orderFreed o e s) := by
  have map : (orderStackStep o e s).map = s.map := (orderStackStep_touches o e s).2 .map rfl
  have orders : (orderStackStep o e s).orders = s.orders := (orderStackStep_touches o e s).2 .orders rfl
  unfold endOrder orderFreed endedIndicator
  dsimp only
  rw [← map, ← orders]
  rfl

theorem orderFreed_touches (o : Order) (e : Ending) (s : State) :
    Touches [.map, .tenants, .orders] s (orderFreed o e s) := by
  have written (x : State) (i : OutletIx) (r : RelayStatus) (d : Indicator) :
      Touches [.map, .tenants, .orders] x (writeStatus i r d x) := (modifyOutlet_touches ..).widen
  have freed (x : State) (t : OrderTable) : Touches [.map, .tenants, .orders] x (x.withOrders t) :=
    ⟨rfl, fun b out => by cases b <;> first | rfl | exact absurd out (by decide)⟩
  exact (orderStackStep_touches o e s).widen.trans ((written ..).trans (freed ..))

theorem endOrder_tenants (o : Order) (e : Ending) (s : State) :
    (endOrder o e s).tenants = (orderStackStep o e s).tenants := by
  rw [endOrder_reports, (orderReport_touches ..).2 .tenants rfl]
  rfl

theorem endOrder_entries (o : Order) (e : Ending) (s : State) : (endOrder o e s).map.entries =
    s.map.entries.modify o.outlet
      (fun x => { x with relay := endedRelay o e s, indicator := endedIndicator o e s }) := by
  have stacked : (orderStackStep o e s).map = s.map := (orderStackStep_touches o e s).2 .map rfl
  rw [endOrder_reports, (orderReport_touches ..).2 .map rfl]
  unfold orderFreed writeStatus modifyOutlet
  rw [State.withOrders_map, State.withMap_map, stacked]

/-! ### Notices and answers in states that differ elsewhere -/

/-- Two states hold the same in all that notices and answers read or write. -/
structure SameUplink (s t : State) : Prop where
  up : t.up = s.up
  mgmt : t.mgmt = s.mgmt
  time : t.time = s.time

namespace SameUplink

variable {s t : State}

theorem of_touches {bs : List Block} (h : Touches bs s t) (up : bs.contains .up = false := by rfl)
    (mgmt : bs.contains .mgmt = false := by rfl) (time : bs.contains .time = false := by rfl) : SameUplink s t :=
  ⟨h.2 .up up, h.2 .mgmt mgmt, h.2 .time time⟩

variable (h : SameUplink s t)
include h

theorem notice (x : NoticeSubject) : SameUplink (queueNotice x s) (queueNotice x t) := by
  unfold queueNotice noticeRoom setSticky
  rw [h.up, h.mgmt, h.time]
  split
  · exact ⟨rfl, h.mgmt, h.time⟩
  · exact ⟨h.up, rfl, h.time⟩

theorem noted (e : RequestEnd) : SameUplink (e.noted s) (e.noted t) := by
  unfold RequestEnd.noted
  split
  · exact h
  · exact h.notice _

theorem reply (r : Reply) : SameUplink (sendReply r s) (sendReply r t) := by
  unfold sendReply setSticky
  rw [h.up, h.mgmt]
  split
  · exact ⟨rfl, h.mgmt, h.time⟩
  · exact ⟨h.up, rfl, h.time⟩

theorem tagged (u : RequestUnit) (tag : Byte) : SameUplink (setTag u tag s) (setTag u tag t) := by
  unfold setTag
  rw [h.mgmt]
  exact ⟨h.up, rfl, h.time⟩

theorem answered (u : RequestUnit) (tag : Byte) (w : Bool) (st : Status) (d : ReplyData) :
    SameUplink (answer u tag w st d s) (answer u tag w st d t) := by
  have first : SameUplink (if st.accepts then setTag u tag s else s) (if st.accepts then setTag u tag t else t) := by
    split
    · exact h.tagged u tag
    · exact h
  unfold answer
  dsimp only
  split
  · exact first.reply _
  · exact first

theorem freed : SameUplink (freeSwitch s) (freeSwitch t) := by
  unfold freeSwitch
  rw [h.mgmt]
  exact ⟨h.up, rfl, h.time⟩

end SameUplink

theorem orderFreed_uplink (o : Order) (e : Ending) (s : State) : SameUplink s (orderFreed o e s) :=
  .of_touches (orderFreed_touches o e s)

theorem orderFreed_links (o : Order) (e : Ending) (s : State) : (orderFreed o e s).links = s.links :=
  (orderFreed_touches o e s).2 .links rfl

/-! ### The report (R122, R124, R125) -/

/-- The end of a shed request that has placed its order, as the order's ending reports it. -/
def Order.requestEnd (o : Order) (e : Ending) (s : State) (kind : ShedKind) (a : Slot) (g : RequestOrigin) :
    RequestEnd :=
  { kind, tenant := a, origin := g, done := orderRequestDone o e s, reason := e.status,
    order := some (o.number, o.outlet), reported := e.reported, wrote := some (endedRelay o e s) }

section
variable {o : Order} {e : Ending} {s : State}

theorem endOrder_ofShed {a : Slot} {g : RequestOrigin} (origin : o.origin = .shed a g) :
    endOrder o e s = endShedRequest (o.requestEnd e s .shed a g) (orderFreed o e s) := by
  rw [endOrder_reports]
  unfold orderReport
  rw [origin]
  rfl

theorem endOrder_ofRestore {a : Slot} {g : RequestOrigin} (origin : o.origin = .restore a g) :
    endOrder o e s = endShedRequest (o.requestEnd e s .restore a g) (orderFreed o e s) := by
  rw [endOrder_reports]
  unfold orderReport
  rw [origin]
  rfl

theorem endOrder_unowed {tag : Byte} (origin : o.origin = .management tag false) :
    endOrder o e s = orderFreed o e s := by
  rw [endOrder_reports]
  unfold orderReport
  rw [origin]
  rfl

theorem endOrder_owed {tag : Byte} (origin : o.origin = .management tag true) {j : SwitchJob}
    (job : s.mgmt.switchJob = some j) : endOrder o e s =
      answer .switch j.tag j.ack (if e.status = .done then .ok else e.status)
        (.order (some o.number) (endedRelay o e s) (endedIndicator o e s)) (freeSwitch (orderFreed o e s)) := by
  have job' : (orderFreed o e s).mgmt.switchJob = some j := by
    rw [(orderFreed_touches o e s).2 .mgmt rfl]
    exact job
  rw [endOrder_reports]
  unfold orderReport
  rw [origin]
  exact answerSwitch_job job' _ _

theorem orderRequestDone_ofShed {a : Slot} {g : RequestOrigin} (origin : o.origin = .shed a g) :
    orderRequestDone o e s = true ↔ o.confirms e s := by
  unfold orderRequestDone Order.confirms
  rw [origin]
  dsimp only
  rw [Bool.and_eq_true, decide_eq_true_iff, hasUnconfirmed_iff]
  refine and_congr_right fun _ => ⟨fun waits => ⟨a, g, rfl, waits⟩, ?_⟩
  rintro ⟨b, k, owner, waits⟩
  cases owner
  exact waits

theorem orderRequestDone_ofRestore {a : Slot} {g : RequestOrigin} (origin : o.origin = .restore a g) :
    orderRequestDone o e s = true ↔ e = .done true := by
  unfold orderRequestDone
  rw [origin]
  exact decide_eq_true_iff

end

/-- The report of a shed request goes into links, notices and answers as if nothing else had been written. -/
theorem endShedRequest_reports {s x : State} (same : SameUplink s x) (links : x.links = s.links) (e : RequestEnd) :
    (∀ l d, e.origin = .link l d → (endShedRequest e x).links =
        { s.links with reports := s.links.reports ++ [⟨l, d, e.done, e.order.isSome⟩] } ∧
      (endShedRequest e x).up = (e.noted s).up ∧ (endShedRequest e x).mgmt = (e.noted s).mgmt) ∧
    (∀ tag, e.origin = .management tag false → (endShedRequest e x).links = s.links ∧
      (endShedRequest e x).up = (e.noted s).up ∧ (endShedRequest e x).mgmt = (e.noted s).mgmt) ∧
    (∀ tag j, e.origin = .management tag true → s.mgmt.switchJob = some j →
      let answered := answer .switch j.tag j.ack (if e.done then .ok else e.reason)
        (.shed (e.order.map (·.2)) (e.order.map (·.1)) e.wrote) (freeSwitch (e.noted s))
      (endShedRequest e x).links = s.links ∧ (endShedRequest e x).up = answered.up ∧
        (endShedRequest e x).mgmt = answered.mgmt) := by
  have noted := same.noted e
  have notedLinks : (e.noted x).links = s.links := ((noted_touches e x).2 .links rfl).trans links
  refine ⟨fun l d origin => ?_, fun tag origin => ?_, fun tag j origin job => ?_⟩
  · rw [endShedRequest_link origin, links]
    exact ⟨rfl, noted.up, noted.mgmt⟩
  · rw [endShedRequest_unowed origin]
    exact ⟨notedLinks, noted.up, noted.mgmt⟩
  · have answered := noted.freed.answered .switch j.tag j.ack (if e.done then .ok else e.reason)
      (.shed (e.order.map (·.2)) (e.order.map (·.1)) e.wrote)
    rw [endShedRequest_owed origin (by rw [same.mgmt]; exact job)]
    exact ⟨((answer_touches ..).2 .links rfl).trans notedLinks, answered.up, answered.mgmt⟩

/-- Of the link table the end of an order writes the reports only (R122). -/
theorem endOrder_links (o : Order) (e : Ending) (s : State) :
    (endOrder o e s).links = { s.links with reports := (endOrder o e s).links.reports } := by
  have freed := orderFreed_links o e s
  have request (x : RequestEnd) : (endShedRequest x (orderFreed o e s)).links =
      { s.links with reports := (endShedRequest x (orderFreed o e s)).links.reports } := by
    obtain ⟨r, h⟩ := endShedRequest_links x (orderFreed o e s)
    rw [h, freed]
  rcases origin : o.origin with ⟨tag, owed⟩ | ⟨a, g⟩ | ⟨a, g⟩
  · have same : (endOrder o e s).links = s.links := by
      rw [endOrder_reports]
      unfold orderReport
      rw [origin]
      dsimp only
      split
      · exact ((answerSwitch_touches ..).2 .links rfl).trans freed
      · exact freed
    rw [same]
  · rw [endOrder_ofShed origin]
    exact request _
  · rw [endOrder_ofRestore origin]
    exact request _

/-! ### The ending of an order -/

section
variable {s : State} (sound : Shedding s) {o : Order} (mem : o ∈ s.orders.orders) {e : Ending}
include sound mem

theorem endedRelay_confirms (confirms : o.confirms e s) : endedRelay o e s = .offShed :=
  (relay_reportedOff (congrArg Ending.reported confirms.1)).trans
    (if_pos ((inConfirmedStack_after sound mem e).mpr confirms))

theorem endedRelay_off (off : e.reported = some false) (fails : ¬ o.confirms e s) : endedRelay o e s = .off :=
  (relay_reportedOff off).trans (if_neg fun stacked => fails ((inConfirmedStack_after sound mem e).mp stacked))

end

/-- The request that a SHED or RESTORE order belongs to ends with the order, done as R119 and R121 say. -/
theorem endOrder_ofRequest {s : State} {o : Order} {e : Ending} {kind : ShedKind} {a : Slot} {g : RequestOrigin}
    {done : Bool} (asked : kind = .shed ∧ o.origin = .shed a g ∧ (done = true ↔ o.confirms e s) ∨
      kind = .restore ∧ o.origin = .restore a g ∧ (done = true ↔ e = .done true)) :
    endOrder o e s = endShedRequest (o.requestEnd e s kind a g) (orderFreed o e s) ∧ done = orderRequestDone o e s := by
  rw [Bool.eq_iff_iff]
  rcases asked with ⟨rfl, origin, ended⟩ | ⟨rfl, origin, ended⟩
  · exact ⟨endOrder_ofShed origin, ended.trans (orderRequestDone_ofShed origin).symm⟩
  · exact ⟨endOrder_ofRestore origin, ended.trans (orderRequestDone_ofRestore origin).symm⟩

/-- The answer to the SWITCH request whose management order ends (R124). -/
theorem endOrder_answers {s : State} {o : Order} {e : Ending} {tag : Byte} (origin : o.origin = .management tag true)
    {j : SwitchJob} (job : s.mgmt.switchJob = some j) :
    let answered := answer .switch j.tag j.ack (if e.status = .done then .ok else e.status)
      (.order (some o.number) (endedRelay o e s) (endedIndicator o e s)) (freeSwitch s)
    (endOrder o e s).links = s.links ∧ (endOrder o e s).up = answered.up ∧ (endOrder o e s).mgmt = answered.mgmt := by
  have same := (orderFreed_uplink o e s).freed.answered .switch j.tag j.ack (if e.status = .done then .ok else e.status)
    (.order (some o.number) (endedRelay o e s) (endedIndicator o e s))
  rw [endOrder_owed origin job]
  exact ⟨((answer_touches ..).2 .links rfl).trans (orderFreed_links o e s), same.up, same.mgmt⟩

/-- Settles O15: `orderFreed` gives stack, status and record, and the report follows the order's origin. -/
theorem orderEndingWritesTheRelayAndFreesTheOrder : Obligations.OrderEndingWritesTheRelayAndFreesTheOrder := by
  intro s o e sound mem t x confirms
  have touched := (endOrder_touches o e s).2
  have tenant (a : Slot) : t.tenants.get a = (orderStackStep o e s).tenants.get a :=
    congrArg (fun k => k.get a) (endOrder_tenants o e s)
  have entry (j : OutletIx) : t.map.entries.get j = if j = o.outlet then
      { x with relay := endedRelay o e s, indicator := endedIndicator o e s } else s.map.entries.get j :=
    (congrArg (fun k => k.get j) (endOrder_entries o e s)).trans (Table.get_modify ..)
  have own : t.map.entries.get o.outlet = { x with relay := endedRelay o e s, indicator := endedIndicator o e s } :=
    (entry o.outlet).trans (if_pos rfl)
  have relay : (t.map.entries.get o.outlet).relay = endedRelay o e s := congrArg Outlet.relay own
  have indicator : (t.map.entries.get o.outlet).indicator = endedIndicator o e s := congrArg Outlet.indicator own
  refine ⟨endOrder_orders o e s, fun j other => (entry j).trans (if_neg other), fun a => ?_, touched .time rfl,
    touched .profiles rfl, touched .review rfl, touched .roster rfl, touched .down rfl, touched .ports rfl,
    endOrder_links o e s, ?_, fun on => relay.trans (relay_reportedOn on),
    fun confirmed => relay.trans (endedRelay_confirms sound mem confirmed),
    fun off fails => relay.trans (endedRelay_off sound mem off fails),
    fun silent => ⟨relay.trans (relay_unreported silent), indicator.trans (indicator_unreported silent _ _)⟩,
    fun on refused => ?_, fun on fault => ?_, fun on done => ?_, fun b other => ?_, fun a g origin => ?_, ?_⟩
  · rw [tenant]
    exact orderStackStep_tenant o e s a
  · rw [relay, indicator]
    exact own
  · rw [indicator, refused]
    rfl
  · rw [indicator, fault]
    rfl
  · rw [indicator, done]
    unfold endedIndicator
    exact ⟨fun action => by rw [action]; rfl, fun action => by rw [action]; rfl, fun action => by rw [action]; rfl,
      fun action => by rw [action]; rfl⟩
  · rw [tenant]
    exact orderStackStep_stack_other other
  · intro st
    rw [tenant]
    refine ⟨orderStackStep_stack_absent origin, fun waits off => ?_, fun waits other => ?_⟩
    · rw [orderStackStep_stack_waits origin waits, Order.settled, if_pos off, confirmEntry_eq]
    · rw [orderStackStep_stack_waits origin waits, Order.settled, if_neg other, removeEntry_eq]
  · intro relay' indicator' outcome free
    have status : outcome = e.status := by cases e <;> rfl
    have wroteRelay : relay' = endedRelay o e s := relay
    have wroteIndicator : indicator' = endedIndicator o e s := indicator
    rw [status, wroteRelay, wroteIndicator]
    refine ⟨fun kind a g done asked => ?_, fun tag origin => ?_, fun tag j origin job => endOrder_answers origin job⟩
    · obtain ⟨request, ended⟩ := endOrder_ofRequest asked
      have reports :=
        endShedRequest_reports (orderFreed_uplink o e s) (orderFreed_links o e s) (o.requestEnd e s kind a g)
      rw [← request] at reports
      rw [ended]
      exact reports
    · have same : t = orderFreed o e s := endOrder_unowed origin
      rw [same]
      exact ⟨orderFreed_links o e s, (orderFreed_uplink o e s).up, (orderFreed_uplink o e s).mgmt⟩

end Sys2Proof.Machine


/-! The shed engine: the head of the shed request queue, the search and its end (R115 to R118, R120). -/

namespace Sys2Proof.Machine

/-! ### Checks of a request as the engine takes it (R116, R120) -/

theorem stackFull_iff (k : Tenant) : k.stackFull = true ↔ 16 ≤ k.stack.length := decide_eq_true_iff

theorem not_stackFull {k : Tenant} (room : k.stack.length < 16) : ¬ k.stackFull = true :=
  fun full => Nat.not_lt.mpr ((stackFull_iff k).mp full) room

section
variable {t : Slot} {s : State}

theorem shedRefusal_free (free : (s.tenants.get t).state = .free) : shedRefusal t s = some .notFound := if_pos free

theorem shedRefusal_full (used : (s.tenants.get t).state ≠ .free) (full : 16 ≤ (s.tenants.get t).stack.length) :
    shedRefusal t s = some .stackFull := (if_neg used).trans (if_pos ((stackFull_iff _).mpr full))

theorem shedRefusal_none (used : (s.tenants.get t).state ≠ .free) (room : (s.tenants.get t).stack.length < 16) :
    shedRefusal t s = none := (if_neg used).trans (if_neg (not_stackFull room))

theorem takeShed_refused {reason : Status} (refused : shedRefusal t s = some reason) (g : RequestOrigin) :
    takeShed t g s = failShedRequest .shed t g reason s := by
  unfold takeShed
  rw [refused]

theorem takeShed_searches (passes : shedRefusal t s = none) (g : RequestOrigin) :
    takeShed t g s = setSearch (some { tenant := t, origin := g, position := 0, best := none }) s := by
  unfold takeShed
  rw [passes]

theorem restoreTarget_free (free : (s.tenants.get t).state = .free) : restoreTarget t s = .error .notFound :=
  if_pos free

theorem restoreTarget_empty (used : (s.tenants.get t).state ≠ .free) (empty : (s.tenants.get t).stack = []) :
    restoreTarget t s = .error .notFound := by
  unfold restoreTarget
  dsimp only
  rw [if_neg used, empty]
  rfl

variable {below : List StackEntry} {i : OutletIx}

theorem restoreTarget_unconfirmed (used : (s.tenants.get t).state ≠ .free)
    (top : (s.tenants.get t).stack = below ++ [⟨i, false⟩]) : restoreTarget t s = .error .busy := by
  unfold restoreTarget
  dsimp only
  rw [if_neg used, top, List.getLast?_concat]
  rfl

theorem restoreTarget_refused (used : (s.tenants.get t).state ≠ .free)
    (top : (s.tenants.get t).stack = below ++ [⟨i, true⟩]) {reason : Status}
    (refused : placeRefusal i s = some reason) :
    restoreTarget t s = .error reason := by
  unfold restoreTarget
  dsimp only
  rw [if_neg used, top, List.getLast?_concat]
  dsimp only
  rw [refused]
  rfl

theorem restoreTarget_ok (used : (s.tenants.get t).state ≠ .free)
    (top : (s.tenants.get t).stack = below ++ [⟨i, true⟩]) (passes : placeRefusal i s = none) :
    restoreTarget t s = .ok i := by
  unfold restoreTarget
  dsimp only
  rw [if_neg used, top, List.getLast?_concat]
  dsimp only
  rw [passes]
  rfl

theorem takeRestore_refused {reason : Status} (refused : restoreTarget t s = .error reason) (g : RequestOrigin) :
    takeRestore t g s = failShedRequest .restore t g reason s := by
  unfold takeRestore
  rw [refused]

/-- A restore that passes its checks places its order, pops the top entry and writes OFF (R120). -/
theorem takeRestore_places (passes : restoreTarget t s = .ok i)
    (top : (s.tenants.get t).stack = below ++ [⟨i, true⟩]) (g : RequestOrigin) : takeRestore t g s =
      ((placeOrder i .on .dark (.restore t g) s).withTenants
        (s.tenants.set t { s.tenants.get t with stack := below })).withMap
        { s.map with entries := s.map.entries.set i { s.map.entries.get i with relay := .off } } := by
  have popped : (s.tenants.get t).stack.dropLast = below := by rw [top, List.dropLast_concat]
  unfold takeRestore
  rw [passes, ← popped]
  rfl

end

/-! ### SHED_REQUEST_TAKE (R115) -/

section
variable {s : State} {r : ShedRequest} {rest : List ShedRequest} (idle : s.orders.search = none)
  (queue : s.links.shedQueue = r :: rest)
include idle queue

theorem exec_shedRequestTake_shed (kind : r.kind = .shed) : exec .shedRequestTake s =
    .next (takeShed r.tenant r.origin (s.withLinks { s.links with shedQueue := rest })) := by
  show Host.Outcome.next (takeShedRequest s) = _
  unfold takeShedRequest
  rw [idle, queue]
  dsimp only
  rw [kind]

theorem exec_shedRequestTake_restore (kind : r.kind = .restore) : exec .shedRequestTake s =
    .next (takeRestore r.tenant r.origin (s.withLinks { s.links with shedQueue := rest })) := by
  show Host.Outcome.next (takeShedRequest s) = _
  unfold takeShedRequest
  rw [idle, queue]
  dsimp only
  rw [kind]

end

/-- Settles O37: by kind, the checks of `shedRefusal` or `restoreTarget` decide what becomes of the head. -/
theorem shedRequestTakeHandlesTheHead : Obligations.ShedRequestTakeHandlesTheHead := by
  intro s r rest idle queue s' k fails
  have shedFails {reason : Status} (kind : r.kind = .shed) (refused : shedRefusal r.tenant s' = some reason) :
      fails reason := by
    show exec .shedRequestTake s = _
    rw [exec_shedRequestTake_shed idle queue kind, takeShed_refused refused, kind]
  have restoreFails {reason : Status} (kind : r.kind = .restore) (refused : restoreTarget r.tenant s' = .error reason) :
      fails reason := by
    show exec .shedRequestTake s = _
    rw [exec_shedRequestTake_restore idle queue kind, takeRestore_refused refused, kind]
  refine ⟨fun free => ?_, fun kind used full => shedFails kind (shedRefusal_full used full), fun kind used room => ?_,
    fun kind used empty => restoreFails kind (restoreTarget_empty used empty),
    fun below i kind used top => restoreFails kind (restoreTarget_unconfirmed used top),
    fun below i reason kind used top refused => restoreFails kind (restoreTarget_refused used top refused),
    fun below i kind used top passes => ?_⟩
  · cases kind : r.kind with
    | shed => exact shedFails kind (shedRefusal_free free)
    | restore => exact restoreFails kind (restoreTarget_free free)
  · have passes : shedRefusal r.tenant s' = none := shedRefusal_none used room
    rw [exec_shedRequestTake_shed idle queue kind, takeShed_searches passes]
    rfl
  · have target : restoreTarget r.tenant s' = .ok i := restoreTarget_ok used top passes
    rw [exec_shedRequestTake_restore idle queue kind, takeRestore_places target top]
    rfl

/-! ### The search (R117) -/

theorem isCandidate_iff (t : Slot) (i : OutletIx) (s : State) : isCandidate t i s = true ↔
    (∃ f, (s.map.entries.get i).effective.memberOf = some (t, f)) ∧ (s.map.entries.get i).flags.getLsbD 5 = true ∧
      (s.map.entries.get i).relay = .on ∧ 1 ≤ (s.map.entries.get i).rank.val ∧ ∀ o ∈ s.orders.orders, o.outlet ≠ i := by
  have member : (s.map.entries.get i).effective.memberOf.map (·.1) = some t ↔
      ∃ f, (s.map.entries.get i).effective.memberOf = some (t, f) := by
    rw [Option.map_eq_some_iff]
    exact ⟨fun ⟨⟨_, f⟩, found, same⟩ => ⟨f, same ▸ found⟩, fun ⟨f, found⟩ => ⟨(t, f), found, rfl⟩⟩
  unfold isCandidate Outlet.switchable
  simp only [Bool.and_eq_true, decide_eq_true_iff, Bool.not_eq_true', hasOrder_eq_false_iff, member, and_assoc]

theorem beats_iff (rank : Fin 16) (best : Option (OutletIx × Fin 16)) :
    beats rank best = true ↔ ∀ j r, best = some (j, r) → rank.val < r.val := by
  rcases best with _ | ⟨j, r⟩
  · exact ⟨fun _ _ _ h => (nomatch h), fun _ => rfl⟩
  · refine decide_eq_true_iff.trans ⟨fun lower j' r' h => ?_, fun all => all j r rfl⟩
    cases h
    exact lower

theorem searchStep_at {q : Search} {i : OutletIx} (position : q.position = i.val) (s : State) : q.step s =
    { q with
      position := q.position + 1
      best := if isCandidate q.tenant i s && beats (s.map.entries.get i).rank q.best
        then some (i, (s.map.entries.get i).rank) else q.best } := by
  obtain ⟨t, g, p, best⟩ := q
  cases position
  exact dif_pos i.isLt

theorem exec_shedSearchStep {s : State} {q : Search} (search : s.orders.search = some q) :
    exec .shedSearchStep s = .next (setSearch (some (q.step s)) s) := by
  show Host.Outcome.next _ = _
  rw [search]

/-! ### The end of the search (R118) -/

section
variable {q : Search} {s : State} {i : OutletIx} {r : Fin 16}

theorem shedTarget_free (free : (s.tenants.get q.tenant).state = .free) : shedTarget q s = .error .notFound :=
  if_pos free

theorem shedTarget_nobody (best : q.best = none) : shedTarget q s = .error .notFound := by
  unfold shedTarget
  dsimp only
  rw [best]
  exact ite_self _

theorem shedTarget_stale (best : q.best = some (i, r)) (stale : ¬ isCandidate q.tenant i s = true) :
    shedTarget q s = .error .notFound := by
  unfold shedTarget
  dsimp only
  rw [best]
  dsimp only
  rw [Bool.eq_false_iff.mpr stale]
  exact ite_self _

variable (used : (s.tenants.get q.tenant).state ≠ .free) (best : q.best = some (i, r))
  (candidate : isCandidate q.tenant i s = true)
include used best candidate

theorem shedTarget_full (full : 16 ≤ (s.tenants.get q.tenant).stack.length) :
    shedTarget q s = .error .stackFull := by
  unfold shedTarget
  dsimp only
  rw [if_neg used, best]
  dsimp only
  rw [candidate, if_neg (by decide), if_pos ((stackFull_iff _).mpr full)]

theorem shedTarget_refused (room : (s.tenants.get q.tenant).stack.length < 16) {reason : Status}
    (refused : placeRefusal i s = some reason) : shedTarget q s = .error reason := by
  unfold shedTarget
  dsimp only
  rw [if_neg used, best]
  dsimp only
  rw [candidate, if_neg (by decide), if_neg (not_stackFull room), refused]

theorem shedTarget_ok (room : (s.tenants.get q.tenant).stack.length < 16) (passes : placeRefusal i s = none) :
    shedTarget q s = .ok i := by
  unfold shedTarget
  dsimp only
  rw [if_neg used, best]
  dsimp only
  rw [candidate, if_neg (by decide), if_neg (not_stackFull room), passes]

end

theorem exec_shedSearchEnd {s : State} {q : Search} (search : s.orders.search = some q) (walked : 1536 ≤ q.position) :
    exec .shedSearchEnd s = .next (endSearch q s) := by
  show Host.Outcome.next _ = _
  rw [search]
  exact congrArg Host.Outcome.next (if_pos walked)

theorem endSearch_fails {q : Search} {s : State} {reason : Status} (refused : shedTarget q s = .error reason) :
    endSearch q s = failShedRequest .shed q.tenant q.origin reason (setSearch none s) := by
  unfold endSearch
  rw [refused]

theorem endSearch_places {q : Search} {s : State} {i : OutletIx} (target : shedTarget q s = .ok i) :
    endSearch q s = placeShed q.tenant q.origin i (setSearch none s) := by
  unfold endSearch
  rw [target]

/-- Settles O38: `searchStep_at` with what a candidate is, and the checks of `shedTarget` one by one. -/
theorem shedSearchFindsAndPlaces : Obligations.ShedSearchFindsAndPlaces := by
  refine ⟨fun s q i search position => ?_, fun s q search walked => ?_⟩
  · intro e candidate better
    have eligible : isCandidate q.tenant i s = true ↔ candidate := isCandidate_iff ..
    have lower : beats e.rank q.best = true ↔ better := beats_iff ..
    rw [exec_shedSearchStep search, searchStep_at position]
    refine ⟨fun hc hb => ?_, fun neither => ?_⟩
    · rw [if_pos (Bool.and_eq_true_iff.mpr ⟨eligible.mpr hc, lower.mpr hb⟩)]
      rfl
    · rw [if_neg fun both => neither ((Bool.and_eq_true_iff.mp both).imp eligible.mp lower.mp)]
      rfl
  · intro s' k fails
    have ended {reason : Status} (refused : shedTarget q s = .error reason) : fails reason :=
      (exec_shedSearchEnd search walked).trans (congrArg Host.Outcome.next (endSearch_fails refused))
    refine ⟨fun free => ended (shedTarget_free free), fun best => ended (shedTarget_nobody best), ?_⟩
    intro candidate
    have eligible (i : OutletIx) : isCandidate q.tenant i s = true ↔ candidate i := isCandidate_iff ..
    refine ⟨fun i r best stale => ended (shedTarget_stale best fun h => stale ((eligible i).mp h)),
      fun i r used best hc full => ended (shedTarget_full used best ((eligible i).mpr hc) full),
      fun i r reason used best hc room refused =>
        ended (shedTarget_refused used best ((eligible i).mpr hc) room refused),
      fun i r used best hc room passes => ?_⟩
    rw [exec_shedSearchEnd search walked, endSearch_places (shedTarget_ok used best ((eligible i).mpr hc) room passes)]
    rfl

end Sys2Proof.Machine


/-! The SWITCH unit: ORDER, SHED_TENANT and RESTORE_TENANT (R123 to R125). -/

namespace Sys2Proof.Machine

/-- An admitted request runs on a state in which the ports alone are new (R173). -/
theorem serve_admitted_ports {u : RequestUnit} {r : Request} {s : State} (admitted : Admitted u r s) :
    ∃ ports, received .uplink s = s.withPorts ports ∧
      ∀ {α : Type} {parse : List Byte → Option α} (act : α → State → State) {a : α}, parse r.args = some a →
        serve u r parse act s = act a (s.withPorts ports) := by
  obtain ⟨ports, arrived, -⟩ := received_only .uplink s
  refine ⟨ports, arrived, ?_⟩
  intro α parse act a read
  rw [serve_admitted admitted read, arrived]

/-! ### ORDER after its argument check (R124) -/

section
variable {r : Request} {i : OutletIx} {relay : RelayAction} {indicator : IndicatorAction} {s : State}

theorem takeSwitchOrder_transparent (transparent : s.mgmt.opState = .transparent) :
    takeSwitchOrder r (i, relay, indicator) s = answer .switch r.tag true .wrongState .none s := if_pos transparent

theorem takeSwitchOrder_noAction (working : s.mgmt.opState ≠ .transparent)
    (nothing : relay = .noChange ∧ indicator = .noChange) : takeSwitchOrder r (i, relay, indicator) s =
      answer .switch r.tag (ackWanted r) .ok
        (.order none (s.map.entries.get i).relay (s.map.entries.get i).indicator) s :=
  (if_neg working).trans (if_pos nothing)

section
variable (working : s.mgmt.opState ≠ .transparent) (acts : ¬ (relay = .noChange ∧ indicator = .noChange))
include working acts

theorem takeSwitchOrder_refused {reason : Status} (refused : switchRefusal i relay s = some reason) :
    takeSwitchOrder r (i, relay, indicator) s = answer .switch r.tag true reason .none s := by
  refine (if_neg working).trans ((if_neg acts).trans ?_)
  dsimp only
  rw [refused]
  rfl

theorem takeSwitchOrder_placed (passes : switchRefusal i relay s = none) :
    takeSwitchOrder r (i, relay, indicator) s = placeSwitch r i relay indicator s := by
  refine (if_neg working).trans ((if_neg acts).trans ?_)
  dsimp only
  rw [passes]

end

theorem switchRefusal_inShed (shed : (s.map.entries.get i).relay = .offShed) (other : relay ≠ .on) :
    switchRefusal i relay s = some .inShed := if_pos ⟨shed, other⟩

theorem switchRefusal_placing (allowed : ¬ ((s.map.entries.get i).relay = .offShed ∧ relay ≠ .on)) :
    switchRefusal i relay s = placeRefusal i s := if_neg allowed

theorem placeSwitch_plain (plain : (s.map.entries.get i).relay ≠ .offShed) :
    placeSwitch r i relay indicator s = holdSwitch r (placeOrder i relay indicator (.management r.tag true) s) :=
  if_neg plain

theorem releaseShed_member {a : Slot} {f : Feed} (member : (s.map.entries.get i).effective.memberOf = some (a, f)) :
    releaseShed i s = (s.withMap
        { s.map with entries := s.map.entries.set i { s.map.entries.get i with relay := .off } }).withTenants
      (s.tenants.set a { s.tenants.get a with stack := removeEntry i (s.tenants.get a).stack }) := by
  unfold releaseShed
  rw [member]
  rfl

/-- An OFF_SHED outlet that is switched leaves its tenant's stack, and its relay status is OFF (R124). -/
theorem placeSwitch_shed (shed : (s.map.entries.get i).relay = .offShed) {a : Slot} {f : Feed}
    (member : (s.map.entries.get i).effective.memberOf = some (a, f)) : placeSwitch r i relay indicator s =
      ((holdSwitch r (placeOrder i relay indicator (.management r.tag true) s)).withMap
        { s.map with entries := s.map.entries.set i { s.map.entries.get i with relay := .off } }).withTenants
        (s.tenants.set a { s.tenants.get a with stack := removeEntry i (s.tenants.get a).stack }) :=
  (if_pos shed).trans (releaseShed_member member)

end

/-! ### SHED_TENANT and RESTORE_TENANT after their argument check (R125) -/

section
variable {kind : ShedKind} {r : Request} {a : Slot} {s : State}

theorem takeSwitchShed_transparent (transparent : s.mgmt.opState = .transparent) :
    takeSwitchShed kind r a s = answer .switch r.tag true .wrongState .none s := if_pos transparent

theorem takeSwitchShed_full (working : s.mgmt.opState ≠ .transparent) (full : 8 ≤ s.links.shedQueue.length) :
    takeSwitchShed kind r a s = answer .switch r.tag true .queueFull .none s :=
  (if_neg working).trans (if_neg fun room => Nat.not_lt.mpr full ((shedRoom_iff s).mp room))

theorem takeSwitchShed_joins (working : s.mgmt.opState ≠ .transparent) (room : s.links.shedQueue.length < 8) :
    takeSwitchShed kind r a s = holdSwitch r (s.withLinks { s.links with
      shedQueue := s.links.shedQueue ++ [⟨kind, a, .management r.tag true⟩] }) :=
  (if_neg working).trans (if_pos ((shedRoom_iff s).mpr room))

end

/-- Settles O40: each request passes the checks (`serve_admitted_ports`) and is taken, by cases, on a state with new ports,
in which `placeRefusal` reads what it reads in `s`. -/
theorem switchUnitPlacesItsRequests : Obligations.SwitchUnitPlacesItsRequests := by
  intro s r admitted
  obtain ⟨ports, arrived, served⟩ := serve_admitted_ports admitted
  rw [arrived]
  intro s' busy
  refine ⟨fun i relay indicator args => ?_, fun a args => ?_⟩
  · intro x
    have taken {t : State} (h : takeSwitchOrder r (i, relay, indicator) s' = t) : exec (.switchOrder r) s = .next t :=
      congrArg Host.Outcome.next ((served _ args).trans h)
    refine ⟨fun transparent => taken (takeSwitchOrder_transparent transparent),
      fun working still dark => taken (takeSwitchOrder_noAction working ⟨still, dark⟩),
      fun working acts => ⟨fun shed other => ?_, fun allowed reason refused => ?_, fun plain passes => ?_,
        fun shed on passes a f member => ?_⟩⟩
    · exact taken (takeSwitchOrder_refused (s := s') working acts (switchRefusal_inShed shed other))
    · have stopped : switchRefusal i relay s' = some reason := (switchRefusal_placing allowed).trans refused
      exact taken (takeSwitchOrder_refused (s := s') working acts stopped)
    · have allowed : switchRefusal i relay s' = none := (switchRefusal_placing fun h => plain h.1).trans passes
      exact taken ((takeSwitchOrder_placed (s := s') working acts allowed).trans (placeSwitch_plain plain))
    · have allowed : switchRefusal i relay s' = none := (switchRefusal_placing fun h => h.2 on).trans passes
      have placed := takeSwitchOrder_placed (r := r) (s := s') working acts allowed
      rw [taken (placed.trans (placeSwitch_shed (s := s') shed member)), on]
      rfl
  · have shed {t : State} (h : takeSwitchShed .shed r a s' = t) : exec (.shedTenant r) s = .next t :=
      congrArg Host.Outcome.next ((served _ args).trans h)
    have restore {t : State} (h : takeSwitchShed .restore r a s' = t) : exec (.restoreTenant r) s = .next t :=
      congrArg Host.Outcome.next ((served _ args).trans h)
    refine ⟨fun transparent => ?_, fun working full => ?_, fun working room => ?_⟩
    · exact ⟨shed (takeSwitchShed_transparent transparent), restore (takeSwitchShed_transparent transparent)⟩
    · exact ⟨shed (takeSwitchShed_full working full), restore (takeSwitchShed_full working full)⟩
    · exact ⟨shed (takeSwitchShed_joins working room), restore (takeSwitchShed_joins working room)⟩

end Sys2Proof.Machine


/-! The ROSTER unit: SET_NODE, SET_LIMIT, READ_NODE and READ_STATES (R135, R136, R140 to R143). -/

namespace Sys2Proof.Machine

/-! ### A node that leaves, step by step (R113, R134, R135) -/

section
variable {n : NodeIx} {after : NodeState} {event : Nat} {s x : State} (cleared : NodeCleared n after s x)
include cleared

theorem NodeCleared.links : x.links = s.links := by
  rw [cleared.rest]
  rfl

theorem NodeCleared.orders : x.orders = s.orders := by
  rw [cleared.rest]
  rfl

end

/-- What the leaving of a node leaves behind: the record is written, its outlets are not fresh, the other nodes' outlets
and orders are as they were, and the event waits when the store has room. -/
theorem leaveNode_leaves (n : NodeIx) (after : NodeState) (event : Nat) (s : State) :
    let gone : Node := { s.roster.nodes.get n with state := after, lastSeq := none, noteOwed := false }
    ∃ x, NodeCleared n after s x ∧
      leaveNode n after event s = post .roster (nodeEvent n event) (loseOrders (ordersOf n s) x) ∧
      (leaveNode n after event s).roster = { s.roster with nodes := s.roster.nodes.set n gone } ∧
      (∀ i, nodeOfOutlet i = n → ((leaveNode n after event s).map.entries.get i).fresh = false) ∧
      (∀ i, nodeOfOutlet i ≠ n → (leaveNode n after event s).map.entries.get i = s.map.entries.get i) ∧
      ((s.orders.orders.map (·.number)).Nodup → (leaveNode n after event s).orders.orders =
        s.orders.orders.filter (fun o => nodeOfOutlet o.outlet != n)) ∧
      (storeRoom s = true → (leaveNode n after event s).links.arrivals =
        s.links.arrivals ++ [⟨.roster, ⟨nodeEvent n event, 0⟩⟩]) := by
  obtain ⟨x, cleared, left⟩ := leaveNode_spec n after event s
  change leaveNode n after event s = post .roster (nodeEvent n event) (loseOrders (ordersOf n s) x) at left
  have entry (i : OutletIx) : (leaveNode n after event s).map.entries.get i = if ∃ o ∈ ordersOf n s, o.outlet = i
      then { x.map.entries.get i with relay := .unknown, indicator := .unknown } else x.map.entries.get i := by
    rw [left, post_map]
    exact loseOrders_entry (ordersOf n s) x i
  refine ⟨x, cleared, left, ?_, fun i own => ?_, fun i other => ?_, fun distinct => ?_, fun room => ?_⟩
  · rw [left, post_roster, (loseOrders_touches (ordersOf n s) x).2 .roster rfl, cleared.record]
  · have stale : (x.map.entries.get i).fresh = false := by rw [cleared.outlets, if_pos own]
    rw [entry]
    split
    · exact stale
    · exact stale
  · have nobody : ¬ ∃ o ∈ ordersOf n s, o.outlet = i := by
      rintro ⟨o, ho, rfl⟩
      exact other (mem_ordersOf.mp ho).2
    rw [entry, if_neg nobody, cleared.outlets, if_neg other]
  · rw [left, post_orders, loseOrders_orders (ordersOf n s) x, cleared.orders]
    exact loseOrders_of_node n distinct
  · obtain ⟨chain, arrivals⟩ := loseOrders_store (ordersOf n s) x
    have room' : storeRoom (loseOrders (ordersOf n s) x) = true := by
      rw [storeRoom_iff, chain, arrivals, cleared.links]
      exact (storeRoom_iff s).mp room
    rw [left, post_room room', State.withLinks_links]
    dsimp only
    rw [arrivals, cleared.links]

/-! ### The requests after their argument check -/

section
variable {n : NodeIx} {s : State}

theorem disableNode_disabled (disabled : (s.roster.nodes.get n).state = .disabled) : disableNode n s = s :=
  if_pos disabled

theorem disableNode_enabled (enabled : (s.roster.nodes.get n).state ≠ .disabled) :
    disableNode n s = leaveNode n .disabled 2 s := if_neg enabled

theorem enableNode_disabled (disabled : (s.roster.nodes.get n).state = .disabled) : enableNode n s =
    s.withRoster { s.roster with nodes := s.roster.nodes.set n { s.roster.nodes.get n with state := .absent } } :=
  if_pos disabled

theorem enableNode_enabled (enabled : (s.roster.nodes.get n).state ≠ .disabled) : enableNode n s = s := if_neg enabled

variable {c : Capacity}

theorem writeLimit_down (down : (s.roster.nodes.get n).state ≠ .up) : writeLimit n c s =
    s.withRoster { s.roster with nodes := s.roster.nodes.set n { s.roster.nodes.get n with limit := c } } := if_neg down

theorem writeLimit_up (up : (s.roster.nodes.get n).state = .up) : writeLimit n c s =
    sendLimitNote n (modifyNode n (fun k => { k with limit := c }) s) := if_pos up

theorem modifyNode_twice (n : NodeIx) (f g : Node → Node) (s : State) : modifyNode n f (modifyNode n g s) =
    s.withRoster { s.roster with nodes := s.roster.nodes.set n (f (g (s.roster.nodes.get n))) } := by
  unfold modifyNode Table.modify
  simp only [State.withRoster_roster, State.withRoster_twice, Table.get_set_same, Table.set_set]

/-- The LIMIT note of an UP node, with room in the node transmit queue or without (R137). -/
theorem writeLimit_sent (up : (s.roster.nodes.get n).state = .up) (room : s.down.queue.length < 16) :
    writeLimit n c s = (s.withRoster { s.roster with
      nodes := s.roster.nodes.set n { s.roster.nodes.get n with limit := c, noteOwed := false } }).withDown
      (s.down.join (.limit n c)) := by
  have limit : ((modifyNode n (fun k => { k with limit := c }) s).roster.nodes.get n).limit = c :=
    congrArg Node.limit (Table.get_modify_same ..)
  have sent : sendLimitNote n (modifyNode n (fun k => { k with limit := c }) s) = _ :=
    if_pos ((hasRoom_iff s.down).mpr room)
  rw [writeLimit_up up, sent, limit, modifyNode_twice]
  rfl

theorem writeLimit_owed (up : (s.roster.nodes.get n).state = .up) (full : 16 ≤ s.down.queue.length) :
    writeLimit n c s = s.withRoster { s.roster with
      nodes := s.roster.nodes.set n { s.roster.nodes.get n with limit := c, noteOwed := true } } := by
  have owed : sendLimitNote n (modifyNode n (fun k => { k with limit := c }) s) = _ :=
    if_neg fun room => Nat.not_lt.mpr full ((hasRoom_iff s.down).mp room)
  rw [writeLimit_up up, owed, modifyNode_twice]

end

/-- Settles O46: each request runs on a state with new ports (`serve_admitted_ports`), and `leaveNode_leaves` says what a
disabled node leaves behind. -/
theorem rosterUnitSetsAndReadsNodes : Obligations.RosterUnitSetsAndReadsNodes := by
  intro s r admitted
  obtain ⟨ports, arrived, served⟩ := serve_admitted_ports admitted
  rw [arrived]
  intro s' ok
  refine ⟨fun n args => ?_, fun n args => ?_, fun n c args => ?_, fun n clear args => ?_, fun args => ?_⟩
  · have run : exec (.setNodeDisable r) s = ok (disableNode n s') :=
      congrArg Host.Outcome.next (served _ args)
    rw [run]
    refine ⟨fun disabled => congrArg ok (disableNode_disabled disabled), fun enabled => ?_⟩
    obtain ⟨x, cleared, left, record, own, others, orders, arrivals⟩ := leaveNode_leaves n .disabled 2 s'
    have touched := (leaveNode_touches n .disabled 2 s').2
    refine ⟨x, leaveNode n .disabled 2 s', congrArg ok (disableNode_enabled enabled), cleared, ?_, record, own, others,
      orders, arrivals, touched .time rfl, touched .review rfl, touched .profiles rfl, touched .down rfl⟩
    rw [filter_node_index]
    exact left
  · have run : exec (.setNodeEnable r) s = ok (enableNode n s') :=
      congrArg Host.Outcome.next (served _ args)
    rw [run]
    exact ⟨fun disabled => congrArg ok (enableNode_disabled disabled),
      fun enabled => congrArg ok (enableNode_enabled enabled)⟩
  · have run : exec (.setLimit r) s = ok (writeLimit n c s') := congrArg Host.Outcome.next (served _ args)
    intro k
    rw [run]
    exact ⟨fun down => congrArg ok (writeLimit_down down), fun up room => congrArg ok (writeLimit_sent up room),
      fun up full => congrArg ok (writeLimit_owed up full)⟩
  · exact congrArg Host.Outcome.next (served _ args)
  · exact congrArg Host.Outcome.next (served (a := ()) _ (if_pos args))

end Sys2Proof.Machine


/-! What the roster's operations leave behind: a LIMIT note, a node brought UP, the sequence check, the intake (R130, R132,
R137, R139). -/

namespace Sys2Proof.Machine

/-! ### The LIMIT note (R137) -/

section
variable (n : NodeIx) (s : State)

theorem sendLimitNote_roster : (sendLimitNote n s).roster = { s.roster with
    nodes := s.roster.nodes.set n { s.roster.nodes.get n with noteOwed := !s.down.hasRoom } } := by
  unfold sendLimitNote
  cases s.down.hasRoom <;> rfl

theorem sendLimitNote_down : (sendLimitNote n s).down =
    if s.down.hasRoom then s.down.join (.limit n (s.roster.nodes.get n).limit) else s.down := by
  unfold sendLimitNote
  split <;> rfl

theorem owesNote_iff :
    owesNote s n = true ↔ (s.roster.nodes.get n).state = .up ∧ (s.roster.nodes.get n).noteOwed = true := by
  unfold owesNote
  rw [Bool.and_eq_true, decide_eq_true_iff]

/-! ### A node brought UP (R130) -/

/-- The record of a node brought UP, with its note sent or owed. -/
def raisedNode : Node :=
  { s.roster.nodes.get n with state := .up, lastSeq := none, noteOwed := !s.down.hasRoom }

/-- The state in which a node brought UP gets its note: UP, with its event posted. -/
def announced : State :=
  post .roster (nodeEvent n 0) (modifyNode n (fun k => { k with state := .up, lastSeq := none }) s)

theorem announced_touches : Touches [.roster, .links, .up, .mgmt] s (announced n s) :=
  (modifyNode_touches ..).widen.trans (postAt_touches ..).widen

theorem announced_node : (announced n s).roster.nodes.get n =
    { s.roster.nodes.get n with state := .up, lastSeq := none } :=
  (congrArg (fun r : Roster => r.nodes.get n) (post_roster ..)).trans (Table.get_modify_same ..)

theorem bringUp_touches : Touches [.roster, .links, .down, .up, .mgmt] s (bringUp n s) :=
  (announced_touches n s).widen.trans (sendLimitNote_touches n (announced n s)).widen

theorem bringUp_roster : (bringUp n s).roster =
    { s.roster with nodes := s.roster.nodes.set n (raisedNode n s) } := by
  have roster : (announced n s).roster = { s.roster with
      nodes := s.roster.nodes.set n { s.roster.nodes.get n with state := .up, lastSeq := none } } := post_roster ..
  refine (sendLimitNote_roster n (announced n s)).trans ?_
  rw [(announced_touches n s).2 .down rfl, announced_node, roster, Table.set_set]
  rfl

/-- What is written into the record of a node just brought UP. -/
theorem modifyNode_bringUp_roster (f : Node → Node) : (modifyNode n f (bringUp n s)).roster =
    { s.roster with nodes := s.roster.nodes.set n (f (raisedNode n s)) } := by
  have written : (modifyNode n f (bringUp n s)).roster = { (bringUp n s).roster with
      nodes := (bringUp n s).roster.nodes.set n (f ((bringUp n s).roster.nodes.get n)) } := rfl
  rw [written, bringUp_roster, Table.get_set_same, Table.set_set]

theorem bringUp_down : (bringUp n s).down =
    if s.down.hasRoom then s.down.join (.limit n (s.roster.nodes.get n).limit) else s.down := by
  refine (sendLimitNote_down n (announced n s)).trans ?_
  rw [(announced_touches n s).2 .down rfl, announced_node]

theorem bringUp_links : (bringUp n s).links = (announced n s).links :=
  (sendLimitNote_touches n (announced n s)).2 .links rfl

theorem bringUp_transit : (bringUp n s).up.transit = s.up.transit :=
  (congrArg Uplink.transit ((sendLimitNote_touches n (announced n s)).2 .up rfl)).trans (postAt_transit ..)

/-- The UP event of a node brought UP joins the store when there is room (R130). -/
theorem bringUp_arrivals (room : storeRoom s = true) : (bringUp n s).links.arrivals =
    s.links.arrivals ++ [⟨.roster, ⟨nodeEvent n 0, 0⟩⟩] := by
  rw [bringUp_links]
  exact congrArg (fun x : State => x.links.arrivals) (post_room (s := modifyNode n _ s) room)

end

theorem raiseNode_up {n : NodeIx} {s : State} (up : (s.roster.nodes.get n).state = .up) : raiseNode n s = s := if_pos up

theorem raiseNode_down {n : NodeIx} {s : State} (down : (s.roster.nodes.get n).state ≠ .up) :
    raiseNode n s = bringUp n s := if_neg down

/-- A JOIN or READINGS finds its node UP, or has brought it UP (R129, R130). -/
theorem raiseNode_state (n : NodeIx) (s : State) : ((raiseNode n s).roster.nodes.get n).state = .up := by
  by_cases up : (s.roster.nodes.get n).state = .up
  · rw [raiseNode_up up]; exact up
  · rw [raiseNode_down up, bringUp_roster, Table.get_set_same]; rfl

/-! ### The sequence check (R132, Table 7.3) -/

/-- The check writes the last sequence and the counts. -/
theorem judged_only (k : Node) (q : Byte) :
    ∃ last a d g o, k.judged q = { k with lastSeq := last, accepted := a, duplicates := d, gaps := g, outOfOrder := o } := by
  unfold Node.judged
  split <;> exact ⟨_, _, _, _, _, rfl⟩

/-! ### The intake (R26, R139) -/

/-- What the intake may write into the roster: the bad entries of the frame's node. -/
def OnlyBadEntries (n : NodeIx) (s t : State) : Prop :=
  ∃ b, t.roster = { s.roster with nodes := s.roster.nodes.set n { s.roster.nodes.get n with badEntries := b } }

namespace OnlyBadEntries

variable {n : NodeIx} {s t u : State}

theorem of_same (same : t.roster = s.roster) : OnlyBadEntries n s t :=
  ⟨(s.roster.nodes.get n).badEntries, by rw [same, Table.set_get_self]⟩

theorem trans (h : OnlyBadEntries n s t) (k : OnlyBadEntries n t u) : OnlyBadEntries n s u := by
  obtain ⟨a, first⟩ := h
  obtain ⟨b, second⟩ := k
  exact ⟨b, by rw [second, first, Table.get_set_same, Table.set_set]⟩

end OnlyBadEntries

theorem countBadEntry_only (n : NodeIx) (s : State) : OnlyBadEntries n s (countBadEntry n s) := ⟨_, rfl⟩

theorem intakeEntry_spec (n : NodeIx) (fitted : Nat) (e : Byte × Nat) (s : State) :
    OnlyBadEntries n s (intakeEntry n fitted s e) ∧
      Touches [.map, .tenants, .roster, .up, .mgmt] s (intakeEntry n fitted s e) := by
  have bad : OnlyBadEntries n s (countBadEntry n s) ∧
      Touches [.map, .tenants, .roster, .up, .mgmt] s (countBadEntry n s) :=
    ⟨countBadEntry_only n s, (modifyNode_touches ..).widen⟩
  unfold intakeEntry
  split
  · exact bad
  · next o _ =>
    obtain ⟨-, -, touched, -⟩ := convertEntry_blocks (mapIndex n o) e.2 s
    split
    · exact bad
    · exact ⟨.of_same (touched.2 .roster rfl), touched.widen⟩

/-- The intake writes readings with their tenants' sums, bad entries and notices (R24, R26, R34). -/
theorem intake_spec (n : NodeIx) (p : List Byte) (s : State) :
    OnlyBadEntries n s (intake n p s) ∧ Touches [.map, .tenants, .roster, .up, .mgmt] s (intake n p s) := by
  have entries (fitted : Nat) (l : List (Byte × Nat)) (x : State) :
      OnlyBadEntries n x (l.foldl (intakeEntry n fitted) x) := by
    induction l generalizing x with
    | nil => exact .of_same rfl
    | cons e l ih => exact (intakeEntry_spec n fitted e x).1.trans (ih _)
  unfold intake
  split
  · exact ⟨.of_same rfl, .refl ..⟩
  · split
    · exact ⟨entries .., Touches.foldl (fun x e => (intakeEntry_spec n _ e x).2) ..⟩
    · exact ⟨countBadEntry_only n s, (modifyNode_touches ..).widen⟩

end Sys2Proof.Machine


/-! What keeps node records fit to their states and orders at UP nodes only (R128, R129). -/

namespace Sys2Proof.Machine

/-! ### Combinators -/

/-- The step from `s` to `t` keeps the roster sound. -/
structure RosterKept (s t : State) : Prop where
  sound : RosterSound s → RosterSound t

namespace RosterKept

theorem refl (s : State) : RosterKept s s := ⟨id⟩

theorem trans {s t u : State} (h : RosterKept s t) (k : RosterKept t u) : RosterKept s u :=
  ⟨fun sound => k.sound (h.sound sound)⟩

/-- `trans`, the later step first. -/
theorem after {s t u : State} (k : RosterKept t u) (h : RosterKept s t) : RosterKept s u := h.trans k

theorem foldl {α : Type} {f : State → α → State} (h : ∀ s a, RosterKept s (f s a)) :
    ∀ (l : List α) (s : State), RosterKept s (l.foldl f s)
  | [], s => .refl s
  | a :: l, s => (h s a).trans (foldl h l (f s a))

/-- A case split whose two sides both keep. -/
theorem ite {s t u : State} {p : Prop} [Decidable p] (h : p → RosterKept s t) (k : ¬ p → RosterKept s u) :
    RosterKept s (if p then t else u) := by
  split
  · next hp => exact h hp
  · next hp => exact k hp

/-- No order for an outlet without one before. -/
theorem of_orders {s t : State} (nodes : t.roster.nodes = s.roster.nodes)
    (orders : ∀ o ∈ t.orders.orders, ∃ p ∈ s.orders.orders, p.outlet = o.outlet) : RosterKept s t :=
  ⟨fun h => ⟨nodes ▸ h.nodes, fun o ho => by
    obtain ⟨p, hp, same⟩ := orders o ho
    rw [nodes, ← same]
    exact h.orders p hp⟩⟩

/-- The node records and the orders as they were. -/
theorem of_same {s t : State} (nodes : t.roster.nodes = s.roster.nodes) (orders : t.orders.orders = s.orders.orders) :
    RosterKept s t := .of_orders nodes fun o ho => ⟨o, orders ▸ ho, rfl⟩

theorem withPending (s : State) (x : List Instr) : RosterKept s (s.withPending x) := .of_same rfl rfl
theorem withTime (s : State) (x : TimeBase) : RosterKept s (s.withTime x) := .of_same rfl rfl
theorem withPorts (s : State) (x : Ports) : RosterKept s (s.withPorts x) := .of_same rfl rfl
theorem withProfiles (s : State) (x : Table Profile 16) : RosterKept s (s.withProfiles x) := .of_same rfl rfl
theorem withTenants (s : State) (x : Table Tenant 128) : RosterKept s (s.withTenants x) := .of_same rfl rfl
theorem withReview (s : State) (x : Review) : RosterKept s (s.withReview x) := .of_same rfl rfl
theorem withMgmt (s : State) (x : Management) : RosterKept s (s.withMgmt x) := .of_same rfl rfl

/-- What touches neither the roster nor the order table. -/
theorem of_touches {bs : List Block} {s t : State} (h : Touches bs s t)
    (roster : bs.contains .roster = false := by rfl) (orders : bs.contains .orders = false := by rfl) :
    RosterKept s t :=
  of_same (congrArg Roster.nodes (h.2 .roster roster)) (congrArg OrderTable.orders (h.2 .orders orders))

/-- One record replaced by a sound one; a node that was UP stays UP. -/
theorem of_node {s t : State} {n : NodeIx} {k : Node} (nodes : t.roster.nodes = s.roster.nodes.set n k)
    (orders : t.orders.orders = s.orders.orders) (sound : NodeSound (s.roster.nodes.get n) → NodeSound k)
    (up : (s.roster.nodes.get n).state = .up → k.state = .up) : RosterKept s t := by
  refine ⟨fun h => ⟨fun m => ?_, fun o ho => ?_⟩⟩
  · rw [nodes, Table.get_set]
    split
    · exact sound (h.nodes n)
    · exact h.nodes m
  · have was := h.orders o (orders ▸ ho)
    rw [nodes, Table.get_set]
    split
    · next same => exact up (same ▸ was)
    · exact was

end RosterKept

/-- An UP node may have a last sequence and a note owed. -/
theorem NodeSound.of_up {k : Node} (up : k.state = .up) (fitted : 1 ≤ k.fitted ∧ k.fitted ≤ 48) : NodeSound k :=
  ⟨fun _ => up, fun _ => up, fitted⟩

/-! ### One node -/

/-- Counts, last heard and limit: fields on which nothing of the invariant depends. -/
theorem modifyNode_rosterKept {n : NodeIx} {f : Node → Node} {s : State}
    (fields : let k := s.roster.nodes.get n
      (f k).state = k.state ∧ (f k).lastSeq = k.lastSeq ∧ (f k).noteOwed = k.noteOwed ∧ (f k).fitted = k.fitted) :
    RosterKept s (modifyNode n f s) := by
  obtain ⟨state, last, owed, fitted⟩ := fields
  exact .of_node rfl rfl (fun h => ⟨last ▸ state ▸ h.lastSeq, owed ▸ state ▸ h.noteOwed, fitted ▸ h.fitted⟩)
    fun up => state.trans up

theorem countBadEntry_rosterKept (n : NodeIx) (s : State) : RosterKept s (countBadEntry n s) :=
  modifyNode_rosterKept ⟨rfl, rfl, rfl, rfl⟩

theorem sendLimitNote_rosterKept {n : NodeIx} {s : State} (up : (s.roster.nodes.get n).state = .up) :
    RosterKept s (sendLimitNote n s) :=
  .of_node (congrArg Roster.nodes (sendLimitNote_roster n s))
    (congrArg OrderTable.orders ((sendLimitNote_touches n s).2 .orders rfl)) (fun h => .of_up up h.fitted) fun _ => up

theorem raiseNode_rosterKept (n : NodeIx) (s : State) : RosterKept s (raiseNode n s) :=
  .ite (fun _ => .refl s) fun _ => .of_node (congrArg Roster.nodes (bringUp_roster n s))
    (congrArg OrderTable.orders ((bringUp_touches n s).2 .orders rfl)) (fun h => .of_up rfl h.fitted) fun _ => rfl

theorem sequenceCheck_rosterKept {n : NodeIx} {s : State} (up : (s.roster.nodes.get n).state = .up) (q : Byte) :
    RosterKept s (sequenceCheck n q s) := by
  obtain ⟨touched, -, roster⟩ := sequenceCheck_touches n q s
  obtain ⟨last, a, d, g, o, judged⟩ := judged_only (s.roster.nodes.get n) q
  refine .of_node (congrArg Roster.nodes roster) (congrArg OrderTable.orders (touched.2 .orders rfl)) (fun h => ?_)
    fun _ => ?_
  · rw [judged]; exact .of_up up h.fitted
  · rw [judged]; exact up

theorem intake_rosterKept (n : NodeIx) (p : List Byte) (s : State) : RosterKept s (intake n p s) := by
  obtain ⟨⟨b, roster⟩, touched⟩ := intake_spec n p s
  exact .of_node (congrArg Roster.nodes roster) (congrArg OrderTable.orders (touched.2 .orders rfl))
    (fun h => ⟨h.lastSeq, h.noteOwed, h.fitted⟩) id

/-- A DISABLED node has no orders, so that it may become ABSENT (R129, R136). -/
theorem enableNode_rosterKept (n : NodeIx) (s : State) : RosterKept s (enableNode n s) := by
  refine .ite (fun disabled => ?_) fun _ => .refl s
  have apart : (s.roster.nodes.get n).state ≠ .up := fun up => NodeState.noConfusion (disabled.symm.trans up)
  exact .of_node rfl rfl
    (fun h => ⟨fun last => absurd (h.lastSeq last) apart, fun owed => absurd (h.noteOwed owed) apart, h.fitted⟩)
    fun up => absurd up apart

/-- The orders of a node that leaves end with it; the others are for other nodes (R113, R134, R135). -/
theorem leaveNode_rosterKept (n : NodeIx) (after : NodeState) (event : Nat) (s : State) :
    RosterKept s (leaveNode n after event s) := by
  obtain ⟨x, cleared, left, roster, -⟩ := leaveNode_leaves n after event s
  refine ⟨fun h => ⟨fun m => ?_, fun o ho => ?_⟩⟩
  · rw [roster, Table.get_set]
    split
    · exact ⟨fun last => absurd rfl last, Bool.noConfusion, (h.nodes n).fitted⟩
    · exact h.nodes m
  · rw [left, post_orders, loseOrders_orders, cleared.orders, List.mem_filter, decide_eq_true_iff] at ho
    obtain ⟨mem, spared⟩ := ho
    have other : nodeOfOutlet o.outlet ≠ n := fun own => spared o (mem_ordersOf.mpr ⟨mem, own⟩) rfl
    rw [roster, Table.get_set_other _ _ other]
    exact h.orders o mem

theorem expireNode_rosterKept (n : NodeIx) (s : State) : RosterKept s (expireNode n s) :=
  .ite (fun _ => leaveNode_rosterKept ..) fun _ => .refl s

/-! ### Orders and shed requests -/

theorem answer_rosterKept (u : RequestUnit) (tag : Byte) (w : Bool) (st : Status) (d : ReplyData) (s : State) :
    RosterKept s (answer u tag w st d s) := .of_touches (answer_touches u tag w st d s)

/-- An operation that keeps the roster sound, with its answer. -/
theorem RosterKept.answered {s t : State} {u : RequestUnit} {tag : Byte} {w : Bool} {st : Status} {d : ReplyData}
    (h : RosterKept s t) : RosterKept s (answer u tag w st d t) := h.trans (answer_rosterKept ..)

theorem endOrder_rosterKept (o : Order) (e : Ending) (s : State) : RosterKept s (endOrder o e s) :=
  .of_orders (congrArg Roster.nodes ((endOrder_touches o e s).2 .roster rfl)) fun p hp => by
    rw [endOrder_orders] at hp
    exact ⟨p, (List.mem_filter.mp hp).1, rfl⟩

theorem failShedRequest_rosterKept (kind : ShedKind) (t : Slot) (origin : RequestOrigin) (reason : Status) (s : State) :
    RosterKept s (failShedRequest kind t origin reason s) := .of_touches (endShedRequest_touches ..)

/-- The checks of R108 let an order pass for an outlet of an UP node only. -/
theorem up_of_placeRefusal {i : OutletIx} {s : State} (passes : placeRefusal i s = none) :
    (s.roster.nodes.get (nodeOfOutlet i)).state = .up := by
  refine Decidable.byContradiction fun down => ?_
  by_cases working : s.mgmt.opState = .transparent
  · exact Option.some_ne_none _ ((placeRefusal_transparent working).symm.trans passes)
  · exact Option.some_ne_none _ ((placeRefusal_nodeNotUp working down).symm.trans passes)

theorem placeOrder_rosterKept {i : OutletIx} {s : State} (passes : placeRefusal i s = none) (r : RelayAction)
    (d : IndicatorAction) (o : OrderOrigin) : RosterKept s (placeOrder i r d o s) :=
  have up := up_of_placeRefusal passes
  ⟨fun h => { h with orders := List.forall_mem_append.mpr ⟨h.orders, List.forall_mem_singleton.mpr up⟩ }⟩

theorem takeShed_rosterKept (t : Slot) (o : RequestOrigin) (s : State) : RosterKept s (takeShed t o s) := by
  unfold takeShed
  split
  · exact failShedRequest_rosterKept ..
  · exact .of_same rfl rfl

/-- A RESTORE target has passed the checks of R108 (R120). -/
theorem placeRefusal_of_restoreTarget {t : Slot} {i : OutletIx} {s : State} (target : restoreTarget t s = .ok i) :
    placeRefusal i s = none := by
  unfold restoreTarget at target
  dsimp only at target
  split at target
  · cases target
  · split at target
    · cases target
    · split at target
      · cases target
      · split at target
        · cases target
        · next passes => cases target; exact passes

theorem takeRestore_rosterKept (t : Slot) (o : RequestOrigin) (s : State) : RosterKept s (takeRestore t o s) := by
  unfold takeRestore
  split
  · exact failShedRequest_rosterKept ..
  · next target =>
    exact (placeOrder_rosterKept (placeRefusal_of_restoreTarget target) ..).trans (.of_same rfl rfl)

theorem takeShedRequest_rosterKept (s : State) : RosterKept s (takeShedRequest s) := by
  unfold takeShedRequest
  split
  · dsimp only
    split
    · exact (takeShed_rosterKept ..).after (.of_same rfl rfl)
    · exact (takeRestore_rosterKept ..).after (.of_same rfl rfl)
  · exact .refl s
  · exact .refl s

/-- A SHED target has passed the checks of R108 (R118). -/
theorem placeRefusal_of_shedTarget {q : Search} {i : OutletIx} {s : State} (target : shedTarget q s = .ok i) :
    placeRefusal i s = none := by
  unfold shedTarget at target
  dsimp only at target
  split at target
  · cases target
  · split at target
    · cases target
    · split at target
      · cases target
      · split at target
        · cases target
        · split at target
          · cases target
          · next passes => cases target; exact passes

theorem endSearch_rosterKept (q : Search) (s : State) : RosterKept s (endSearch q s) := by
  have idle : RosterKept s (setSearch none s) := .of_same rfl rfl
  unfold endSearch
  split
  · exact idle.trans (failShedRequest_rosterKept ..)
  · next i target =>
    have passes : placeRefusal i (setSearch none s) = none := placeRefusal_of_shedTarget target
    exact idle.trans ((placeOrder_rosterKept passes ..).trans (.of_same rfl rfl))

/-- An ORDER with actions that is not refused has passed the checks of R108 (R124). -/
theorem placeRefusal_of_switchRefusal {i : OutletIx} {r : RelayAction} {s : State}
    (passes : switchRefusal i r s = none) : placeRefusal i s = none := by
  unfold switchRefusal at passes
  split at passes
  · cases passes
  · exact passes

theorem releaseShed_rosterKept (i : OutletIx) (s : State) : RosterKept s (releaseShed i s) := by
  unfold releaseShed
  dsimp only
  split <;> exact .of_same rfl rfl

theorem takeSwitchOrder_rosterKept (r : Request) (a : OutletIx × RelayAction × IndicatorAction) (s : State) :
    RosterKept s (takeSwitchOrder r a s) := by
  refine .ite (fun _ => answer_rosterKept ..) fun _ => .ite (fun _ => answer_rosterKept ..) fun _ => ?_
  split
  · exact answer_rosterKept ..
  · next passes =>
    have placed : RosterKept s (holdSwitch r (placeOrder a.1 a.2.1 a.2.2 (.management r.tag true) s)) :=
      (placeOrder_rosterKept (placeRefusal_of_switchRefusal passes) ..).trans (.of_same rfl rfl)
    exact .ite (fun _ => placed.trans (releaseShed_rosterKept ..)) fun _ => placed

theorem takeSwitchShed_rosterKept (kind : ShedKind) (r : Request) (t : Slot) (s : State) :
    RosterKept s (takeSwitchShed kind r t s) :=
  .ite (fun _ => answer_rosterKept ..) fun _ => .ite (fun _ => .of_same rfl rfl) fun _ => answer_rosterKept ..

/-! ### Frames and requests -/

theorem arrive_rosterKept {p : Port} {len : Nat} {k : State → State} (h : ∀ x, RosterKept x (k x)) (s : State) :
    RosterKept s (arrive p len k s) := by
  have hunting : RosterKept s (setReceiver p .hunt s) := by cases p <;> exact .of_same rfl rfl
  exact hunting.trans (.ite (fun _ => .of_same rfl rfl) fun _ => (h _).after (.of_same rfl rfl))

theorem serve_rosterKept {α : Type} {u : RequestUnit} {r : Request} {parse : List Byte → Option α}
    {act : α → State → State} (h : ∀ a, parse r.args = some a → ∀ x, RosterKept x (act a x)) (s : State) :
    RosterKept s (serve u r parse act s) := by
  obtain ⟨x, ports, refused | ⟨a, read, acted⟩⟩ := serve_cases u r parse act s
  · exact (RosterKept.of_touches ports).trans (.of_touches refused)
  · rw [acted]; exact (RosterKept.of_touches ports).trans (h a read x)

theorem nodePortFrame_rosterKept {f : NodeFrame} {k : NodeIx → State → State} (h : ∀ n x, RosterKept x (k n x))
    (s : State) : RosterKept s (nodePortFrame f k s) := by
  refine arrive_rosterKept (fun x => ?_) s
  split
  · exact .of_same rfl rfl
  · exact .ite (fun _ => .of_same rfl rfl) fun _ => (h _ _).after (modifyNode_rosterKept ⟨rfl, rfl, rfl, rfl⟩)

theorem takeReadings_rosterKept (f : NodeFrame) (n : NodeIx) (s : State) : RosterKept s (takeReadings f n s) := by
  have checked := sequenceCheck_rosterKept (raiseNode_state n s) f.seq
  have forwarded : RosterKept s (forwardReadings n f (sequenceCheck n f.seq (raiseNode n s))) :=
    RosterKept.after (.of_touches (forwardReadings_touches ..).1) ((raiseNode_rosterKept n s).trans checked)
  exact .ite (fun _ => forwarded.trans (intake_rosterKept ..)) fun _ => forwarded

/-- The fitted count of a well-formed JOIN lies in 1..48 (R131). -/
theorem joinCount_bounds {p : List Byte} {c : Nat} (read : joinCount p = some c) : 1 ≤ c ∧ c ≤ 48 := by
  unfold joinCount at read
  split at read
  · obtain ⟨o, -, rfl⟩ := Option.map_eq_some_iff.mp read
    exact ⟨Nat.le_add_left .., o.isLt⟩
  · cases read

theorem takeJoin_rosterKept (f : NodeFrame) (n : NodeIx) (s : State) : RosterKept s (takeJoin f n s) := by
  unfold takeJoin
  dsimp only
  refine RosterKept.after (.of_touches (joinTransit_touches ..)) ((raiseNode_rosterKept n s).trans ?_)
  have up := raiseNode_state n s
  split
  · exact countBadEntry_rosterKept ..
  · next c read =>
    have joined : RosterKept (raiseNode n s) (modifyNode n (fun k => { k with fitted := c, lastSeq := none })
        (raiseNode n s)) := .of_node rfl rfl (fun _ => .of_up up (joinCount_bounds read)) fun _ => up
    refine .ite (fun _ => joined.trans (sendLimitNote_rosterKept ?_)) fun _ => joined
    exact (congrArg Node.state (Table.get_modify_same ..)).trans up

theorem takeOrderDone_rosterKept (f : NodeFrame) (n : NodeIx) (s : State) : RosterKept s (takeOrderDone f n s) := by
  unfold takeOrderDone
  split
  · split
    · exact countBadEntry_rosterKept ..
    · unfold matchOrder
      split
      · exact modifyNode_rosterKept ⟨rfl, rfl, rfl, rfl⟩
      · exact endOrder_rosterKept ..
  · exact countBadEntry_rosterKept ..

end Sys2Proof.Machine


/-! Every command keeps the roster sound (R128, R129). -/

namespace Sys2Proof.Machine

/-! ### The link interface and the expiries -/

theorem passDownFrame_rosterKept (k : DownKind) (f : NodeFrame) (s : State) : RosterKept s (passDownFrame k f s) := by
  have joined (x : Frame) (y : State) : RosterKept y (joinDown x y) :=
    .ite (fun _ => .of_same rfl rfl) fun _ => .of_same rfl rfl
  unfold passDownFrame
  split
  · exact arrive_rosterKept (joined _) s
  · exact arrive_rosterKept (fun _ => .withPorts ..) s
  all_goals exact .refl s

theorem receiveBytes_rosterKept (p : Port) (bytes : List Byte) (s : State) :
    RosterKept s (receiveBytes p bytes s) := by
  refine (RosterKept.foldl (f := fun x e => countRx p e x) (fun _ _ => .of_same rfl rfl) ..).after ?_
  cases p <;> exact .of_same rfl rfl

theorem abandonFrame_rosterKept (p : Port) (s : State) : RosterKept s (abandonFrame p s) := by
  unfold abandonFrame
  split
  · exact .refl s
  · cases p <;> exact .of_same rfl rfl

theorem takeUnserved_rosterKept (p : List Byte) (s : State) : RosterKept s (takeUnserved p s) := by
  unfold takeUnserved
  split
  · exact arrive_rosterKept RosterKept.refl s
  · exact arrive_rosterKept (fun x => .of_touches (sendReply_touches _ x)) s
  · exact .refl s

theorem sendOwedNote_rosterKept (s : State) : RosterKept s (sendOwedNote s) := by
  refine .ite (fun _ => ?_) fun _ => .refl s
  split
  · exact .refl s
  · next found =>
    obtain ⟨up, -⟩ := (owesNote_iff ..).mp (List.find?_some found)
    exact sendLimitNote_rosterKept up

theorem expireTick_rosterKept (g : Fin 6) (s : State) : RosterKept s (expireTick g s) :=
  (RosterKept.of_touches (postAt_touches .timeBase ⟨tickEvent g, 0⟩ s)).trans (.of_same rfl rfl)

theorem takeReviewTick_rosterKept (s : State) : RosterKept s (takeReviewTick s) := by
  have posted (id : Word16) (x : State) : RosterKept x (post .review id x) := .of_touches (postAt_touches ..)
  unfold takeReviewTick
  split
  · exact .ite (fun _ => RosterKept.after (.of_touches (queueNotice_touches ..)) ((posted ..).after (.of_same rfl rfl)))
      fun _ => (posted ..).after (.of_same rfl rfl)
  · exact .refl s
  · exact .refl s

theorem expireOrder_rosterKept (number : Byte) (s : State) : RosterKept s (expireOrder number s) := by
  unfold expireOrder
  split
  · exact .refl s
  · exact .ite (fun _ => endOrder_rosterKept ..) fun _ => .refl s

/-! ### Events -/

theorem takeNextEvent_rosterKept (prefer : Option EventSource) (s : State) :
    RosterKept s (takeNextEvent prefer s) := by
  have taken (e : Event) (x : LinkTable) : RosterKept s (takeEvent e (s.withLinks x)) :=
    RosterKept.after (.of_touches (takeEvent_touches ..)) (.of_same rfl rfl)
  unfold takeNextEvent
  split
  · next chain => rw [scanChain_cons chain]; exact taken ..
  · split
    · exact .refl s
    · exact taken ..

theorem takeReport_rosterKept (s : State) : RosterKept s (takeReport s) := by
  unfold takeReport
  split
  · exact RosterKept.after (.of_touches (postAt_touches ..)) (.of_same rfl rfl)
  · exact .refl s
  · exact .refl s

/-! ### The MAP, TENANT and RECORD units -/

theorem assignStep_rosterKept (tag : Byte) (ack : Bool) (m : Membership) (i : OutletIx) (left : Nat)
    (c : Nat × Nat × Nat) (s : State) : RosterKept s (assignStep tag ack m i left c s) := by
  have handled (j : Option MapJob) : RosterKept s (setMapJob j (assignAt i m s)) :=
    (RosterKept.of_touches (assignAt_touches i m s)).trans (.of_same rfl rfl)
  exact .ite (fun _ => (handled none).answered) fun _ => handled _

theorem takeAssign_rosterKept (r : Request) (a : OutletIx × Nat × Membership) (s : State) :
    RosterKept s (takeAssign r a s) := .ite (fun _ => assignStep_rosterKept ..) fun _ => .withMgmt ..

theorem alterStep_rosterKept (tag : Byte) (ack : Bool) (op : FlagOp) (mask : BitVec 6) (i : OutletIx)
    (left changed : Nat) (s : State) : RosterKept s (alterStep tag ack op mask i left changed s) :=
  .ite (fun _ => .answered (.of_same rfl rfl)) fun _ => .of_same rfl rfl

theorem takeCreate_rosterKept (r : Request) (a : Slot × Contract) (s : State) : RosterKept s (takeCreate r a s) :=
  .ite (fun _ => .answered (.withTenants ..)) fun _ => answer_rosterKept ..

theorem takeSetContract_rosterKept (r : Request) (a : Slot × Contract) (s : State) :
    RosterKept s (takeSetContract r a s) :=
  .ite (fun _ => answer_rosterKept ..) fun _ => .answered (.withTenants ..)

theorem takeActivate_rosterKept (r : Request) (t : Slot) (s : State) : RosterKept s (takeActivate r t s) :=
  .ite (fun _ => .answered (.withTenants ..)) fun _ => answer_rosterKept ..

theorem suspendTenant_rosterKept (t : Slot) (s : State) : RosterKept s (suspendTenant t s) :=
  .ite (fun _ => .of_same rfl rfl) fun _ => RosterKept.after (.of_touches (postAt_touches ..)) (.of_same rfl rfl)

theorem takeSuspend_rosterKept (r : Request) (t : Slot) (s : State) : RosterKept s (takeSuspend r t s) :=
  .ite (fun _ => .answered (suspendTenant_rosterKept t s)) fun _ => answer_rosterKept ..

theorem removeTenant_rosterKept (t : Slot) (s : State) : RosterKept s (removeTenant t s) :=
  .ite (fun _ => .of_same rfl rfl) fun _ => .of_same rfl rfl

theorem takeRemove_rosterKept (r : Request) (t : Slot) (s : State) : RosterKept s (takeRemove r t s) :=
  .ite (fun _ => answer_rosterKept ..) fun _ => .ite (fun _ => answer_rosterKept ..)
    fun _ => .answered (removeTenant_rosterKept t s)

theorem takeSetPreset_rosterKept (r : Request) (a : Slot × BitVec 64) (s : State) :
    RosterKept s (takeSetPreset r a s) :=
  .ite (fun _ => answer_rosterKept ..) fun _ => .answered (.withTenants ..)

theorem placeExport_rosterKept (tag : Byte) (ack : Bool) (t : Slot) (s : State) :
    RosterKept s (placeExport tag ack t s) := .answered (.of_same rfl rfl)

theorem takeExport_rosterKept (r : Request) (t : Slot) (s : State) : RosterKept s (takeExport r t s) :=
  .ite (fun _ => answer_rosterKept ..) fun _ => .ite (fun _ => placeExport_rosterKept ..) fun _ => .withMgmt ..

theorem resumeExport_rosterKept (j : ExportJob) (s : State) : RosterKept s (resumeExport j s) :=
  RosterKept.trans (.withMgmt ..) (.ite (fun _ => answer_rosterKept ..) fun _ => placeExport_rosterKept ..)

theorem takeImport_rosterKept (r : Request) (a : Slot × TransferRecord) (s : State) :
    RosterKept s (takeImport r a s) :=
  .ite (fun _ => .answered (.withTenants ..)) fun _ => answer_rosterKept ..

theorem takeClose_rosterKept (r : Request) (s : State) : RosterKept s (takeClose r s) :=
  .ite (fun _ => answer_rosterKept ..) fun _ => .answered (.withReview ..)

/-! ### The ROSTER and CONTROL units -/

theorem takeSetNode_rosterKept (r : Request) (a : NodeIx × Bool) (s : State) : RosterKept s (takeSetNode r a s) := by
  have disabled : RosterKept s (disableNode a.1 s) := .ite (fun _ => .refl s) fun _ => leaveNode_rosterKept ..
  exact .answered (.ite (fun _ => enableNode_rosterKept ..) fun _ => disabled)

theorem writeLimit_rosterKept (n : NodeIx) (c : Capacity) (s : State) : RosterKept s (writeLimit n c s) := by
  have stored : RosterKept s (modifyNode n (fun k => { k with limit := c }) s) :=
    modifyNode_rosterKept ⟨rfl, rfl, rfl, rfl⟩
  refine .ite (fun up => stored.trans (sendLimitNote_rosterKept ?_)) fun _ => stored
  exact (congrArg Node.state (Table.get_modify_same ..)).trans up

theorem takeReadNode_rosterKept (r : Request) (a : NodeIx × Bool) (s : State) : RosterKept s (takeReadNode r a s) := by
  unfold takeReadNode answerRead
  exact .answered (.ite (fun _ => modifyNode_rosterKept ⟨rfl, rfl, rfl, rfl⟩) fun _ => .refl s)

theorem takeReadStatus_rosterKept (r : Request) (clear : Bool) (s : State) :
    RosterKept s (takeReadStatus r clear s) := by
  unfold takeReadStatus answerRead
  exact .answered (.ite (fun _ => .of_same rfl rfl) fun _ => .refl s)

theorem changeState_rosterKept (x : OpState) (s : State) : RosterKept s (changeState x s) :=
  .ite (fun _ => .refl s) fun _ => .ite
    (fun _ => (RosterKept.of_touches (takeWaiting_touches s)).trans (.of_same rfl rfl)) fun _ => .ite
    (fun _ => RosterKept.after (.of_touches (endPass_touches _)) (.of_same rfl rfl)) fun _ => .of_same rfl rfl

theorem setTiming_rosterKept (a : Fin 7 × Nat × Nat) (s : State) : RosterKept s (expireSilent (writeTiming a s)) :=
  (RosterKept.foldl (fun x n => expireNode_rosterKept n x) ..).after (.of_same rfl rfl)

/-! ### Resets -/

theorem cold_sound : NodeSound Node.cold := ⟨fun last => absurd rfl last, Bool.noConfusion, by decide, by decide⟩

theorem coldReset_rosterSound (s : State) : RosterSound (coldReset s) where
  nodes n := by
    have cold : (coldReset s).roster.nodes.get n = Node.cold := Table.get_fill Node.cold n
    rw [cold]
    exact cold_sound
  orders := List.forall_mem_nil _

theorem restarted_sound {k : Node} (sound : NodeSound k) : NodeSound k.restarted :=
  ⟨fun last => absurd rfl last, Bool.noConfusion, sound.fitted⟩

theorem restartOrders_roster (s : State) : (restartOrders s).roster = s.roster :=
  (Touches.foldl (bs := [.map]) (f := fun x (o : Order) => writeStatus o.outlet .unknown .unknown x)
    (fun _ _ => modifyOutlet_touches ..) s.orders.orders (s.withTenants (s.tenants.map Tenant.dropUnconfirmed))).2
    .roster rfl

/-- A warm restart ends every order, and writes no node record before the roster's part, which clears each (R126, R144). -/
theorem warmRestart_rosterKept (s : State) : RosterKept s (warmRestart s) := by
  have settled : (applyAllPending (restartReview (restartUnits s))).roster = s.roster :=
    (applyAllPending_touches _).2 .roster rfl
  have nodes : (warmRestart s).roster.nodes = s.roster.nodes.map Node.restarted :=
    congrArg (fun r : Roster => r.nodes.map Node.restarted) ((restartOrders_roster _).trans settled)
  refine ⟨fun h => ⟨fun n => ?_, List.forall_mem_nil _⟩⟩
  rw [nodes, Table.get_map]
  exact restarted_sound (h.nodes n)

/-- What goes on without an answer is for the same outlets (R127). -/
theorem disownSwitch_rosterKept (s : State) : RosterKept s (disownSwitch s) :=
  .of_orders rfl fun o ho => by
    obtain ⟨p, hp, rfl⟩ := List.mem_map.mp ho
    exact ⟨p, hp, rfl⟩

theorem abandonUnit_rosterKept (u : RequestUnit) (s : State) : RosterKept s (abandonUnit u s) := by
  cases u
  case switch => exact (disownSwitch_rosterKept _).after (.of_same rfl rfl)
  all_goals exact .of_same rfl rfl

/-! ### Every command -/

theorem exec_rosterKept (c : Instr) (s : State) : ∃ t, exec c s = .next t ∧ RosterKept s t := by
  cases c with
  | coldReset => exact ⟨_, rfl, ⟨fun _ => coldReset_rosterSound s⟩⟩
  | nodeReadings f => exact ⟨_, rfl, nodePortFrame_rosterKept (takeReadings_rosterKept f) s⟩
  | nodeJoin f => exact ⟨_, rfl, nodePortFrame_rosterKept (takeJoin_rosterKept f) s⟩
  | nodeOrderDone f => exact ⟨_, rfl, nodePortFrame_rosterKept (takeOrderDone_rosterKept f) s⟩
  | nodeThrough f => exact ⟨_, rfl, nodePortFrame_rosterKept (fun _ x => .of_touches (joinTransit_touches _ x)) s⟩
  | passDown k f => exact ⟨_, rfl, passDownFrame_rosterKept k f s⟩
  | frameDiscard p k f =>
    exact ⟨_, rfl, .ite (fun _ => arrive_rosterKept (fun _ => .withPorts ..) s) fun _ => .refl s⟩
  | frameError p b => exact ⟨_, rfl, .ite (fun _ => .refl s) fun _ => receiveBytes_rosterKept p b s⟩
  | byteGapTimeout p b =>
    exact ⟨_, rfl, .ite (fun _ => .refl s) fun _ => (abandonFrame_rosterKept p _).after (receiveBytes_rosterKept p b s)⟩
  | requestUnserved p => exact ⟨_, rfl, takeUnserved_rosterKept p s⟩
  | nodeSendDone => exact ⟨_, rfl, .of_same rfl rfl⟩
  | limitNoteOwedSent => exact ⟨_, rfl, sendOwedNote_rosterKept s⟩
  | uplinkSendDone => exact ⟨_, rfl, .of_same rfl rfl⟩
  | visitRetry =>
    exact ⟨_, rfl, .ite (fun _ => RosterKept.after (.of_touches (visitSlot_touches ..)) (.of_same rfl rfl))
      fun _ => .refl s⟩
  | exportResume =>
    refine ⟨_, rfl, ?_⟩
    split
    · exact .refl s
    · exact .ite (fun _ => resumeExport_rosterKept ..) fun _ => .refl s
  | tickExpiry g => exact ⟨_, rfl, .ite (fun _ => expireTick_rosterKept g s) fun _ => .refl s⟩
  | reviewTick =>
    exact ⟨_, rfl, .ite (fun _ => (takeReviewTick_rosterKept _).after (.of_same rfl rfl)) fun _ => .refl s⟩
  | orderTimeout n => exact ⟨_, rfl, expireOrder_rosterKept n s⟩
  | nodeSilence n => exact ⟨_, rfl, expireNode_rosterKept n s⟩
  | reviewVisit => exact ⟨_, rfl, .ite (fun _ => .of_touches (visitSlot_touches ..)) fun _ => .refl s⟩
  | passEnd => exact ⟨_, rfl, .ite (fun _ => .of_touches (endPass_touches s)) fun _ => .refl s⟩
  | eventScan p => exact ⟨_, rfl, takeNextEvent_rosterKept p s⟩
  | shedReport => exact ⟨_, rfl, takeReport_rosterKept s⟩
  | shedRequestTake => exact ⟨_, rfl, takeShedRequest_rosterKept s⟩
  | shedSearchStep =>
    refine ⟨_, rfl, ?_⟩
    split
    · exact .refl s
    · exact .of_same rfl rfl
  | shedSearchEnd =>
    refine ⟨_, rfl, ?_⟩
    split
    · exact .refl s
    · exact .ite (fun _ => endSearch_rosterKept ..) fun _ => .refl s
  | assignEntry =>
    refine ⟨_, rfl, ?_⟩
    split
    · exact assignStep_rosterKept ..
    · exact .refl s
    · exact .refl s
  | alterFlagsEntry =>
    refine ⟨_, rfl, ?_⟩
    split
    · exact alterStep_rosterKept ..
    · exact .refl s
    · exact .refl s
  | readEntries r => exact ⟨_, rfl, serve_rosterKept (fun _ _ _ => answer_rosterKept ..) s⟩
  | assign r => exact ⟨_, rfl, serve_rosterKept (fun a _ => takeAssign_rosterKept r a) s⟩
  | setOutlet r =>
    exact ⟨_, rfl, serve_rosterKept (fun _ _ _ => .answered (.of_touches (modifyOutlet_touches ..))) s⟩
  | alterFlags r => exact ⟨_, rfl, serve_rosterKept (fun _ _ _ => .withMgmt ..) s⟩
  | setProfile r => exact ⟨_, rfl, serve_rosterKept (fun _ _ _ => .answered (.withProfiles ..)) s⟩
  | readProfile r => exact ⟨_, rfl, serve_rosterKept (fun _ _ _ => answer_rosterKept ..) s⟩
  | create r => exact ⟨_, rfl, serve_rosterKept (fun a _ => takeCreate_rosterKept r a) s⟩
  | setContract r => exact ⟨_, rfl, serve_rosterKept (fun a _ => takeSetContract_rosterKept r a) s⟩
  | activate r => exact ⟨_, rfl, serve_rosterKept (fun t _ => takeActivate_rosterKept r t) s⟩
  | suspend r => exact ⟨_, rfl, serve_rosterKept (fun t _ => takeSuspend_rosterKept r t) s⟩
  | remove r => exact ⟨_, rfl, serve_rosterKept (fun t _ => takeRemove_rosterKept r t) s⟩
  | setPreset r => exact ⟨_, rfl, serve_rosterKept (fun a _ => takeSetPreset_rosterKept r a) s⟩
  | readTenant r => exact ⟨_, rfl, serve_rosterKept (fun _ _ _ => answer_rosterKept ..) s⟩
  | setLink r =>
    exact ⟨_, rfl, (serve_rosterKept (fun _ _ _ => .answered (.of_touches (modifyLink_touches ..))) _).after
      (.of_touches (finishChain_touches s))⟩
  | readLink r =>
    exact ⟨_, rfl, (serve_rosterKept (fun _ _ _ => answer_rosterKept ..) _).after
      (.of_touches (finishChain_touches s))⟩
  | rearm r =>
    exact ⟨_, rfl, (serve_rosterKept (fun _ _ _ => .answered (.of_touches (modifyLink_touches ..))) _).after
      (.of_touches (finishChain_touches s))⟩
  | switchOrder r => exact ⟨_, rfl, serve_rosterKept (fun a _ => takeSwitchOrder_rosterKept r a) s⟩
  | shedTenant r => exact ⟨_, rfl, serve_rosterKept (fun t _ => takeSwitchShed_rosterKept .shed r t) s⟩
  | restoreTenant r => exact ⟨_, rfl, serve_rosterKept (fun t _ => takeSwitchShed_rosterKept .restore r t) s⟩
  | setNodeDisable r => exact ⟨_, rfl, serve_rosterKept (fun a _ => takeSetNode_rosterKept r a) s⟩
  | setNodeEnable r => exact ⟨_, rfl, serve_rosterKept (fun a _ => takeSetNode_rosterKept r a) s⟩
  | setLimit r => exact ⟨_, rfl, serve_rosterKept (fun _ _ _ => .answered (writeLimit_rosterKept ..)) s⟩
  | readNode r => exact ⟨_, rfl, serve_rosterKept (fun a _ => takeReadNode_rosterKept r a) s⟩
  | readStates r => exact ⟨_, rfl, serve_rosterKept (fun _ _ _ => answer_rosterKept ..) s⟩
  | close r => exact ⟨_, rfl, serve_rosterKept (fun _ _ => takeClose_rosterKept r) s⟩
  | exportTenant r => exact ⟨_, rfl, serve_rosterKept (fun t _ => takeExport_rosterKept r t) s⟩
  | importTenant r => exact ⟨_, rfl, serve_rosterKept (fun a _ => takeImport_rosterKept r a) s⟩
  | readIdent r => exact ⟨_, rfl, serve_rosterKept (fun _ _ _ => answer_rosterKept ..) s⟩
  | setState r => exact ⟨_, rfl, serve_rosterKept (fun _ _ _ => .answered (changeState_rosterKept ..)) s⟩
  | setTiming r => exact ⟨_, rfl, serve_rosterKept (fun _ _ _ => .answered (setTiming_rosterKept ..)) s⟩
  | setForward r => exact ⟨_, rfl, serve_rosterKept (fun _ _ _ => .answered (.withPorts ..)) s⟩
  | readStatus r => exact ⟨_, rfl, serve_rosterKept (fun clear _ => takeReadStatus_rosterKept r clear) s⟩
  | readTags r => exact ⟨_, rfl, serve_rosterKept (fun _ _ _ => answer_rosterKept ..) s⟩
  | restart r => exact ⟨_, rfl, serve_rosterKept (fun _ _ _ => .answered (warmRestart_rosterKept _)) s⟩
  | resetUnit r =>
    exact ⟨_, rfl, serve_rosterKept
      (fun u _ x => .answered ((abandonUnit_rosterKept u x).trans (.withMgmt ..))) s⟩

/-- Settles O57: each command is a chain of operations that keep the roster sound (`exec_rosterKept`). -/
theorem everyStepKeepsTheRosterSound : Obligations.EveryStepKeepsTheRosterSound :=
  invariant_of_exec (fun s x => (RosterKept.withPending s x).sound) (fun s x => (RosterKept.withTime s x).sound)
    fun c s => by
      obtain ⟨t, run, kept⟩ := exec_rosterKept c s
      exact ⟨t, run, kept.sound⟩

end Sys2Proof.Machine


/-! The owed LIMIT notes (R137, R138). -/

namespace Sys2Proof.Machine

theorem sendLimitNote_room {n : NodeIx} {s : State} (room : s.down.queue.length < 16) : sendLimitNote n s =
    (modifyNode n (fun k => { k with noteOwed := false }) s).withDown
      (s.down.join (.limit n (s.roster.nodes.get n).limit)) := if_pos ((hasRoom_iff s.down).mpr room)

/-- A search through the indices in their order finds the lowest one that passes. -/
theorem find_finRange_lowest {m : Nat} {p : Fin m → Bool} {n : Fin m} (passes : p n = true)
    (lowest : ∀ k, k < n → ¬ p k = true) : (List.finRange m).find? p = some n := by
  have inside : n.val < (List.finRange m).length := by rw [List.length_finRange]; exact n.isLt
  refine List.find?_eq_some_iff_getElem.mpr ⟨passes, n.val, inside, ?_, fun j below => ?_⟩
  · rw [List.getElem_finRange]; rfl
  · rw [List.getElem_finRange, Bool.not_eq_true']
    exact Bool.eq_false_iff.mpr (lowest _ below)

theorem sendOwedNote_lowest {s : State} {n : NodeIx} (room : s.down.queue.length < 16) (owes : owesNote s n = true)
    (lowest : ∀ m, m < n → ¬ owesNote s m = true) : sendOwedNote s = sendLimitNote n s := by
  unfold sendOwedNote
  rw [if_pos ((hasRoom_iff _).mpr room), find_finRange_lowest owes lowest]

theorem sendOwedNote_full {s : State} (full : 16 ≤ s.down.queue.length) : sendOwedNote s = s :=
  if_neg fun room => Nat.not_lt.mpr full ((hasRoom_iff _).mp room)

theorem sendOwedNote_nobody {s : State} (nobody : ∀ n, ¬ owesNote s n = true) : sendOwedNote s = s := by
  unfold sendOwedNote
  rw [List.find?_eq_none.mpr fun n _ => nobody n]
  exact ite_self s

/-- Settles O9: `sendOwedNote_lowest` finds the node, and `sendLimitNote_room` sends its note. -/
theorem owedLimitNoteGoesToTheLowestNode : Obligations.OwedLimitNoteGoesToTheLowestNode := by
  refine fun s => ⟨fun n room up owed lowest => ?_, fun idle => congrArg Host.Outcome.next ?_⟩
  · have lower (m : NodeIx) (below : m < n) : ¬ owesNote s m = true :=
      fun owes => lowest m below ((owesNote_iff m s).mp owes)
    have sent := sendOwedNote_lowest room ((owesNote_iff n s).mpr ⟨up, owed⟩) lower
    exact congrArg Host.Outcome.next (sent.trans (sendLimitNote_room room))
  · rcases idle with full | nobody
    · exact sendOwedNote_full full
    · exact sendOwedNote_nobody fun n owes => nobody n ((owesNote_iff n s).mp owes)

end Sys2Proof.Machine


/-! The sequence check of READINGS frames (R132, R139). -/

namespace Sys2Proof.Machine

/-! ### The decision (Table 7.3) -/

theorem sequence_distance (q l : Byte) : (q - l).toNat = (q.toNat + 256 - l.toNat) % 256 := by
  rw [BitVec.toNat_sub]
  have := l.isLt
  omega

section
variable {q l : Byte}

theorem sequenceDecision_duplicate (zero : (q.toNat + 256 - l.toNat) % 256 = 0) :
    sequenceDecision (some l) q = .duplicate := by
  rw [← sequence_distance] at zero
  exact if_pos zero

theorem sequenceDecision_next (one : (q.toNat + 256 - l.toNat) % 256 = 1) :
    sequenceDecision (some l) q = .next := by
  rw [← sequence_distance] at one
  exact (if_neg (by omega)).trans (if_pos one)

theorem sequenceDecision_gap (low : 2 ≤ (q.toNat + 256 - l.toNat) % 256) (high : (q.toNat + 256 - l.toNat) % 256 ≤ 127) :
    sequenceDecision (some l) q = .gap ((q.toNat + 256 - l.toNat) % 256 - 1) := by
  rw [← sequence_distance] at low high ⊢
  exact (if_neg (by omega)).trans ((if_neg (by omega)).trans (if_pos high))

theorem sequenceDecision_outOfOrder (far : 128 ≤ (q.toNat + 256 - l.toNat) % 256) :
    sequenceDecision (some l) q = .outOfOrder := by
  rw [← sequence_distance] at far
  exact (if_neg (by omega)).trans ((if_neg (by omega)).trans (if_neg (by omega)))

end

/-- A gap is a difference from 2 to 127. -/
theorem sequenceDecision_gap_bounds {last : Option Byte} {q : Byte} {m : Nat} (gap : sequenceDecision last q = .gap m) :
    ∃ l : Byte, last = some l ∧ 2 ≤ (q.toNat + 256 - l.toNat) % 256 ∧ (q.toNat + 256 - l.toNat) % 256 ≤ 127 := by
  cases last with
  | none => cases gap
  | some l =>
    refine ⟨l, rfl, Nat.le_of_not_lt fun low => ?_, Nat.le_of_not_lt fun far => ?_⟩
    · rcases Nat.lt_succ_iff_lt_or_eq.mp low with zero | one
      · cases (sequenceDecision_duplicate (Nat.lt_one_iff.mp zero)).symm.trans gap
      · cases (sequenceDecision_next one).symm.trans gap
    · cases (sequenceDecision_outOfOrder far).symm.trans gap

/-! ### The record and the GAP event -/

section
variable {k : Node} {q : Byte}

theorem judged_first (h : sequenceDecision k.lastSeq q = .first) :
    k.judged q = { k with lastSeq := some q, accepted := bump16 k.accepted } := by
  unfold Node.judged; rw [h]

theorem judged_duplicate (h : sequenceDecision k.lastSeq q = .duplicate) :
    k.judged q = { k with duplicates := bump16 k.duplicates } := by
  unfold Node.judged; rw [h]

theorem judged_next (h : sequenceDecision k.lastSeq q = .next) :
    k.judged q = { k with lastSeq := some q, accepted := bump16 k.accepted } := by
  unfold Node.judged; rw [h]

theorem judged_gap {m : Nat} (h : sequenceDecision k.lastSeq q = .gap m) :
    k.judged q = { k with lastSeq := some q, accepted := bump16 k.accepted, gaps := satAdd 65535 k.gaps m } := by
  unfold Node.judged; rw [h]

theorem judged_outOfOrder (h : sequenceDecision k.lastSeq q = .outOfOrder) :
    k.judged q = { k with outOfOrder := bump16 k.outOfOrder } := by
  unfold Node.judged; rw [h]

variable {n : NodeIx} {s : State}

theorem sequenceCheck_gap {m : Nat} (gap : decisionAt n q s = .gap m) :
    sequenceCheck n q s = post .roster (nodeEvent n 3) (modifyNode n (fun k => k.judged q) s) := by
  unfold sequenceCheck; rw [gap]

theorem sequenceCheck_quiet (quiet : ∀ m, decisionAt n q s ≠ .gap m) :
    sequenceCheck n q s = modifyNode n (fun k => k.judged q) s := by
  unfold sequenceCheck
  split
  · next gap => exact absurd gap (quiet _)
  all_goals rfl

end

/-! ### A READINGS frame of an UP node -/

section
variable {n : NodeIx} {f : NodeFrame} {s : State}

theorem takeReadings_up (up : (s.roster.nodes.get n).state = .up) : takeReadings f n s =
    if (decisionAt n f.seq s).accepts then intake n f.payload (forwardReadings n f (sequenceCheck n f.seq s))
    else forwardReadings n f (sequenceCheck n f.seq s) := by
  unfold takeReadings
  rw [raiseNode_up up]

theorem intake_transparent (transparent : s.mgmt.opState = .transparent) (p : List Byte) : intake n p s = s :=
  if_pos transparent

/-- A frame that the check rejects, or that is taken in TRANSPARENT, ends with its forwarding (R23, R132, R165). -/
theorem exec_nodeReadings_apart (addr : f.addr = nodeByte n) (fits : f.payload.length ≤ Config.maxPayload)
    (up : (s.roster.nodes.get n).state = .up)
    (apart : (sequenceDecision (s.roster.nodes.get n).lastSeq f.seq).accepts = false ∨ s.mgmt.opState = .transparent) :
    exec (.nodeReadings f) s = .next (readyForIntake n f s) := by
  have heard : (heardFrom n s).roster.nodes.get n = { s.roster.nodes.get n with lastHeard := s.time.rowTime } :=
    Table.get_set_same _ _ _
  have decision : decisionAt n f.seq (heardFrom n s) = sequenceDecision (s.roster.nodes.get n).lastSeq f.seq := by
    unfold decisionAt; rw [heard]
  have enabled : (s.roster.nodes.get n).state ≠ .disabled := by rw [up]; exact NodeState.noConfusion
  refine congrArg Host.Outcome.next ((nodePortFrame_heard addr fits enabled _).trans ?_)
  rw [takeReadings_up (heard ▸ up), decision]
  rcases apart with rejected | transparent
  · rw [if_neg (rejected ▸ Bool.false_ne_true)]
  · have listening : (readyForIntake n f s).mgmt.opState = .transparent := by
      rw [readyForIntake_sticky n f s]; exact transparent
    rw [intake_transparent listening, ite_self]

end

/-- Settles O10: the record and the event by the decision of Table 7.3, the frame by `exec_nodeReadings_apart`. -/
theorem sequenceCheckJudgesReadings : Obligations.SequenceCheckJudgesReadings := by
  refine ⟨fun k q => ⟨fun absent => judged_first (absent ▸ rfl), fun l last => ?_⟩, fun s n q => ⟨?_, fun quiet => ?_⟩, ?_⟩
  · intro d
    exact ⟨fun zero => judged_duplicate (last ▸ sequenceDecision_duplicate zero),
      fun one => judged_next (last ▸ sequenceDecision_next one),
      fun low high => judged_gap (last ▸ sequenceDecision_gap low high),
      fun far => judged_outOfOrder (last ▸ sequenceDecision_outOfOrder far)⟩
  · rintro ⟨l, last, low, high⟩
    have gap : decisionAt n q s = .gap _ := (congrArg (sequenceDecision · q) last).trans (sequenceDecision_gap low high)
    exact sequenceCheck_gap gap
  · exact sequenceCheck_quiet fun m gap => quiet (sequenceDecision_gap_bounds gap)
  · intro s n f heard t addr fits up apart
    have ready := (readyForIntake_touches n f s).2
    refine ⟨exec_nodeReadings_apart addr fits up (apart.imp_left ?_), ready .map rfl, ready .tenants rfl,
      ready .orders rfl, readyForIntake_roster n f s⟩
    rintro ⟨l, last, zero | far⟩
    · rw [last, sequenceDecision_duplicate zero]; rfl
    · rw [last, sequenceDecision_outOfOrder far]; rfl

end Sys2Proof.Machine


/-! NODE_JOIN and NODE_READINGS bring a node UP (R130 to R132). -/

namespace Sys2Proof.Machine

/-! ### The payload of a JOIN (R131) -/

theorem joinCount_wellFormed {c : Byte} (low : 1 ≤ c.toNat) (high : c.toNat ≤ 48) : joinCount [c] = some c.toNat := by
  obtain ⟨o, read⟩ := Option.isSome_iff_exists.mp ((isSome_outletOf c.toNat).mpr ⟨low, high⟩)
  unfold joinCount
  dsimp only
  rw [read, Option.map_some, outletOf_val read]

theorem joinCount_malformed {p : List Byte} (bad : ∀ c : Byte, p = [c] → c.toNat = 0 ∨ 48 < c.toNat) :
    joinCount p = none := by
  unfold joinCount
  split
  · next c =>
    have outside : ¬ (outletOf c.toNat).isSome = true := fun inside => by
      obtain ⟨low, high⟩ := (isSome_outletOf c.toNat).mp inside
      have := bad c rfl
      omega
    rw [Option.not_isSome_iff_eq_none.mp outside]
    rfl
  · rfl

/-! ### What a JOIN leaves before it is forwarded -/

section
variable (f : NodeFrame) (n : NodeIx) (s : State)

/-- The record of a well-formed JOIN is written: the fitted count, and no last sequence (R131). -/
def writeJoin (c : Nat) (n : NodeIx) (s : State) : State :=
  modifyNode n (fun k => { k with fitted := c, lastSeq := none }) s

/-- The state in which the JOIN frame of a node is forwarded. -/
def joinTaken : State :=
  match joinCount f.payload with
  | none => countBadEntry n (raiseNode n s)
  | some c =>
    if (s.roster.nodes.get n).state = .up then sendLimitNote n (writeJoin c n (raiseNode n s))
    else writeJoin c n (raiseNode n s)

theorem takeJoin_forwards :
    takeJoin f n s = joinTransit (Frame.make kindJoin f.addr f.seq f.payload) (joinTaken f n s) := by
  unfold takeJoin joinTaken
  rfl

theorem raiseNode_touches : Touches [.roster, .links, .down, .up, .mgmt] s (raiseNode n s) := by
  unfold raiseNode
  split
  · exact .refl ..
  · exact bringUp_touches ..

/-- A JOIN writes its node's record and the LIMIT note, beside what bringing the node UP does. -/
theorem joinTaken_after_raiseNode : Touches [.roster, .down] (raiseNode n s) (joinTaken f n s) := by
  have node (g : Node → Node) : Touches [.roster, .down] (raiseNode n s) (modifyNode n g (raiseNode n s)) :=
    (modifyNode_touches ..).widen
  unfold joinTaken
  split
  · exact node _
  · split
    · exact (node _).trans (sendLimitNote_touches ..)
    · exact node _

theorem joinTaken_touches : Touches [.roster, .links, .down, .up, .mgmt] s (joinTaken f n s) :=
  (raiseNode_touches n s).trans (joinTaken_after_raiseNode f n s).widen

theorem joinTaken_transit : (joinTaken f n s).up.transit = s.up.transit := by
  have raised : (raiseNode n s).up.transit = s.up.transit := by
    unfold raiseNode
    split
    · rfl
    · exact bringUp_transit n s
  exact (congrArg Uplink.transit ((joinTaken_after_raiseNode f n s).2 .up rfl)).trans raised

end

section
variable {f : NodeFrame} {n : NodeIx} {s : State}

/-- A well-formed JOIN: UP, with its fitted count, no last sequence, and its note sent or owed (R130, R131). -/
theorem joinTaken_wellFormed {c : Nat} (read : joinCount f.payload = some c) :
    (joinTaken f n s).roster = { s.roster with nodes := s.roster.nodes.set n { s.roster.nodes.get n with
      state := .up, fitted := c, lastSeq := none, noteOwed := !s.down.hasRoom } } ∧
    (joinTaken f n s).down =
      if s.down.hasRoom then s.down.join (.limit n (s.roster.nodes.get n).limit) else s.down := by
  by_cases up : (s.roster.nodes.get n).state = .up
  · have taken : joinTaken f n s = sendLimitNote n (writeJoin c n s) := by
      unfold joinTaken
      rw [read, raiseNode_up up]
      exact if_pos up
    have record : (writeJoin c n s).roster.nodes.get n =
        { s.roster.nodes.get n with state := .up, fitted := c, lastSeq := none } :=
      (Table.get_modify_same ..).trans (by rw [← up])
    rw [taken, sendLimitNote_roster, sendLimitNote_down, record]
    exact ⟨congrArg (fun x => { s.roster with nodes := x }) (Table.set_set ..), rfl⟩
  · have taken : joinTaken f n s = writeJoin c n (bringUp n s) := by
      unfold joinTaken
      rw [read, raiseNode_down up]
      exact if_neg up
    exact ⟨(congrArg State.roster taken).trans (modifyNode_bringUp_roster ..),
      (congrArg State.down taken).trans (bringUp_down n s)⟩

/-- A malformed JOIN: UP all the same, with one bad entry more (R130, R131). -/
theorem joinTaken_malformed (read : joinCount f.payload = none) : ∃ last owed,
    (joinTaken f n s).roster = { s.roster with nodes := s.roster.nodes.set n { s.roster.nodes.get n with
      state := .up, lastSeq := last, noteOwed := owed, badEntries := bump16 (s.roster.nodes.get n).badEntries } } := by
  have taken : joinTaken f n s = countBadEntry n (raiseNode n s) := by
    unfold joinTaken
    rw [read]
  by_cases up : (s.roster.nodes.get n).state = .up
  · refine ⟨(s.roster.nodes.get n).lastSeq, (s.roster.nodes.get n).noteOwed, ?_⟩
    rw [taken, raiseNode_up up, ← up]
    rfl
  · refine ⟨none, !s.down.hasRoom, ?_⟩
    rw [taken, raiseNode_down up]
    exact modifyNode_bringUp_roster ..

/-- The record that a JOIN leaves, whatever its payload. -/
theorem joinTaken_record (f : NodeFrame) (n : NodeIx) (s : State) :
    let k := s.roster.nodes.get n
    ∃ k' : Node, (joinTaken f n s).roster = { s.roster with nodes := s.roster.nodes.set n k' } ∧
      k'.state = .up ∧ k'.lastHeard = k.lastHeard ∧
      (∀ c, joinCount f.payload = some c → k'.fitted = c ∧ k'.lastSeq = none ∧ k'.badEntries = k.badEntries ∧
        k'.noteOwed = !s.down.hasRoom) ∧
      (joinCount f.payload = none → k'.fitted = k.fitted ∧ k'.badEntries = bump16 k.badEntries) := by
  intro k
  cases read : joinCount f.payload with
  | none =>
    obtain ⟨last, owed, written⟩ := joinTaken_malformed (n := n) (s := s) read
    exact ⟨_, written, rfl, rfl, fun _ other => absurd other.symm (Option.some_ne_none _), fun _ => ⟨rfl, rfl⟩⟩
  | some c =>
    obtain ⟨written, -⟩ := joinTaken_wellFormed (n := n) (s := s) read
    exact ⟨_, written, rfl, rfl, fun _ same => ⟨Option.some.inj same, rfl, rfl, rfl⟩, fun other => absurd other (Option.some_ne_none _)⟩

theorem joinTaken_links_up (up : (s.roster.nodes.get n).state = .up) : (joinTaken f n s).links = s.links :=
  ((joinTaken_after_raiseNode f n s).2 .links rfl).trans (congrArg State.links (raiseNode_up up))

theorem joinTaken_arrivals (down : (s.roster.nodes.get n).state ≠ .up) (room : storeRoom s = true) :
    (joinTaken f n s).links.arrivals = s.links.arrivals ++ [⟨.roster, ⟨nodeEvent n 0, 0⟩⟩] := by
  rw [(joinTaken_after_raiseNode f n s).2 .links rfl, raiseNode_down down]
  exact bringUp_arrivals n s room

/-! ### READINGS from a node that is not UP (R130, R132) -/

/-- A frame of a node just brought UP meets no last sequence, and is accepted (R130, R132). -/
theorem takeReadings_raised (down : (s.roster.nodes.get n).state ≠ .up) : takeReadings f n s =
    intake n f.payload (forwardReadings n f (modifyNode n (fun k => k.judged f.seq) (bringUp n s))) := by
  have record : (bringUp n s).roster.nodes.get n = raisedNode n s := by rw [bringUp_roster, Table.get_set_same]
  have first : decisionAt n f.seq (bringUp n s) = .first := by
    unfold decisionAt
    rw [record]
    rfl
  have checked := sequenceCheck_quiet (fun m gap => by cases first.symm.trans gap)
  unfold takeReadings
  rw [raiseNode_down down]
  dsimp only
  rw [checked, first]
  rfl

/-- The record of a node that a READINGS frame has brought UP (R130, R132), but for bad entries. -/
theorem takeReadings_raised_roster (down : (s.roster.nodes.get n).state ≠ .up) : ∃ b,
    (takeReadings f n s).roster = { s.roster with nodes := s.roster.nodes.set n { raisedNode n s with
      lastSeq := some f.seq, accepted := bump16 (s.roster.nodes.get n).accepted, badEntries := b } } := by
  obtain ⟨b, roster⟩ := (intake_spec n f.payload
    (forwardReadings n f (modifyNode n (fun k => k.judged f.seq) (bringUp n s)))).1
  have before : (forwardReadings n f (modifyNode n (fun k => k.judged f.seq) (bringUp n s))).roster =
      { s.roster with nodes := s.roster.nodes.set n ((raisedNode n s).judged f.seq) } :=
    ((forwardReadings_touches ..).1.2 .roster rfl).trans (modifyNode_bringUp_roster ..)
  refine ⟨b, ?_⟩
  rw [takeReadings_raised down, roster, before, Table.get_set_same, Table.set_set, judged_first rfl]
  rfl

/-- Beside the record, bringing the node UP is all that such a frame does to the LIMIT notes and the events. -/
theorem takeReadings_raised_touches (down : (s.roster.nodes.get n).state ≠ .up) :
    Touches [.map, .tenants, .roster, .up, .mgmt, .ports] (bringUp n s) (takeReadings f n s) := by
  rw [takeReadings_raised down]
  exact (modifyNode_touches ..).widen.trans
    ((forwardReadings_touches ..).1.widen.trans (intake_spec ..).2.widen)

end

theorem exec_nodeJoin_heard {f : NodeFrame} {n : NodeIx} {s : State} (addr : f.addr = nodeByte n)
    (fits : f.payload.length ≤ Config.maxPayload) (enabled : (s.roster.nodes.get n).state ≠ .disabled) :
    exec (.nodeJoin f) s =
      .next (joinTransit (Frame.make kindJoin f.addr f.seq f.payload) (joinTaken f n (heardFrom n s))) :=
  congrArg Host.Outcome.next ((nodePortFrame_heard addr fits enabled _).trans (takeJoin_forwards ..))

theorem heardFrom_node (n : NodeIx) (s : State) : (heardFrom n s).roster.nodes.get n =
    { s.roster.nodes.get n with lastHeard := s.time.rowTime } := Table.get_set_same ..

/-- A record written on the state that has heard the node, told from the state before. -/
theorem heardFrom_written {n : NodeIx} {s t : State} {k : Node}
    (written : t.roster = { (heardFrom n s).roster with nodes := (heardFrom n s).roster.nodes.set n k }) :
    t.roster = { s.roster with nodes := s.roster.nodes.set n k } :=
  written.trans (congrArg (fun x => { s.roster with nodes := x }) (Table.set_set ..))

theorem node_of_written {n : NodeIx} {s t : State} {k : Node}
    (written : t.roster = { s.roster with nodes := s.roster.nodes.set n k }) :
    t.roster.nodes.get n = k ∧ ∀ m, m ≠ n → t.roster.nodes.get m = s.roster.nodes.get m := by
  rw [written]
  exact ⟨Table.get_set_same .., fun m other => Table.get_set_other _ _ other⟩

/-- Settles O13: `joinTaken_record` and `joinTaken_wellFormed` for a JOIN, `takeReadings_raised_roster` for READINGS, each
on the state that has heard the node. -/
theorem joinAndReadingsBringTheNodeUp : Obligations.JoinAndReadingsBringTheNodeUp := by
  refine ⟨?_, ?_⟩
  · intro s n f k addr fits enabled
    let x := heardFrom n s
    have heard : x.roster.nodes.get n = { k with lastHeard := s.time.rowTime } := heardFrom_node n s
    have forwarded := (joinTransit_touches (Frame.make kindJoin f.addr f.seq f.payload) (joinTaken f n x)).2
    have taken := (joinTaken_touches f n x).2
    obtain ⟨k', written, state, lastHeard, wellFormed, malformed⟩ := joinTaken_record f n x
    rw [heard] at lastHeard wellFormed malformed
    obtain ⟨own, others⟩ := node_of_written ((forwarded .roster rfl).trans (heardFrom_written written))
    have links := forwarded .links rfl
    refine ⟨_, exec_nodeJoin_heard addr fits enabled, ?_⟩
    rw [own]
    refine ⟨state, lastHeard, fun c payload low high => ?_, fun bad => malformed (joinCount_malformed bad),
      fun up => links.trans (joinTaken_links_up (heard ▸ up)),
      fun down room => (congrArg LinkTable.arrivals links).trans (joinTaken_arrivals (heard ▸ down) room), others,
      (forwarded .map rfl).trans (taken .map rfl), (forwarded .tenants rfl).trans (taken .tenants rfl),
      (forwarded .orders rfl).trans (taken .orders rfl)⟩
    have read : joinCount f.payload = some c.toNat := payload ▸ joinCount_wellFormed low high
    obtain ⟨fitted, last, bad, owed⟩ := wellFormed _ read
    have sent := (joinTaken_wellFormed (n := n) (s := x) read).2
    rw [heard] at sent
    exact ⟨fitted, last, bad, owed, (forwarded .down rfl).trans sent⟩
  · intro s n f k addr fits away
    let x := heardFrom n s
    have heard : x.roster.nodes.get n = { k with lastHeard := s.time.rowTime } := heardFrom_node n s
    have enabled : k.state ≠ .disabled := fun disabled => by
      rcases away with state | state <;> cases state.symm.trans disabled
    have notUp : k.state ≠ .up := fun up => by
      rcases away with state | state <;> cases state.symm.trans up
    have down : (x.roster.nodes.get n).state ≠ .up := heard ▸ notUp
    obtain ⟨b, written⟩ := takeReadings_raised_roster (f := f) down
    have rest := (takeReadings_raised_touches (f := f) down).2
    obtain ⟨own, others⟩ := node_of_written (heardFrom_written written)
    have raised : raisedNode n x = { k with
        state := .up, lastSeq := none, lastHeard := s.time.rowTime, noteOwed := !s.down.hasRoom } := by
      unfold raisedNode
      rw [heard]
      rfl
    rw [raised, heard] at own
    have sent := bringUp_down n x
    rw [heard] at sent
    refine ⟨_, congrArg Host.Outcome.next (nodePortFrame_heard addr fits enabled _), ?_⟩
    rw [own]
    exact ⟨rfl, rfl, rfl, rfl, rfl, rfl, others, (rest .down rfl).trans sent,
      fun room => (congrArg LinkTable.arrivals (rest .links rfl)).trans (bringUp_arrivals n x room)⟩

end Sys2Proof.Machine


/-! Frames passed on: THROUGH, PASS_DOWN, and what is forwarded of READINGS, JOIN and ORDER_DONE (R165 to R168). -/

namespace Sys2Proof.Machine

/-! ### The transit queue and the node transmit queue (R167, R168) -/

theorem joinTransit_room {s : State} (room : s.up.transit.length < 16) (f : Frame) :
    joinTransit f s = s.withUp { s.up with transit := s.up.transit ++ [f] }.take := if_pos room

theorem joinTransit_full {s : State} (full : 16 ≤ s.up.transit.length) (f : Frame) :
    joinTransit f s = setCounts (fun c => { c with transitDrop := bump16 c.transitDrop })
      (setSticky (fun x => { x with transitDrop := true }) s) := if_neg (Nat.not_lt.mpr full)

theorem exec_nodeThrough_heard {f : NodeFrame} {n : NodeIx} {s : State} (addr : f.addr = nodeByte n)
    (fits : f.payload.length ≤ Config.maxPayload) (enabled : (s.roster.nodes.get n).state ≠ .disabled) :
    exec (.nodeThrough f) s = .next (joinTransit (Frame.make kindThrough f.addr f.seq f.payload) (heardFrom n s)) :=
  congrArg Host.Outcome.next (nodePortFrame_heard addr fits enabled _)

/-- A REQUEST or THROUGH on the uplink port with a node's address is passed down (Table 9.3). -/
theorem dispatchOf_down (kind : DownKind) (n : NodeIx) :
    dispatchOf .uplink (downKindCode kind) (nodeByte n) = .down := by
  have other : nodeByte n ≠ 0 := fun zero => by
    have number := congrArg BitVec.toNat zero
    rw [nodeByte, toNat_byte (by omega)] at number
    exact Nat.succ_ne_zero _ number
  have known : knownKinds.contains (downKindCode kind) = true := by cases kind <;> rfl
  have passed : downKindCode kind = kindRequest ∨ downKindCode kind = kindThrough := by
    cases kind
    · exact .inl rfl
    · exact .inr rfl
  unfold dispatchOf
  rw [known, nodeOf_nodeByte]
  exact (if_neg Bool.false_ne_true).trans ((if_neg fun own => other own.2).trans (if_pos passed))

theorem exec_passDown_node {f : NodeFrame} {n : NodeIx} (addr : f.addr = nodeByte n)
    (fits : f.payload.length ≤ Config.maxPayload) (kind : DownKind) (s : State) : exec (.passDown kind f) s =
      .next (joinDown (Frame.make (downKindCode kind) f.addr f.seq f.payload) (received .uplink s)) := by
  refine congrArg Host.Outcome.next ?_
  unfold passDownFrame
  rw [addr, dispatchOf_down]
  exact if_neg (Nat.not_lt.mpr fits)

theorem joinDown_room {s : State} (room : s.down.queue.length < 16) (f : Frame) :
    joinDown f s = s.withDown (s.down.join (.down f)) := if_pos ((hasRoom_iff _).mpr room)

theorem joinDown_full {s : State} (full : 16 ≤ s.down.queue.length) (f : Frame) :
    joinDown f s = setCounts (fun c => { c with throughDrop := bump16 c.throughDrop }) s :=
  if_neg fun room => Nat.not_lt.mpr full ((hasRoom_iff _).mp room)

/-! ### The forwarding of READINGS by mode (R165, R166) -/

section
variable {n : NodeIx} {f : NodeFrame} {s : State}

theorem forwardReadings_plain (mode : s.ports.forward = .plain) :
    forwardReadings n f s = joinTransit (Frame.make kindReadings f.addr f.seq f.payload) s := by
  unfold forwardReadings; rw [mode]

theorem forwardReadings_absorb (mode : s.ports.forward = .absorb) : forwardReadings n f s = s := by
  unfold forwardReadings; rw [mode]

theorem forwardReadings_tagged (mode : s.ports.forward = .tagged) : forwardReadings n f s =
    joinTransit (Frame.make kindReadings f.addr f.seq (taggedPayload n f.payload s)) s := by
  unfold forwardReadings; rw [mode]

end

theorem taggedPayload_wrongShape {p : List Byte} (wrong : ¬ readingsShape p = true) (n : NodeIx) (s : State) :
    taggedPayload n p s = p := if_neg wrong

/-- The tag of an entry, for whatever function gives the effective tenants of the node's outlets, and 0 elsewhere. -/
theorem tagOf_eq {tag : Byte → Byte} {n : NodeIx} {s : State}
    (outlets : ∀ o : Fin 48, tag (BitVec.ofNat 8 (o.val + 1)) =
      tenantByte (s.map.entries.get (mapIndex n o)).effective.tenant)
    (others : ∀ b : Byte, b = 0 ∨ 48 < b.toNat → tag b = 0) (b : Byte) : tagOf n b s = tag b := by
  unfold tagOf
  cases read : outletOf b.toNat with
  | none =>
    have outside : ¬ (1 ≤ b.toNat ∧ b.toNat ≤ 48) := fun inside =>
      Option.not_isSome_iff_eq_none.mpr read ((isSome_outletOf _).mpr inside)
    refine (others b ?_).symm
    rcases Nat.eq_zero_or_pos b.toNat with zero | pos
    · exact .inl (BitVec.eq_of_toNat_eq zero)
    · exact .inr (by omega)
  | some o =>
    have number : BitVec.ofNat 8 (o.val + 1) = b := by
      rw [outletOf_val read, BitVec.ofNat_toNat, BitVec.setWidth_eq]
    rw [← number]
    exact (outlets o).symm

/-- A reading code stands in two bytes. -/
theorem beBytes_reading (hi lo : Byte) : beBytes 2 (hi.toNat * 256 + lo.toNat) = [hi, lo] := by
  have low := lo.isLt
  rw [beBytes_two]
  congr 1
  · rw [show (hi.toNat * 256 + lo.toNat) / 256 = hi.toNat by omega, BitVec.ofNat_toNat, BitVec.setWidth_eq]
  · congr 1
    refine BitVec.eq_of_toNat_eq ?_
    rw [BitVec.toNat_ofNat]
    omega

/-- The bytes of entries, and of entries each with its tag after it (R166). -/
def entryBytes (entries : List (Byte × Byte × Byte)) : List Byte := entries.flatMap fun e => [e.1, e.2.1, e.2.2]

theorem tagged_entryBytes (tag : Byte → Byte) (entries : List (Byte × Byte × Byte)) :
    (entriesOf (entryBytes entries)).flatMap (fun e => [e.1] ++ beBytes 2 e.2 ++ [tag e.1]) =
      entries.flatMap (fun e => [e.1, e.2.1, e.2.2, tag e.1]) := by
  induction entries with
  | nil => rfl
  | cons e entries ih =>
    have first : entryBytes (e :: entries) = e.1 :: e.2.1 :: e.2.2 :: entryBytes entries := rfl
    rw [first, entriesOf_cons, List.flatMap_cons, List.flatMap_cons, ih, beBytes_reading]
    rfl

theorem entryBytes_length (entries : List (Byte × Byte × Byte)) :
    (entryBytes entries).length = 3 * entries.length := by
  induction entries with
  | nil => rfl
  | cons e entries ih =>
    show (entryBytes entries).length + 3 = 3 * (entries.length + 1)
    omega

/-- The tagged copy of a well-shaped payload (R166). -/
theorem taggedPayload_rightShape {stamp1 stamp0 count : Byte} {entries : List (Byte × Byte × Byte)}
    (low : 1 ≤ count.toNat) (high : count.toNat ≤ 48) (length : entries.length = count.toNat) (n : NodeIx) (s : State) :
    taggedPayload n (stamp1 :: stamp0 :: count :: entryBytes entries) s =
      stamp1 :: stamp0 :: count :: entries.flatMap (fun e => [e.1, e.2.1, e.2.2, tagOf n e.1 s]) := by
  have shape : readingsShape (stamp1 :: stamp0 :: count :: entryBytes entries) = true :=
    (readingsShape_iff _).mpr ⟨_, _, _, _, rfl, low, high, length ▸ entryBytes_length entries⟩
  rw [← tagged_entryBytes (fun b => tagOf n b s) entries]
  exact if_pos shape

/-! ### JOIN and ORDER_DONE (R165) -/

theorem takeOrderDone_transit (f : NodeFrame) (n : NodeIx) (s : State) :
    (takeOrderDone f n s).up.transit = s.up.transit := by
  unfold takeOrderDone matchOrder
  split
  · split
    · rfl
    · split
      · rfl
      · exact (endOrder_records ..).2
  · rfl

/-- Settles O16: the frames by what each queue does with room and without, READINGS by the forward mode. -/
theorem throughFramesPassUnchanged : Obligations.ThroughFramesPassUnchanged := by
  refine ⟨fun s n f addr fits => ⟨fun enabled => ?_, fun kind => ?_⟩, fun f s => ⟨(joinTransit_room · f),
    (joinTransit_full · f)⟩, ?_, fun s n f addr fits enabled => ⟨?_, ?_⟩⟩
  · rw [exec_nodeThrough_heard addr fits enabled]
    exact ⟨fun room => congrArg Host.Outcome.next (joinTransit_room (s := heardFrom n s) room _),
      fun full => congrArg Host.Outcome.next (joinTransit_full (s := heardFrom n s) full _)⟩
  · intro code
    have kindCode : code = downKindCode kind := by cases kind <;> rfl
    rw [exec_passDown_node addr fits, kindCode]
    exact ⟨fun room => congrArg Host.Outcome.next (joinDown_room (s := received .uplink s) room _),
      fun full => congrArg Host.Outcome.next (joinDown_full (s := received .uplink s) full _)⟩
  · intro s n f unchanged rightShape
    refine ⟨forwardReadings_plain, forwardReadings_absorb, fun mode wrong => ?_, ?_⟩
    · have shape : ¬ readingsShape f.payload = true := fun right => wrong ((readingsShape_iff _).mp right)
      rw [forwardReadings_tagged mode, taggedPayload_wrongShape shape]
      rfl
    · intro tag stamp1 stamp0 count entries outlets others mode low high length payload
      have tags := tagOf_eq (fun o => (outlets o).trans (by
        cases (s.map.entries.get (mapIndex n o)).effective.tenant <;> rfl)) others
      have tagged := taggedPayload_rightShape (stamp1 := stamp1) (stamp0 := stamp0) low high length n s
      simp only [tags] at tagged
      rw [forwardReadings_tagged mode, payload]
      exact congrArg (fun p => joinTransit (Frame.make kindReadings f.addr f.seq p) s) tagged
  · exact ⟨_, exec_nodeJoin_heard addr fits enabled, joinTaken_transit f n (heardFrom n s)⟩
  · exact ⟨_, congrArg Host.Outcome.next (nodePortFrame_heard addr fits enabled _),
      takeOrderDone_transit f n (heardFrom n s)⟩

end Sys2Proof.Machine


/-! The period close and the RECORD unit (R149 to R151, R156 to R159). -/

namespace Sys2Proof.Machine

/-! ### The period close (R149 to R151) -/

theorem clamp64_eq (i : Int) :
    clamp64 i = if 2 ^ 63 - 1 < i then 2 ^ 63 - 1 else if i < -(2 ^ 63) then -(2 ^ 63) else i := by
  unfold clamp64
  split
  · omega
  · split <;> omega

/-- Settles O27: every field of the record and of the reset is the tenant's own but for the energies, which
`clamp64_eq` holds within the signed range (R150). -/
theorem periodCloseRecordsAndResets : Obligations.PeriodCloseRecordsAndResets := by
  intro k i n now record held
  have energyA : record.energy.a = held ((k.lifetime.a : Int) - k.baseline.a + k.preset.toInt) := clamp64_eq _
  have energyB : record.energy.b = held ((k.lifetime.b : Int) - k.baseline.b + k.preset.toInt) := clamp64_eq _
  exact ⟨energyA, energyB, rfl, rfl, rfl, rfl, rfl, rfl, rfl, rfl, rfl, rfl, rfl, rfl, rfl, rfl, rfl⟩

/-! ### The RECORD unit (R156 to R159) -/

theorem recordRoom_full {s : State} (full : 4 ≤ s.up.records.length) : ¬ recordRoom s = true := by
  rw [recordRoom_iff]
  omega

theorem takeClose_idle {r : Request} {s : State} (idle : s.review.closePending = false) :
    takeClose r s = answerOk .record r (.closeNumber (s.review.closeNumber + 1)) (startClose s) := by
  unfold takeClose
  rw [idle]
  rfl

theorem takeClose_pending {r : Request} {s : State} (pending : s.review.closePending = true) :
    takeClose r s = answer .record r.tag true .alreadyPending (.closeNumber s.review.closeNumber) s := if_pos pending

section
variable {r : Request} {t : Slot} {s : State}

theorem takeExport_free (free : (s.tenants.get t).state = .free) :
    takeExport r t s = refuse .record r .wrongState s := if_pos free

theorem takeExport_room (taken : (s.tenants.get t).state ≠ .free) (room : s.up.records.length < 4) :
    takeExport r t s = placeExport r.tag (ackWanted r) t s :=
  (if_neg taken).trans (if_pos ((recordRoom_iff s).mpr room))

theorem takeExport_full (taken : (s.tenants.get t).state ≠ .free) (full : 4 ≤ s.up.records.length) :
    takeExport r t s = setExportJob (some ⟨r.tag, ackWanted r, t⟩) s :=
  (if_neg taken).trans (if_neg (recordRoom_full full))

end

section
variable {j : ExportJob} {s : State}

theorem exec_exportResume_waiting (job : s.mgmt.exportJob = some j) :
    exec .exportResume s = .next (if recordRoom s then resumeExport j s else s) := by
  show execExportResume s = _
  unfold execExportResume
  rw [job]

theorem exec_exportResume_full (job : s.mgmt.exportJob = some j) (full : 4 ≤ s.up.records.length) :
    exec .exportResume s = .next s := by
  rw [exec_exportResume_waiting job, if_neg (recordRoom_full full)]

theorem exec_exportResume_room (job : s.mgmt.exportJob = some j) (room : s.up.records.length < 4) :
    exec .exportResume s = .next (resumeExport j s) := by
  rw [exec_exportResume_waiting job, if_pos ((recordRoom_iff s).mpr room)]

theorem resumeExport_free (free : (s.tenants.get j.slot).state = .free) :
    resumeExport j s = answer .record j.tag true .wrongState .none (setExportJob none s) := if_pos free

theorem resumeExport_taken (taken : (s.tenants.get j.slot).state ≠ .free) :
    resumeExport j s = placeExport j.tag j.ack j.slot (setExportJob none s) := if_neg taken

end

/-- The budget an import sets is capped at the allowance of the record's contract, 0 without a burst part (R159). -/
theorem min_allowance (budget : Nat) (c : Contract) :
    min budget c.allowance = match c.burst with
      | none => 0
      | some b => min budget (b.allowance * 10 ^ 9) := by
  unfold Contract.allowance
  cases c.burst with
  | none => exact Nat.min_zero budget
  | some b => rfl

section
variable {r : Request} {a : Slot} {x : TransferRecord} {s : State}

theorem takeImport_taken (taken : (s.tenants.get a).state ≠ .free) :
    takeImport r (a, x) s = refuse .record r .wrongState s := if_neg taken

theorem takeImport_free (free : (s.tenants.get a).state = .free) {budget : Nat}
    (capped : min x.budget x.contract.allowance = budget) :
    takeImport r (a, x) s = answerOk .record r (.slotPeriod a x.periodNumber) (s.withTenants (s.tenants.set a
      { x.tenant s.review.closeNumber s.time.rowTime with budget })) := by
  rw [← capped]
  exact if_pos free

end

/-- Settles O47: an admitted request runs its operation (`serve_admitted`), which goes by the state of the slot and the
room in the record buffer. -/
theorem recordUnitClosesExportsAndImports : Obligations.RecordUnitClosesExportsAndImports := by
  intro s exported
  refine ⟨?_, ?_⟩
  · intro r admitted s'
    refine ⟨fun args => ?_, fun a args => ?_, fun a x args => ?_⟩
    · have served : exec (.close r) s = .next (takeClose r s') :=
        congrArg Host.Outcome.next (serve_admitted admitted (parse := Args.nothing) (a := ()) (if_pos args))
      rw [served]
      exact ⟨fun idle => congrArg Host.Outcome.next (takeClose_idle (s := s') idle),
        fun pending => congrArg Host.Outcome.next (takeClose_pending (s := s') pending)⟩
    · intro k
      have served : exec (.exportTenant r) s = .next (takeExport r a s') :=
        congrArg Host.Outcome.next (serve_admitted admitted args)
      rw [served]
      exact ⟨fun free => congrArg Host.Outcome.next (takeExport_free (s := s') free),
        fun taken room => congrArg Host.Outcome.next (takeExport_room (s := s') taken room),
        fun taken full => congrArg Host.Outcome.next (takeExport_full (s := s') taken full)⟩
    · have served : exec (.importTenant r) s = .next (takeImport r (a, x) s') :=
        congrArg Host.Outcome.next (serve_admitted admitted args)
      rw [served]
      exact ⟨fun taken => congrArg Host.Outcome.next (takeImport_taken (s := s') taken),
        fun free => congrArg Host.Outcome.next (takeImport_free (s := s') free (min_allowance x.budget x.contract))⟩
  · intro j job k s'
    refine ⟨exec_exportResume_full job, fun room free => ?_, fun room taken => ?_⟩
    · rw [exec_exportResume_room job room, resumeExport_free free]
      rfl
    · rw [exec_exportResume_room job room, resumeExport_taken taken]
      rfl

end Sys2Proof.Machine


/-! The bytes of a TRANSFER record read back by IMPORT (R158, R159, R171, Table 9.10). -/

namespace Sys2Proof.Machine

/-! ### Fields of bytes laid one after the other -/

@[simp] theorem beBytes_length (k v : Nat) : (beBytes k v).length = k := by
  induction k with
  | zero => rfl
  | succ k ih => rw [beBytes, List.length_cons, ih]

/-- A field that lies past the front part is a field of the rest. -/
theorem fieldBytes_past {front : List Byte} {k : Nat} (length : front.length = k) (rest : List Byte) {off : Nat}
    (past : k ≤ off) (len : Nat) : fieldBytes (front ++ rest) off len = fieldBytes rest (off - k) len := by
  subst length
  unfold fieldBytes
  rw [List.drop_append, List.drop_eq_nil_of_le past, List.nil_append]

theorem fieldBytes_front {front : List Byte} {len : Nat} (length : front.length = len) (rest : List Byte) :
    fieldBytes (front ++ rest) 0 len = front := by
  unfold fieldBytes
  rw [List.drop_zero, List.take_left' length]

theorem fieldBytes_succ (b : Byte) (rest : List Byte) (off len : Nat) :
    fieldBytes (b :: rest) (off + 1) len = fieldBytes rest off len := rfl

theorem fieldBytes_beBytes (k v : Nat) (rest : List Byte) : fieldBytes (beBytes k v ++ rest) 0 k = beBytes k v :=
  fieldBytes_front (beBytes_length k v) rest

theorem fieldBytes_beBytes_past (v : Nat) (rest : List Byte) {k off : Nat} (past : k ≤ off) (len : Nat) :
    fieldBytes (beBytes k v ++ rest) off len = fieldBytes rest (off - k) len :=
  fieldBytes_past (beBytes_length k v) rest past len

theorem beNat_byte (b : Byte) (rest : List Byte) : beNat (fieldBytes (b :: rest) 0 1) = b.toNat := fieldAt_zero b rest

/-! ### Codes -/

theorem slotOf_slotByte (a : Slot) : slotOf (slotByte a).toNat = some a := by
  unfold slotByte
  rw [toNat_byte (by omega), slotOf_succ]

theorem exportStateOf_tenantStateByte {x : TenantState} (taken : x ≠ .free) :
    exportStateOf (tenantStateByte x).toNat = some x := by
  cases x with
  | free => exact absurd rfl taken
  | active => rfl
  | suspended => rfl

theorem verdictOf_code (v : Verdict) : verdictOf v.code = some v := by cases v <;> rfl

theorem Verdict.code_lt (v : Verdict) : v.code < 256 := by cases v <;> decide

theorem basisOf_basisByte (b : Basis) : basisOf (basisByte b).toNat = some b := by cases b <;> rfl

theorem capacityOf_code (c : Capacity) : capacityOf (c.scale.toNat * 2 ^ 14 + c.value.toNat) = some c := by
  have value := c.value.isLt
  have scale := c.scale.isLt
  have bytes := capacityOf_bytes c
  rwa [BitVec.toNat_ofNat, BitVec.toNat_ofNat, show (c.scale.toNat * 64 + c.value.toNat / 256) % 2 ^ 8 * 256 +
    c.value.toNat % 2 ^ 8 = c.scale.toNat * 2 ^ 14 + c.value.toNat by omega] at bytes

theorem Capacity.code_lt (c : Capacity) : c.scale.toNat * 2 ^ 14 + c.value.toNat < 256 ^ 2 := by
  have value := c.value.isLt
  have scale := c.scale.isLt
  omega

/-! ### Contracts (R43) -/

theorem Contract.valid_iff (c : Contract) : c.valid = true ↔
    (50 ≤ c.warn ∧ c.warn ≤ 100 ∧ c.tolerance ≤ 15 ∧ 1 ≤ c.release ∧ c.release ≤ 15) ∧
      ∀ b, c.burst = some b → 1 ≤ b.allowance ∧ b.allowance ≤ 65535 ∧ b.refill ≤ 65535 := by
  unfold Contract.valid
  cases c.burst <;> simp

theorem Contract.bytes_length (c : Contract) : c.bytes.length = 13 := by
  unfold Contract.bytes capacityBytes
  cases c.burst <;> rfl

/-- The present byte and the two fields of the burst part, which is sent as 0 when absent (R171). -/
theorem Contract.burst_bytes {c : Contract}
    (burst : ∀ b, c.burst = some b → b.allowance ≤ 65535 ∧ b.refill ≤ 65535) :
    boolOf (fieldAt c.bytes 8 1) = some c.burst.isSome ∧
      (if c.burst.isSome = true then some ⟨fieldAt c.bytes 9 2, fieldAt c.bytes 11 2⟩ else none) = c.burst := by
  obtain ⟨basis, capacity, warn, tolerance, release, _ | b⟩ := c
  · exact ⟨rfl, rfl⟩
  · obtain ⟨allowance, refill⟩ := burst b rfl
    have allowanceAt : fieldAt (Contract.bytes ⟨basis, capacity, warn, tolerance, release, some b⟩) 9 2 = b.allowance :=
      beNat_beBytes 2 _ (by omega)
    have refillAt : fieldAt (Contract.bytes ⟨basis, capacity, warn, tolerance, release, some b⟩) 11 2 = b.refill :=
      beNat_beBytes 2 _ (by omega)
    rw [allowanceAt, refillAt]
    exact ⟨rfl, rfl⟩

theorem contractOf_bytes {c : Contract} (valid : c.valid = true) : contractOf c.bytes = some c := by
  obtain ⟨⟨_, warn, tolerance, _, release⟩, burst⟩ := c.valid_iff.mp valid
  obtain ⟨present, burst⟩ := Contract.burst_bytes fun b h => (burst b h).2
  have basis : fieldAt c.bytes 0 1 = (basisByte c.basis).toNat := fieldAt_zero _ _
  have capA : fieldAt c.bytes 1 2 = c.capacity.a.scale.toNat * 2 ^ 14 + c.capacity.a.value.toNat :=
    beNat_beBytes 2 _ c.capacity.a.code_lt
  have capB : fieldAt c.bytes 3 2 = c.capacity.b.scale.toNat * 2 ^ 14 + c.capacity.b.value.toNat :=
    beNat_beBytes 2 _ c.capacity.b.code_lt
  have warned : fieldAt c.bytes 5 1 = c.warn := beNat_beBytes 1 _ (by omega)
  have tolerated : fieldAt c.bytes 6 1 = c.tolerance := beNat_beBytes 1 _ (by omega)
  have released : fieldAt c.bytes 7 1 = c.release := beNat_beBytes 1 _ (by omega)
  simp only [contractOf, basis, capA, capB, warned, tolerated, released, present, burst, basisOf_basisByte,
    capacityOf_code, bind, Option.bind_some]
  exact if_pos ⟨c.bytes_length, valid⟩

theorem pendingContractBytes_length (c : Option Contract) : (pendingContractBytes c).length = 14 := by
  cases c with
  | none => rfl
  | some c => exact congrArg (· + 1) c.bytes_length

theorem pendingContractOf_bytes {c : Option Contract} (valid : ∀ x, c = some x → x.valid = true) :
    pendingContractOf (pendingContractBytes c) = some c := by
  cases c with
  | none => rfl
  | some x =>
    have read : contractOf ((pendingContractBytes (some x)).drop 1) = some x := contractOf_bytes (valid x rfl)
    unfold pendingContractOf
    rw [read]
    rfl

/-! ### The record (Table 9.10) -/

namespace TransferRecord

theorem body_length (r : TransferRecord) : r.body.length = 113 := by
  unfold body feedBytes
  simp only [List.length_append, List.length_cons, List.length_nil, beBytes_length,
    Contract.bytes_length, pendingContractBytes_length]

theorem bytes_length (r : TransferRecord) : r.bytes.length = 115 := by
  unfold bytes withRecordCheck
  rw [List.length_append, r.body_length, beBytes_length]

theorem take_bytes (r : TransferRecord) : r.bytes.take 113 = r.body := List.take_left' r.body_length

theorem check_bytes (r : TransferRecord) : fieldAt r.bytes 113 2 = (crc16 r.body).toNat := by
  have check : fieldBytes r.bytes 113 2 = beBytes 2 (crc16 r.body).toNat :=
    fieldBytes_past r.body_length _ (Nat.le_refl 113) 2
  exact (congrArg beNat check).trans (beNat_beBytes 2 _ (crc16 r.body).isLt)

/-- The numbers of the record fit the widths that Table 9.10 gives them. -/
structure Fits (r : TransferRecord) : Prop where
  lifetimeA : r.lifetime.a < 2 ^ 64
  lifetimeB : r.lifetime.b < 2 ^ 64
  baselineA : r.baseline.a < 2 ^ 64
  baselineB : r.baseline.b < 2 ^ 64
  budget : r.budget < 2 ^ 64
  streak : r.streak < 2 ^ 8
  unmetered : r.unmetered < 2 ^ 32
  peak : r.peak < 2 ^ 40
  breachTime : r.breachTime < 2 ^ 32
  excursionTime : r.excursionTime < 2 ^ 32

/-- What the record's bytes hold at each offset that IMPORT reads. -/
theorem fields_of_bytes {r : TransferRecord} (fits : r.Fits) :
    fieldAt r.bytes 0 1 = 2 ∧ fieldAt r.bytes 1 1 = (slotByte r.source).toNat ∧
    fieldAt r.bytes 2 4 = r.exportTime.toNat ∧ fieldAt r.bytes 6 1 = (tenantStateByte r.state).toNat ∧
    fieldBytes r.bytes 7 13 = r.contract.bytes ∧ fieldBytes r.bytes 20 14 = pendingContractBytes r.pendingContract ∧
    fieldAt r.bytes 34 8 = r.lifetime.a ∧ fieldAt r.bytes 42 8 = r.lifetime.b ∧
    fieldAt r.bytes 50 8 = r.baseline.a ∧ fieldAt r.bytes 58 8 = r.baseline.b ∧
    fieldAt r.bytes 66 8 = r.preset.toNat ∧ fieldAt r.bytes 74 8 = r.budget ∧ fieldAt r.bytes 82 1 = r.verdict.code ∧
    fieldAt r.bytes 83 1 = r.streak ∧ fieldAt r.bytes 84 4 = r.lastVisit.toNat ∧ fieldAt r.bytes 88 4 = r.unmetered ∧
    fieldAt r.bytes 92 2 = r.periodNumber.toNat ∧ fieldAt r.bytes 94 4 = r.periodStart.toNat ∧
    fieldAt r.bytes 98 5 = r.peak ∧ fieldAt r.bytes 103 4 = r.breachTime ∧ fieldAt r.bytes 107 4 = r.excursionTime ∧
    fieldAt r.bytes 111 2 = r.lastClose.toNat := by
  obtain ⟨lifetimeA, lifetimeB, baselineA, baselineB, budget, streak, unmetered, peak, breachTime, excursionTime⟩ := fits
  have verdict := r.verdict.code_lt
  have contractPast := fieldBytes_past r.contract.bytes_length
  have pendingPast := fieldBytes_past (pendingContractBytes_length r.pendingContract)
  have contractFront := fieldBytes_front r.contract.bytes_length
  have pendingFront := fieldBytes_front (pendingContractBytes_length r.pendingContract)
  unfold bytes withRecordCheck body feedBytes fieldAt
  simp only [List.append_assoc, List.cons_append, List.nil_append]
  refine ⟨beNat_byte .., ?_⟩
  simp (disch := omega) only [fieldBytes_succ, fieldBytes_beBytes_past, contractPast, pendingPast, Nat.reduceSub,
    fieldBytes_beBytes, contractFront, pendingFront, beNat_byte, beNat_beBytes, and_true]

theorem transferOf_bytes {r : TransferRecord} (fits : r.Fits) (state : r.state ≠ .free)
    (contract : r.contract.valid = true) (pending : ∀ c, r.pendingContract = some c → c.valid = true)
    (baselineA : r.baseline.a ≤ r.lifetime.a) (baselineB : r.baseline.b ≤ r.lifetime.b) (streak : r.streak ≤ 15) :
    transferOf r.bytes = some r := by
  obtain ⟨kind, sourceAt, exportTimeAt, stateAt, contractAt, pendingAt, lifetimeA, lifetimeB, baseA, baseB, preset,
    budget, verdict, streakAt, lastVisit, unmetered, periodNumber, periodStart, peak, breachTime, excursionTime,
    lastClose⟩ := fields_of_bytes fits
  simp only [transferOf, sourceAt, exportTimeAt, stateAt, contractAt, pendingAt, lifetimeA, lifetimeB, baseA, baseB, preset,
    budget, verdict, streakAt, lastVisit, unmetered, periodNumber, periodStart, peak, breachTime, excursionTime, lastClose,
    slotOf_slotByte, exportStateOf_tenantStateByte state, contractOf_bytes contract,
    pendingContractOf_bytes pending, verdictOf_code, bind, Option.bind_some, BitVec.ofNat_toNat, BitVec.setWidth_eq]
  exact if_pos ⟨r.bytes_length, kind, by rw [r.check_bytes, r.take_bytes], baselineA, baselineB, streak⟩

end TransferRecord

/-- Settles O53 by `transferOf_bytes`: a baseline fits its width as it is at most its lifetime energy, a streak as it is at
most 15. -/
theorem transferRecordReadsBackWhole : Obligations.TransferRecordReadsBackWhole := by
  intro r state contract pending baselineA baselineB lifetimeA lifetimeB budget streak unmetered peak breachTime
    excursionTime
  have fits : r.Fits := {
    lifetimeA, lifetimeB, budget, unmetered, peak, breachTime, excursionTime
    baselineA := Nat.lt_of_le_of_lt baselineA lifetimeA
    baselineB := Nat.lt_of_le_of_lt baselineB lifetimeB
    streak := Nat.lt_of_le_of_lt streak (by decide) }
  exact ⟨r.bytes_length, TransferRecord.transferOf_bytes fits state contract pending baselineA baselineB streak⟩

end Sys2Proof.Machine


/-! The transmitters and the payloads the part originates (R168 to R171, Tables 9.5 to 9.10). -/

namespace Sys2Proof.Machine

/-! ### The uplink arbiter (R169, R170) -/

section
variable {u : Uplink}

theorem Uplink.sendDone_reply {r : Reply} {rest : List Reply} (replies : u.replies = r :: rest) :
    u.sendDone = { u with
      replies := rest, seq := u.seq + 1, freeCount := u.freeCount + 1,
      tx := some (Frame.make kindReply 0 u.seq (r.payload (Config.freeByte u.freeCount))) } := by
  unfold Uplink.sendDone Uplink.take
  dsimp only
  rw [replies]
  rfl

theorem Uplink.sendDone_notice {n : Notice} {rest : List Notice} (replies : u.replies = [])
    (notices : u.notices = n :: rest) : u.sendDone = { u with
      notices := rest, seq := u.seq + 1, tx := some (Frame.make kindNotice 0 u.seq n.payload) } := by
  unfold Uplink.sendDone Uplink.take
  dsimp only
  rw [replies, notices]
  rfl

theorem Uplink.sendDone_transit {f : Frame} {rest : List Frame} (replies : u.replies = []) (notices : u.notices = [])
    (transit : u.transit = f :: rest) (chosen : u.records = [] ∨ u.turn = .transit) :
    u.sendDone = { u with transit := rest, tx := some f, turn := .record } := by
  unfold Uplink.sendDone Uplink.take
  dsimp only
  rw [replies, notices, transit]
  cases records : u.records with
  | nil => rfl
  | cons r rs =>
    have turn : u.turn = .transit := chosen.resolve_left (records ▸ List.cons_ne_nil r rs)
    rw [turn]
    rfl

theorem Uplink.sendDone_record {r : AccountRecord} {rest : List AccountRecord} (replies : u.replies = [])
    (notices : u.notices = []) (records : u.records = r :: rest) (chosen : u.transit = [] ∨ u.turn = .record) :
    u.sendDone = { u with
      records := rest, seq := u.seq + 1, turn := .transit, recordFreed := true,
      tx := some (Frame.make kindAccount 0 u.seq r.bytes) } := by
  unfold Uplink.sendDone Uplink.take
  dsimp only
  rw [replies, notices, records]
  cases transit : u.transit with
  | nil => rfl
  | cons f fs =>
    have turn : u.turn = .record := chosen.resolve_left (transit ▸ List.cons_ne_nil f fs)
    rw [turn]
    rfl

theorem Uplink.sendDone_nothing (replies : u.replies = []) (notices : u.notices = []) (transit : u.transit = [])
    (records : u.records = []) : u.sendDone = { u with tx := none } := by
  unfold Uplink.sendDone Uplink.take
  dsimp only
  rw [replies, notices, transit, records]

theorem Uplink.sendDone_idle (idle : u.tx = none) : u.sendDone = u.take := by
  unfold Uplink.sendDone
  rw [← idle]

theorem Uplink.take_sending (sending : u.tx ≠ none) : u.take = u := by
  obtain ⟨f, sending⟩ := Option.ne_none_iff_exists'.mp sending
  exact Uplink.take_busy sending

end

/-! ### The node transmitter (R168, R170) -/

theorem NodeTx.sendDone_empty {d : NodeTx} (queue : d.queue = []) : d.sendDone = { d with tx := none } := by
  unfold NodeTx.sendDone NodeTx.take
  dsimp only
  rw [queue]

theorem NodeTx.sendDone_head {d : NodeTx} {i : NodeItem} {rest : List NodeItem} (queue : d.queue = i :: rest) :
    d.sendDone = { queue := rest, tx := some (i.frame d.seq), seq := if i.originated then d.seq + 1 else d.seq } := by
  unfold NodeTx.sendDone NodeTx.take
  dsimp only
  rw [queue]

/-! ### The commands -/

theorem exec_uplinkSendDone {s : State} {u : Uplink} (done : s.up.sendDone = u) :
    exec .uplinkSendDone s = .next (s.withUp u) := done ▸ rfl

theorem exec_nodeSendDone {s : State} {d : NodeTx} (done : s.down.sendDone = d) :
    exec .nodeSendDone s = .next (s.withDown d) := done ▸ rfl

/-! ### Payloads (R171, Tables 9.5 to 9.10) -/

theorem beBytes_eq_range (k v : Nat) :
    beBytes k v = (List.range k).map (fun j => BitVec.ofNat 8 (v / 256 ^ (k - 1 - j))) := by
  induction k with
  | zero => rfl
  | succ k ih =>
    rw [beBytes, ih, List.range_succ_eq_map, List.map_cons, List.map_map]
    congr 1
    refine List.map_congr_left fun j _ => ?_
    show _ = BitVec.ofNat 8 (v / 256 ^ (k + 1 - 1 - (j + 1)))
    congr 3
    omega

theorem beInt_eight (i : Int) : beInt 8 i = beBytes 8 (i % 2 ^ 64).toNat := by
  unfold beInt
  rw [show (256 : Int) ^ 8 = 2 ^ 64 from rfl]

theorem boolByte_not (x : Bool) : boolByte (!x) = if x = true then 0 else 1 := by cases x <;> rfl

theorem boolByte_decide_not (p : Prop) [Decidable p] : boolByte (decide ¬ p) = if p then 0 else 1 := by
  by_cases h : p <;> simp [boolByte, h]

/-- Settles O8: the commands by what each transmitter takes; each payload once the statement's field layouts are seen to be
the model's, which leaves only the one-byte fields (`beBytes_one`) and the codes to compare. -/
theorem transmittersTakeTheirNextFrame : Obligations.TransmittersTakeTheirNextFrame := by
  refine ⟨fun s => ?_, fun s => ?_, ?_⟩
  · exact ⟨fun r rest replies => exec_uplinkSendDone (Uplink.sendDone_reply replies),
      fun n rest replies notices => exec_uplinkSendDone (Uplink.sendDone_notice replies notices),
      fun f rest replies notices transit chosen =>
        exec_uplinkSendDone (Uplink.sendDone_transit replies notices transit chosen),
      fun r rest replies notices records chosen =>
        exec_uplinkSendDone (Uplink.sendDone_record replies notices records chosen),
      fun replies notices transit records =>
        exec_uplinkSendDone (Uplink.sendDone_nothing replies notices transit records),
      fun idle => exec_uplinkSendDone (Uplink.sendDone_idle idle), Uplink.take_sending⟩
  · exact ⟨fun queue => exec_nodeSendDone (NodeTx.sendDone_empty queue),
      fun f rest queue => exec_nodeSendDone (NodeTx.sendDone_head queue),
      fun n number outlet relay indicator rest queue => exec_nodeSendDone (NodeTx.sendDone_head queue),
      fun n c rest queue => exec_nodeSendDone (NodeTx.sendDone_head queue)⟩
  · intro b be both yes slot address power status verdict relay indicator tenantState nodeState basis membership contract
      pendingContract port checked
    -- The layouts of single fields, then those of contracts and counts, become the model's own.
    have b_eq : b = BitVec.ofNat 8 := rfl
    have be_eq : be = beBytes := funext fun k => funext fun v => (beBytes_eq_range k v).symm
    have status_eq : status = Status.code := funext fun x => by cases x <;> rfl
    have verdict_eq : verdict = fun x => BitVec.ofNat 8 x.code := funext fun x => by cases x <;> rfl
    have relay_eq : relay = relayByte := funext fun x => by cases x <;> rfl
    have indicator_eq : indicator = indicatorByte := funext fun x => by cases x <;> rfl
    have tenantState_eq : tenantState = tenantStateByte := funext fun x => by cases x <;> rfl
    have nodeState_eq : nodeState = nodeStateByte := funext fun x => by cases x <;> rfl
    have basis_eq : basis = basisByte := funext fun x => by cases x <;> rfl
    have yes_eq : yes = boolByte := rfl
    have slot_eq : slot = slotByte := rfl
    have address_eq : address = fun i => addressBytes (some i) := rfl
    have membership_eq : membership = membershipBytes := funext fun m => by
      obtain ⟨_ | a, _ | _, x⟩ := m <;> rfl
    clear_value membership b be status verdict relay indicator tenantState nodeState basis yes slot address
    subst b_eq be_eq status_eq verdict_eq relay_eq indicator_eq tenantState_eq nodeState_eq basis_eq yes_eq
      slot_eq address_eq membership_eq
    have power_eq : power = capacityBytes := rfl
    have both_eq : both = feedBytes := rfl
    have port_eq : port = PortCounts.bytes := rfl
    have checked_eq : checked = withRecordCheck := rfl
    have contract_eq : contract = Contract.bytes := funext fun c => by
      unfold Contract.bytes
      simp only [beBytes_one]
      obtain ⟨_, _, _, _, _, _ | x⟩ := c <;> rfl
    clear_value contract power both port checked
    subst contract_eq power_eq both_eq port_eq checked_eq
    have pendingContract_eq : pendingContract = pendingContractBytes := funext fun c => by cases c <;> rfl
    clear_value pendingContract
    subst pendingContract_eq
    refine ⟨fun _ => rfl, fun _ => rfl, rfl, rfl, fun r free => ?_, fun n => ?_, fun r => ?_, fun r => ?_⟩
    · obtain ⟨unit, tag, status, data⟩ := r
      refine congrArg ([unit, tag, status.code] ++ ·) ?_
      cases data with
      | none => rfl
      | entries es =>
        refine congrArg (es.flatMap ·) (funext fun e => ?_)
        unfold Outlet.bytes
        simp only [beBytes_one]
        cases e.pending <;> rfl
      | assigned applied staged superseded => simp only [ReplyData.bytes, beBytes_one]; rfl
      | changed n => rfl
      | profile p =>
        show p.bytes = _
        unfold Profile.bytes Profile.degree coefficientBytes
        simp only [beBytes_one]
        cases p.c2 <;> rfl
      | tenant k =>
        show k.bytes = _
        unfold Tenant.bytes
        simp only [beBytes_one]
      | link l =>
        show l.bytes = _
        unfold Link.bytes
        rw [boolByte_not]
        rfl
      | order number x y => rfl
      | shed outlet number x => cases outlet <;> cases x <;> rfl
      | node k =>
        show k.bytes = _
        unfold Node.bytes
        rw [boolByte_decide_not, beBytes_one]
        rfl
      | states ns => rfl
      | closeNumber n => rfl
      | slotPeriod a n => rfl
      | ident => rfl
      | status x =>
        show x.bytes = _
        unfold StatusReport.bytes
        simp only [beBytes_one]
        rfl
      | tags ts => rfl
    · obtain ⟨time, subject⟩ := n
      intro kind
      refine congrArg ([kind, 0] ++ beBytes 4 time.toNat ++ ·) ?_
      cases subject with
      | link l event depth c counter =>
        simp only [NoticeSubject.bytes, beBytes_one]
        rfl
      | conversion i flag => cases flag <;> rfl
      | order kind a number outlet reason reported =>
        cases outlet <;> obtain _ | _ | _ := reported <;> rfl
      | chain event => rfl
      | overrun a waiting => rfl
    · intro body
      have same : r.bytes = withRecordCheck body := by
        unfold PeriodRecord.bytes
        simp only [beInt_eight, beBytes_one, body, List.append_assoc, List.cons_append, List.nil_append]
      refine ⟨?_, same⟩
      simp only [body, feedBytes, List.length_append, List.length_cons, List.length_nil, beBytes_length]
    · intro body
      have same : r.body = body := by
        unfold TransferRecord.body
        simp only [beBytes_one, body, List.append_assoc, List.cons_append, List.nil_append]
      exact ⟨same ▸ r.body_length, congrArg withRecordCheck same⟩

end Sys2Proof.Machine


/-! What keeps every queue within its capacity and idle transmitters with nothing to send (Table 0.1, R168, R169). -/

namespace Sys2Proof.Machine

/-! ### The three blocks with queues -/

/-- The uplink side's part of `Bounds`. -/
structure Uplink.Bounded (u : Uplink) : Prop where
  replies : u.replies.length ≤ Config.replyDepth
  notices : u.notices.length ≤ Config.noticeDepth
  transit : u.transit.length ≤ Config.transitDepth
  records : u.records.length ≤ Config.recordDepth
  idle : u.tx = none → u.replies = [] ∧ u.notices = [] ∧ u.transit = [] ∧ u.records = []

/-- The node transmitter's part of `Bounds`. -/
structure NodeTx.Bounded (d : NodeTx) : Prop where
  queue : d.queue.length ≤ Config.nodeQueueDepth
  idle : d.tx = none → d.queue = []

/-- The link table's part of `Bounds`. -/
structure LinkTable.Bounded (l : LinkTable) : Prop where
  shedQueue : l.shedQueue.length ≤ Config.shedQueueDepth
  store : l.chain.length + l.arrivals.length ≤ Config.eventStoreDepth

theorem bounds_iff (s : State) : Bounds s ↔ s.up.Bounded ∧ s.down.Bounded ∧ s.links.Bounded :=
  ⟨fun ⟨replies, notices, transit, records, down, shedQueue, store, uplinkIdle, nodeIdle⟩ =>
    ⟨⟨replies, notices, transit, records, uplinkIdle⟩, ⟨down, nodeIdle⟩, ⟨shedQueue, store⟩⟩,
  fun ⟨⟨replies, notices, transit, records, uplinkIdle⟩, ⟨down, nodeIdle⟩, ⟨shedQueue, store⟩⟩ =>
    ⟨replies, notices, transit, records, down, shedQueue, store, uplinkIdle, nodeIdle⟩⟩

theorem length_concat_le {α : Type} {l : List α} {n : Nat} (room : l.length < n) (x : α) : (l ++ [x]).length ≤ n := by
  rw [List.length_append]; exact room

theorem length_le_of_or_tail {α : Type} {l k : List α} (h : k = l ∨ k = l.tail) : k.length ≤ l.length := by
  rcases h with rfl | rfl
  · exact Nat.le_refl _
  · rw [List.length_tail]; exact Nat.sub_le ..

/-- The arbiter leaves something waiting at a busy transmitter only, and takes from queues without adding (R169). -/
theorem Uplink.take_bounded {u : Uplink} (replies : u.replies.length ≤ Config.replyDepth)
    (notices : u.notices.length ≤ Config.noticeDepth) (transit : u.transit.length ≤ Config.transitDepth)
    (records : u.records.length ≤ Config.recordDepth) : u.take.Bounded := by
  obtain ⟨hReplies, hNotices, hTransit, hRecords⟩ := u.take_queues
  exact ⟨Nat.le_trans (length_le_of_or_tail hReplies) replies, Nat.le_trans (length_le_of_or_tail hNotices) notices,
    Nat.le_trans (length_le_of_or_tail hTransit) transit, Nat.le_trans (length_le_of_or_tail hRecords) records,
    u.take_idle⟩

theorem NodeTx.take_bounded {d : NodeTx} (queue : d.queue.length ≤ Config.nodeQueueDepth) : d.take.Bounded := by
  obtain ⟨taken, idle⟩ := d.take_spec
  exact ⟨Nat.le_trans (length_le_of_or_tail taken) queue, idle⟩

theorem Uplink.sendDone_bounded {u : Uplink} (h : u.Bounded) : u.sendDone.Bounded :=
  Uplink.take_bounded h.replies h.notices h.transit h.records

theorem NodeTx.sendDone_bounded {d : NodeTx} (h : d.Bounded) : d.sendDone.Bounded := NodeTx.take_bounded h.queue

theorem NodeTx.join_bounded {d : NodeTx} (room : d.hasRoom = true) (i : NodeItem) : (d.join i).Bounded :=
  NodeTx.take_bounded (length_concat_le ((hasRoom_iff d).mp room) i)

/-! ### Combinators -/

/-- The step from `s` to `t` keeps each block with queues within its bounds. -/
structure BoundsKept (s t : State) : Prop where
  up : s.up.Bounded → t.up.Bounded
  down : s.down.Bounded → t.down.Bounded
  links : s.links.Bounded → t.links.Bounded

namespace BoundsKept

theorem sound {s t : State} (h : BoundsKept s t) (bounds : Bounds s) : Bounds t := by
  obtain ⟨up, down, links⟩ := (bounds_iff s).mp bounds
  exact (bounds_iff t).mpr ⟨h.up up, h.down down, h.links links⟩

theorem refl (s : State) : BoundsKept s s := ⟨id, id, id⟩

theorem trans {s t u : State} (h : BoundsKept s t) (k : BoundsKept t u) : BoundsKept s u :=
  ⟨k.up ∘ h.up, k.down ∘ h.down, k.links ∘ h.links⟩

/-- `trans`, the later step first. -/
theorem after {s t u : State} (k : BoundsKept t u) (h : BoundsKept s t) : BoundsKept s u := h.trans k

theorem foldl {α : Type} {f : State → α → State} (h : ∀ s a, BoundsKept s (f s a)) :
    ∀ (l : List α) (s : State), BoundsKept s (l.foldl f s)
  | [], s => .refl s
  | a :: l, s => (h s a).trans (foldl h l (f s a))

theorem iterate {f : State → State} (h : ∀ s, BoundsKept s (f s)) :
    ∀ (n : Nat) (s : State), BoundsKept s (Machine.iterate f n s)
  | 0, s => .refl s
  | n + 1, s => (h s).trans (iterate h n (f s))

/-- A case split whose two sides both keep. -/
theorem ite {s t u : State} {p : Prop} [Decidable p] (h : p → BoundsKept s t) (k : ¬ p → BoundsKept s u) :
    BoundsKept s (if p then t else u) := by
  split
  · next hp => exact h hp
  · next hp => exact k hp

/-- The three blocks with queues as they were. -/
theorem of_same {s t : State} (up : t.up = s.up) (down : t.down = s.down) (links : t.links = s.links) :
    BoundsKept s t := ⟨fun h => up ▸ h, fun h => down ▸ h, fun h => links ▸ h⟩

/-- What touches none of the three blocks with queues. -/
theorem of_touches {bs : List Block} {s t : State} (h : Touches bs s t) (up : bs.contains .up = false := by rfl)
    (down : bs.contains .down = false := by rfl) (links : bs.contains .links = false := by rfl) : BoundsKept s t :=
  of_same (h.2 .up up) (h.2 .down down) (h.2 .links links)

theorem withPending (s : State) (x : List Instr) : BoundsKept s (s.withPending x) := .of_same rfl rfl rfl
theorem withTime (s : State) (x : TimeBase) : BoundsKept s (s.withTime x) := .of_same rfl rfl rfl
theorem withProfiles (s : State) (x : Table Profile 16) : BoundsKept s (s.withProfiles x) := .of_same rfl rfl rfl
theorem withTenants (s : State) (x : Table Tenant 128) : BoundsKept s (s.withTenants x) := .of_same rfl rfl rfl
theorem withReview (s : State) (x : Review) : BoundsKept s (s.withReview x) := .of_same rfl rfl rfl
theorem withOrders (s : State) (x : OrderTable) : BoundsKept s (s.withOrders x) := .of_same rfl rfl rfl
theorem withPorts (s : State) (x : Ports) : BoundsKept s (s.withPorts x) := .of_same rfl rfl rfl
theorem withMgmt (s : State) (x : Management) : BoundsKept s (s.withMgmt x) := .of_same rfl rfl rfl

theorem withUp {s : State} {u : Uplink} (h : s.up.Bounded → u.Bounded) : BoundsKept s (s.withUp u) := ⟨h, id, id⟩
theorem withDown {s : State} {d : NodeTx} (h : s.down.Bounded → d.Bounded) : BoundsKept s (s.withDown d) := ⟨id, h, id⟩
theorem withLinks {s : State} {l : LinkTable} (h : s.links.Bounded → l.Bounded) : BoundsKept s (s.withLinks l) :=
  ⟨id, id, h⟩

end BoundsKept

/-! ### Entries that join a queue with room -/

theorem queueNotice_boundsKept (x : NoticeSubject) (s : State) : BoundsKept s (queueNotice x s) :=
  .ite (fun room => .withUp fun h => Uplink.take_bounded h.replies (length_concat_le (of_decide_eq_true room) _)
    h.transit h.records) fun _ => .withMgmt ..

theorem sendReply_boundsKept (r : Reply) (s : State) : BoundsKept s (sendReply r s) :=
  .ite (fun room => .withUp fun h => Uplink.take_bounded (length_concat_le room r) h.notices h.transit h.records)
    fun _ => .withMgmt ..

theorem joinTransit_boundsKept (f : Frame) (s : State) : BoundsKept s (joinTransit f s) :=
  .ite (fun room => .withUp fun h => Uplink.take_bounded h.replies h.notices (length_concat_le room f) h.records)
    fun _ => .of_same rfl rfl rfl

/-- The placer of a record has checked for room (R152). -/
theorem placeRecord_boundsKept {s : State} (room : recordRoom s = true) (r : AccountRecord) :
    BoundsKept s (placeRecord r s) :=
  .withUp fun h => Uplink.take_bounded h.replies h.notices h.transit (length_concat_le ((recordRoom_iff s).mp room) r)

theorem joinDown_boundsKept (f : Frame) (s : State) : BoundsKept s (joinDown f s) :=
  .ite (fun room => .withDown fun _ => NodeTx.join_bounded room _) fun _ => .withPorts ..

theorem sendLimitNote_boundsKept (n : NodeIx) (s : State) : BoundsKept s (sendLimitNote n s) :=
  .ite (fun room => ⟨id, fun _ => NodeTx.join_bounded room _, id⟩) fun _ => .of_touches (modifyNode_touches ..)

/-- The checks of R108 let an order pass with room in the node transmit queue only. -/
theorem hasRoom_of_placeRefusal {i : OutletIx} {s : State} (passes : placeRefusal i s = none) :
    s.down.hasRoom = true := by
  refine Decidable.byContradiction fun full => ?_
  unfold placeRefusal at passes
  rw [if_pos full] at passes
  split at passes
  · cases passes
  · split at passes
    · cases passes
    · split at passes
      · cases passes
      · split at passes <;> cases passes

theorem placeOrder_boundsKept {i : OutletIx} {s : State} (passes : placeRefusal i s = none) (r : RelayAction)
    (d : IndicatorAction) (o : OrderOrigin) : BoundsKept s (placeOrder i r d o s) :=
  ⟨id, fun _ => NodeTx.join_bounded (hasRoom_of_placeRefusal passes) _, id⟩

theorem joinShedQueue_boundsKept {s : State} (room : shedRoom s = true) (r : ShedRequest) :
    BoundsKept s (joinShedQueue r s) :=
  .withLinks fun h => { h with shedQueue := length_concat_le ((shedRoom_iff s).mp room) r }

/-! ### Answers -/

theorem answer_boundsKept (u : RequestUnit) (tag : Byte) (w : Bool) (st : Status) (d : ReplyData) (s : State) :
    BoundsKept s (answer u tag w st d s) := by
  have tagged : BoundsKept s (if st.accepts then setTag u tag s else s) := .ite (fun _ => .withMgmt ..) fun _ => .refl s
  exact .ite (fun _ => tagged.trans (sendReply_boundsKept ..)) fun _ => tagged

/-- An operation that keeps the bounds, with its answer. -/
theorem BoundsKept.answered {s t : State} {u : RequestUnit} {tag : Byte} {w : Bool} {st : Status} {d : ReplyData}
    (h : BoundsKept s t) : BoundsKept s (answer u tag w st d t) := h.trans (answer_boundsKept ..)

theorem answerSwitch_boundsKept (st : Status) (d : ReplyData) (s : State) : BoundsKept s (answerSwitch st d s) := by
  unfold answerSwitch
  split
  · exact .refl s
  · exact .answered (.withMgmt ..)

/-! ### Links and events -/

theorem modifyLink_boundsKept (l : LinkIx) (f : Link → Link) (s : State) : BoundsKept s (modifyLink l f s) :=
  .withLinks fun ⟨shedQueue, store⟩ => ⟨shedQueue, store⟩

theorem releaseGuards_boundsKept (s : State) : BoundsKept s (releaseGuards s) :=
  .withLinks fun ⟨shedQueue, store⟩ => ⟨shedQueue, store⟩

theorem reportChain_boundsKept (id : Word16) (s : State) : BoundsKept s (reportChain id s) :=
  (queueNotice_boundsKept ..).after (.withMgmt ..)

theorem discardEvent_boundsKept (id : Word16) (s : State) : BoundsKept s (discardEvent id s) :=
  (reportChain_boundsKept ..).after (.ite (fun _ => releaseGuards_boundsKept s) fun _ => .refl s)

/-- An event joins the arrivals of a store with room (R90). -/
theorem postAt_boundsKept (src : EventSource) (e : Event) (s : State) : BoundsKept s (postAt src e s) := by
  refine .ite (fun room => .withLinks fun h => { h with store := ?_ }) fun _ => discardEvent_boundsKept ..
  rw [List.length_append]
  exact (storeRoom_iff s).mp room

theorem post_boundsKept (src : EventSource) (id : Word16) (s : State) : BoundsKept s (post src id s) :=
  postAt_boundsKept src ⟨id, 0⟩ s

/-- An outcome event joins the chain in hand of a store with room (R90). -/
theorem postOutcome_boundsKept (l : LinkIx) (done : Bool) (depth : Nat) (s : State) :
    BoundsKept s (postOutcome l done depth s) := by
  refine .ite (fun room => .withLinks fun h => { h with store := ?_ }) fun _ => discardEvent_boundsKept ..
  rw [List.length_append, Nat.add_right_comm]
  exact (storeRoom_iff s).mp room

theorem performAction_boundsKept (l : LinkIx) (a : LinkAction) (counter c : Bool) (e : Event) (s : State) :
    BoundsKept s (performAction l a counter c e s) := by
  have outcome (done : Bool) (x : State) : BoundsKept x (postOutcome l done (e.depth + 1) x) :=
    postOutcome_boundsKept l done _ x
  have shed (kind : ShedKind) (t : Slot) (x : State) : BoundsKept x (linkShed kind t l (e.depth + 1) x) :=
    .ite (fun room => joinShedQueue_boundsKept room _) fun _ => outcome false x
  have dispatch (x : State) : BoundsKept x (dispatchAction l a counter c e x) := by
    cases a with
    | shed t => exact shed .shed t x
    | restore t => exact shed .restore t x
    | notify => exact (outcome ..).after (queueNotice_boundsKept ..)
    | latch t => exact .ite (fun _ => outcome ..) fun _ => (outcome ..).after (.withTenants ..)
    | close => exact .ite (fun _ => outcome ..) fun _ => (outcome ..).after (.withReview ..)
  exact (dispatch _).after (modifyLink_boundsKept ..)

theorem scanLink_boundsKept (e : Event) (s : State) (l : LinkIx) : BoundsKept s (scanLink e s l) := by
  rcases scanLink_cases e s l with apart | ⟨a, counter, c, x, acts, before⟩
  · rw [apart]; exact .refl s
  · rw [acts]
    refine (performAction_boundsKept l a counter c e x).after ?_
    rcases before with rfl | ⟨-, armed, rfl⟩ | ⟨last, rfl⟩
    · exact .refl _
    · exact modifyLink_boundsKept ..
    · exact modifyLink_boundsKept ..

theorem takeEvent_boundsKept (e : Event) (s : State) : BoundsKept s (takeEvent e s) := by
  have heeded : BoundsKept s (guardsHeeded e s) := .ite (fun _ => releaseGuards_boundsKept s) fun _ => .refl s
  rcases takeEvent_cases e s with discarded | reported | ⟨-, scanned⟩
  · rw [discarded]; exact heeded
  · rw [reported]; exact heeded.trans (reportChain_boundsKept ..)
  · rw [scanned]; exact heeded.trans (.foldl (scanLink_boundsKept e) ..)

/-- A store that gives up events stays within its capacity. -/
theorem BoundsKept.of_store {s : State} {chain : List Event} {arrivals : List Arrival}
    (fewer : chain.length + arrivals.length ≤ s.links.chain.length + s.links.arrivals.length) :
    BoundsKept s (s.withLinks { s.links with chain := chain, arrivals := arrivals }) :=
  .withLinks fun h => { h with store := Nat.le_trans fewer h.store }

theorem scanChain_boundsKept (s : State) : BoundsKept s (scanChain s) := by
  rcases chain : s.links.chain with _ | ⟨e, rest⟩
  · unfold scanChain; rw [chain]; exact .refl s
  · rw [scanChain_cons chain]
    refine (takeEvent_boundsKept ..).after (.of_store (Nat.add_le_add_right ?_ _))
    rw [chain]
    exact Nat.le_succ rest.length

theorem finishChain_boundsKept (s : State) : BoundsKept s (finishChain s) :=
  .iterate (fun _ => .iterate scanChain_boundsKept ..) 5 s

theorem takeWaiting_boundsKept (s : State) : BoundsKept s (takeWaiting s) :=
  (BoundsKept.foldl (fun x e => takeEvent_boundsKept e x) ..).after (.of_store (Nat.zero_le _))

theorem takeNextEvent_boundsKept (prefer : Option EventSource) (s : State) : BoundsKept s (takeNextEvent prefer s) := by
  unfold takeNextEvent
  split
  · exact scanChain_boundsKept s
  · split
    · exact .refl s
    · next a rest found =>
      obtain ⟨before, after, arrivals, rfl⟩ := nextArrival_split found
      refine (takeEvent_boundsKept ..).after (.of_store (Nat.add_le_add_left ?_ _))
      rw [arrivals, List.length_append, List.length_append]
      exact Nat.le_succ _

theorem takeReport_boundsKept (s : State) : BoundsKept s (takeReport s) := by
  unfold takeReport
  split
  · exact (postAt_boundsKept ..).after ((modifyLink_boundsKept ..).after
      (.withLinks fun ⟨shedQueue, store⟩ => ⟨shedQueue, store⟩))
  · exact .refl s
  · exact .refl s

/-! ### Orders and shed requests -/

theorem endShedRequest_boundsKept (e : RequestEnd) (s : State) : BoundsKept s (endShedRequest e s) := by
  have noted (n : NoticeSubject) : BoundsKept s (if e.done then s else queueNotice n s) :=
    .ite (fun _ => .refl s) fun _ => queueNotice_boundsKept ..
  unfold endShedRequest
  dsimp only
  split
  · exact (noted _).trans (.withLinks fun ⟨shedQueue, store⟩ => ⟨shedQueue, store⟩)
  · exact (noted _).trans (.ite (fun _ => answerSwitch_boundsKept ..) fun _ => .refl _)

theorem failShedRequest_boundsKept (kind : ShedKind) (t : Slot) (origin : RequestOrigin) (reason : Status) (s : State) :
    BoundsKept s (failShedRequest kind t origin reason s) := endShedRequest_boundsKept ..

theorem endOrder_boundsKept (o : Order) (e : Ending) (s : State) : BoundsKept s (endOrder o e s) := by
  have report (d : Bool) (r : RelayStatus) (i : Indicator) (x : State) : BoundsKept x (orderReport o e d r i x) := by
    unfold orderReport
    dsimp only
    split
    · exact endShedRequest_boundsKept ..
    · exact endShedRequest_boundsKept ..
    · exact .ite (fun _ => answerSwitch_boundsKept ..) fun _ => .refl x
  unfold endOrder
  dsimp only
  exact (report ..).after ((BoundsKept.withOrders ..).after
    ((BoundsKept.of_touches (orderStackStep_touches o e s)).trans (.of_touches (modifyOutlet_touches ..))))

/-- A node that leaves: its orders end, each with a notice or an answer, and its event is posted (R113, R134, R135). -/
theorem leaveNode_boundsKept (n : NodeIx) (after : NodeState) (k : Nat) (s : State) :
    BoundsKept s (leaveNode n after k s) :=
  (post_boundsKept ..).after ((BoundsKept.foldl (fun x o => endOrder_boundsKept o .nodeLost x) ..).after
    (BoundsKept.after (.of_touches (clearFreshness_touches ..)) (.of_touches (modifyNode_touches ..))))

theorem expireNode_boundsKept (n : NodeIx) (s : State) : BoundsKept s (expireNode n s) :=
  .ite (fun _ => leaveNode_boundsKept ..) fun _ => .refl s

theorem expireOrder_boundsKept (number : Byte) (s : State) : BoundsKept s (expireOrder number s) := by
  unfold expireOrder
  split
  · exact .refl s
  · exact .ite (fun _ => endOrder_boundsKept ..) fun _ => .refl s

theorem takeShed_boundsKept (t : Slot) (o : RequestOrigin) (s : State) : BoundsKept s (takeShed t o s) := by
  unfold takeShed
  split
  · exact failShedRequest_boundsKept ..
  · exact .withOrders ..

theorem takeRestore_boundsKept (t : Slot) (o : RequestOrigin) (s : State) : BoundsKept s (takeRestore t o s) := by
  unfold takeRestore
  split
  · exact failShedRequest_boundsKept ..
  · next target =>
    exact (placeOrder_boundsKept (placeRefusal_of_restoreTarget target) ..).trans (.of_same rfl rfl rfl)

theorem takeShedRequest_boundsKept (s : State) : BoundsKept s (takeShedRequest s) := by
  unfold takeShedRequest
  split
  · next r rest _ waiting =>
    have taken : BoundsKept s (s.withLinks { s.links with shedQueue := rest }) := by
      refine .withLinks fun h => { h with shedQueue := Nat.le_of_succ_le ?_ }
      have bound := h.shedQueue
      rw [waiting] at bound
      exact bound
    dsimp only
    split
    · exact taken.trans (takeShed_boundsKept ..)
    · exact taken.trans (takeRestore_boundsKept ..)
  · exact .refl s
  · exact .refl s

theorem endSearch_boundsKept (q : Search) (s : State) : BoundsKept s (endSearch q s) := by
  have idle : BoundsKept s (setSearch none s) := .withOrders ..
  unfold endSearch
  split
  · exact idle.trans (failShedRequest_boundsKept ..)
  · next i target =>
    have passes : placeRefusal i (setSearch none s) = none := placeRefusal_of_shedTarget target
    exact idle.trans ((placeOrder_boundsKept passes ..).trans (.withTenants ..))

theorem takeSwitchOrder_boundsKept (r : Request) (a : OutletIx × RelayAction × IndicatorAction) (s : State) :
    BoundsKept s (takeSwitchOrder r a s) := by
  have released (i : OutletIx) (x : State) : BoundsKept x (releaseShed i x) := by
    unfold releaseShed
    dsimp only
    split <;> exact .of_same rfl rfl rfl
  refine .ite (fun _ => answer_boundsKept ..) fun _ => .ite (fun _ => answer_boundsKept ..) fun _ => ?_
  split
  · exact answer_boundsKept ..
  · next passes =>
    have placed : BoundsKept s (holdSwitch r (placeOrder a.1 a.2.1 a.2.2 (.management r.tag true) s)) :=
      (placeOrder_boundsKept (placeRefusal_of_switchRefusal passes) ..).trans (.withMgmt ..)
    exact .ite (fun _ => placed.trans (released ..)) fun _ => placed

theorem takeSwitchShed_boundsKept (kind : ShedKind) (r : Request) (t : Slot) (s : State) :
    BoundsKept s (takeSwitchShed kind r t s) :=
  .ite (fun _ => answer_boundsKept ..) fun _ => .ite
    (fun room => (joinShedQueue_boundsKept room _).trans (.withMgmt ..)) fun _ => answer_boundsKept ..

end Sys2Proof.Machine


/-! Every command keeps the queues within their capacities (Table 0.1, R168, R169). -/

namespace Sys2Proof.Machine

/-! ### Frames and requests -/

theorem arrive_boundsKept {p : Port} {len : Nat} {k : State → State} (h : ∀ x, BoundsKept x (k x)) (s : State) :
    BoundsKept s (arrive p len k s) := by
  have hunting : BoundsKept s (setReceiver p .hunt s) := by cases p <;> exact .withPorts ..
  exact hunting.trans (.ite (fun _ => .withPorts ..) fun _ => (h _).after (.withPorts ..))

/-- A request ends in a reply, or in its operation (R173). -/
theorem serve_boundsKept {α : Type} {u : RequestUnit} {r : Request} {parse : List Byte → Option α}
    {act : α → State → State} (h : ∀ a x, BoundsKept x (act a x)) (s : State) : BoundsKept s (serve u r parse act s) := by
  refine arrive_boundsKept (fun x => ?_) s
  refine .ite (fun _ => sendReply_boundsKept ..) fun _ => .ite (fun _ => answer_boundsKept ..) fun _ =>
    .ite (fun _ => answer_boundsKept ..) fun _ => ?_
  split
  · exact answer_boundsKept ..
  · exact h _ x

theorem nodePortFrame_boundsKept {f : NodeFrame} {k : NodeIx → State → State} (h : ∀ n x, BoundsKept x (k n x))
    (s : State) : BoundsKept s (nodePortFrame f k s) := by
  refine arrive_boundsKept (fun x => ?_) s
  split
  · exact .withPorts ..
  · exact .ite (fun _ => .withPorts ..) fun _ => (h _ _).after (.of_touches (modifyNode_touches ..))

/-! ### Node frames -/

theorem raiseNode_boundsKept (n : NodeIx) (s : State) : BoundsKept s (raiseNode n s) :=
  .ite (fun _ => .refl s) fun _ => (sendLimitNote_boundsKept ..).after
    ((post_boundsKept ..).after (.of_touches (modifyNode_touches ..)))

theorem countBadEntry_boundsKept (n : NodeIx) (s : State) : BoundsKept s (countBadEntry n s) := .of_same rfl rfl rfl

theorem conversionNotice_boundsKept (i : OutletIx) (old : Outlet) (flag : Option ConvFlag) (s : State) :
    BoundsKept s (conversionNotice i old flag s) := by
  unfold conversionNotice
  split
  · exact .refl s
  · exact .ite (fun _ => queueNotice_boundsKept ..) fun _ => .refl s

theorem intake_boundsKept (n : NodeIx) (p : List Byte) (s : State) : BoundsKept s (intake n p s) := by
  have entry (fitted : Nat) (x : State) (e : Byte × Nat) : BoundsKept x (intakeEntry n fitted x e) := by
    unfold intakeEntry
    split
    · exact countBadEntry_boundsKept ..
    · exact .ite (fun _ => countBadEntry_boundsKept ..) fun _ =>
        (conversionNotice_boundsKept ..).after (.of_touches (updateReading_touches ..))
  exact .ite (fun _ => .refl s) fun _ => .ite (fun _ => .foldl (entry _) ..) fun _ => countBadEntry_boundsKept ..

theorem sequenceCheck_boundsKept (n : NodeIx) (q : Byte) (s : State) : BoundsKept s (sequenceCheck n q s) := by
  unfold sequenceCheck
  dsimp only
  split
  · exact (post_boundsKept ..).after (.of_touches (modifyNode_touches ..))
  all_goals exact .of_touches (modifyNode_touches ..)

theorem forwardReadings_boundsKept (n : NodeIx) (f : NodeFrame) (s : State) :
    BoundsKept s (forwardReadings n f s) := by
  unfold forwardReadings
  split
  · exact joinTransit_boundsKept ..
  · exact joinTransit_boundsKept ..
  · exact .refl s

theorem takeReadings_boundsKept (f : NodeFrame) (n : NodeIx) (s : State) : BoundsKept s (takeReadings f n s) := by
  have forwarded : BoundsKept s (forwardReadings n f (sequenceCheck n f.seq (raiseNode n s))) :=
    (forwardReadings_boundsKept ..).after ((sequenceCheck_boundsKept ..).after (raiseNode_boundsKept n s))
  exact .ite (fun _ => forwarded.trans (intake_boundsKept ..)) fun _ => forwarded

theorem takeJoin_boundsKept (f : NodeFrame) (n : NodeIx) (s : State) : BoundsKept s (takeJoin f n s) := by
  unfold takeJoin
  dsimp only
  refine (joinTransit_boundsKept ..).after ((raiseNode_boundsKept n s).trans ?_)
  split
  · exact countBadEntry_boundsKept ..
  · exact .ite (fun _ => (sendLimitNote_boundsKept ..).after (.of_touches (modifyNode_touches ..)))
      fun _ => .of_touches (modifyNode_touches ..)

theorem takeOrderDone_boundsKept (f : NodeFrame) (n : NodeIx) (s : State) : BoundsKept s (takeOrderDone f n s) := by
  unfold takeOrderDone
  split
  · split
    · exact countBadEntry_boundsKept ..
    · unfold matchOrder
      split
      · exact .of_touches (modifyNode_touches ..)
      · exact endOrder_boundsKept ..
  · exact countBadEntry_boundsKept ..

/-! ### The link interface, the time base and the pass -/

theorem passDownFrame_boundsKept (k : DownKind) (f : NodeFrame) (s : State) : BoundsKept s (passDownFrame k f s) := by
  unfold passDownFrame
  split
  · exact arrive_boundsKept (joinDown_boundsKept _) s
  · exact arrive_boundsKept (fun _ => .withPorts ..) s
  all_goals exact .refl s

theorem receiveBytes_boundsKept (p : Port) (bytes : List Byte) (s : State) :
    BoundsKept s (receiveBytes p bytes s) := by
  refine (BoundsKept.foldl (f := fun x e => countRx p e x) (fun _ _ => .withPorts ..) ..).after ?_
  cases p <;> exact .withPorts ..

theorem abandonFrame_boundsKept (p : Port) (s : State) : BoundsKept s (abandonFrame p s) := by
  unfold abandonFrame
  split
  · exact .refl s
  · cases p <;> exact .of_same rfl rfl rfl

theorem takeUnserved_boundsKept (p : List Byte) (s : State) : BoundsKept s (takeUnserved p s) := by
  unfold takeUnserved
  split
  · exact arrive_boundsKept BoundsKept.refl s
  · exact arrive_boundsKept (sendReply_boundsKept _) s
  · exact .refl s

theorem sendOwedNote_boundsKept (s : State) : BoundsKept s (sendOwedNote s) := by
  refine .ite (fun _ => ?_) fun _ => .refl s
  split
  · exact .refl s
  · exact sendLimitNote_boundsKept ..

theorem takeReviewTick_boundsKept (s : State) : BoundsKept s (takeReviewTick s) := by
  unfold takeReviewTick
  split
  · exact .ite (fun _ => (queueNotice_boundsKept ..).after ((post_boundsKept ..).after (.withMgmt ..)))
      fun _ => (post_boundsKept ..).after (.withReview ..)
  · exact .refl s
  · exact .refl s

/-- A period close places its record with room, or waits without one (R80, R148). -/
theorem closeStep_boundsKept (i : Slot) (s : State) : BoundsKept s (closeStep i s) := by
  refine .ite (fun _ => .ite (fun room => ?_) fun _ => ?_) fun _ => .withReview ..
  · exact (BoundsKept.withReview ..).after ((BoundsKept.withTenants ..).after (placeRecord_boundsKept room _))
  · exact (BoundsKept.withReview ..).after
      (.withUp fun ⟨replies, notices, transit, records, idle⟩ => ⟨replies, notices, transit, records, idle⟩)

theorem visitSlot_boundsKept (i : Slot) (s : State) : BoundsKept s (visitSlot i s) := by
  refine .ite (fun _ => .withReview ..) fun _ => (closeStep_boundsKept ..).after ?_
  exact .ite (fun _ => .withTenants ..) fun _ => (post_boundsKept ..).after (.withTenants ..)

theorem endPass_boundsKept (s : State) : BoundsKept s (endPass s) := by
  have settled : BoundsKept s (passSettled s) :=
    (post_boundsKept ..).after (.of_touches (applyAllPending_touches s))
  rcases endPass_cases s with ⟨closing, all⟩ | still
  · rw [endPass_closed closing all]
    exact (BoundsKept.withReview ..).after ((post_boundsKept ..).after ((BoundsKept.withReview ..).after settled))
  · rw [endPass_open still]
    exact (BoundsKept.withReview ..).after settled

/-! ### The MAP, TENANT and RECORD units -/

theorem assignStep_boundsKept (tag : Byte) (ack : Bool) (m : Membership) (i : OutletIx) (left : Nat)
    (c : Nat × Nat × Nat) (s : State) : BoundsKept s (assignStep tag ack m i left c s) := by
  have handled (j : Option MapJob) : BoundsKept s (setMapJob j (assignAt i m s)) :=
    (BoundsKept.of_touches (assignAt_touches i m s)).trans (.withMgmt ..)
  exact .ite (fun _ => (handled none).answered) fun _ => handled _

theorem takeAssign_boundsKept (r : Request) (a : OutletIx × Nat × Membership) (s : State) :
    BoundsKept s (takeAssign r a s) := .ite (fun _ => assignStep_boundsKept ..) fun _ => .withMgmt ..

theorem alterStep_boundsKept (tag : Byte) (ack : Bool) (op : FlagOp) (mask : BitVec 6) (i : OutletIx)
    (left changed : Nat) (s : State) : BoundsKept s (alterStep tag ack op mask i left changed s) :=
  .ite (fun _ => .answered (.of_same rfl rfl rfl)) fun _ => .of_same rfl rfl rfl

theorem takeCreate_boundsKept (r : Request) (a : Slot × Contract) (s : State) : BoundsKept s (takeCreate r a s) :=
  .ite (fun _ => .answered (.withTenants ..)) fun _ => answer_boundsKept ..

theorem takeSetContract_boundsKept (r : Request) (a : Slot × Contract) (s : State) :
    BoundsKept s (takeSetContract r a s) :=
  .ite (fun _ => answer_boundsKept ..) fun _ => .answered (.withTenants ..)

theorem takeActivate_boundsKept (r : Request) (t : Slot) (s : State) : BoundsKept s (takeActivate r t s) :=
  .ite (fun _ => .answered (.withTenants ..)) fun _ => answer_boundsKept ..

theorem takeSuspend_boundsKept (r : Request) (t : Slot) (s : State) : BoundsKept s (takeSuspend r t s) := by
  have suspended : BoundsKept s (suspendTenant t s) :=
    .ite (fun _ => .withTenants ..) fun _ => (post_boundsKept ..).after (.withTenants ..)
  exact .ite (fun _ => suspended.answered) fun _ => answer_boundsKept ..

theorem takeRemove_boundsKept (r : Request) (t : Slot) (s : State) : BoundsKept s (takeRemove r t s) := by
  have removed : BoundsKept s (removeTenant t s) := .ite (fun _ => .of_same rfl rfl rfl) fun _ => .withTenants ..
  exact .ite (fun _ => answer_boundsKept ..) fun _ => .ite (fun _ => answer_boundsKept ..) fun _ => removed.answered

theorem takeSetPreset_boundsKept (r : Request) (a : Slot × BitVec 64) (s : State) :
    BoundsKept s (takeSetPreset r a s) :=
  .ite (fun _ => answer_boundsKept ..) fun _ => .answered (.withTenants ..)

theorem placeExport_boundsKept {s : State} (room : recordRoom s = true) (tag : Byte) (ack : Bool) (t : Slot) :
    BoundsKept s (placeExport tag ack t s) := .answered (placeRecord_boundsKept room _)

theorem takeExport_boundsKept (r : Request) (t : Slot) (s : State) : BoundsKept s (takeExport r t s) :=
  .ite (fun _ => answer_boundsKept ..) fun _ => .ite (fun room => placeExport_boundsKept room ..) fun _ => .withMgmt ..

theorem resumeExport_boundsKept {s : State} (room : recordRoom s = true) (j : ExportJob) :
    BoundsKept s (resumeExport j s) := by
  have freed : BoundsKept s (setExportJob none s) := .withMgmt ..
  have still : recordRoom (setExportJob none s) = true := room
  exact freed.trans (.ite (fun _ => answer_boundsKept ..) fun _ => placeExport_boundsKept still ..)

theorem takeImport_boundsKept (r : Request) (a : Slot × TransferRecord) (s : State) :
    BoundsKept s (takeImport r a s) :=
  .ite (fun _ => .answered (.withTenants ..)) fun _ => answer_boundsKept ..

theorem takeClose_boundsKept (r : Request) (s : State) : BoundsKept s (takeClose r s) :=
  .ite (fun _ => answer_boundsKept ..) fun _ => .answered (.withReview ..)

/-! ### The ROSTER and CONTROL units -/

theorem takeSetNode_boundsKept (r : Request) (a : NodeIx × Bool) (s : State) : BoundsKept s (takeSetNode r a s) := by
  have enabled : BoundsKept s (enableNode a.1 s) :=
    .ite (fun _ => .of_touches (modifyNode_touches ..)) fun _ => .refl s
  have disabled : BoundsKept s (disableNode a.1 s) := .ite (fun _ => .refl s) fun _ => leaveNode_boundsKept ..
  exact .answered (.ite (fun _ => enabled) fun _ => disabled)

theorem writeLimit_boundsKept (n : NodeIx) (c : Capacity) (s : State) : BoundsKept s (writeLimit n c s) := by
  have stored : BoundsKept s (modifyNode n (fun k => { k with limit := c }) s) := .of_touches (modifyNode_touches ..)
  exact .ite (fun _ => stored.trans (sendLimitNote_boundsKept ..)) fun _ => stored

theorem takeReadNode_boundsKept (r : Request) (a : NodeIx × Bool) (s : State) :
    BoundsKept s (takeReadNode r a s) := by
  unfold takeReadNode answerRead
  exact .answered (.ite (fun _ => .of_touches (modifyNode_touches ..)) fun _ => .refl s)

theorem takeReadStatus_boundsKept (r : Request) (clear : Bool) (s : State) :
    BoundsKept s (takeReadStatus r clear s) := by
  unfold takeReadStatus answerRead
  exact .answered (.ite (fun _ => .of_same rfl rfl rfl) fun _ => .refl s)

theorem changeState_boundsKept (x : OpState) (s : State) : BoundsKept s (changeState x s) :=
  .ite (fun _ => .refl s) fun _ => .ite (fun _ => (takeWaiting_boundsKept s).trans (.of_same rfl rfl rfl)) fun _ =>
    .ite (fun _ => (endPass_boundsKept _).after (.withMgmt ..)) fun _ => .withMgmt ..

theorem setTiming_boundsKept (a : Fin 7 × Nat × Nat) (s : State) : BoundsKept s (expireSilent (writeTiming a s)) :=
  (BoundsKept.foldl (fun x n => expireNode_boundsKept n x) ..).after (.of_same rfl rfl rfl)

/-! ### Resets -/

/-- The cold-reset values: every queue empty. -/
theorem coldReset_boundsKept (s : State) : BoundsKept s (coldReset s) where
  up _ := ⟨Nat.zero_le _, Nat.zero_le _, Nat.zero_le _, Nat.zero_le _, fun _ => ⟨rfl, rfl, rfl, rfl⟩⟩
  down _ := ⟨Nat.zero_le _, fun _ => rfl⟩
  links _ := ⟨Nat.zero_le _, Nat.zero_le _⟩

theorem restartUnits_boundsKept (s : State) : BoundsKept s (restartUnits s) := by
  refine BoundsKept.trans (.withMgmt ..) (.withUp fun h => ?_)
  exact { h with
    replies := Nat.zero_le _
    notices := Nat.zero_le _
    idle := fun idle => ⟨rfl, rfl, (h.idle idle).2.2⟩ }

theorem restartLinks_boundsKept (s : State) : BoundsKept s (restartLinks s) :=
  BoundsKept.trans (.withOrders ..) (.withLinks fun h => { h with shedQueue := Nat.zero_le _ })

theorem restartPorts_boundsKept (s : State) : BoundsKept s (restartPorts s) where
  up h := { h with
    transit := Nat.zero_le _
    idle := fun idle => by
      obtain ⟨replies, notices, -, records⟩ := h.idle idle
      exact ⟨replies, notices, rfl, records⟩ }
  down _ := ⟨Nat.zero_le _, fun _ => rfl⟩
  links h := h

theorem restartOrders_boundsKept (s : State) : BoundsKept s (restartOrders s) := by
  have written (x : State) :
      BoundsKept x (x.orders.orders.foldl (fun x o => writeStatus o.outlet .unknown .unknown x) x) :=
    .foldl (fun _ _ => .of_touches (modifyOutlet_touches ..)) ..
  exact (BoundsKept.withOrders ..).after ((written _).after (.withTenants ..))

/-- A warm restart empties queues and adds to none (R172, R180). -/
theorem warmRestart_boundsKept (s : State) : BoundsKept s (warmRestart s) := by
  have settled : BoundsKept s (applyAllPending (restartReview (restartUnits s))) :=
    BoundsKept.after (.of_touches (applyAllPending_touches _)) ((BoundsKept.withReview ..).after (restartUnits_boundsKept s))
  have cleared (x : State) : BoundsKept x (restartRoster (restartReadings x)) := .of_same rfl rfl rfl
  exact (BoundsKept.withMgmt ..).after ((restartPorts_boundsKept _).after ((cleared _).after
    ((restartOrders_boundsKept _).after ((restartLinks_boundsKept _).after settled))))

/-- As many requests go on without an answer as with one (R127). -/
theorem disownSwitch_boundsKept (s : State) : BoundsKept s (disownSwitch s) :=
  BoundsKept.trans (.withOrders ..) (.withLinks fun h => { h with
    shedQueue := Nat.le_trans (Nat.le_of_eq (List.length_map ..)) h.shedQueue })

theorem abandonUnit_boundsKept (u : RequestUnit) (s : State) : BoundsKept s (abandonUnit u s) := by
  cases u
  case switch => exact (disownSwitch_boundsKept _).after (.withMgmt ..)
  all_goals exact .of_same rfl rfl rfl

/-! ### Every command -/

theorem exec_boundsKept (c : Instr) (s : State) : ∃ t, exec c s = .next t ∧ BoundsKept s t := by
  cases c with
  | coldReset => exact ⟨_, rfl, coldReset_boundsKept s⟩
  | nodeReadings f => exact ⟨_, rfl, nodePortFrame_boundsKept (takeReadings_boundsKept f) s⟩
  | nodeJoin f => exact ⟨_, rfl, nodePortFrame_boundsKept (takeJoin_boundsKept f) s⟩
  | nodeOrderDone f => exact ⟨_, rfl, nodePortFrame_boundsKept (takeOrderDone_boundsKept f) s⟩
  | nodeThrough f => exact ⟨_, rfl, nodePortFrame_boundsKept (fun _ => joinTransit_boundsKept _) s⟩
  | passDown k f => exact ⟨_, rfl, passDownFrame_boundsKept k f s⟩
  | frameDiscard p k f =>
    exact ⟨_, rfl, .ite (fun _ => arrive_boundsKept (fun _ => .withPorts ..) s) fun _ => .refl s⟩
  | frameError p b => exact ⟨_, rfl, .ite (fun _ => .refl s) fun _ => receiveBytes_boundsKept p b s⟩
  | byteGapTimeout p b =>
    exact ⟨_, rfl, .ite (fun _ => .refl s) fun _ => (abandonFrame_boundsKept p _).after (receiveBytes_boundsKept p b s)⟩
  | requestUnserved p => exact ⟨_, rfl, takeUnserved_boundsKept p s⟩
  | nodeSendDone => exact ⟨_, rfl, .withDown NodeTx.sendDone_bounded⟩
  | limitNoteOwedSent => exact ⟨_, rfl, sendOwedNote_boundsKept s⟩
  | uplinkSendDone => exact ⟨_, rfl, .withUp Uplink.sendDone_bounded⟩
  | visitRetry =>
    exact ⟨_, rfl, .ite (fun _ => (visitSlot_boundsKept ..).after (.withReview ..)) fun _ => .refl s⟩
  | exportResume =>
    refine ⟨_, rfl, ?_⟩
    split
    · exact .refl s
    · exact .ite (fun room => resumeExport_boundsKept room _) fun _ => .refl s
  | tickExpiry g => exact ⟨_, rfl, .ite (fun _ => (post_boundsKept ..).trans (.withTime ..)) fun _ => .refl s⟩
  | reviewTick =>
    exact ⟨_, rfl, .ite (fun _ => (takeReviewTick_boundsKept _).after (.withTime ..)) fun _ => .refl s⟩
  | orderTimeout n => exact ⟨_, rfl, expireOrder_boundsKept n s⟩
  | nodeSilence n => exact ⟨_, rfl, expireNode_boundsKept n s⟩
  | reviewVisit => exact ⟨_, rfl, .ite (fun _ => visitSlot_boundsKept ..) fun _ => .refl s⟩
  | passEnd => exact ⟨_, rfl, .ite (fun _ => endPass_boundsKept s) fun _ => .refl s⟩
  | eventScan p => exact ⟨_, rfl, takeNextEvent_boundsKept p s⟩
  | shedReport => exact ⟨_, rfl, takeReport_boundsKept s⟩
  | shedRequestTake => exact ⟨_, rfl, takeShedRequest_boundsKept s⟩
  | shedSearchStep =>
    refine ⟨_, rfl, ?_⟩
    split
    · exact .refl s
    · exact .withOrders ..
  | shedSearchEnd =>
    refine ⟨_, rfl, ?_⟩
    split
    · exact .refl s
    · exact .ite (fun _ => endSearch_boundsKept ..) fun _ => .refl s
  | assignEntry =>
    refine ⟨_, rfl, ?_⟩
    split
    · exact assignStep_boundsKept ..
    · exact .refl s
    · exact .refl s
  | alterFlagsEntry =>
    refine ⟨_, rfl, ?_⟩
    split
    · exact alterStep_boundsKept ..
    · exact .refl s
    · exact .refl s
  | readEntries r => exact ⟨_, rfl, serve_boundsKept (fun _ _ => answer_boundsKept ..) s⟩
  | assign r => exact ⟨_, rfl, serve_boundsKept (takeAssign_boundsKept r) s⟩
  | setOutlet r =>
    exact ⟨_, rfl, serve_boundsKept (fun _ _ => .answered (.of_touches (modifyOutlet_touches ..))) s⟩
  | alterFlags r => exact ⟨_, rfl, serve_boundsKept (fun _ _ => .withMgmt ..) s⟩
  | setProfile r => exact ⟨_, rfl, serve_boundsKept (fun _ _ => .answered (.withProfiles ..)) s⟩
  | readProfile r => exact ⟨_, rfl, serve_boundsKept (fun _ _ => answer_boundsKept ..) s⟩
  | create r => exact ⟨_, rfl, serve_boundsKept (takeCreate_boundsKept r) s⟩
  | setContract r => exact ⟨_, rfl, serve_boundsKept (takeSetContract_boundsKept r) s⟩
  | activate r => exact ⟨_, rfl, serve_boundsKept (takeActivate_boundsKept r) s⟩
  | suspend r => exact ⟨_, rfl, serve_boundsKept (takeSuspend_boundsKept r) s⟩
  | remove r => exact ⟨_, rfl, serve_boundsKept (takeRemove_boundsKept r) s⟩
  | setPreset r => exact ⟨_, rfl, serve_boundsKept (takeSetPreset_boundsKept r) s⟩
  | readTenant r => exact ⟨_, rfl, serve_boundsKept (fun _ _ => answer_boundsKept ..) s⟩
  | setLink r =>
    exact ⟨_, rfl, (serve_boundsKept (fun _ _ => .answered (modifyLink_boundsKept ..)) _).after
      (finishChain_boundsKept s)⟩
  | readLink r =>
    exact ⟨_, rfl, (serve_boundsKept (fun _ _ => answer_boundsKept ..) _).after (finishChain_boundsKept s)⟩
  | rearm r =>
    exact ⟨_, rfl, (serve_boundsKept (fun _ _ => .answered (modifyLink_boundsKept ..)) _).after
      (finishChain_boundsKept s)⟩
  | switchOrder r => exact ⟨_, rfl, serve_boundsKept (takeSwitchOrder_boundsKept r) s⟩
  | shedTenant r => exact ⟨_, rfl, serve_boundsKept (takeSwitchShed_boundsKept .shed r) s⟩
  | restoreTenant r => exact ⟨_, rfl, serve_boundsKept (takeSwitchShed_boundsKept .restore r) s⟩
  | setNodeDisable r => exact ⟨_, rfl, serve_boundsKept (takeSetNode_boundsKept r) s⟩
  | setNodeEnable r => exact ⟨_, rfl, serve_boundsKept (takeSetNode_boundsKept r) s⟩
  | setLimit r => exact ⟨_, rfl, serve_boundsKept (fun _ _ => .answered (writeLimit_boundsKept ..)) s⟩
  | readNode r => exact ⟨_, rfl, serve_boundsKept (takeReadNode_boundsKept r) s⟩
  | readStates r => exact ⟨_, rfl, serve_boundsKept (fun _ _ => answer_boundsKept ..) s⟩
  | close r => exact ⟨_, rfl, serve_boundsKept (fun _ => takeClose_boundsKept r) s⟩
  | exportTenant r => exact ⟨_, rfl, serve_boundsKept (takeExport_boundsKept r) s⟩
  | importTenant r => exact ⟨_, rfl, serve_boundsKept (takeImport_boundsKept r) s⟩
  | readIdent r => exact ⟨_, rfl, serve_boundsKept (fun _ _ => answer_boundsKept ..) s⟩
  | setState r => exact ⟨_, rfl, serve_boundsKept (fun _ _ => .answered (changeState_boundsKept ..)) s⟩
  | setTiming r => exact ⟨_, rfl, serve_boundsKept (fun _ _ => .answered (setTiming_boundsKept ..)) s⟩
  | setForward r => exact ⟨_, rfl, serve_boundsKept (fun _ _ => .answered (.withPorts ..)) s⟩
  | readStatus r => exact ⟨_, rfl, serve_boundsKept (takeReadStatus_boundsKept r) s⟩
  | readTags r => exact ⟨_, rfl, serve_boundsKept (fun _ _ => answer_boundsKept ..) s⟩
  | restart r => exact ⟨_, rfl, serve_boundsKept (fun _ _ => .answered (warmRestart_boundsKept _)) s⟩
  | resetUnit r =>
    exact ⟨_, rfl, serve_boundsKept
      (fun u x => .answered ((abandonUnit_boundsKept u x).trans (.withMgmt ..))) s⟩

/-- Settles O59: each command is a chain of operations that keep the bounds of the three blocks with queues
(`exec_boundsKept`). -/
theorem everyStepKeepsTheQueuesBounded : Obligations.EveryStepKeepsTheQueuesBounded :=
  invariant_of_exec (fun s x => (BoundsKept.withPending s x).sound) (fun s x => (BoundsKept.withTime s x).sound)
    fun c s => by
      obtain ⟨t, run, kept⟩ := exec_boundsKept c s
      exact ⟨t, run, kept.sound⟩

end Sys2Proof.Machine


/-! The receiver byte by byte: a whole frame, a frame cut off, a length byte above 200 (R161, R162). -/

namespace Sys2Proof.Machine

/-! ### The bytes of a frame on the wire (R161, Table 9.1) -/

/-- The bytes that the frame check covers: the four header bytes and the payload. -/
def Frame.checked (f : Frame) : List Byte := [f.kind, f.addr, f.seq, BitVec.ofNat 8 f.payload.length] ++ f.payload

/-- The bytes after the start byte. -/
def Frame.body (f : Frame) : List Byte := f.checked ++ beBytes 2 f.check.toNat

theorem Frame.wire_eq (f : Frame) : f.wire = startByte :: f.body := rfl

section
variable (f : Frame)

theorem Frame.checked_length : f.checked.length = 4 + f.payload.length := by
  unfold Frame.checked
  rw [List.length_append]
  rfl

theorem Frame.body_length : f.body.length = 4 + f.payload.length + 2 := by
  unfold Frame.body
  rw [List.length_append, f.checked_length, beBytes_length]

theorem Frame.body_checked : f.body.take (4 + f.payload.length) = f.checked := List.take_left' f.checked_length

theorem Frame.body_check : fieldAt f.body (4 + f.payload.length) 2 = f.check.toNat := by
  have check : fieldBytes f.body (4 + f.payload.length) 2 = beBytes 2 f.check.toNat := by
    have whole := fieldBytes_beBytes 2 f.check.toNat []
    rw [List.append_nil] at whole
    rw [Frame.body, fieldBytes_past f.checked_length _ (Nat.le_refl _), Nat.sub_self, whole]
  exact (congrArg beNat check).trans (beNat_beBytes 2 _ f.check.isLt)

theorem Frame.body_len (fits : f.payload.length ≤ Config.maxPayload) : fieldAt f.body 3 1 = f.payload.length :=
  (fieldAt_zero ..).trans (toNat_byte (Nat.lt_of_le_of_lt fits (by decide)))

end

/-! ### Bytes that leave a frame unfinished (R162) -/

/-- A field within the front part does not see the rest. -/
theorem fieldAt_append_left {bs : List Byte} {off len : Nat} (within : off + len ≤ bs.length) (rest : List Byte) :
    fieldAt (bs ++ rest) off len = fieldAt bs off len := by
  unfold fieldAt fieldBytes
  rw [List.drop_append_of_le_length (by omega), List.take_append_of_le_length (by rw [List.length_drop]; omega)]

/-- After these bytes of a frame, its start byte taken off, a receiver waits for more: the header is not whole, or its
length byte is right and payload or check is not whole. -/
def Unfinished (bs : List Byte) : Prop :=
  bs.length < 4 ∨ fieldAt bs 3 1 ≤ Config.maxPayload ∧ bs.length < 4 + fieldAt bs 3 1 + 2

theorem Unfinished.of_append {bs rest : List Byte} (h : Unfinished (bs ++ rest)) : Unfinished bs := by
  rcases Nat.lt_or_ge bs.length 4 with short | header
  · exact .inl short
  · unfold Unfinished at h
    rw [fieldAt_append_left header, List.length_append] at h
    rcases h with short | ⟨right, more⟩
    · omega
    · exact .inr ⟨right, by omega⟩

theorem Frame.unfinished_take {f : Frame} (fits : f.payload.length ≤ Config.maxPayload) {k : Nat}
    (cut : k < f.body.length) : Unfinished (f.body.take k) := by
  have length : (f.body.take k).length = k := List.length_take_of_le (Nat.le_of_lt cut)
  rcases Nat.lt_or_ge k 4 with short | header
  · exact .inl (Nat.lt_of_le_of_lt (Nat.le_of_eq length) short)
  · have len : fieldAt (f.body.take k) 3 1 = f.payload.length := by
      rw [← fieldAt_append_left (by rw [length]; exact header) (f.body.drop k), List.take_append_drop, f.body_len fits]
    refine .inr ⟨Nat.le_trans (Nat.le_of_eq len) fits, ?_⟩
    rw [length, len, ← f.body_length]
    exact cut

/-! ### One byte (R162) -/

theorem Receiver.take_start : Receiver.hunt.take startByte = (.inFrame [], none) := rfl

/-- What the last byte of a frame brings (R162). -/
def Frame.endEvent (f : Frame) : RxEvent := if f.check = crc16 f.checked then .good else .checkError

section
variable {got : List Byte} {b : Byte}

theorem Receiver.take_unfinished (h : Unfinished (got ++ [b])) :
    (Receiver.inFrame got).take b = (.inFrame (got ++ [b]), none) := by
  unfold Receiver.take
  dsimp only
  rcases h with short | ⟨right, more⟩
  · rw [if_pos short]
  · rw [if_neg (Nat.not_lt.mpr right), if_pos more, ite_self]

theorem Receiver.take_overlong (header : 4 ≤ (got ++ [b]).length) (long : Config.maxPayload < fieldAt (got ++ [b]) 3 1) :
    (Receiver.inFrame got).take b = (.hunt, some .lengthError) := by
  unfold Receiver.take
  dsimp only
  rw [if_neg (Nat.not_lt.mpr header), if_pos long]

theorem Receiver.take_last {f : Frame} (fits : f.payload.length ≤ Config.maxPayload) (whole : got ++ [b] = f.body) :
    (Receiver.inFrame got).take b = (.hunt, some f.endEvent) := by
  have header : ¬ 4 + f.payload.length + 2 < 4 := by omega
  unfold Receiver.take Frame.endEvent
  dsimp only
  rw [whole, f.body_len fits, f.body_length, f.body_check, f.body_checked, if_neg header,
    if_neg (Nat.not_lt.mpr fits), if_neg (Nat.lt_irrefl _)]
  simp only [BitVec.toNat_inj]
  split <;> rfl

end

/-! ### Bytes one after the other -/

theorem Receiver.takeAll_append (r : Receiver) (xs ys : List Byte) : r.takeAll (xs ++ ys) =
    (((r.takeAll xs).1.takeAll ys).1, (r.takeAll xs).2 ++ ((r.takeAll xs).1.takeAll ys).2) := by
  induction xs generalizing r with
  | nil => rfl
  | cons x xs ih => rw [List.cons_append, takeAll, ih, takeAll, List.append_assoc]

theorem Receiver.takeAll_unfinished {bs : List Byte} : ∀ {got : List Byte}, Unfinished (got ++ bs) →
    (Receiver.inFrame got).takeAll bs = (.inFrame (got ++ bs), []) := by
  induction bs with
  | nil => intro got _; rw [List.append_nil]; rfl
  | cons b bs ih =>
    intro got h
    rw [List.append_cons] at h ⊢
    rw [takeAll, take_unfinished h.of_append, ih h]
    rfl

/-- After the start byte a receiver in HUNT is in a frame with the bytes that follow. -/
theorem Receiver.takeAll_start {bs : List Byte} (unfinished : Unfinished bs) :
    Receiver.hunt.takeAll (startByte :: bs) = (.inFrame bs, []) := by
  have inside : (Receiver.inFrame []).takeAll bs = (.inFrame bs, []) := takeAll_unfinished unfinished
  rw [takeAll, take_start, inside]
  rfl

/-- The byte that ends a frame brings its event. -/
theorem Receiver.takeAll_ends {front : List Byte} {last : Byte} {e : RxEvent} (unfinished : Unfinished front)
    (ends : (Receiver.inFrame front).take last = (.hunt, some e)) :
    Receiver.hunt.takeAll (startByte :: (front ++ [last])) = (.hunt, [e]) := by
  rw [← List.cons_append, takeAll_append, takeAll_start unfinished, takeAll, ends]
  rfl

/-- A frame cut off after its start byte is in progress. -/
theorem Receiver.takeAll_cut {f : Frame} (fits : f.payload.length ≤ Config.maxPayload) {k : Nat}
    (cut : k < f.body.length) : Receiver.hunt.takeAll (f.wire.take (k + 1)) = (.inFrame (f.body.take k), []) :=
  takeAll_start (Frame.unfinished_take fits cut)

/-- A whole frame ends in HUNT with one event, by its check (R162). -/
theorem Receiver.takeAll_wire {f : Frame} (fits : f.payload.length ≤ Config.maxPayload) :
    Receiver.hunt.takeAll f.wire = (.hunt, [f.endEvent]) := by
  have cut : 4 + f.payload.length + 1 < f.body.length := by rw [f.body_length]; exact Nat.lt_succ_self _
  have whole : f.body.take (4 + f.payload.length + 1) ++ [f.body[4 + f.payload.length + 1]] = f.body := by
    rw [List.take_append_getElem, List.take_of_length_le (Nat.le_of_eq f.body_length)]
  rw [f.wire_eq, ← whole]
  exact takeAll_ends (Frame.unfinished_take fits cut) (take_last fits whole)

/-- A header whose length byte is above 200 is abandoned (R162). -/
theorem Receiver.takeAll_overlong (kind addr seq : Byte) {len : Byte} (long : Config.maxPayload < len.toNat) :
    Receiver.hunt.takeAll [startByte, kind, addr, seq, len] = (.hunt, [.lengthError]) :=
  takeAll_ends (front := [kind, addr, seq]) (.inl (Nat.lt_succ_self 3))
    (take_overlong (Nat.le_refl 4) (Nat.lt_of_lt_of_eq long (fieldAt_zero len []).symm))

/-! ### The frame check bit by bit (R161) -/

theorem crcByte_eq_repeat (c : Word16) (b : Byte) :
    crcByte c b = Nat.repeat crcBit 8 (c ^^^ (b.setWidth 16 <<< 8)) := rfl

theorem crc16_eq_foldl (bs : List Byte) : crc16 bs =
    bs.foldl (fun (c : Word16) (b : Byte) => Nat.repeat crcBit 8 (c ^^^ (b.setWidth 16 <<< 8))) 0xFFFF :=
  (crcFrom_eq bs 0xFFFF#16).trans (congrArg (fun step => bs.foldl step 0xFFFF#16)
    (funext fun c => funext fun b => crcByte_eq_repeat c b))

theorem Frame.make_endEvent (kind addr seq : Byte) (payload : List Byte) :
    (Frame.make kind addr seq payload).endEvent = .good := if_pos rfl

/-- Settles O17: the wire bytes are the start byte and a body that is unfinished up to its last byte, where the check is
right (`Receiver.takeAll_wire`). -/
theorem receiverTakesEveryGoodFrame : Obligations.ReceiverTakesEveryGoodFrame := by
  refine ⟨fun kind addr seq payload fits => ?_, fun _ _ _ _ => rfl, fun f => ?_, crc16_eq_foldl⟩
  · rw [Receiver.takeAll_wire fits, Frame.make_endEvent]
  · rw [Frame.wire, beBytes_two]
    rfl

end Sys2Proof.Machine


/-! Discarded and broken frames, each with the count of its cause (R162 to R164, Tables 9.3 and 9.4). -/

namespace Sys2Proof.Machine

/-! ### What the dispatcher discards (R163, Table 9.3) -/

theorem nodeOf_eq_none {n : Nat} (outside : n = 0 ∨ 32 < n) : nodeOf n = none :=
  dif_neg (by omega)

section
variable {kind addr : Byte}

theorem dispatchOf_unknownKind (unknown : kind ∉ knownKinds) (p : Port) : dispatchOf p kind addr = .unknownKind :=
  if_pos (by rw [List.contains_eq_mem, decide_eq_false unknown]; rfl)

theorem dispatchOf_node_badAddress (roster : kind ∈ ([0x21, 0x22, 0x23, 0x30] : List Byte))
    (nobody : nodeOf addr.toNat = none) : dispatchOf .node kind addr = .badAddress := by
  unfold dispatchOf
  simp only [List.mem_cons, List.not_mem_nil, or_false] at roster
  rw [nobody]
  rcases roster with rfl | rfl | rfl | rfl <;> rfl

theorem dispatchOf_node_wrongPort (other : kind ∈ ([0x41, 0x42, 0x51, 0x52, 0x53, 0x54] : List Byte)) :
    dispatchOf .node kind addr = .wrongPort := by
  simp only [List.mem_cons, List.not_mem_nil, or_false] at other
  rcases other with rfl | rfl | rfl | rfl | rfl | rfl <;> rfl

theorem dispatchOf_uplink_badAddress (down : kind ∈ ([0x51, 0x30] : List Byte))
    (notOwn : ¬ (kind = kindRequest ∧ addr = 0)) (nobody : nodeOf addr.toNat = none) :
    dispatchOf .uplink kind addr = .badAddress := by
  unfold dispatchOf
  simp only [List.mem_cons, List.not_mem_nil, or_false] at down
  rw [nobody, if_neg notOwn]
  rcases down with rfl | rfl <;> rfl

theorem dispatchOf_uplink_wrongPort
    (other : kind ∈ ([0x21, 0x22, 0x23, 0x41, 0x42, 0x52, 0x53, 0x54] : List Byte)) :
    dispatchOf .uplink kind addr = .wrongPort := by
  simp only [List.mem_cons, List.not_mem_nil, or_false] at other
  rcases other with rfl | rfl | rfl | rfl | rfl | rfl | rfl | rfl <;> rfl

end

/-- A good frame that its port does not take raises the good count and the count of its cause (R163). -/
theorem exec_frameDiscard {p : Port} {kind : Byte} {f : NodeFrame} {d : DispatchResult}
    (fits : f.payload.length ≤ Config.maxPayload) (dispatched : dispatchOf p kind f.addr = d)
    (discards : d.discards = true) (s : State) :
    exec (.frameDiscard p kind f) s = .next (countDiscard p d (received p s)) := by
  refine congrArg Host.Outcome.next ?_
  unfold discardFrame
  rw [dispatched, if_pos discards]
  exact if_neg (Nat.not_lt.mpr fits)

/-! ### Bytes at a receiver in HUNT (R162) -/

theorem setReceiver_same {p : Port} {s : State} {r : Receiver} (same : receiver p s = r) : setReceiver p r s = s := by
  subst same
  cases p <;> rfl

theorem setReceiver_twice (p : Port) (q r : Receiver) (s : State) :
    setReceiver p r (setReceiver p q s) = setReceiver p r s := by cases p <;> rfl

theorem receiver_setReceiver (p : Port) (r : Receiver) (s : State) : receiver p (setReceiver p r s) = r := by
  cases p <;> rfl

section
variable {p : Port} {s : State} {bytes : List Byte} (hunting : receiver p s = .hunt)
include hunting

/-- Bytes that bring a frame to an end raise the count of what ended it. -/
theorem exec_frameError_ends {e : RxEvent} (ends : Receiver.hunt.takeAll bytes = (.hunt, [e])) (broken : e ≠ .good) :
    exec (.frameError p bytes) s = .next (countRx p e s) := by
  have incomplete : completesFrame p bytes s = false := by
    unfold completesFrame
    rw [hunting, ends]
    cases e with
    | good => exact absurd rfl broken
    | lengthError => rfl
    | checkError => rfl
  have taken : receiveBytes p bytes s = countRx p e s := by
    unfold receiveBytes
    rw [hunting, ends]
    exact congrArg (countRx p e) (setReceiver_same hunting)
  exact congrArg Host.Outcome.next ((if_neg (incomplete ▸ Bool.false_ne_true)).trans taken)

/-- A frame in progress at the gap is abandoned and counted. -/
theorem exec_byteGapTimeout_cut {got : List Byte} (cut : Receiver.hunt.takeAll bytes = (.inFrame got, [])) :
    exec (.byteGapTimeout p bytes) s =
      .next (setCounts (fun c => c.atPort p (fun x => { x with truncated := bump16 x.truncated })) s) := by
  have incomplete : completesFrame p bytes s = false := by
    unfold completesFrame
    rw [hunting, cut]
    rfl
  have taken : receiveBytes p bytes s = setReceiver p (.inFrame got) s := by
    unfold receiveBytes
    rw [hunting, cut]
    rfl
  refine congrArg Host.Outcome.next ((if_neg (incomplete ▸ Bool.false_ne_true)).trans ?_)
  unfold abandonFrame
  rw [taken, receiver_setReceiver]
  dsimp only
  rw [setReceiver_twice, setReceiver_same hunting]

end

/-- Settles O18: FRAME_DISCARD by the dispatcher's cases; FRAME_ERROR and BYTE_GAP_TIMEOUT by what the receiver makes of
an overlong, a wrongly checked and a cut-off frame; each count is a field of the port's counts. -/
theorem badFramesAreCountedByCause : Obligations.BadFramesAreCountedByCause := by
  refine ⟨fun s kind f fits => ?_, fun s p hunting => ?_, fun s => ?_⟩
  · refine ⟨fun p unknown => ?_, fun roster outside => ?_, fun other => ?_, fun down outside => ?_, fun through own => ?_,
      fun other => ?_⟩
    · exact exec_frameDiscard fits (dispatchOf_unknownKind unknown p) rfl s
    · exact exec_frameDiscard fits (dispatchOf_node_badAddress roster (nodeOf_eq_none outside)) rfl s
    · exact exec_frameDiscard fits (dispatchOf_node_wrongPort other) rfl s
    · have notOwn : ¬ (kind = kindRequest ∧ f.addr = 0) := fun ⟨_, own⟩ => by
        rw [own] at outside
        exact Nat.not_lt_zero _ outside
      exact exec_frameDiscard fits (dispatchOf_uplink_badAddress down notOwn (nodeOf_eq_none (.inr outside))) rfl s
    · have notOwn : ¬ (kind = kindRequest ∧ f.addr = 0) := fun ⟨request, _⟩ => by
        rw [through] at request
        exact absurd request (by decide)
      have down : kind ∈ ([0x51, 0x30] : List Byte) := through ▸ .tail _ (.head _)
      have nobody : nodeOf f.addr.toNat = none := nodeOf_eq_none (.inl (congrArg BitVec.toNat own))
      exact exec_frameDiscard fits (dispatchOf_uplink_badAddress down notOwn nobody) rfl s
    · exact exec_frameDiscard fits (dispatchOf_uplink_wrongPort other) rfl s
  · refine ⟨fun kind addr seq len long => ?_, fun f fits wrong => ?_, fun f k fits started cut => ?_⟩
    · exact exec_frameError_ends hunting (Receiver.takeAll_overlong kind addr seq long) RxEvent.noConfusion
    · have ends : f.endEvent = .checkError := if_neg wrong
      exact exec_frameError_ends hunting (ends ▸ Receiver.takeAll_wire fits) RxEvent.noConfusion
    · obtain ⟨j, rfl⟩ := Nat.exists_eq_add_of_le' started
      exact exec_byteGapTimeout_cut hunting (Receiver.takeAll_cut fits (Nat.lt_of_succ_lt_succ cut))
  · intro one node uplink
    refine ⟨rfl, rfl, rfl, rfl, rfl, rfl, rfl, rfl, rfl, rfl, rfl, rfl, fun p => ?_⟩
    cases p <;> rfl

end Sys2Proof.Machine


/-! Cold reset: the value of every block, and the invariants of the state it leaves (R182). -/

namespace Sys2Proof.Machine

/-- Settles O4: every block of `State.reset`, its tables row by row (`Table.get_fill`). -/
theorem coldResetSetsEveryColdResetValue : Obligations.ColdResetSetsEveryColdResetValue := by
  refine fun s => ⟨coldReset s, rfl, rfl, ?mgmt⟩
  refine ⟨rfl, rfl, Table.get_fill 0, rfl, rfl, rfl, ?up⟩
  refine ⟨rfl, rfl, rfl, rfl, rfl, rfl, rfl, rfl, rfl, rfl, rfl, ?time⟩
  refine ⟨rfl, rfl, rfl, rfl, ?map⟩
  refine ⟨Table.get_fill Outlet.cold, rfl, rfl, Table.get_fill Profile.cold, Table.get_fill Tenant.cleared, rfl,
    ?links⟩
  exact ⟨Table.get_fill Link.cold, rfl, rfl, rfl, rfl, rfl, Table.get_fill Node.cold, rfl⟩

/-! ### The invariants at reset -/

theorem reset_tenant (a : Slot) : State.reset.tenants.get a = .cleared := Table.get_fill Tenant.cleared a

theorem reset_entry (i : OutletIx) : State.reset.map.entries.get i = .cold := Table.get_fill Outlet.cold i

theorem reset_stack (a : Slot) : (State.reset.tenants.get a).stack = [] := congrArg Tenant.stack (reset_tenant a)

theorem not_mem_reset_stack (a : Slot) (x : StackEntry) : x ∉ (State.reset.tenants.get a).stack := by
  rw [reset_stack]
  exact List.not_mem_nil

/-- Every shed stack is empty and no order is outstanding. -/
theorem reset_shedding : Shedding State.reset where
  stackSize a := by rw [reset_stack]; exact Nat.zero_le _
  stackDistinct a := by rw [reset_stack]; exact List.nodup_nil
  stackMembers a x mem := absurd mem (not_mem_reset_stack a x)
  offShed i := by
    rw [reset_entry]
    exact ⟨RelayStatus.noConfusion, fun ⟨a, mem⟩ => absurd mem (not_mem_reset_stack a _)⟩
  unconfirmed a i mem := absurd mem (not_mem_reset_stack a _)
  confirmed a i mem := absurd mem (not_mem_reset_stack a _)
  orderCount := Nat.zero_le _
  numbersDistinct := List.nodup_nil
  outletsDistinct := List.nodup_nil
  numbersValid := ⟨List.forall_mem_nil _, by decide⟩

/-- A cleared record has nothing on its accounts, beside a review engine in any state (R42, R51). -/
theorem cleared_sound (r : Review) : TenantSound .cleared r where
  baselineA := Nat.le_refl _
  baselineB := Nat.le_refl _
  lifetimeA := Nat.zero_le _
  lifetimeB := Nat.zero_le _
  budget := Nat.zero_le _
  held := TenantState.noConfusion
  lastClose used := absurd rfl used

/-- The engine is IDLE at slot 1 with no close begun. -/
theorem reset_periods : Periods State.reset where
  tenants a := by rw [reset_tenant]; exact cleared_sound _
  idle _ := ⟨rfl, rfl, rfl⟩
  idleMap _ i := congrArg Outlet.pending (reset_entry i)
  walked := Bool.noConfusion
  running inFlight := absurd rfl inFlight
  closing := Bool.noConfusion

/-- Every queue is empty, so both transmitters may be idle. -/
theorem reset_bounds : Bounds State.reset where
  replies := Nat.zero_le _
  notices := Nat.zero_le _
  transit := Nat.zero_le _
  records := Nat.zero_le _
  down := Nat.zero_le _
  shedQueue := Nat.zero_le _
  store := Nat.zero_le _
  uplinkIdle _ := ⟨rfl, rfl, rfl, rfl⟩
  nodeIdle _ := rfl

/-- Settles O60: a lemma per invariant; for roster and links, what COLD_RESET leaves at any state. -/
theorem resetStateIsSound : Obligations.ResetStateIsSound :=
  ⟨accounts_of_reset rfl rfl, reset_shedding, reset_periods, coldReset_rosterSound .reset, coldReset_sound .reset,
    reset_bounds⟩

end Sys2Proof.Machine


/-! The way of a request through the management unit: refusals before an operation is named, answers, notices and
RESET_UNIT (R173 to R176, R181). -/

namespace Sys2Proof.Machine

/-! ### Requests that name nothing to serve (R173, checks 1 to 4) -/

/-- A frame that fits its length byte is received and goes on (R162). -/
theorem arrive_fits {p : Port} {len : Nat} (fits : len ≤ Config.maxPayload) (k : State → State) (s : State) :
    arrive p len k s = k (received p s) := if_neg (Nat.not_lt.mpr fits)

theorem exec_requestUnserved_refused {payload : List Byte} {r : Reply} (fits : payload.length ≤ Config.maxPayload)
    (refused : unservedResult payload = .refused r) (s : State) :
    exec (.requestUnserved payload) s = .next (sendReply r (received .uplink s)) := by
  refine congrArg Host.Outcome.next ?_
  unfold takeUnserved
  rw [refused]
  exact arrive_fits fits ..

theorem exec_requestUnserved_discarded {payload : List Byte} (fits : payload.length ≤ Config.maxPayload)
    (discarded : unservedResult payload = .discarded) (s : State) :
    exec (.requestUnserved payload) s = .next (received .uplink s) := by
  refine congrArg Host.Outcome.next ?_
  unfold takeUnserved
  rw [discarded]
  exact arrive_fits fits ..

theorem unservedResult_short : ∀ {payload : List Byte}, payload.length < 4 → unservedResult payload = .discarded
  | [], _ | [_], _ | [_, _], _ | [_, _, _], _ => rfl
  | _ :: _ :: _ :: _ :: _, short => absurd short (by simp only [List.length_cons]; omega)

theorem unitOf_eq_none {n : Nat} (outside : n = 0 ∨ 8 < n) : unitOf n = none :=
  Option.not_isSome_iff_eq_none.mp fun read => by
    rw [isSome_unitOf] at read
    omega

theorem unitOf_unitCode (u : RequestUnit) : unitOf (unitCode u).toNat = some u := by cases u <;> rfl

section
variable {unit tag op : Byte} (flags : Byte) (args : List Byte)

theorem unservedResult_badTag (unit op : Byte) :
    unservedResult (unit :: 0 :: op :: flags :: args) = .refused ⟨unit, 0, .badTag, .none⟩ := rfl

theorem unservedResult_badUnit (tagged : tag ≠ 0) (nobody : unitOf unit.toNat = none) :
    unservedResult (unit :: tag :: op :: flags :: args) = .refused ⟨unit, tag, .badUnit, .none⟩ := by
  refine (if_neg tagged).trans ?_
  rw [nobody]

theorem unservedResult_badOp {u : RequestUnit} (tagged : tag ≠ 0) (outside : op.toNat = 0 ∨ unitOps u < op.toNat) :
    unservedResult (unitCode u :: tag :: op :: flags :: args) = .refused ⟨unitCode u, tag, .badOp, .none⟩ := by
  refine (if_neg tagged).trans ?_
  rw [unitOf_unitCode]
  exact if_neg (by omega)

end

theorem header_fits {args : List Byte} (fits : 4 + args.length ≤ Config.maxPayload) (unit tag op flags : Byte) :
    (unit :: tag :: op :: flags :: args).length ≤ Config.maxPayload :=
  Nat.le_trans (Nat.le_of_eq (Nat.add_comm args.length 4)) fits

/-- Settles O6: the four checks of `unservedResult`, and what becomes of a discarded and of a refused payload. -/
theorem unservedRequestsAreRefusedByName : Obligations.UnservedRequestsAreRefusedByName := by
  refine fun s => ⟨fun p short => ?_, fun unit op flags args fits => ?_,
    fun unit tag op flags args fits tagged outside => ?_, fun u tag op flags args fits tagged outside => ?_, rfl⟩
  · have fits : p.length ≤ Config.maxPayload := Nat.le_trans (Nat.le_of_lt short) (by decide)
    exact exec_requestUnserved_discarded fits (unservedResult_short short) s
  · exact exec_requestUnserved_refused (header_fits fits ..) (unservedResult_badTag flags args unit op) s
  · have nobody := unitOf_eq_none outside
    exact exec_requestUnserved_refused (header_fits fits ..) (unservedResult_badUnit flags args tagged nobody) s
  · exact exec_requestUnserved_refused (header_fits fits ..) (unservedResult_badOp flags args tagged outside) s

/-! ### Answers and notices (R174 to R176) -/

theorem unitIndex_inj {u v : RequestUnit} : unitIndex u = unitIndex v ↔ u = v := by
  refine ⟨fun same => ?_, congrArg unitIndex⟩
  have back (w : RequestUnit) : unitOf ((unitIndex w).val + 1) = some w := by cases w <;> rfl
  exact Option.some.inj ((back u).symm.trans (same ▸ back v))

theorem sendReply_room {s : State} (room : s.up.replies.length < 8) (r : Reply) :
    sendReply r s = s.withUp { s.up with replies := s.up.replies ++ [r] }.take := if_pos room

theorem sendReply_full {s : State} (full : 8 ≤ s.up.replies.length) (r : Reply) :
    sendReply r s = setSticky (fun f => { f with replyLost := true }) s := if_neg (Nat.not_lt.mpr full)

theorem sendReply_tags (r : Reply) (s : State) : (sendReply r s).mgmt.tags = s.mgmt.tags := by
  obtain ⟨u, f, sent⟩ := sendReply_only r s
  rw [sent]
  rfl

/-- The state in which a request's reply is sent: the tag is set when the status accepts (R174). -/
def tagAccepted (u : RequestUnit) (tag : Byte) (st : Status) (s : State) : State :=
  if st.accepts then setTag u tag s else s

theorem tagAccepted_up (u : RequestUnit) (tag : Byte) (st : Status) (s : State) : (tagAccepted u tag st s).up = s.up := by
  unfold tagAccepted
  split <;> rfl

theorem tagAccepted_sticky (u : RequestUnit) (tag : Byte) (st : Status) (s : State) :
    (tagAccepted u tag st s).mgmt.sticky = s.mgmt.sticky := by
  unfold tagAccepted
  split <;> rfl

theorem tagAccepted_tag (u v : RequestUnit) (tag : Byte) (st : Status) (s : State) :
    (tagAccepted u tag st s).mgmt.tags.get (unitIndex v) =
      if v = u ∧ st.accepts = true then tag else s.mgmt.tags.get (unitIndex v) := by
  unfold tagAccepted
  cases st.accepts with
  | false => simp
  | true => simp [setTag, Table.get_set, unitIndex_inj]

section
variable {wanted : Bool} {st : Status} (u : RequestUnit) (tag : Byte) (d : ReplyData) (s : State)

/-- A reply is sent when it is wanted or the status is no success (R174). -/
theorem answer_replies (due : wanted = true ∨ st.accepts = false) :
    answer u tag wanted st d s = sendReply ⟨unitCode u, tag, st, d⟩ (tagAccepted u tag st s) := by
  refine if_pos ?_
  rcases due with due | due <;> simp [due]

theorem answer_silent (unwanted : wanted = false) (accepted : st.accepts = true) :
    answer u tag wanted st d s = tagAccepted u tag st s := by
  refine if_neg ?_
  simp [unwanted, accepted]

/-- An answer writes the uplink side, the tags and the sticky flags. -/
theorem answer_frame (wanted : Bool) (st : Status) :
    let t := answer u tag wanted st d s
    t = (s.withMgmt t.mgmt).withUp t.up ∧
      t.mgmt = { s.mgmt with tags := t.mgmt.tags, sticky := t.mgmt.sticky } := by
  obtain ⟨up, sticky, tags, only⟩ := answer_only u tag wanted st d s
  rw [only]
  exact ⟨rfl, rfl⟩

theorem answer_tags (wanted : Bool) (st : Status) :
    (answer u tag wanted st d s).mgmt.tags = (tagAccepted u tag st s).mgmt.tags := by
  by_cases due : wanted = true ∨ st.accepts = false
  · rw [answer_replies u tag d s due, sendReply_tags]
  · obtain ⟨unwanted, accepted⟩ := not_or.mp due
    rw [answer_silent u tag d s (Bool.eq_false_iff.mpr unwanted) (Bool.not_eq_false _ ▸ accepted)]

theorem answer_room (due : wanted = true ∨ st.accepts = false) (room : s.up.replies.length < 8) :
    (answer u tag wanted st d s).up = { s.up with replies := s.up.replies ++ [Reply.mk (unitCode u) tag st d] }.take ∧
      (answer u tag wanted st d s).mgmt.sticky = s.mgmt.sticky := by
  have up := tagAccepted_up u tag st s
  rw [answer_replies u tag d s due, sendReply_room (up ▸ room), up]
  exact ⟨rfl, tagAccepted_sticky ..⟩

theorem answer_full (due : wanted = true ∨ st.accepts = false) (full : 8 ≤ s.up.replies.length) :
    (answer u tag wanted st d s).up = s.up ∧
      (answer u tag wanted st d s).mgmt.sticky = { s.mgmt.sticky with replyLost := true } := by
  have up := tagAccepted_up u tag st s
  rw [answer_replies u tag d s due, sendReply_full (up ▸ full)]
  exact ⟨up, congrArg (fun f : Sticky => { f with replyLost := true }) (tagAccepted_sticky u tag st s)⟩

end

/-- Settles O7: an answer is the tag's step and then the reply's (`answer_replies`), which like a notice looks at the room
in its queue. -/
theorem answersAndNoticesJoinTheirQueues : Obligations.AnswersAndNoticesJoinTheirQueues := by
  refine ⟨fun u tag wanted st d s => ?_,
    fun x s => ⟨fun room => if_pos (decide_eq_true room), fun full => if_neg ?_⟩, fun st => ?_, rfl⟩
  · intro t
    obtain ⟨blocks, mgmt⟩ := answer_frame u tag d s wanted st
    refine ⟨blocks, mgmt, fun v => ?_, fun unwanted accepted => ?_, ?_, ?_⟩
    · rw [← tagAccepted_tag]
      exact congrArg (Table.get · (unitIndex v)) (answer_tags u tag d s wanted st)
    · have silent : t = _ := answer_silent u tag d s unwanted accepted
      rw [silent]
      exact ⟨tagAccepted_up .., tagAccepted_sticky ..⟩
    · exact answer_room u tag d s
    · exact answer_full u tag d s
  · exact fun room => absurd (of_decide_eq_true room) (Nat.not_lt.mpr full)
  · cases st <;> decide

/-! ### RESET_UNIT (R181) -/

/-- The management unit after a RESET_UNIT of `u`, but for the answer: its request in execution gone and its tag 0. -/
def Management.freed (m : Management) (u : RequestUnit) : Management :=
  { m with
    tags := m.tags.set (unitIndex u) 0
    mapJob := if u = .map then none else m.mapJob
    switchJob := if u = .switch then none else m.switchJob
    exportJob := if u = .record then none else m.exportJob }

/-- Any unit but SWITCH has nothing beside its request in execution (R21, R160). -/
theorem setTag_abandonUnit {u : RequestUnit} (other : u ≠ .switch) (s : State) :
    setTag u 0 (abandonUnit u s) = s.withMgmt (s.mgmt.freed u) := by
  cases u with
  | switch => exact absurd rfl other
  | control | map | tenant | links | roster | calib | record => rfl

/-- The work of a SWITCH request goes on with no answer owed (R127). -/
theorem setTag_abandonSwitch (s : State) :
    setTag .switch 0 (abandonUnit .switch s) = disownSwitch (s.withMgmt (s.mgmt.freed .switch)) := rfl

theorem unitBusy_freed (u : RequestUnit) (s : State) : unitBusy u (s.withMgmt (s.mgmt.freed u)) = false := by
  cases u <;> rfl

theorem unitBusy_freed_other {u v : RequestUnit} (other : v ≠ u) (s : State) :
    unitBusy v (s.withMgmt (s.mgmt.freed u)) = unitBusy v s := by
  cases v with
  | map => exact congrArg Option.isSome (if_neg other.symm)
  | switch => exact congrArg Option.isSome (if_neg other.symm)
  | record => exact congrArg Option.isSome (if_neg other.symm)
  | control | tenant | links | roster | calib => rfl

theorem exec_resetUnit_admitted {r : Request} {u : RequestUnit} {s : State} (admitted : Admitted .control r s)
    (read : Args.resetUnit r.args = some u) : exec (.resetUnit r) s =
      .next (answer .control r.tag (ackWanted r) .ok .none (setTag u 0 (abandonUnit u (received .uplink s)))) :=
  congrArg Host.Outcome.next (serve_admitted admitted read)

/-- Settles O50: an admitted RESET_UNIT abandons and clears (`setTag_abandonUnit`), and disowns what goes on of SWITCH. -/
theorem resetUnitFreesTheUnit : Obligations.ResetUnitFreesTheUnit := by
  intro s r u admitted read s' unowed unowedOrder freed
  have run := exec_resetUnit_admitted admitted read
  have request : unowed = RequestOrigin.disowned := funext fun g => by cases g <;> rfl
  have order : unowedOrder = OrderOrigin.disowned := funext fun g => by
    cases g with
    | management tag owed => rfl
    | shed a g => exact congrArg (OrderOrigin.shed a) (congrFun request g)
    | restore a g => exact congrArg (OrderOrigin.restore a) (congrFun request g)
  refine ⟨fun other => ?_, fun switch => ?_, unitBusy_freed u s', fun v other => ?_⟩
  · rw [run, setTag_abandonUnit other]
    rfl
  · subst switch
    rw [run, setTag_abandonSwitch, request, order]
    rfl
  · exact (unitBusy_freed_other other s').trans (by cases v <;> rfl)

end Sys2Proof.Machine


/-! The checks of a request and what its readers read (R171, R173, Tables 9.6 and 9.7). -/

namespace Sys2Proof.Machine

/-! ### Flags, busy unit, arguments (R173, checks 5 to 7) -/

/-- Where a request of unit `u` finds the state: a LINKS request comes after the chain in hand (log entry 5). -/
def servedState (u : RequestUnit) (s : State) : State := if u = .links then finishChain s else s

/-- Every request command is served, by the reader that its argument check looks at. -/
theorem exec_served {c : Instr} {u : RequestUnit} {op : Nat} {r : Request} (request : c.served = some (u, op, r))
    (s : State) : ∃ (α : Type) (parse : List Byte → Option α) (act : α → State → State),
      exec c s = .next (serve u r parse act (servedState u s)) ∧ argsReadable c = (parse r.args).isSome := by
  cases c <;> cases request
  all_goals exact ⟨_, _, _, rfl, rfl⟩

theorem unitBusy_servedState (u : RequestUnit) (s : State) :
    unitBusy u (received .uplink (servedState u s)) = unitBusy u s := by cases u <;> rfl

section
variable {α : Type} {u : RequestUnit} {r : Request} {parse : List Byte → Option α} {act : α → State → State} {s : State}
  (tagged : r.tag ≠ 0) (fits : 4 + r.args.length ≤ Config.maxPayload)
include tagged fits

/-- A request with a tag that fits its frame meets the checks of flags, busy unit and arguments in this order. -/
theorem serve_checks : serve u r parse act s =
    let s' := received .uplink s
    if r.flags &&& 0xFE#8 ≠ 0#8 then answer u r.tag true .badArg .none s'
    else if unitBusy u s' then answer u r.tag true .busy .none s'
    else
      match parse r.args with
      | none => answer u r.tag true .badArg .none s'
      | some a => act a s' := (arrive_fits fits ..).trans (if_neg tagged)

theorem serve_badFlags (bad : r.flags &&& 0xFE#8 ≠ 0#8) :
    serve u r parse act s = answer u r.tag true .badArg .none (received .uplink s) :=
  (serve_checks tagged fits).trans (if_pos bad)

theorem serve_busy (flags : r.flags &&& 0xFE#8 = 0#8) (busy : unitBusy u (received .uplink s) = true) :
    serve u r parse act s = answer u r.tag true .busy .none (received .uplink s) :=
  (serve_checks tagged fits).trans ((if_neg (not_not_intro flags)).trans (if_pos busy))

theorem serve_badArgs (flags : r.flags &&& 0xFE#8 = 0#8) (free : unitBusy u (received .uplink s) = false)
    (unreadable : parse r.args = none) :
    serve u r parse act s = answer u r.tag true .badArg .none (received .uplink s) := by
  refine (serve_checks tagged fits).trans ((if_neg (not_not_intro flags)).trans ?_)
  rw [free, unreadable]
  rfl

end

/-- The checks 5 to 7 of R173, command by command. -/
theorem exec_refused {c : Instr} {u : RequestUnit} {op : Nat} {r : Request} (request : c.served = some (u, op, r))
    (tagged : r.tag ≠ 0) (fits : 4 + r.args.length ≤ Config.maxPayload) (s : State) :
    let s' := received .uplink (servedState u s)
    (r.flags &&& 0xFE#8 ≠ 0#8 → exec c s = .next (answer u r.tag true .badArg .none s')) ∧
    (r.flags &&& 0xFE#8 = 0#8 → unitBusy u s = true → exec c s = .next (answer u r.tag true .busy .none s')) ∧
    (r.flags &&& 0xFE#8 = 0#8 → unitBusy u s = false → argsReadable c = false →
      exec c s = .next (answer u r.tag true .badArg .none s')) := by
  obtain ⟨α, parse, act, run, readable⟩ := exec_served request s
  have busy := unitBusy_servedState u s
  rw [run, readable, ← busy]
  refine ⟨fun bad => ?_, fun flags busy => ?_, fun flags free unreadable => ?_⟩
  · rw [serve_badFlags tagged fits bad]
  · rw [serve_busy tagged fits flags busy]
  · rw [serve_badArgs tagged fits flags free (Option.not_isSome_iff_eq_none.mp (Bool.eq_false_iff.mp unreadable))]

/-- Commands whose argument checks are one check take the same arguments. -/
theorem forall_argsReadable {cs : List Instr} {readable : Bool} {p : Prop}
    (same : cs.map argsReadable = List.replicate cs.length readable) (form : readable = true ↔ p) :
    ∀ c ∈ cs, argsReadable c = true ↔ p := fun c listed => by
  have one : argsReadable c ∈ List.replicate cs.length readable := same ▸ List.mem_map_of_mem listed
  rw [List.eq_of_mem_replicate one]
  exact form

/-! ### Codes read back (Table 9.6) -/

theorem feedOf_feedByte (x : Feed) : feedOf (feedByte x).toNat = some x := by cases x <;> rfl

theorem tenantOf_tenantByte (x : Option Slot) : tenantOf (tenantByte x).toNat = some x := by
  cases x with
  | none => rfl
  | some a => exact (congrArg tenantOf (toNat_byte (by omega))).trans (tenantOf_succ a)

theorem relayActionOf_byte (x : RelayAction) : relayActionOf (relayActionByte x).toNat = some x := by cases x <;> rfl

theorem indicatorActionOf_byte (x : IndicatorAction) : indicatorActionOf (indicatorActionByte x).toNat = some x := by
  cases x <;> rfl

theorem linkModeOf_byte (x : LinkMode) : linkModeOf (linkModeByte x).toNat = some x := by cases x <;> rfl

/-- The code and the target of an action, which `linkActionBytes` sends, are read back as it (Table 9.6). -/
theorem linkActionOf_bytes {action : LinkAction} {code target : Byte} (bytes : linkActionBytes action = [code, target]) :
    linkActionOf code.toNat target.toNat = some action := by
  cases action <;> cases bytes
  case notify => rfl
  case close => rfl
  all_goals exact congrArg (Option.map _) (slotOf_slotByte _)

/-- Settles O5: the checks by `exec_refused`, the arguments by what each reader takes (`Args.isSome_…`), the values by what
each reader reads (`Args.…_eq`). -/
theorem requestChecksFollowTheirOrder : Obligations.RequestChecksFollowTheirOrder := by
  refine ⟨fun c u op r s request tagged fits => exec_refused request tagged fits s, fun tag flags args => ?_, ?_⟩
  · intro r isSlot isNode isOutlet
    exact ⟨forall_argsReadable rfl (Args.isSome_nothing args), forall_argsReadable rfl (Args.isSome_slot args),
      Args.isSome_readProfile args, forall_argsReadable rfl (Args.isSome_link args),
      List.forall_mem_cons.mpr
        ⟨Args.isSome_setState args, List.forall_mem_singleton.mpr (Args.isSome_setForward args)⟩,
      Args.isSome_readStatus args, Args.isSome_resetUnit args, forall_argsReadable rfl (Args.isSome_setNode args),
      Args.isSome_readEntries args, Args.isSome_setLimit args, Args.isSome_setOutlet args, Args.isSome_order args,
      Args.isSome_setTiming args, Args.isSome_assign args, Args.isSome_alterFlags args, Args.isSome_setPreset args,
      Args.isSome_setLink args, forall_argsReadable rfl (Args.isSome_slotContract args), Args.isSome_setProfile args,
      Args.importRecord_checks args⟩
  · intro b two three power yes
    refine ⟨fun n o => ?outlets, fun i k mask low fits => ?flags, fun i p square ceiling form => ?profiles,
      fun a => ?tenants, fun l => ?links, Args.setTiming_eq,
      rfl, rfl, rfl, rfl⟩
    case outlets =>
      intro node outlet i
      refine ⟨Args.readEntries_eq n o, fun k tenant feed excluded low fits => ?_, Args.setOutlet_eq n o,
        fun relay indicator => ?_, fun x => ⟨Args.setNode_eq n x, Args.setNode_eq n x⟩, Args.setLimit_eq n⟩
      · exact Args.assign_eq n o k _ _ _ ⟨tenant, feed, excluded⟩ low fits (tenantOf_tenantByte tenant)
          (feedOf_feedByte feed) (boolOf_code excluded)
      · exact Args.order_eq n o _ _ relay indicator (relayActionOf_byte relay) (indicatorActionOf_byte indicator)
    case flags =>
      exact ⟨Args.alterFlags_eq i k mask 0 .and low fits rfl, Args.alterFlags_eq i k mask 1 .or low fits rfl,
        Args.alterFlags_eq i k mask 2 .xor low fits rfl⟩
    case profiles =>
      refine ⟨?_, Args.readProfile_eq i⟩
      rcases form with ⟨absent, x, y, z, rfl⟩ | ⟨c, present, rfl⟩
      · exact Args.setProfile_eq i p _ 0 x y z ceiling (.inl ⟨absent, if_pos absent, rfl⟩)
      · have degree : p.c2 ≠ none := present ▸ Option.some_ne_none c
        exact Args.setProfile_eq i p _ 1 _ _ _ ceiling (.inr ⟨c, present, if_neg degree, rfl, rfl, rfl, rfl⟩)
    case tenants =>
      refine ⟨Args.slot_eq a, fun c burst warn warnTop tolerance release releaseTop form => ?_, Args.setPreset_eq a,
        Args.importRecord_eq a⟩
      rcases form with ⟨absent, w, x, y, z, rfl⟩ | ⟨x, present, allowance, allowanceTop, refill, rfl⟩
      · exact Args.slotContract_eq a c _ 0 w x y z (basisOf_basisByte c.basis) ⟨warn, warnTop⟩ tolerance
          ⟨release, releaseTop⟩ (.inl ⟨absent, rfl⟩)
      · have first := two_bytes (v := x.allowance) (by omega)
        have second := two_bytes (v := x.refill) (by omega)
        exact Args.slotContract_eq a c _ 1 _ _ _ _ (basisOf_basisByte c.basis) ⟨warn, warnTop⟩ tolerance
          ⟨release, releaseTop⟩ (.inr ⟨by rw [first, second]; exact present, rfl, by rw [first]; exact allowance⟩)
    case links =>
      refine ⟨Args.link_eq l, fun mode event1 event0 condition conditionBytes action guard form => ?_⟩
      rcases form with ⟨rfl, x, y, rfl⟩ | ⟨c, rfl, rfl⟩
      · cases action <;> exact Args.setLink_eq l _ event1 event0 0 x y _ _ guard mode none _ (linkModeOf_byte mode)
          (Args.condition_absent x y) (linkActionOf_bytes rfl)
      · cases action <;> exact Args.setLink_eq l _ event1 event0 1 _ _ _ _ guard mode (some c) _ (linkModeOf_byte mode)
          (Args.condition_present c.tenant c.verdicts) (linkActionOf_bytes rfl)

end Sys2Proof.Machine


/-! RESTART: what the steps of a warm restart leave in every block (R22, R61, R83, R104, R126, R144, R172, R180). -/

namespace Sys2Proof.Machine

/-! ### Step 3: every pending change is in force, and no conversion flag is touched -/

theorem applyPending_attention (i : OutletIx) (s : State) :
    (applyPending i s).map.attention = s.map.attention := by
  unfold applyPending
  split
  · rfl
  · next m pending =>
    rw [pendingInDown_map]
    have applied := congrArg OutletMap.attention (applyChange_spec i m s).1
    exact applied

theorem applyAllPending_attention (s : State) : (applyAllPending s).map.attention = s.map.attention := by
  unfold applyAllPending
  refine List.foldlRecOn (motive := fun x : State => x.map.attention = s.map.attention) _ _ rfl fun x same k _ => ?_
  split
  · exact (applyPending_attention _ x).trans same
  · exact same

/-! ### Step 5: every outlet with an outstanding order becomes UNKNOWN (R126) -/

/-- The entry of an outlet after step 5: UNKNOWN where an order was outstanding. -/
def Outlet.abandoned (e : Outlet) (ordered : Prop) [Decidable ordered] : Outlet :=
  if ordered then { e with relay := .unknown, indicator := .unknown } else e

theorem writeUnknown_entry (os : List Order) (i : OutletIx) : ∀ s : State,
    (os.foldl (fun s o => writeStatus o.outlet .unknown .unknown s) s).map.entries.get i =
      (s.map.entries.get i).abandoned (∃ o ∈ os, o.outlet = i) := by
  induction os with
  | nil => exact fun s => (if_neg (by simp)).symm
  | cons o os ih =>
    intro s
    rw [List.foldl_cons, ih]
    have written : (writeStatus o.outlet .unknown .unknown s).map.entries.get i =
        (s.map.entries.get i).abandoned (o.outlet = i) := by
      refine (Table.get_modify ..).trans ?_
      unfold Outlet.abandoned
      by_cases own : i = o.outlet
      · subst own; exact (if_pos rfl).trans (if_pos rfl).symm
      · rw [if_neg own, if_neg (Ne.symm own)]
    rw [written]
    simp only [Outlet.abandoned, List.exists_mem_cons_iff]
    by_cases own : o.outlet = i <;> by_cases later : ∃ o ∈ os, o.outlet = i <;> simp [own, later]

theorem writeUnknown_attention (os : List Order) (s : State) :
    (os.foldl (fun s o => writeStatus o.outlet .unknown .unknown s) s).map.attention = s.map.attention :=
  List.foldlRecOn (motive := fun x : State => x.map.attention = s.map.attention) _ _ rfl fun _ same _ _ => same

theorem writeUnknown_touches (os : List Order) (s : State) :
    Touches [.map] s (os.foldl (fun s o => writeStatus o.outlet .unknown .unknown s) s) :=
  .foldl (fun _ _ => modifyOutlet_touches ..) os s

theorem restartOrders_touches (s : State) : Touches [.map, .tenants, .orders] s (restartOrders s) := by
  have dropped : Touches [.tenants] s (s.withTenants (s.tenants.map Tenant.dropUnconfirmed)) :=
    ⟨rfl, fun b out => by cases b <;> first | exact absurd out (by decide) | rfl⟩
  have emptied (x : State) (y : OrderTable) : Touches [.orders] x (x.withOrders y) :=
    ⟨rfl, fun b out => by cases b <;> first | exact absurd out (by decide) | rfl⟩
  exact (dropped.widen.trans (writeUnknown_touches ..).widen).trans (emptied ..).widen

theorem restartOrders_tenants (s : State) : (restartOrders s).tenants = s.tenants.map Tenant.dropUnconfirmed :=
  (writeUnknown_touches s.orders.orders (s.withTenants (s.tenants.map Tenant.dropUnconfirmed))).2 .tenants rfl

theorem restartOrders_orders (s : State) : (restartOrders s).orders = { s.orders with orders := [] } :=
  congrArg (fun x : OrderTable => { x with orders := [] })
    ((writeUnknown_touches s.orders.orders (s.withTenants (s.tenants.map Tenant.dropUnconfirmed))).2 .orders rfl)

/-! ### The state after step 5 -/

/-- The state after the steps 1 to 3 of a warm restart. -/
def restartApplied (s : State) : State := applyAllPending (restartReview (restartUnits s))

/-- The state after the steps 1 to 5 of a warm restart. -/
def restartSettled (s : State) : State := restartOrders (restartLinks (restartApplied s))

theorem restartApplied_orders (s : State) : (restartApplied s).orders = s.orders :=
  (applyAllPending_touches _).2 .orders rfl

theorem restartApplied_links (s : State) : (restartApplied s).links = s.links :=
  (applyAllPending_touches _).2 .links rfl

/-- The steps 3 to 5 leave the other blocks as the first two left them. -/
theorem restartSettled_touches (s : State) :
    Touches [.map, .tenants, .orders, .links] (restartReview (restartUnits s)) (restartSettled s) := by
  have links (x : State) : Touches [.orders, .links] x (restartLinks x) :=
    ⟨rfl, fun b out => by cases b <;> first | exact absurd out (by decide) | rfl⟩
  exact ((applyAllPending_touches _).widen.trans (links _).widen).trans (restartOrders_touches _).widen

theorem restartSettled_orders (s : State) :
    (restartSettled s).orders = { s.orders with orders := [], search := none } := by
  refine (restartOrders_orders _).trans ?_
  change { (restartApplied s).orders with orders := [], search := none } = _
  rw [restartApplied_orders]

theorem restartSettled_links (s : State) : (restartSettled s).links =
    { s.links with links := s.links.links.map Link.restarted, shedQueue := [] } := by
  refine ((restartOrders_touches _).2 .links rfl).trans ?_
  change { (restartApplied s).links with
    links := (restartApplied s).links.links.map Link.restarted, shedQueue := [] } = _
  rw [restartApplied_links]

theorem restartSettled_entry (s : State) (i : OutletIx) :
    (restartSettled s).map.entries.get i = (settledEntry i s).abandoned (∃ o ∈ s.orders.orders, o.outlet = i) := by
  have settled : (restartApplied s).map.entries.get i = settledEntry i s :=
    (applyAllPending_spec _).1 i
  refine (writeUnknown_entry ..).trans ?_
  change ((restartApplied s).map.entries.get i).abandoned
    (∃ o ∈ (restartApplied s).orders.orders, o.outlet = i) = _
  simp only [settled, restartApplied_orders]

theorem restartSettled_attention (s : State) : (restartSettled s).map.attention = s.map.attention :=
  (writeUnknown_attention ..).trans (applyAllPending_attention _)

/-- What a warm restart leaves of a stack: the confirmed entries whose outlets have not left the tenant (R10, R61). -/
def restartedStack (s : State) (a : Slot) : List StackEntry :=
  ((s.tenants.get a).stack.filter (fun x => !decide
    (leavesTenant (s.map.entries.get x.outlet).effective (s.map.entries.get x.outlet).settled a))).filter (·.confirmed)

theorem restartSettled_tenant (s : State) (a : Slot) : (restartSettled s).tenants.get a =
    { s.tenants.get a with
      draw := ((restartSettled s).tenants.get a).draw, members := ((restartSettled s).tenants.get a).members
      stale := ((restartSettled s).tenants.get a).stale, pendingIn := ((restartSettled s).tenants.get a).pendingIn
      stack := restartedStack s a } := by
  have dropped : (restartSettled s).tenants.get a =
      ((restartApplied s).tenants.get a).dropUnconfirmed :=
    (congrArg (Table.get · a) (restartOrders_tenants _)).trans (Table.get_map ..)
  have applied := (applyAllPending_spec (restartReview (restartUnits s))).2 a
  rw [dropped]
  exact congrArg Tenant.dropUnconfirmed applied

/-! ### The whole restart -/

/-- The steps 6 to 9 of a warm restart. -/
theorem warmRestart_ends (s : State) :
    Touches [.map, .tenants, .roster, .up, .down, .ports, .mgmt] (restartSettled s) (warmRestart s) := by
  have ends (x : State) : Touches [.map, .tenants, .roster, .up, .down, .ports, .mgmt] x
      (restartState (restartPorts (restartRoster (restartReadings x)))) :=
    ⟨rfl, fun b out => by cases b <;> first | exact absurd out (by decide) | rfl⟩
  exact ends (restartSettled s)

/-- An entry after a warm restart: its pending change in force, UNKNOWN where an order was outstanding, its reading 0 and
not fresh (R22, R126). -/
theorem warmRestart_entry (s : State) (i : OutletIx) : (warmRestart s).map.entries.get i =
    { (settledEntry i s).abandoned (∃ o ∈ s.orders.orders, o.outlet = i) with reading := 0, fresh := false } := by
  refine (Table.get_map ..).trans ?_
  exact congrArg (fun e : Outlet => { e with reading := 0, fresh := false }) (restartSettled_entry s i)

theorem abandoned_frame (e : Outlet) (ordered : Prop) [Decidable ordered] : e.abandoned ordered =
    { e with relay := (e.abandoned ordered).relay, indicator := (e.abandoned ordered).indicator } := by
  unfold Outlet.abandoned
  split <;> rfl

/-- What a warm restart leaves of an entry beside its relay status and its indicator (R22). -/
theorem warmRestart_entry_frame (s : State) (i : OutletIx) : (warmRestart s).map.entries.get i =
    { s.map.entries.get i with
      pending := none, effective := (s.map.entries.get i).settled, reading := 0, fresh := false
      relay := ((warmRestart s).map.entries.get i).relay
      indicator := ((warmRestart s).map.entries.get i).indicator } := by
  rw [warmRestart_entry, abandoned_frame]
  rfl

theorem warmRestart_entry_kept (s : State) (i : OutletIx) :
    let e := s.map.entries.get i
    let e' := (warmRestart s).map.entries.get i
    e'.effective = e.settled ∧ e'.pending = none ∧ e'.reading = 0 ∧ e'.fresh = false ∧
      e'.readingTime = e.readingTime ∧ e'.flags = e.flags ∧ e'.profile = e.profile ∧ e'.rank = e.rank := by
  intro e e'
  have entry : e' = _ := warmRestart_entry_frame s i
  rw [entry]
  exact ⟨rfl, rfl, rfl, rfl, rfl, rfl, rfl, rfl⟩

theorem warmRestart_attention (s : State) : (warmRestart s).map.attention = s.map.attention :=
  restartSettled_attention s

theorem readingsZeroed_frame (k : Tenant) :
    k.readingsZeroed = { k with draw := k.readingsZeroed.draw, stale := k.readingsZeroed.stale } := by
  unfold Tenant.readingsZeroed
  split <;> rfl

theorem readingsZeroed_used {k : Tenant} (used : k.readingsZeroed.state ≠ .free) :
    k.readingsZeroed.draw = ⟨0, 0⟩ ∧
      k.readingsZeroed.stale = k.readingsZeroed.members.a + k.readingsZeroed.members.b := by
  rw [readingsZeroed_frame] at used
  unfold Tenant.readingsZeroed
  rw [if_neg used]
  exact ⟨rfl, rfl⟩

theorem warmRestart_readingsZeroed (s : State) (a : Slot) :
    (warmRestart s).tenants.get a = ((restartSettled s).tenants.get a).readingsZeroed := Table.get_map ..

/-- A tenant keeps everything but what readings, pending changes and orders take with them (R61). -/
theorem warmRestart_tenant (s : State) (a : Slot) : (warmRestart s).tenants.get a =
    { s.tenants.get a with
      draw := ((warmRestart s).tenants.get a).draw, members := ((warmRestart s).tenants.get a).members
      stale := ((warmRestart s).tenants.get a).stale, pendingIn := ((warmRestart s).tenants.get a).pendingIn
      stack := restartedStack s a } := by
  rw [warmRestart_readingsZeroed, readingsZeroed_frame, restartSettled_tenant]

theorem warmRestart_tenant_kept (s : State) (a : Slot) :
    let k := s.tenants.get a
    let k' := (warmRestart s).tenants.get a
    k'.contract = k.contract ∧ k'.lifetime = k.lifetime ∧ k'.baseline = k.baseline ∧ k'.budget = k.budget ∧
      k'.verdict = k.verdict ∧ k'.lastVisit = k.lastVisit := by
  intro k k'
  have tenant : k' = _ := warmRestart_tenant s a
  rw [tenant]
  exact ⟨rfl, rfl, rfl, rfl, rfl, rfl⟩

theorem warmRestart_stack (s : State) (a : Slot) : ((warmRestart s).tenants.get a).stack = restartedStack s a :=
  congrArg Tenant.stack (warmRestart_tenant s a)

theorem warmRestart_draws {s : State} {a : Slot} (used : ((warmRestart s).tenants.get a).state ≠ .free) :
    ((warmRestart s).tenants.get a).draw = ⟨0, 0⟩ ∧ ((warmRestart s).tenants.get a).stale =
      ((warmRestart s).tenants.get a).members.a + ((warmRestart s).tenants.get a).members.b := by
  rw [warmRestart_readingsZeroed] at used ⊢
  exact readingsZeroed_used used

/-- No pending change is left to count (R2, R48). -/
theorem warmRestart_pendingCounts {s : State} (accounts : Accounts s) :
    (warmRestart s).map.pendingCount = 0 ∧ ∀ a, ((warmRestart s).tenants.get a).pendingIn = 0 := by
  have exact := warmRestart_accounts accounts
  have none : ∀ e ∈ (warmRestart s).map.entries.rows, e.pending = none := fun e mem => by
    obtain ⟨i, rfl⟩ := Table.mem_rows.mp mem
    rw [warmRestart_entry]
    unfold Outlet.abandoned
    split <;> rfl
  rw [exact.pendingCount, List.countP_eq_zero]
  refine ⟨fun e mem => ?_, fun a => ?_⟩
  · rw [none e mem]
    exact Bool.false_ne_true
  · rw [exact.pendingIn, List.countP_eq_zero]
    intro e mem
    rw [Outlet.movesTo, none e mem]
    exact Bool.false_ne_true

/-! ### Stacks and relay statuses that agree (R10, R49, R111) -/

theorem relayApplied_cases (i : OutletIx) (m : Membership) (s : State) :
    relayApplied i m s = (s.map.entries.get i).relay ∨ relayApplied i m s = .off := by
  unfold relayApplied
  dsimp only
  split
  · exact .inl rfl
  · split
    · exact .inr rfl
    · exact .inl rfl

/-- Where stacks and memberships agree, an outlet is OFF_SHED after an application when it was a confirmed entry of a
tenant that it has not left (R10, R111). -/
theorem relayApplied_offShed_iff {s : State} (sound : Shedding s) (i : OutletIx) (m : Membership) :
    relayApplied i m s = .offShed ↔
      ∃ a, ⟨i, true⟩ ∈ (s.tenants.get a).stack ∧ m.memberOf.map (·.1) = some a := by
  constructor
  · intro off
    have kept : relayApplied i m s = (s.map.entries.get i).relay :=
      (relayApplied_cases i m s).resolve_right fun left => RelayStatus.noConfusion (off.symm.trans left)
    obtain ⟨a, entry⟩ := (sound.offShed i).mp (kept.symm.trans off)
    obtain ⟨f, member⟩ := sound.stackMembers a _ entry
    refine ⟨a, entry, Classical.byContradiction fun leaves => ?_⟩
    exact RelayStatus.noConfusion (off.symm.trans (relayApplied_leaves member leaves entry))
  · rintro ⟨a, entry, stays⟩
    obtain ⟨f, member⟩ := sound.stackMembers a _ entry
    have kept : relayApplied i m s = (s.map.entries.get i).relay := by
      refine relayApplied_stays fun b g other _ => ?_
      obtain ⟨rfl, -⟩ := Prod.mk.inj (Option.some.inj (member.symm.trans other))
      exact stays
    exact kept.trans ((sound.offShed i).mpr ⟨a, entry⟩)

theorem warmRestart_effective (s : State) (i : OutletIx) :
    ((warmRestart s).map.entries.get i).effective = (s.map.entries.get i).settled :=
  congrArg Outlet.effective (warmRestart_entry_frame s i)

/-- What is left of a stack that agrees with the memberships: the confirmed entries of members (R10, R49, R61). -/
theorem restartedStack_members {s : State} (sound : Shedding s) (a : Slot) : restartedStack s a =
    (s.tenants.get a).stack.filter (fun x =>
      x.confirmed && decide ((s.map.entries.get x.outlet).settled.memberOf.map (·.1) = some a)) := by
  unfold restartedStack
  rw [List.filter_filter]
  refine List.filter_congr fun x mem => congrArg (x.confirmed && ·) ?_
  obtain ⟨f, member⟩ := sound.stackMembers a x mem
  rw [← decide_not, decide_eq_decide]
  simp only [leavesTenant, member, Option.map_some, true_and, Ne, Classical.not_not]

theorem mem_restartedStack {s : State} (sound : Shedding s) (i : OutletIx) (a : Slot) :
    ⟨i, true⟩ ∈ restartedStack s a ↔
      ⟨i, true⟩ ∈ (s.tenants.get a).stack ∧ (s.map.entries.get i).settled.memberOf.map (·.1) = some a := by
  rw [restartedStack_members sound, List.mem_filter, Bool.true_and, decide_eq_true_iff]

/-- A warm restart keeps OFF_SHED for the confirmed entries that are left (R111). -/
theorem warmRestart_offShed_iff {s : State} (sound : Shedding s) (i : OutletIx) :
    ((warmRestart s).map.entries.get i).relay = .offShed ↔ ∃ a, ⟨i, true⟩ ∈ restartedStack s a := by
  rw [warmRestart_entry]
  simp only [mem_restartedStack sound, Outlet.abandoned]
  split
  · next ordered =>
    obtain ⟨o, placed, own⟩ := ordered
    exact ⟨RelayStatus.noConfusion, fun ⟨a, entry, _⟩ => absurd own (sound.confirmed a i entry o placed)⟩
  · exact relayApplied_offShed_iff sound i _

/-! ### An outlet that keeps or loses its status -/

section
variable {s : State} {i : OutletIx}

theorem warmRestart_ordered (ordered : ∃ o ∈ s.orders.orders, o.outlet = i) :
    ((warmRestart s).map.entries.get i).relay = .unknown ∧
      ((warmRestart s).map.entries.get i).indicator = .unknown := by
  rw [warmRestart_entry, Outlet.abandoned, if_pos ordered]
  exact ⟨rfl, rfl⟩

theorem settledEntry_relay (i : OutletIx) (s : State) : (settledEntry i s).relay = (s.map.entries.get i).relay ∨
    (s.map.entries.get i).pending ≠ none ∧ (settledEntry i s).relay = .off := by
  cases pending : (s.map.entries.get i).pending with
  | none =>
    have settled : (s.map.entries.get i).settled = (s.map.entries.get i).effective :=
      congrArg (Option.getD · (s.map.entries.get i).effective) pending
    exact .inl ((congrArg (relayApplied i · s) settled).trans relayApplied_same)
  | some m => exact (relayApplied_cases i _ s).imp_right fun off => ⟨Option.some_ne_none m, off⟩

theorem warmRestart_unordered (unordered : ∀ o ∈ s.orders.orders, o.outlet ≠ i) :
    ((warmRestart s).map.entries.get i).indicator = (s.map.entries.get i).indicator ∧
      (((warmRestart s).map.entries.get i).relay = (s.map.entries.get i).relay ∨
        (s.map.entries.get i).pending ≠ none ∧ ((warmRestart s).map.entries.get i).relay = .off) := by
  have nobody : ¬ ∃ o ∈ s.orders.orders, o.outlet = i := fun ⟨o, placed, own⟩ => unordered o placed own
  rw [warmRestart_entry, Outlet.abandoned, if_neg nobody]
  exact ⟨rfl, settledEntry_relay i s⟩

end

/-! ### The other blocks -/

theorem warmRestart_time (s : State) : (warmRestart s).time = s.time :=
  ((warmRestart_ends s).2 .time rfl).trans ((restartSettled_touches s).2 .time rfl)

theorem warmRestart_profiles (s : State) : (warmRestart s).profiles = s.profiles :=
  ((warmRestart_ends s).2 .profiles rfl).trans ((restartSettled_touches s).2 .profiles rfl)

theorem warmRestart_review (s : State) :
    (warmRestart s).review = { s.review with pass := .idle, position := 0, walked := false, closing := false } :=
  ((warmRestart_ends s).2 .review rfl).trans ((restartSettled_touches s).2 .review rfl)

theorem warmRestart_orders (s : State) : (warmRestart s).orders = { s.orders with orders := [], search := none } :=
  ((warmRestart_ends s).2 .orders rfl).trans (restartSettled_orders s)

theorem warmRestart_links (s : State) : (warmRestart s).links =
    { s.links with links := s.links.links.map Link.restarted, shedQueue := [] } :=
  ((warmRestart_ends s).2 .links rfl).trans (restartSettled_links s)

theorem warmRestart_mgmt (s : State) : (warmRestart s).mgmt =
    { s.mgmt with opState := .hold, mapJob := none, switchJob := none, exportJob := none } :=
  congrArg (fun x : Management => { x with opState := .hold }) ((restartSettled_touches s).2 .mgmt rfl)

theorem warmRestart_up (s : State) : (warmRestart s).up = { s.up with replies := [], notices := [], transit := [] } :=
  congrArg (fun x : Uplink => { x with transit := [] }) ((restartSettled_touches s).2 .up rfl)

theorem warmRestart_down (s : State) : (warmRestart s).down = { s.down with queue := [] } :=
  congrArg (fun x : NodeTx => { x with queue := [] }) ((restartSettled_touches s).2 .down rfl)

theorem warmRestart_ports (s : State) : (warmRestart s).ports = { s.ports with counts := .zero } :=
  congrArg (fun x : Ports => { x with counts := .zero }) ((restartSettled_touches s).2 .ports rfl)

theorem warmRestart_node (s : State) (n : NodeIx) :
    (warmRestart s).roster.nodes.get n = (s.roster.nodes.get n).restarted :=
  (Table.get_map ..).trans
    (congrArg (fun x : Roster => (x.nodes.get n).restarted) ((restartSettled_touches s).2 .roster rfl))

theorem Shedding.withPorts {s : State} (h : Shedding s) (x : Ports) : Shedding (s.withPorts x) := { h with }

/-- Settles O49: an admitted RESTART runs `warmRestart` on a state in which the ports alone are new; then a lemma for each
block that the steps reach. -/
theorem restartLeavesHoldWithAccountsKept : Obligations.RestartLeavesHoldWithAccountsKept := by
  intro s r admitted noArgs
  obtain ⟨ports, arrived, forward⟩ := received_only .uplink s
  let x := s.withPorts ports
  have read : Args.nothing r.args = some () := if_pos noArgs
  have run : exec (.restart r) s = .next (answer .control r.tag (ackWanted r) .ok .none (warmRestart x)) :=
    congrArg Host.Outcome.next ((serve_admitted admitted read).trans (arrived ▸ rfl))
  refine ⟨warmRestart x, run, warmRestart_time x, warmRestart_profiles x, warmRestart_mgmt x, warmRestart_up x,
    warmRestart_down x, congrArg Ports.counts (warmRestart_ports x),
    (congrArg Ports.forward (warmRestart_ports x)).trans forward, warmRestart_review x, warmRestart_orders x,
    warmRestart_links x, warmRestart_node x, fun i => ?entries, warmRestart_attention x, fun accounts => ?counts,
    fun sound a => ?stack, fun sound i => ?offShed, fun a => ?frame, fun a => ?kept⟩
  case entries =>
    obtain ⟨effective, pending, reading, fresh, time, flags, profile, rank⟩ := warmRestart_entry_kept x i
    exact ⟨effective, pending, reading, fresh, time, flags, profile, rank, warmRestart_ordered (s := x),
      warmRestart_unordered (s := x)⟩
  case counts => exact warmRestart_pendingCounts ((Keeps.withPorts s ports).accounts accounts)
  case stack =>
    rw [warmRestart_stack, restartedStack_members (sound.withPorts ports)]
    simp only [warmRestart_effective]
    rfl
  case offShed =>
    simp only [warmRestart_stack]
    exact warmRestart_offShed_iff (sound.withPorts ports) i
  case frame =>
    rw [warmRestart_stack]
    exact warmRestart_tenant x a
  case kept =>
    obtain ⟨contract, lifetime, baseline, budget, verdict, lastVisit⟩ := warmRestart_tenant_kept x a
    refine ⟨contract, lifetime, baseline, budget, verdict, lastVisit, fun e left => ?_, warmRestart_draws⟩
    rw [warmRestart_stack] at left
    exact (List.mem_filter.mp left).2

end Sys2Proof.Machine


/-! The queue of commands: a step takes its front (O1), and no command's meaning writes it (O3). -/

namespace Sys2Proof.Machine

/-! ### The step -/

theorem step_of_pending_cons {c : Instr} {rest : List Instr} {s : State} (front : s.pending = c :: rest) :
    step s = exec c (s.withPending rest) := by
  unfold step
  rw [front]

/-- Settles O1, by the second branch of `step`. -/
theorem stepRunsTheFrontCommand : Obligations.StepRunsTheFrontCommand :=
  fun _ _ _ front => step_of_pending_cons front

/-! ### The queue under what the commands share -/

/-- What touches blocks only leaves the queue alone. -/
theorem Touches.pending {bs : List Block} {s t : State} (h : Touches bs s t) : t.pending = s.pending := h.1

/-- A case split whose two sides both leave the queue alone. -/
theorem ite_pending {p : Prop} [Decidable p] {s t u : State} (yes : t.pending = s.pending)
    (no : u.pending = s.pending) : (if p then t else u).pending = s.pending := by
  split
  · exact yes
  · exact no

theorem post_pending (src : EventSource) (id : Word16) (s : State) : (post src id s).pending = s.pending :=
  (postAt_touches ..).pending

/-- An operation that leaves the queue alone, with its answer. -/
theorem answered_pending {u : RequestUnit} {tag : Byte} {w : Bool} {st : Status} {d : ReplyData} {s t : State}
    (h : t.pending = s.pending) : (answer u tag w st d t).pending = s.pending := (answer_touches ..).pending.trans h

theorem setReceiver_pending (p : Port) (r : Receiver) (s : State) : (setReceiver p r s).pending = s.pending := by
  cases p <;> rfl

theorem arrive_pending {p : Port} {len : Nat} {k : State → State} {s : State} (h : ∀ x, (k x).pending = x.pending) :
    (arrive p len k s).pending = s.pending :=
  ite_pending (setReceiver_pending ..) ((h _).trans (setReceiver_pending ..))

/-- A request ends in a refusal or in its operation (R173). -/
theorem serve_pending {α : Type} {u : RequestUnit} {r : Request} {parse : List Byte → Option α}
    {act : α → State → State} {s : State} (h : ∀ a x, (act a x).pending = x.pending) :
    (serve u r parse act s).pending = s.pending := by
  obtain ⟨x, received, refused | ⟨a, -, runs⟩⟩ := serve_cases u r parse act s
  · exact refused.pending.trans received.pending
  · rw [runs]
    exact (h a x).trans received.pending

/-- A LINKS request is taken after the chain in hand (R90). -/
theorem serve_finishChain_pending {α : Type} {u : RequestUnit} {r : Request} {parse : List Byte → Option α}
    {act : α → State → State} {s : State} (h : ∀ a x, (act a x).pending = x.pending) :
    (serve u r parse act (finishChain s)).pending = s.pending := (serve_pending h).trans (finishChain_touches s).pending

/-! ### Frames on the node port (R129) -/

theorem nodePortFrame_pending {f : NodeFrame} {k : NodeIx → State → State} {s : State}
    (h : ∀ n x, (k n x).pending = x.pending) : (nodePortFrame f k s).pending = s.pending := by
  refine arrive_pending fun x => ?_
  split
  · rfl
  · exact ite_pending rfl (h _ _)

theorem takeReadings_pending (f : NodeFrame) (n : NodeIx) (s : State) : (takeReadings f n s).pending = s.pending := by
  have checked : (sequenceCheck n f.seq (raiseNode n s)).pending = s.pending :=
    (sequenceCheck_touches ..).1.pending.trans (raiseNode_touches n s).pending
  have forwarded : (forwardReadings n f (sequenceCheck n f.seq (raiseNode n s))).pending = s.pending :=
    (forwardReadings_touches ..).1.pending.trans checked
  exact ite_pending ((intake_spec ..).2.pending.trans forwarded) forwarded

theorem takeJoin_pending (f : NodeFrame) (n : NodeIx) (s : State) : (takeJoin f n s).pending = s.pending := by
  rw [takeJoin_forwards]
  exact (joinTransit_touches ..).pending.trans (joinTaken_touches f n s).pending

theorem takeOrderDone_pending (f : NodeFrame) (n : NodeIx) (s : State) : (takeOrderDone f n s).pending = s.pending := by
  have matched (number outlet : Byte) (e : Ending) : (matchOrder n number outlet e s).pending = s.pending := by
    unfold matchOrder
    split
    · rfl
    · exact (endOrder_touches ..).pending
  unfold takeOrderDone
  split
  · split
    · rfl
    · exact matched ..
  · rfl

/-! ### The link interface (R138, R162, R168, R173) -/

theorem passDownFrame_pending (k : DownKind) (f : NodeFrame) (s : State) : (passDownFrame k f s).pending = s.pending := by
  unfold passDownFrame
  split
  · exact arrive_pending fun _ => ite_pending rfl rfl
  · exact arrive_pending fun _ => rfl
  all_goals rfl

theorem receiveBytes_pending (p : Port) (bytes : List Byte) (s : State) : (receiveBytes p bytes s).pending = s.pending :=
  (Touches.foldl (bs := [.ports]) (fun x _ => touches_withPorts x _) ..).pending.trans (setReceiver_pending ..)

theorem abandonFrame_pending (p : Port) (s : State) : (abandonFrame p s).pending = s.pending := by
  unfold abandonFrame
  split
  · rfl
  · exact setReceiver_pending p .hunt s

theorem takeUnserved_pending (p : List Byte) (s : State) : (takeUnserved p s).pending = s.pending := by
  unfold takeUnserved
  split
  · exact arrive_pending fun _ => rfl
  · exact arrive_pending fun _ => (sendReply_touches ..).pending
  · rfl

theorem sendOwedNote_pending (s : State) : (sendOwedNote s).pending = s.pending := by
  refine ite_pending ?_ rfl
  split
  · rfl
  · exact (sendLimitNote_touches ..).pending

/-! ### The expiries (R64, R86, R112) -/

theorem takeReviewTick_pending (s : State) : (takeReviewTick s).pending = s.pending := by
  unfold takeReviewTick
  split
  · exact ite_pending ((queueNotice_touches ..).pending.trans (post_pending ..)) (post_pending ..)
  · rfl
  · rfl

theorem expireOrder_pending (number : Byte) (s : State) : (expireOrder number s).pending = s.pending := by
  unfold expireOrder
  split
  · rfl
  · exact ite_pending (endOrder_touches ..).pending rfl

/-! ### The event link table (R90, R98) -/

theorem takeNextEvent_pending (prefer : Option EventSource) (s : State) :
    (takeNextEvent prefer s).pending = s.pending := by
  unfold takeNextEvent
  split
  · unfold scanChain
    split
    · rfl
    · exact (takeEvent_touches ..).pending
  · split
    · rfl
    · exact (takeEvent_touches ..).pending

theorem takeReport_pending (s : State) : (takeReport s).pending = s.pending := by
  unfold takeReport
  split
  · exact (postAt_touches ..).pending
  · rfl
  · rfl

/-! ### The shed engine and the SWITCH unit (R115 to R118, R120, R123 to R125) -/

theorem takeShedRequest_pending (s : State) : (takeShedRequest s).pending = s.pending := by
  have shed (t : Slot) (o : RequestOrigin) (x : State) : (takeShed t o x).pending = x.pending := by
    unfold takeShed
    split
    · exact (endShedRequest_touches ..).pending
    · rfl
  have restore (t : Slot) (o : RequestOrigin) (x : State) : (takeRestore t o x).pending = x.pending := by
    unfold takeRestore
    split
    · exact (endShedRequest_touches ..).pending
    · rfl
  unfold takeShedRequest
  split
  · dsimp only
    split
    · exact shed ..
    · exact restore ..
  · rfl
  · rfl

theorem endSearch_pending (q : Search) (s : State) : (endSearch q s).pending = s.pending := by
  unfold endSearch
  split
  · exact (endShedRequest_touches ..).pending
  · rfl

theorem takeSwitchOrder_pending (r : Request) (a : OutletIx × RelayAction × IndicatorAction) (s : State) :
    (takeSwitchOrder r a s).pending = s.pending := by
  have released (i : OutletIx) (x : State) : (releaseShed i x).pending = x.pending := by
    unfold releaseShed
    dsimp only
    split <;> rfl
  refine ite_pending (answered_pending rfl) (ite_pending (answered_pending rfl) ?_)
  split
  · exact answered_pending rfl
  · exact ite_pending (released ..) rfl

theorem takeSwitchShed_pending (kind : ShedKind) (r : Request) (t : Slot) (s : State) :
    (takeSwitchShed kind r t s).pending = s.pending :=
  ite_pending (answered_pending rfl) (ite_pending rfl (answered_pending rfl))

/-! ### The MAP unit (R16, R20) -/

theorem assignStep_pending (tag : Byte) (ack : Bool) (m : Membership) (i : OutletIx) (left : Nat) (c : Nat × Nat × Nat)
    (s : State) : (assignStep tag ack m i left c s).pending = s.pending := by
  have handled : (assignAt i m s).pending = s.pending := (assignAt_touches ..).pending
  exact ite_pending (answered_pending handled) handled

theorem alterStep_pending (tag : Byte) (ack : Bool) (op : FlagOp) (mask : BitVec 6) (i : OutletIx) (left changed : Nat)
    (s : State) : (alterStep tag ack op mask i left changed s).pending = s.pending :=
  ite_pending (answered_pending rfl) rfl

/-! ### The TENANT unit (R51 to R57) -/

theorem takeSuspend_pending (r : Request) (t : Slot) (s : State) : (takeSuspend r t s).pending = s.pending :=
  ite_pending (answered_pending (ite_pending rfl (post_pending ..))) (answered_pending rfl)

theorem takeRemove_pending (r : Request) (t : Slot) (s : State) : (takeRemove r t s).pending = s.pending :=
  ite_pending (answered_pending rfl)
    (ite_pending (answered_pending rfl) (answered_pending (ite_pending rfl rfl)))

/-! ### The ROSTER unit (R135, R136, R142) -/

theorem takeSetNode_pending (r : Request) (a : NodeIx × Bool) (s : State) : (takeSetNode r a s).pending = s.pending :=
  answered_pending (ite_pending (ite_pending rfl rfl) (ite_pending rfl (leaveNode_touches ..).pending))

theorem writeLimit_pending (n : NodeIx) (c : Capacity) (s : State) : (writeLimit n c s).pending = s.pending :=
  ite_pending (sendLimitNote_touches ..).pending rfl

/-! ### The RECORD unit (R156, R157, R159) -/

theorem takeExport_pending (r : Request) (t : Slot) (s : State) : (takeExport r t s).pending = s.pending :=
  ite_pending (answered_pending rfl) (ite_pending (answered_pending rfl) rfl)

theorem resumeExport_pending (j : ExportJob) (s : State) : (resumeExport j s).pending = s.pending :=
  ite_pending (answered_pending rfl) (answered_pending rfl)

/-! ### The CONTROL unit (R177, R179 to R181) -/

theorem changeState_pending (x : OpState) (s : State) : (changeState x s).pending = s.pending := by
  unfold changeState
  exact ite_pending rfl (ite_pending (takeWaiting_touches s).pending (ite_pending (endPass_touches ..).pending rfl))

theorem expireSilent_pending (s : State) : (expireSilent s).pending = s.pending :=
  (Touches.foldl (fun x n => expireNode_touches n x) ..).pending

theorem warmRestart_pending (s : State) : (warmRestart s).pending = s.pending :=
  (warmRestart_ends s).pending.trans (restartSettled_touches s).pending

theorem abandonUnit_pending (u : RequestUnit) (s : State) : (abandonUnit u s).pending = s.pending := by
  cases u <;> rfl

/-! ### Every command -/

theorem exec_pending (c : Instr) (s : State) : ∃ t, exec c s = .next t ∧ t.pending = s.pending := by
  cases c with
  | coldReset => exact ⟨_, rfl, rfl⟩
  | nodeReadings f => exact ⟨_, rfl, nodePortFrame_pending (takeReadings_pending f)⟩
  | nodeJoin f => exact ⟨_, rfl, nodePortFrame_pending (takeJoin_pending f)⟩
  | nodeOrderDone f => exact ⟨_, rfl, nodePortFrame_pending (takeOrderDone_pending f)⟩
  | nodeThrough f => exact ⟨_, rfl, nodePortFrame_pending fun _ _ => (joinTransit_touches ..).pending⟩
  | passDown k f => exact ⟨_, rfl, passDownFrame_pending k f s⟩
  | frameDiscard p k f => exact ⟨_, rfl, ite_pending (arrive_pending fun _ => rfl) rfl⟩
  | frameError p b => exact ⟨_, rfl, ite_pending rfl (receiveBytes_pending p b s)⟩
  | byteGapTimeout p b =>
    exact ⟨_, rfl, ite_pending rfl ((abandonFrame_pending p _).trans (receiveBytes_pending p b s))⟩
  | requestUnserved p => exact ⟨_, rfl, takeUnserved_pending p s⟩
  | nodeSendDone => exact ⟨_, rfl, rfl⟩
  | limitNoteOwedSent => exact ⟨_, rfl, sendOwedNote_pending s⟩
  | uplinkSendDone => exact ⟨_, rfl, rfl⟩
  | visitRetry => exact ⟨_, rfl, ite_pending (visitSlot_touches ..).pending rfl⟩
  | exportResume =>
    refine ⟨_, rfl, ?_⟩
    split
    · rfl
    · exact ite_pending (resumeExport_pending ..) rfl
  | tickExpiry g => exact ⟨_, rfl, ite_pending (post_pending ..) rfl⟩
  | reviewTick => exact ⟨_, rfl, ite_pending (takeReviewTick_pending _) rfl⟩
  | orderTimeout n => exact ⟨_, rfl, expireOrder_pending n s⟩
  | nodeSilence n => exact ⟨_, rfl, (expireNode_touches n s).pending⟩
  | reviewVisit => exact ⟨_, rfl, ite_pending (visitSlot_touches ..).pending rfl⟩
  | passEnd => exact ⟨_, rfl, ite_pending (endPass_touches s).pending rfl⟩
  | eventScan p => exact ⟨_, rfl, takeNextEvent_pending p s⟩
  | shedReport => exact ⟨_, rfl, takeReport_pending s⟩
  | shedRequestTake => exact ⟨_, rfl, takeShedRequest_pending s⟩
  | shedSearchStep =>
    refine ⟨_, rfl, ?_⟩
    split <;> rfl
  | shedSearchEnd =>
    refine ⟨_, rfl, ?_⟩
    split
    · rfl
    · exact ite_pending (endSearch_pending ..) rfl
  | assignEntry =>
    refine ⟨_, rfl, ?_⟩
    split
    · exact assignStep_pending ..
    · rfl
    · rfl
  | alterFlagsEntry =>
    refine ⟨_, rfl, ?_⟩
    split
    · exact alterStep_pending ..
    · rfl
    · rfl
  | readEntries r => exact ⟨_, rfl, serve_pending fun _ _ => answered_pending rfl⟩
  | assign r => exact ⟨_, rfl, serve_pending fun _ _ => ite_pending (assignStep_pending ..) rfl⟩
  | setOutlet r => exact ⟨_, rfl, serve_pending fun _ _ => answered_pending rfl⟩
  | alterFlags r => exact ⟨_, rfl, serve_pending fun _ _ => rfl⟩
  | setProfile r => exact ⟨_, rfl, serve_pending fun _ _ => answered_pending rfl⟩
  | readProfile r => exact ⟨_, rfl, serve_pending fun _ _ => answered_pending rfl⟩
  | create r => exact ⟨_, rfl, serve_pending fun _ _ => ite_pending (answered_pending rfl) (answered_pending rfl)⟩
  | setContract r =>
    exact ⟨_, rfl, serve_pending fun _ _ => ite_pending (answered_pending rfl) (answered_pending rfl)⟩
  | activate r => exact ⟨_, rfl, serve_pending fun _ _ => ite_pending (answered_pending rfl) (answered_pending rfl)⟩
  | suspend r => exact ⟨_, rfl, serve_pending (takeSuspend_pending r)⟩
  | remove r => exact ⟨_, rfl, serve_pending (takeRemove_pending r)⟩
  | setPreset r => exact ⟨_, rfl, serve_pending fun _ _ => ite_pending (answered_pending rfl) (answered_pending rfl)⟩
  | readTenant r => exact ⟨_, rfl, serve_pending fun _ _ => answered_pending rfl⟩
  | setLink r => exact ⟨_, rfl, serve_finishChain_pending fun _ _ => answered_pending rfl⟩
  | readLink r => exact ⟨_, rfl, serve_finishChain_pending fun _ _ => answered_pending rfl⟩
  | rearm r => exact ⟨_, rfl, serve_finishChain_pending fun _ _ => answered_pending rfl⟩
  | switchOrder r => exact ⟨_, rfl, serve_pending (takeSwitchOrder_pending r)⟩
  | shedTenant r => exact ⟨_, rfl, serve_pending (takeSwitchShed_pending .shed r)⟩
  | restoreTenant r => exact ⟨_, rfl, serve_pending (takeSwitchShed_pending .restore r)⟩
  | setNodeDisable r => exact ⟨_, rfl, serve_pending (takeSetNode_pending r)⟩
  | setNodeEnable r => exact ⟨_, rfl, serve_pending (takeSetNode_pending r)⟩
  | setLimit r => exact ⟨_, rfl, serve_pending fun _ _ => answered_pending (writeLimit_pending ..)⟩
  | readNode r => exact ⟨_, rfl, serve_pending fun _ _ => answered_pending (ite_pending rfl rfl)⟩
  | readStates r => exact ⟨_, rfl, serve_pending fun _ _ => answered_pending rfl⟩
  | close r => exact ⟨_, rfl, serve_pending fun _ _ => ite_pending (answered_pending rfl) (answered_pending rfl)⟩
  | exportTenant r => exact ⟨_, rfl, serve_pending (takeExport_pending r)⟩
  | importTenant r =>
    exact ⟨_, rfl, serve_pending fun _ _ => ite_pending (answered_pending rfl) (answered_pending rfl)⟩
  | readIdent r => exact ⟨_, rfl, serve_pending fun _ _ => answered_pending rfl⟩
  | setState r => exact ⟨_, rfl, serve_pending fun _ _ => answered_pending (changeState_pending ..)⟩
  | setTiming r => exact ⟨_, rfl, serve_pending fun _ _ => answered_pending (expireSilent_pending _)⟩
  | setForward r => exact ⟨_, rfl, serve_pending fun _ _ => answered_pending rfl⟩
  | readStatus r => exact ⟨_, rfl, serve_pending fun _ _ => answered_pending (ite_pending rfl rfl)⟩
  | readTags r => exact ⟨_, rfl, serve_pending fun _ _ => answered_pending rfl⟩
  | restart r => exact ⟨_, rfl, serve_pending fun _ _ => answered_pending (warmRestart_pending _)⟩
  | resetUnit r => exact ⟨_, rfl, serve_pending fun u x => answered_pending (abandonUnit_pending u x)⟩

/-- Settles O3: no meaning faults or refuses, and each is a chain of operations that leave the queue alone
(`exec_pending`). -/
theorem everyCommandEndsInANextState : Obligations.EveryCommandEndsInANextState := exec_pending

end Sys2Proof.Machine


/-! The take-up of a pending contract (R53). -/

namespace Sys2Proof.Machine

/-! ### The budget and the streak after a take-up -/

theorem budgetAfter_noBurst {old new : Contract} (absent : new.burst = none) (budget : Nat) :
    budgetAfter old new budget = 0 := by
  unfold budgetAfter
  rw [absent]
  cases old.burst <;> rfl

theorem budgetAfter_gained {old new : Contract} {b : Burst} (before : old.burst = none) (after : new.burst = some b)
    (budget : Nat) : budgetAfter old new budget = b.allowance * 10 ^ 9 := by
  simp only [budgetAfter, before, after, Contract.allowance]

theorem budgetAfter_kept {old new : Contract} {b : Burst} (before : old.burst ≠ none) (after : new.burst = some b)
    (budget : Nat) : budgetAfter old new budget = min budget (b.allowance * 10 ^ 9) := by
  obtain ⟨c, present⟩ := Option.ne_none_iff_exists'.mp before
  simp only [budgetAfter, present, after, Contract.allowance]

/-- Whatever the burst parts, the new budget is within the new allowance (R53). -/
theorem budgetAfter_le (old new : Contract) (budget : Nat) : budgetAfter old new budget ≤ new.allowance := by
  unfold budgetAfter
  split
  · exact Nat.le_refl _
  · exact Nat.min_le_right ..
  · exact Nat.zero_le _

theorem sameCapacity_iff (old new : Contract) : sameCapacity old new = true ↔ old.basis = new.basis ∧
    old.capacity.a.mW = new.capacity.a.mW ∧ old.capacity.b.mW = new.capacity.b.mW := decide_eq_true_iff

/-! ### The take-up -/

theorem takeUp_absent {k : Tenant} (absent : k.pendingContract = none) : k.takeUp = k := by
  unfold Tenant.takeUp
  rw [absent]

theorem takeUp_present {k : Tenant} {c : Contract} (present : k.pendingContract = some c) : k.takeUp = { k with
    contract := c, pendingContract := none, budget := budgetAfter k.contract c k.budget
    streak := if sameCapacity k.contract c then k.streak else 0 } := by
  unfold Tenant.takeUp
  rw [present]

/-- Settles O26: `takeUp_present`, with the budget by the burst parts and the streak by `sameCapacity_iff`. -/
theorem contractTakeUpAdjustsBudgetAndStreak : Obligations.ContractTakeUpAdjustsBudgetAndStreak := by
  refine fun k => ⟨takeUp_absent, fun c present => ?_⟩
  rw [takeUp_present present]
  refine ⟨rfl, fun _ after => budgetAfter_noBurst after _, fun _ after => budgetAfter_noBurst after _,
    fun b before after => budgetAfter_gained before after _, fun b before after => budgetAfter_kept before after _,
    fun basis a b => if_pos ((sameCapacity_iff ..).mpr ⟨basis, a, b⟩), fun changed => if_neg fun same => ?_⟩
  obtain ⟨basis, a, b⟩ := (sameCapacity_iff ..).mp same
  rcases changed with other | other | other
  · exact other basis
  · exact other a
  · exact other b

end Sys2Proof.Machine


/-! The TENANT unit, operation by operation and state by state (R50 to R58, R80). -/

namespace Sys2Proof.Machine

/-! ### Each operation after its argument check -/

section
variable {r : Request} {a : Slot} {c : Contract} {s : State}

theorem takeCreate_free (free : (s.tenants.get a).state = .free) : takeCreate r (a, c) s =
    answerOk .tenant r .none (setTenant a (Tenant.created c s.review.closeNumber s.time.rowTime) s) := if_pos free

theorem takeCreate_used (used : (s.tenants.get a).state ≠ .free) :
    takeCreate r (a, c) s = refuse .tenant r .wrongState s := if_neg used

theorem takeSetContract_free (free : (s.tenants.get a).state = .free) :
    takeSetContract r (a, c) s = refuse .tenant r .wrongState s := if_pos free

theorem takeSetContract_used (used : (s.tenants.get a).state ≠ .free) : takeSetContract r (a, c) s =
    answer .tenant r.tag (ackWanted r) (if (s.tenants.get a).pendingContract = none then .staged else .superseded) .none
      (setTenant a { s.tenants.get a with pendingContract := some c } s) := by
  refine (if_neg used).trans ?_
  cases (s.tenants.get a).pendingContract <;> rfl

theorem takeActivate_suspended (suspended : (s.tenants.get a).state = .suspended) : takeActivate r a s =
    answerOk .tenant r .none (setTenant a { s.tenants.get a with state := .active } s) := if_pos suspended

theorem takeActivate_refused (other : (s.tenants.get a).state ≠ .suspended) :
    takeActivate r a s = refuse .tenant r .wrongState s := if_neg other

theorem takeSuspend_active (active : (s.tenants.get a).state = .active) :
    takeSuspend r a s = answerOk .tenant r .none (suspendTenant a s) := if_pos active

theorem takeSuspend_refused (other : (s.tenants.get a).state ≠ .active) :
    takeSuspend r a s = refuse .tenant r .wrongState s := if_neg other

/-- A tenant already HELD is suspended without an event (R55). -/
theorem suspendTenant_held (held : (s.tenants.get a).verdict = .held) : suspendTenant a s =
    setTenant a { s.tenants.get a with state := .suspended, verdict := .held, streak := 0 } s := if_pos held

theorem suspendTenant_posts (judged : (s.tenants.get a).verdict ≠ .held) : suspendTenant a s =
    post .tenants (verdictEvent a .held)
      (setTenant a { s.tenants.get a with state := .suspended, verdict := .held, streak := 0 } s) := if_neg judged

theorem takeSetPreset_free {p : BitVec 64} (free : (s.tenants.get a).state = .free) :
    takeSetPreset r (a, p) s = refuse .tenant r .wrongState s := if_pos free

theorem takeSetPreset_used {p : BitVec 64} (used : (s.tenants.get a).state ≠ .free) : takeSetPreset r (a, p) s =
    answerOk .tenant r .none (setTenant a { s.tenants.get a with preset := p } s) := if_neg used

/-! ### REMOVE (R56, R80) -/

theorem inUse_iff (k : Tenant) :
    k.inUse = true ↔ 0 < k.members.a + k.members.b ∨ 0 < k.pendingIn ∨ k.stack ≠ [] := by
  unfold Tenant.inUse
  simp only [Bool.or_eq_true, decide_eq_true_eq, Bool.not_eq_true', List.isEmpty_eq_false_iff, or_assoc]

theorem takeRemove_refused (other : (s.tenants.get a).state ≠ .suspended) :
    takeRemove r a s = refuse .tenant r .wrongState s := if_pos other

variable (suspended : (s.tenants.get a).state = .suspended)
include suspended

theorem takeRemove_inUse (inUse : (s.tenants.get a).inUse = true) :
    takeRemove r a s = refuse .tenant r .hasMembers s := (if_neg (not_not_intro suspended)).trans (if_pos inUse)

theorem takeRemove_unused (members : (s.tenants.get a).members.a + (s.tenants.get a).members.b = 0)
    (pendingIn : (s.tenants.get a).pendingIn = 0) (stack : (s.tenants.get a).stack = []) :
    takeRemove r a s = answerOk .tenant r .none (removeTenant a s) := by
  refine (if_neg (not_not_intro suspended)).trans (if_neg fun inUse => ?_)
  rcases (inUse_iff _).mp inUse with some | some | some
  · omega
  · omega
  · exact some stack

omit suspended

theorem removeTenant_apart (apart : ¬ (s.review.pass = .waiting ∧ s.review.position = a)) :
    removeTenant a s = setTenant a .cleared s := if_neg apart

/-- The pass that waits at the slot goes on past it (R80). -/
theorem removeTenant_waited (waiting : s.review.pass = .waiting) (here : s.review.position = a) :
    removeTenant a s = advance ((setTenant a .cleared s).withReview { s.review with pass := .visiting }) :=
  if_pos ⟨waiting, here⟩

end

/-! ### The requests -/

/-- Settles O45: an admitted request runs its operation (`serve_admitted`), which goes by the state of the slot, for REMOVE
also by what the slot still holds and by where the pass waits. -/
theorem tenantUnitFollowsTheSlotState : Obligations.TenantUnitFollowsTheSlotState := by
  intro s r admitted s' wrong ok
  refine ⟨?contract, ?slot, ?preset⟩
  case contract =>
    intro a c args k
    have create : exec (.create r) s = .next (takeCreate r (a, c) s') :=
      congrArg Host.Outcome.next (serve_admitted admitted args)
    have setContract : exec (.setContract r) s = .next (takeSetContract r (a, c) s') :=
      congrArg Host.Outcome.next (serve_admitted admitted args)
    rw [create, setContract]
    exact ⟨fun free => congrArg Host.Outcome.next (takeCreate_free (s := s') free),
      fun used => congrArg Host.Outcome.next (takeCreate_used (s := s') used),
      fun free => congrArg Host.Outcome.next (takeSetContract_free (s := s') free),
      fun used => congrArg Host.Outcome.next (takeSetContract_used (s := s') used)⟩
  case slot =>
    intro a args k quiet clear
    have activate : exec (.activate r) s = .next (takeActivate r a s') :=
      congrArg Host.Outcome.next (serve_admitted admitted args)
    have suspend : exec (.suspend r) s = .next (takeSuspend r a s') :=
      congrArg Host.Outcome.next (serve_admitted admitted args)
    have remove : exec (.remove r) s = .next (takeRemove r a s') :=
      congrArg Host.Outcome.next (serve_admitted admitted args)
    have read : exec (.readTenant r) s = .next (answerRead .tenant r (.tenant k) s') :=
      congrArg Host.Outcome.next (serve_admitted admitted args)
    rw [activate, suspend, remove]
    refine ⟨fun suspended => congrArg Host.Outcome.next (takeActivate_suspended (s := s') suspended),
      fun other => congrArg Host.Outcome.next (takeActivate_refused (s := s') other),
      fun active held => ?_, fun active judged => ?_,
      fun other => congrArg Host.Outcome.next (takeSuspend_refused (s := s') other),
      fun other => congrArg Host.Outcome.next (takeRemove_refused (s := s') other),
      fun suspended holds =>
        congrArg Host.Outcome.next (takeRemove_inUse (s := s') suspended ((inUse_iff k).mpr holds)),
      fun suspended members pendingIn stack => ?_, read⟩
    · rw [takeSuspend_active (s := s') active, suspendTenant_held (s := s') held]
      rfl
    · rw [takeSuspend_active (s := s') active, suspendTenant_posts (s := s') judged]
      rfl
    · rw [takeRemove_unused (s := s') suspended members pendingIn stack]
      refine ⟨fun apart => ?_, fun waiting here => ?_⟩
      · rw [removeTenant_apart (s := s') apart]
        rfl
      · rw [removeTenant_waited (s := s') waiting here]
        rfl
  case preset =>
    intro a p args
    have setPreset : exec (.setPreset r) s = .next (takeSetPreset r (a, p) s') :=
      congrArg Host.Outcome.next (serve_admitted admitted args)
    rw [setPreset]
    exact ⟨fun free => congrArg Host.Outcome.next (takeSetPreset_free (s := s') free),
      fun used => congrArg Host.Outcome.next (takeSetPreset_used (s := s') used)⟩

end Sys2Proof.Machine


/-! The CONTROL unit: SET_STATE, SET_TIMING with the expiries it brings about, SET_FORWARD and the reads (R60, R82, R133,
R177 to R179). -/

namespace Sys2Proof.Machine

/-! ### SET_STATE (R60, R82, R177) -/

section
variable {x : OpState} {s : State}

theorem changeState_same (same : x = s.mgmt.opState) : changeState x s = s := if_pos same.symm

theorem changeState_enters (out : s.mgmt.opState ≠ .run) :
    changeState .run s = enterRun (setOpState .run (takeWaiting s)) :=
  (if_neg out).trans (if_pos rfl)

/-- Leaving RUN in a pass ends the pass (R82). -/
theorem changeState_leaves (out : x ≠ .run) (run : s.mgmt.opState = .run) (inFlight : s.review.pass ≠ .idle) :
    changeState x s = endPass (setOpState x s) :=
  (if_neg fun same => out (same.symm.trans run)).trans
    ((if_neg out).trans (if_pos ⟨run, passInFlight_of_not_idle inFlight⟩))

theorem changeState_moves (out : x ≠ .run) (other : x ≠ s.mgmt.opState)
    (noPass : s.mgmt.opState ≠ .run ∨ s.review.pass = .idle) : changeState x s = setOpState x s := by
  refine (if_neg (Ne.symm other)).trans ((if_neg out).trans (if_neg fun ⟨run, inFlight⟩ => ?_))
  rcases noPass with notRun | idle
  · exact notRun run
  · rw [passInFlight_of_idle idle] at inFlight
    exact Bool.false_ne_true inFlight

end

/-! ### One node's silence timeout (R133, R134) -/

/-- The record of a node whose silence timeout has been checked: SILENT when it was UP and is due (R133). -/
def Node.expired (now : RowTime) (timeout : Nat) (k : Node) : Node :=
  if k.state = .up ∧ timeout * 1000 ≤ (now - k.lastHeard).toNat
  then { k with state := .silent, lastSeq := none, noteOwed := false } else k

theorem expireNode_roster (n : NodeIx) (s : State) : (expireNode n s).roster = { s.roster with
    nodes := s.roster.nodes.modify n (Node.expired s.time.rowTime s.roster.timeout) } := by
  by_cases due : silenceDue n s = true
  · obtain ⟨x, -, -, roster, -⟩ := leaveNode_leaves n .silent 1 s
    rw [expireNode, if_pos due, roster, Table.modify, Node.expired, if_pos ((silenceDue_iff n s).mp due)]
  · have kept := fun late => due ((silenceDue_iff n s).mpr late)
    rw [expireNode, if_neg due, Table.modify, Node.expired, if_neg kept, Table.set_get_self]

/-- The orders that end one after the other leave the next number and the timeout alone (R107, R109). -/
theorem loseOrders_only (l : List Order) (s : State) : ∃ os, (loseOrders l s).orders = { s.orders with orders := os } := by
  refine List.foldlRecOn (motive := fun x : State => ∃ os, x.orders = { s.orders with orders := os }) _ _ ⟨_, rfl⟩ ?_
  rintro x ⟨os, left⟩ o -
  rw [endOrder_orders, left]
  exact ⟨_, rfl⟩

theorem expireNode_orders (n : NodeIx) (s : State) : ∃ os, (expireNode n s).orders = { s.orders with orders := os } := by
  unfold expireNode
  split
  · obtain ⟨x, cleared, left, -⟩ := leaveNode_leaves n .silent 1 s
    rw [left, post_orders, ← cleared.orders]
    exact loseOrders_only ..
  · exact ⟨_, rfl⟩

theorem expireNode_time (n : NodeIx) (s : State) : (expireNode n s).time = s.time := (expireNode_touches n s).2 .time rfl

/-! ### The nodes one after the other (R133; log entry 14) -/

/-- What the checks of distinct nodes leave: each node is judged by its own record as it was before them. -/
theorem foldl_expireNode (l : List NodeIx) : ∀ s : State, l.Nodup →
    let t := l.foldl (fun y n => expireNode n y) s
    t.time = s.time ∧ (∃ os, t.orders = { s.orders with orders := os }) ∧ t.roster.timeout = s.roster.timeout ∧
    ∀ n, t.roster.nodes.get n = if n ∈ l then (s.roster.nodes.get n).expired s.time.rowTime s.roster.timeout
      else s.roster.nodes.get n := by
  induction l with
  | nil => exact fun s _ => ⟨rfl, ⟨_, rfl⟩, rfl, fun n => (if_neg List.not_mem_nil).symm⟩
  | cons m l ih =>
    intro s distinct
    obtain ⟨apart, rest⟩ := List.nodup_cons.mp distinct
    obtain ⟨time, ⟨os, orders⟩, timeout, nodes⟩ := ih (expireNode m s) rest
    obtain ⟨first, ended⟩ := expireNode_orders m s
    rw [expireNode_time] at time nodes
    rw [ended] at orders
    rw [expireNode_roster] at timeout nodes
    refine ⟨time, ⟨os, orders⟩, timeout, fun n => (nodes n).trans ?_⟩
    rw [Table.get_modify]
    by_cases own : n = m
    · rw [if_neg (own ▸ apart), if_pos own, if_pos (own ▸ List.mem_cons_self), own]
    · simp only [own, ↓reduceIte, List.mem_cons, false_or]

/-- The same checks as a run of NODE_SILENCE commands, of which each answers a next state. -/
theorem foldl_nodeSilence {run : Host.Outcome State Fault Refusal → NodeIx → Host.Outcome State Fault Refusal}
    (runs : ∀ z n, run (.next z) n = exec (.nodeSilence n) z) (l : List NodeIx) (s : State) :
    l.foldl run (.next s) = .next (l.foldl (fun y n => expireNode n y) s) := by
  induction l generalizing s with
  | nil => rfl
  | cons n l ih =>
    rw [List.foldl_cons, runs]
    exact ih (expireNode n s)

/-! ### The requests -/

/-- SET_TIMING: the three times, then the checks of all 32 nodes against the new timeout (R133, R179). -/
theorem setTiming_expires (s : State) (p : Fin 7) (o w : Nat) :
    let t := expireSilent (writeTiming (p, o, w) s)
    t.time = { s.time with reviewPeriod := p } ∧ t.orders.timeout = o ∧ t.orders.next = s.orders.next ∧
    t.roster.timeout = w ∧ ∀ n, t.roster.nodes.get n = (s.roster.nodes.get n).expired s.time.rowTime w := by
  unfold expireSilent
  obtain ⟨time, ⟨os, orders⟩, timeout, nodes⟩ :=
    foldl_expireNode (List.finRange 32) (writeTiming (p, o, w) s) (List.nodup_finRange 32)
  exact ⟨time, (congrArg OrderTable.timeout orders :), (congrArg OrderTable.next orders :), timeout,
    fun n => (nodes n).trans (if_pos (List.mem_finRange n))⟩

/-- Settles O48: an admitted request runs its operation (`serve_admitted`); SET_STATE by the state before and after, with
`takeWaiting_out_of_run` for the store found on entering RUN, SET_TIMING by `setTiming_expires`. -/
theorem controlUnitReadsAndSets : Obligations.ControlUnitReadsAndSets := by
  refine ⟨fun s r x admitted args => ?setState, fun s r admitted => ?others⟩
  case setState =>
    intro s' t ok
    have served : exec (.setState r) s = ok (changeState x s') :=
      congrArg Host.Outcome.next (serve_admitted admitted args)
    rw [served]
    refine ⟨fun same => congrArg ok (changeState_same (s := s') same), fun enters out => ?_,
      fun out run inFlight => congrArg ok (changeState_leaves (s := s') out run inFlight),
      fun out other noPass => congrArg ok (changeState_moves (s := s') out other noPass)⟩
    intro passEndWaits
    subst enters
    have out' : s'.mgmt.opState ≠ .run := out
    rw [changeState_enters out', takeWaiting_out_of_run out']
    rfl
  case others =>
    intro s'
    refine ⟨fun noArgs => ?_, fun m args => congrArg Host.Outcome.next (serve_admitted admitted args),
      fun clear args => ?_, fun p o w args => ?_⟩
    · have read : Args.nothing r.args = some () := if_pos noArgs
      exact ⟨congrArg Host.Outcome.next (serve_admitted admitted read),
        congrArg Host.Outcome.next (serve_admitted admitted read)⟩
    · exact congrArg Host.Outcome.next (serve_admitted admitted args)
    · obtain ⟨time, orderTimeout, next, timeout, nodes⟩ := setTiming_expires s' p o w
      exact ⟨expireSilent (writeTiming (p, o, w) s'), congrArg Host.Outcome.next (serve_admitted admitted args),
        foldl_nodeSilence (fun _ _ => rfl) .., time, orderTimeout, next, timeout, nodes⟩

end Sys2Proof.Machine


/-! What the periods of the tenants and the shed stacks depend on, and the operations that leave all of it alone. -/

namespace Sys2Proof.Machine

/-! ### The part of the state that the periods and the shed stacks depend on -/

/-- What of an entry depends on memberships and shed requests. -/
structure Placement where
  effective : Membership
  pending : Option Membership
  relay : RelayStatus

def Outlet.placement (e : Outlet) : Placement := ⟨e.effective, e.pending, e.relay⟩

/-- What of a tenant its periods, its budget and its verdict depend on (R42, R45, R53, R146). -/
structure TenantNumbers where
  state : TenantState
  contract : Contract
  lifetime : PerFeed Nat
  baseline : PerFeed Nat
  budget : Nat
  verdict : Verdict
  streak : Nat
  lastClose : Word16

def Tenant.numbers (k : Tenant) : TenantNumbers :=
  ⟨k.state, k.contract, k.lifetime, k.baseline, k.budget, k.verdict, k.streak, k.lastClose⟩

structure Standing where
  review : Review
  opState : OpState
  orders : List Order
  next : Byte
  outlets : OutletIx → Placement
  tenants : Slot → TenantNumbers × List StackEntry

def State.standing (s : State) : Standing where
  review := s.review
  opState := s.mgmt.opState
  orders := s.orders.orders
  next := s.orders.next
  outlets := fun i => (s.map.entries.get i).placement
  tenants := fun a => ((s.tenants.get a).numbers, (s.tenants.get a).stack)

/-- What leads from `s` to `t` has no part in memberships, stacks, orders, periods and passes. -/
structure Quiet (s t : State) : Prop where
  same : t.standing = s.standing

namespace Quiet

theorem refl (s : State) : Quiet s s := ⟨rfl⟩

theorem trans {s t u : State} (h : Quiet s t) (k : Quiet t u) : Quiet s u := ⟨k.same.trans h.same⟩

/-- `trans`, the later step first. -/
theorem after {s t u : State} (k : Quiet t u) (h : Quiet s t) : Quiet s u := h.trans k

theorem foldl {α : Type} {f : State → α → State} (h : ∀ s a, Quiet s (f s a)) :
    ∀ (l : List α) (s : State), Quiet s (l.foldl f s)
  | [], s => .refl s
  | a :: l, s => (h s a).trans (foldl h l (f s a))

/-- A case split whose two sides are both quiet. -/
theorem ite {s t u : State} {p : Prop} [Decidable p] (h : p → Quiet s t) (k : ¬ p → Quiet s u) :
    Quiet s (if p then t else u) := by
  split
  · next hp => exact h hp
  · next hp => exact k hp

/-- What touches none of the blocks in question but for the management unit, whose operating state stays. -/
theorem of_touches {bs : List Block} {s t : State} (h : Touches bs s t)
    (opState : t.mgmt.opState = s.mgmt.opState) (map : bs.contains .map = false := by rfl)
    (tenants : bs.contains .tenants = false := by rfl) (review : bs.contains .review = false := by rfl)
    (orders : bs.contains .orders = false := by rfl) : Quiet s t := by
  have map' : t.map = s.map := h.2 .map map
  have tenants' : t.tenants = s.tenants := h.2 .tenants tenants
  have review' : t.review = s.review := h.2 .review review
  have orders' : t.orders = s.orders := h.2 .orders orders
  constructor
  unfold State.standing
  rw [map', tenants', review', orders', opState]

theorem withPending (s : State) (x : List Instr) : Quiet s (s.withPending x) := ⟨rfl⟩
theorem withTime (s : State) (x : TimeBase) : Quiet s (s.withTime x) := ⟨rfl⟩
theorem withProfiles (s : State) (x : Table Profile 16) : Quiet s (s.withProfiles x) := ⟨rfl⟩
theorem withLinks (s : State) (x : LinkTable) : Quiet s (s.withLinks x) := ⟨rfl⟩
theorem withPorts (s : State) (x : Ports) : Quiet s (s.withPorts x) := ⟨rfl⟩
theorem withUp (s : State) (x : Uplink) : Quiet s (s.withUp x) := ⟨rfl⟩

/-- One entry replaced by one of the same placement. -/
theorem of_outlet {s : State} {x : OutletMap} {i : OutletIx} {e : Outlet} (entries : x.entries = s.map.entries.set i e)
    (placement : e.placement = (s.map.entries.get i).placement) : Quiet s (s.withMap x) := by
  refine ⟨congrArg (fun o => { s.standing with outlets := o }) <| funext fun j => ?_⟩
  rw [State.withMap_map, entries, Table.get_set]
  split
  · next own => rw [own, placement]
  · rfl

/-- One tenant record replaced by one with the same numbers and the same stack. -/
theorem of_tenant {s : State} {a : Slot} {k : Tenant} (numbers : k.numbers = (s.tenants.get a).numbers)
    (stack : k.stack = (s.tenants.get a).stack) : Quiet s (s.withTenants (s.tenants.set a k)) := by
  refine ⟨congrArg (fun k => { s.standing with tenants := k }) <| funext fun b => ?_⟩
  rw [State.withTenants_tenants, Table.get_set]
  split
  · next own => rw [own, numbers, stack]
  · rfl

/-! What is the same before and after a quiet step. -/

section
variable {s t : State} (h : Quiet s t)
include h

theorem review : t.review = s.review := congrArg Standing.review h.same
theorem opState : t.mgmt.opState = s.mgmt.opState := congrArg Standing.opState h.same
theorem orders : t.orders.orders = s.orders.orders := congrArg Standing.orders h.same
theorem next : t.orders.next = s.orders.next := congrArg Standing.next h.same

theorem placement (i : OutletIx) : (t.map.entries.get i).placement = (s.map.entries.get i).placement :=
  congrFun (congrArg Standing.outlets h.same) i

theorem numbers (a : Slot) : (t.tenants.get a).numbers = (s.tenants.get a).numbers :=
  congrArg Prod.fst (congrFun (congrArg Standing.tenants h.same) a)

theorem stack (a : Slot) : (t.tenants.get a).stack = (s.tenants.get a).stack :=
  congrArg Prod.snd (congrFun (congrArg Standing.tenants h.same) a)

end

end Quiet

/-! ### Notices, answers and events -/

theorem queueNotice_isQuiet (x : NoticeSubject) (s : State) : Quiet s (queueNotice x s) := by
  obtain ⟨u, f, h⟩ := queueNotice_only x s
  rw [h]; exact ⟨rfl⟩

theorem sendReply_isQuiet (r : Reply) (s : State) : Quiet s (sendReply r s) := by
  obtain ⟨u, f, h⟩ := sendReply_only r s
  rw [h]; exact ⟨rfl⟩

theorem answer_isQuiet (u : RequestUnit) (tag : Byte) (w : Bool) (st : Status) (d : ReplyData) (s : State) :
    Quiet s (answer u tag w st d s) := by
  obtain ⟨v, f, t, h⟩ := answer_only u tag w st d s
  rw [h]; exact ⟨rfl⟩

/-- A quiet operation with its answer. -/
theorem Quiet.answered {s t : State} {u : RequestUnit} {tag : Byte} {w : Bool} {st : Status} {d : ReplyData}
    (h : Quiet s t) : Quiet s (answer u tag w st d t) := h.trans (answer_isQuiet ..)

theorem joinTransit_isQuiet (f : Frame) (s : State) : Quiet s (joinTransit f s) := by
  obtain ⟨u, k, c, h⟩ := joinTransit_only f s
  rw [h]; exact ⟨rfl⟩

theorem postAt_isQuiet (src : EventSource) (e : Event) (s : State) : Quiet s (postAt src e s) := by
  obtain ⟨ls, as, u, f, h⟩ := postAt_only src e s
  rw [h]; exact ⟨rfl⟩

theorem post_isQuiet (src : EventSource) (id : Word16) (s : State) : Quiet s (post src id s) := postAt_isQuiet src ⟨id, 0⟩ s

theorem postOutcome_isQuiet (l : LinkIx) (done : Bool) (d : Nat) (s : State) : Quiet s (postOutcome l done d s) := by
  obtain ⟨ls, c, u, f, h⟩ := postOutcome_only l done d s
  rw [h]; exact ⟨rfl⟩

theorem reportChain_isQuiet (id : Word16) (s : State) : Quiet s (reportChain id s) :=
  (queueNotice_isQuiet ..).after ⟨rfl⟩

theorem guardsHeeded_isQuiet (e : Event) (s : State) : Quiet s (guardsHeeded e s) :=
  .of_touches (guardsHeeded_touches e s) (guardsHeeded_opState e s)

theorem modifyLink_isQuiet (l : LinkIx) (f : Link → Link) (s : State) : Quiet s (modifyLink l f s) := .withLinks ..

theorem linkShed_isQuiet (kind : ShedKind) (t : Slot) (l : LinkIx) (depth : Nat) (s : State) :
    Quiet s (linkShed kind t l depth s) :=
  .ite (fun _ => .withLinks ..) fun _ => postOutcome_isQuiet ..

theorem takeReport_isQuiet (s : State) : Quiet s (takeReport s) := by
  unfold takeReport
  split
  · exact (postAt_isQuiet ..).after ((modifyLink_isQuiet ..).after (.withLinks ..))
  · exact .refl s
  · exact .refl s

/-- Out of RUN the events that wait are taken without effect on anything but the link table (R91). -/
theorem takeWaiting_isQuiet {s : State} (out : s.mgmt.opState ≠ .run) : Quiet s (takeWaiting s) := by
  rw [takeWaiting_out_of_run out]
  exact .withLinks ..

/-! ### Readings and the other frames of a node -/

theorem updateReading_isQuiet (i : OutletIx) (u : MapUpdate) (flag : Option ConvFlag) (s : State) :
    Quiet s (updateReading i u flag s) := by
  have placement (e : Outlet) : (e.updated s.time.rowTime u flag).placement = e.placement := by cases u <;> rfl
  rcases member : (s.map.entries.get i).effective.memberOf with _ | ⟨a, f⟩
  · rw [updateReading_nobody member]
    exact .of_outlet rfl (placement _)
  · rw [updateReading_member member]
    exact (Quiet.of_outlet (s := s) rfl (placement _)).trans (.of_tenant rfl rfl)

theorem clearFreshness_isQuiet (n : NodeIx) (s : State) : Quiet s (clearFreshness n s) :=
  .foldl (fun s i => updateReading_isQuiet i .hold none s) _ s

theorem modifyNode_isQuiet (n : NodeIx) (f : Node → Node) (s : State) : Quiet s (modifyNode n f s) := ⟨rfl⟩

theorem countBadEntry_isQuiet (n : NodeIx) (s : State) : Quiet s (countBadEntry n s) := modifyNode_isQuiet ..

theorem sendLimitNote_isQuiet (n : NodeIx) (s : State) : Quiet s (sendLimitNote n s) := .ite (fun _ => ⟨rfl⟩) fun _ => ⟨rfl⟩

theorem raiseNode_isQuiet (n : NodeIx) (s : State) : Quiet s (raiseNode n s) :=
  .ite (fun _ => .refl s) fun _ => (sendLimitNote_isQuiet ..).after ((post_isQuiet ..).after (modifyNode_isQuiet ..))

theorem sequenceCheck_isQuiet (n : NodeIx) (q : Byte) (s : State) : Quiet s (sequenceCheck n q s) := by
  unfold sequenceCheck
  dsimp only
  split
  · exact (post_isQuiet ..).after (modifyNode_isQuiet ..)
  all_goals exact modifyNode_isQuiet ..

theorem forwardReadings_isQuiet (n : NodeIx) (f : NodeFrame) (s : State) : Quiet s (forwardReadings n f s) := by
  unfold forwardReadings
  split
  · exact joinTransit_isQuiet ..
  · exact joinTransit_isQuiet ..
  · exact .refl s

theorem convertEntry_isQuiet (i : OutletIx) (code : Nat) (s : State) : Quiet s (convertEntry i code s) := by
  have noticed (old : Outlet) (flag : Option ConvFlag) (x : State) : Quiet x (conversionNotice i old flag x) := by
    obtain ⟨touched, sticky⟩ := conversionNotice_touches i old flag x
    exact .of_touches touched (by rw [sticky])
  exact (updateReading_isQuiet ..).trans (noticed ..)

theorem intake_isQuiet (n : NodeIx) (p : List Byte) (s : State) : Quiet s (intake n p s) := by
  have entry (fitted : Nat) (x : State) (e : Byte × Nat) : Quiet x (intakeEntry n fitted x e) := by
    unfold intakeEntry
    split
    · exact countBadEntry_isQuiet ..
    · exact .ite (fun _ => countBadEntry_isQuiet ..) fun _ => convertEntry_isQuiet ..
  exact .ite (fun _ => .refl s) fun _ => .ite (fun _ => .foldl (entry _) _ s) fun _ => countBadEntry_isQuiet ..

theorem takeReadings_isQuiet (f : NodeFrame) (n : NodeIx) (s : State) : Quiet s (takeReadings f n s) := by
  have forwarded : Quiet s (forwardReadings n f (sequenceCheck n f.seq (raiseNode n s))) :=
    (forwardReadings_isQuiet ..).after ((sequenceCheck_isQuiet ..).after (raiseNode_isQuiet ..))
  exact .ite (fun _ => forwarded.trans (intake_isQuiet ..)) fun _ => forwarded

theorem takeJoin_isQuiet (f : NodeFrame) (n : NodeIx) (s : State) : Quiet s (takeJoin f n s) := by
  unfold takeJoin
  dsimp only
  refine (joinTransit_isQuiet ..).after ((raiseNode_isQuiet n s).trans ?_)
  split
  · exact countBadEntry_isQuiet ..
  · exact .ite (fun _ => (sendLimitNote_isQuiet ..).after (modifyNode_isQuiet ..)) fun _ => modifyNode_isQuiet ..

/-! ### The link interface -/

theorem setReceiver_isQuiet (p : Port) (r : Receiver) (s : State) : Quiet s (setReceiver p r s) := by
  cases p
  · exact .withPorts ..
  · exact .withPorts ..

theorem joinDown_isQuiet (f : Frame) (s : State) : Quiet s (joinDown f s) := .ite (fun _ => ⟨rfl⟩) fun _ => ⟨rfl⟩

theorem receiveBytes_isQuiet (p : Port) (bytes : List Byte) (s : State) : Quiet s (receiveBytes p bytes s) :=
  (Quiet.foldl (fun _ _ => .withPorts ..) ..).after (setReceiver_isQuiet ..)

theorem abandonFrame_isQuiet (p : Port) (s : State) : Quiet s (abandonFrame p s) := by
  unfold abandonFrame
  split
  · exact .refl s
  · exact (Quiet.withPorts ..).after (setReceiver_isQuiet ..)

theorem sendOwedNote_isQuiet (s : State) : Quiet s (sendOwedNote s) := by
  refine .ite (fun _ => ?_) fun _ => .refl s
  split
  · exact .refl s
  · exact sendLimitNote_isQuiet ..

theorem expireTick_isQuiet (g : Fin 6) (s : State) : Quiet s (expireTick g s) := (Quiet.withTime ..).after (post_isQuiet ..)

theorem overrun_isQuiet (s : State) : Quiet s (overrun s) :=
  (queueNotice_isQuiet ..).after ((post_isQuiet ..).after ⟨rfl⟩)

/-! ### Requests that end without an order -/

theorem answerSwitch_isQuiet (st : Status) (d : ReplyData) (s : State) : Quiet s (answerSwitch st d s) := by
  unfold answerSwitch
  split
  · exact .refl s
  · exact Quiet.answered ⟨rfl⟩

theorem endShedRequest_isQuiet (e : RequestEnd) (s : State) : Quiet s (endShedRequest e s) := by
  have noted (n : NoticeSubject) : Quiet s (if e.done then s else queueNotice n s) :=
    .ite (fun _ => .refl s) fun _ => queueNotice_isQuiet ..
  unfold endShedRequest
  dsimp only
  split
  · exact (noted _).trans (.withLinks ..)
  · exact (noted _).trans (.ite (fun _ => answerSwitch_isQuiet ..) fun _ => .refl _)

theorem setSearch_isQuiet (q : Option Search) (s : State) : Quiet s (setSearch q s) := ⟨rfl⟩

theorem takeShed_isQuiet (t : Slot) (o : RequestOrigin) (s : State) : Quiet s (takeShed t o s) := by
  unfold takeShed
  split
  · exact endShedRequest_isQuiet ..
  · exact setSearch_isQuiet ..

theorem takeSwitchShed_isQuiet (k : ShedKind) (r : Request) (t : Slot) (s : State) : Quiet s (takeSwitchShed k r t s) :=
  .ite (fun _ => answer_isQuiet ..) fun _ => .ite (fun _ => ⟨rfl⟩) fun _ => answer_isQuiet ..

/-! ### The request units -/

theorem setMapJob_isQuiet (j : Option MapJob) (s : State) : Quiet s (setMapJob j s) := ⟨rfl⟩

/-- An ASSIGN at one entry stops, applies its change out of a pass, or stages it in one. -/
theorem assignAt_cases (i : OutletIx) (m : Membership) (s : State) : assignAt i m s = s ∨
    s.review.pass = .idle ∧ assignAt i m s = applyChange i m s ∨
    s.review.pass ≠ .idle ∧ assignAt i m s = stageChange i m s := by
  by_cases stopped : assignResult i m s = .stopped
  · refine .inl ?_
    unfold assignAt
    rw [stopped]
  · have used := used_of_assignResult stopped
    by_cases idle : s.review.pass = .idle
    · exact .inr (.inl ⟨idle, assignAt_idle used idle⟩)
    · exact .inr (.inr ⟨idle, assignAt_busy used idle⟩)

theorem setOutlet_isQuiet (i : OutletIx) (p : Fin 16) (r : Fin 16) (s : State) :
    Quiet s (modifyOutlet i (fun e => { e with profile := p, rank := r }) s) := .of_outlet rfl rfl

theorem alterStep_isQuiet (tag : Byte) (ack : Bool) (op : FlagOp) (mask : BitVec 6) (i : OutletIx) (left changed : Nat)
    (s : State) : Quiet s (alterStep tag ack op mask i left changed s) := by
  have altered : Quiet s (alterFlagsAt i op mask s) := .of_outlet rfl rfl
  exact .ite (fun _ => (altered.trans (setMapJob_isQuiet ..)).answered) fun _ => altered.trans (setMapJob_isQuiet ..)

theorem takeSetContract_isQuiet (r : Request) (a : Slot × Contract) (s : State) : Quiet s (takeSetContract r a s) :=
  .ite (fun _ => answer_isQuiet ..) fun _ => (answer_isQuiet ..).after (.of_tenant rfl rfl)

theorem takeSetPreset_isQuiet (r : Request) (a : Slot × BitVec 64) (s : State) : Quiet s (takeSetPreset r a s) :=
  .ite (fun _ => answer_isQuiet ..) fun _ => (answer_isQuiet ..).after (.of_tenant rfl rfl)

theorem placeExport_isQuiet (tag : Byte) (ack : Bool) (t : Slot) (s : State) : Quiet s (placeExport tag ack t s) :=
  (Quiet.withUp ..).answered

theorem takeExport_isQuiet (r : Request) (t : Slot) (s : State) : Quiet s (takeExport r t s) :=
  .ite (fun _ => answer_isQuiet ..) fun _ => .ite (fun _ => placeExport_isQuiet ..) fun _ => ⟨rfl⟩

theorem resumeExport_isQuiet (j : ExportJob) (s : State) : Quiet s (resumeExport j s) :=
  .trans (t := setExportJob none s) ⟨rfl⟩ (.ite (fun _ => answer_isQuiet ..) fun _ => placeExport_isQuiet ..)

theorem enableNode_isQuiet (n : NodeIx) (s : State) : Quiet s (enableNode n s) :=
  .ite (fun _ => modifyNode_isQuiet ..) fun _ => .refl s

theorem writeLimit_isQuiet (n : NodeIx) (c : Capacity) (s : State) : Quiet s (writeLimit n c s) :=
  .ite (fun _ => (sendLimitNote_isQuiet ..).after (modifyNode_isQuiet ..)) fun _ => modifyNode_isQuiet ..

theorem takeReadNode_isQuiet (r : Request) (a : NodeIx × Bool) (s : State) : Quiet s (takeReadNode r a s) := by
  unfold takeReadNode answerRead
  exact (answer_isQuiet ..).after (.ite (fun _ => modifyNode_isQuiet ..) fun _ => .refl s)

theorem takeReadStatus_isQuiet (r : Request) (clear : Bool) (s : State) : Quiet s (takeReadStatus r clear s) := by
  unfold takeReadStatus answerRead
  exact (answer_isQuiet ..).after (.ite (fun _ => ⟨rfl⟩) fun _ => .refl s)

theorem writeTiming_isQuiet (a : Fin 7 × Nat × Nat) (s : State) : Quiet s (writeTiming a s) := ⟨rfl⟩

theorem setTag_isQuiet (u : RequestUnit) (tag : Byte) (s : State) : Quiet s (setTag u tag s) := ⟨rfl⟩

/-- A request ends quietly in a refusal, or its operation runs on a state to which a quiet step leads (R173). -/
theorem serve_quiet_cases {α : Type} (u : RequestUnit) (r : Request) (parse : List Byte → Option α)
    (act : α → State → State) (s : State) : Quiet s (serve u r parse act s) ∨
      ∃ x a, Quiet s x ∧ parse r.args = some a ∧ serve u r parse act s = act a x := by
  have arrived (f : Counts → Counts) : Quiet s (setCounts f (setReceiver .uplink .hunt s)) := .withPorts ..
  unfold serve arrive
  dsimp only
  split
  · exact .inl (arrived _)
  · split
    · exact .inl ((arrived _).trans (sendReply_isQuiet ..))
    · split
      · exact .inl (arrived _).answered
      · split
        · exact .inl (arrived _).answered
        · split
          · exact .inl (arrived _).answered
          · next a read => exact .inr ⟨_, a, arrived _, read, rfl⟩

end Sys2Proof.Machine


/-! An invariant of every command follows from the operations that are not quiet: events, orders, frames, requests and
expiries carry it once for all. CREATE and IMPORT fill a FREE slot and are left to the invariant. -/

namespace Sys2Proof.Machine

/-! ### Combinators -/

/-- The step from `s` to `t` keeps an invariant. -/
structure Kept (Inv : State → Prop) (s t : State) : Prop where
  sound : Inv s → Inv t

namespace Kept

variable {Inv : State → Prop}

theorem refl (s : State) : Kept Inv s s := ⟨id⟩

theorem trans {s t u : State} (h : Kept Inv s t) (k : Kept Inv t u) : Kept Inv s u :=
  ⟨fun sound => k.sound (h.sound sound)⟩

/-- `trans`, the later step first. -/
theorem after {s t u : State} (k : Kept Inv t u) (h : Kept Inv s t) : Kept Inv s u := h.trans k

theorem foldl {α : Type} {f : State → α → State} (h : ∀ s a, Kept Inv s (f s a)) :
    ∀ (l : List α) (s : State), Kept Inv s (l.foldl f s)
  | [], s => .refl s
  | a :: l, s => (h s a).trans (foldl h l (f s a))

theorem iterate {f : State → State} (h : ∀ s, Kept Inv s (f s)) :
    ∀ (n : Nat) (s : State), Kept Inv s (Machine.iterate f n s)
  | 0, s => .refl s
  | n + 1, s => (h s).trans (iterate h n (f s))

/-- A case split whose two sides both keep. -/
theorem ite {s t u : State} {p : Prop} [Decidable p] (h : p → Kept Inv s t) (k : ¬ p → Kept Inv s u) :
    Kept Inv s (if p then t else u) := by
  split
  · next hp => exact h hp
  · next hp => exact k hp

end Kept

/-! ### The operations that an invariant has to keep -/

/-- The invariant is kept by what is quiet and by each operation that is not, where that operation is taken. -/
structure OperationsKeep (Inv : State → Prop) : Prop where
  quiet : ∀ {s t}, Quiet s t → Kept Inv s t
  endOrder : ∀ {o s} (e), o ∈ s.orders.orders → Kept Inv s (endOrder o e s)
  loseNode : ∀ n s, Kept Inv s (loseNode n s)
  placeRestore : ∀ {t i s} (g), restoreTarget t s = .ok i → Kept Inv s (placeRestore t g i s)
  placeShed : ∀ {q i s}, shedTarget q s = .ok i →
    Kept Inv s (placeShed q.tenant q.origin i (setSearch none s))
  placeSwitch : ∀ {i a s} (r d), switchRefusal i a s = none → Kept Inv s (placeSwitch r i a d s)
  assignAt : ∀ i m s, Kept Inv s (assignAt i m s)
  startPass : ∀ {s}, s.mgmt.opState = .run → passInFlight s = false → Kept Inv s (startPass s)
  visit : ∀ {s}, visitDue s = true → Kept Inv s (visitSlot s.review.position s)
  retry : ∀ {s}, retryDue s = true → Kept Inv s (retryVisit s)
  endPass : ∀ {s}, passEndDue s = true → Kept Inv s (endPass s)
  latch : ∀ {t s}, (s.tenants.get t).state ≠ .free → Kept Inv s (modifyTenant t Tenant.latched s)
  startClose : ∀ {s}, s.review.closePending = false → Kept Inv s (startClose s)
  activate : ∀ {t s}, (s.tenants.get t).state = .suspended →
    Kept Inv s (setTenant t { s.tenants.get t with state := .active } s)
  suspend : ∀ {t s}, (s.tenants.get t).state = .active →
    Kept Inv s (setTenant t { s.tenants.get t with state := .suspended, verdict := .held, streak := 0 } s)
  remove : ∀ {t s}, (s.tenants.get t).inUse = false → Kept Inv s (removeTenant t s)
  changeState : ∀ x s, Kept Inv s (changeState x s)
  disownSwitch : ∀ s, Kept Inv s (disownSwitch s)
  warmRestart : ∀ s, Kept Inv s (warmRestart s)
  coldReset : ∀ s, Kept Inv s (coldReset s)

section
variable {Inv : State → Prop} (ops : OperationsKeep Inv)
include ops

/-- An operation that keeps the invariant, with its answer. -/
theorem OperationsKeep.answered {s t : State} {u : RequestUnit} {tag : Byte} {w : Bool} {st : Status} {d : ReplyData}
    (h : Kept Inv s t) : Kept Inv s (answer u tag w st d t) := h.trans (ops.quiet (answer_isQuiet ..))

/-! ### Events (R90 to R100) -/

theorem performAction_kept (l : LinkIx) (a : LinkAction) (counter c : Bool) (e : Event) (s : State) :
    Kept Inv s (performAction l a counter c e s) := by
  have outcome (done : Bool) (x : State) : Kept Inv x (postOutcome l done (e.depth + 1) x) :=
    ops.quiet (postOutcome_isQuiet ..)
  have dispatch (x : State) : Kept Inv x (dispatchAction l a counter c e x) := by
    cases a with
    | shed t => exact ops.quiet (linkShed_isQuiet ..)
    | restore t => exact ops.quiet (linkShed_isQuiet ..)
    | notify => exact (outcome ..).after (ops.quiet (queueNotice_isQuiet ..))
    | latch t => exact .ite (fun _ => outcome ..) fun used => (outcome ..).after (ops.latch used)
    | close =>
      exact .ite (fun _ => outcome ..) fun free => (outcome ..).after (ops.startClose (Bool.eq_false_iff.mpr free))
  exact (dispatch _).after (ops.quiet (modifyLink_isQuiet ..))

theorem scanLink_kept (e : Event) (s : State) (l : LinkIx) : Kept Inv s (scanLink e s l) := by
  rcases scanLink_cases e s l with apart | ⟨a, counter, c, x, acts, before⟩
  · rw [apart]; exact .refl s
  · rw [acts]
    refine (performAction_kept ops l a counter c e x).after (ops.quiet ?_)
    rcases before with rfl | ⟨-, armed, rfl⟩ | ⟨last, rfl⟩
    · exact .refl _
    · exact modifyLink_isQuiet ..
    · exact modifyLink_isQuiet ..

theorem takeEvent_kept (e : Event) (s : State) : Kept Inv s (takeEvent e s) := by
  have heeded : Kept Inv s (guardsHeeded e s) := ops.quiet (guardsHeeded_isQuiet e s)
  rcases takeEvent_cases e s with discarded | reported | ⟨-, scanned⟩
  · rw [discarded]; exact heeded
  · rw [reported]; exact heeded.trans (ops.quiet (reportChain_isQuiet ..))
  · rw [scanned]; exact heeded.trans (.foldl (scanLink_kept ops e) ..)

theorem scanChain_kept (s : State) : Kept Inv s (scanChain s) := by
  rcases chain : s.links.chain with _ | ⟨e, rest⟩
  · unfold scanChain; rw [chain]; exact .refl s
  · rw [scanChain_cons chain]
    exact (takeEvent_kept ops ..).after (ops.quiet (.withLinks ..))

theorem finishChain_kept (s : State) : Kept Inv s (finishChain s) :=
  .iterate (fun _ => .iterate (scanChain_kept ops) ..) 5 s

theorem takeNextEvent_kept (prefer : Option EventSource) (s : State) : Kept Inv s (takeNextEvent prefer s) := by
  unfold takeNextEvent
  split
  · exact scanChain_kept ops s
  · split
    · exact .refl s
    · exact (takeEvent_kept ops ..).after (ops.quiet (.withLinks ..))

/-! ### Orders and nodes that leave (R110 to R122, R133 to R135) -/

theorem takeOrderDone_kept (f : NodeFrame) (n : NodeIx) (s : State) : Kept Inv s (takeOrderDone f n s) := by
  unfold takeOrderDone
  split
  · split
    · exact ops.quiet (countBadEntry_isQuiet ..)
    · unfold matchOrder
      split
      · exact ops.quiet (modifyNode_isQuiet ..)
      · next o found => exact ops.endOrder _ (List.mem_of_find?_eq_some found)
  · exact ops.quiet (countBadEntry_isQuiet ..)

theorem expireOrder_kept (number : Byte) (s : State) : Kept Inv s (expireOrder number s) := by
  unfold expireOrder
  split
  · exact .refl s
  · next o found => exact .ite (fun _ => ops.endOrder _ (List.mem_of_find?_eq_some found)) fun _ => .refl s

theorem leaveNode_kept (n : NodeIx) (after : NodeState) (k : Nat) (s : State) : Kept Inv s (leaveNode n after k s) :=
  (ops.quiet (post_isQuiet ..)).after ((ops.loseNode ..).after
    (ops.quiet ((clearFreshness_isQuiet ..).after (modifyNode_isQuiet ..))))

theorem expireNode_kept (n : NodeIx) (s : State) : Kept Inv s (expireNode n s) :=
  .ite (fun _ => leaveNode_kept ops ..) fun _ => .refl s

theorem expireSilent_kept (s : State) : Kept Inv s (expireSilent s) := .foldl (fun x n => expireNode_kept ops n x) ..

theorem takeRestore_kept (t : Slot) (g : RequestOrigin) (s : State) : Kept Inv s (takeRestore t g s) := by
  unfold takeRestore
  split
  · exact ops.quiet (endShedRequest_isQuiet ..)
  · next i target => exact ops.placeRestore g target

theorem takeShedRequest_kept (s : State) : Kept Inv s (takeShedRequest s) := by
  unfold takeShedRequest
  split
  · dsimp only
    split
    · exact ops.quiet ((takeShed_isQuiet ..).after (.withLinks ..))
    · exact (takeRestore_kept ops ..).after (ops.quiet (.withLinks ..))
  · exact .refl s
  · exact .refl s

theorem endSearch_kept (q : Search) (s : State) : Kept Inv s (endSearch q s) := by
  unfold endSearch
  split
  · exact ops.quiet ((endShedRequest_isQuiet ..).after (setSearch_isQuiet ..))
  · next i target => exact ops.placeShed target

theorem takeSwitchOrder_kept (r : Request) (a : OutletIx × RelayAction × IndicatorAction) (s : State) :
    Kept Inv s (takeSwitchOrder r a s) := by
  refine .ite (fun _ => ops.quiet (answer_isQuiet ..)) fun _ => .ite (fun _ => ops.quiet (answer_isQuiet ..)) fun _ => ?_
  split
  · exact ops.quiet (answer_isQuiet ..)
  · next passes => exact ops.placeSwitch r a.2.2 passes

/-! ### The pass -/

theorem takeReviewTick_kept (s : State) : Kept Inv s (takeReviewTick s) := by
  unfold takeReviewTick
  split
  · next run =>
    exact .ite (fun _ => ops.quiet (overrun_isQuiet s)) fun idle => ops.startPass run (Bool.eq_false_iff.mpr idle)
  · exact .refl s
  · exact .refl s

/-! ### The request units -/

theorem assignStep_kept (tag : Byte) (ack : Bool) (m : Membership) (i : OutletIx) (left : Nat) (c : Nat × Nat × Nat)
    (s : State) : Kept Inv s (assignStep tag ack m i left c s) := by
  have handled (j : Option MapJob) : Kept Inv s (setMapJob j (assignAt i m s)) :=
    (ops.assignAt i m s).trans (ops.quiet (setMapJob_isQuiet ..))
  exact .ite (fun _ => ops.answered (handled none)) fun _ => handled _

theorem takeAssign_kept (r : Request) (a : OutletIx × Nat × Membership) (s : State) : Kept Inv s (takeAssign r a s) :=
  .ite (fun _ => assignStep_kept ops ..) fun _ => ops.quiet (setMapJob_isQuiet ..)

theorem takeActivate_kept (r : Request) (t : Slot) (s : State) : Kept Inv s (takeActivate r t s) :=
  .ite (fun suspended => ops.answered (ops.activate suspended)) fun _ => ops.quiet (answer_isQuiet ..)

theorem takeSuspend_kept (r : Request) (t : Slot) (s : State) : Kept Inv s (takeSuspend r t s) := by
  refine .ite (fun active => ops.answered ?_) fun _ => ops.quiet (answer_isQuiet ..)
  exact .ite (fun _ => ops.suspend active) fun _ => (ops.suspend active).trans (ops.quiet (post_isQuiet ..))

theorem takeRemove_kept (r : Request) (t : Slot) (s : State) : Kept Inv s (takeRemove r t s) :=
  .ite (fun _ => ops.quiet (answer_isQuiet ..)) fun _ => .ite (fun _ => ops.quiet (answer_isQuiet ..))
    fun unused => ops.answered (ops.remove (Bool.eq_false_iff.mpr unused))

theorem takeClose_kept (r : Request) (s : State) : Kept Inv s (takeClose r s) :=
  .ite (fun _ => ops.quiet (answer_isQuiet ..)) fun free => ops.answered (ops.startClose (Bool.eq_false_iff.mpr free))

theorem takeSetNode_kept (r : Request) (a : NodeIx × Bool) (s : State) : Kept Inv s (takeSetNode r a s) := by
  have disabled : Kept Inv s (disableNode a.1 s) := .ite (fun _ => .refl s) fun _ => leaveNode_kept ops ..
  exact ops.answered (.ite (fun _ => ops.quiet (enableNode_isQuiet ..)) fun _ => disabled)

theorem abandonUnit_kept (u : RequestUnit) (s : State) : Kept Inv s (abandonUnit u s) := by
  cases u
  case switch => exact (ops.disownSwitch _).after (ops.quiet ⟨rfl⟩)
  all_goals exact ops.quiet ⟨rfl⟩

/-! ### Frames and requests -/

theorem arrive_kept {p : Port} {len : Nat} {k : State → State} (h : ∀ x, Kept Inv x (k x)) (s : State) :
    Kept Inv s (arrive p len k s) := by
  have ports (x : State) (f : Counts → Counts) : Kept Inv x (setCounts f x) := ops.quiet (.withPorts ..)
  exact (ops.quiet (setReceiver_isQuiet ..)).trans (.ite (fun _ => ports ..) fun _ => (h _).after (ports ..))

theorem nodePortFrame_kept {f : NodeFrame} {k : NodeIx → State → State} (h : ∀ n x, Kept Inv x (k n x)) (s : State) :
    Kept Inv s (nodePortFrame f k s) := by
  refine arrive_kept ops (fun x => ?_) s
  split
  · exact ops.quiet (.withPorts ..)
  · exact .ite (fun _ => ops.quiet (.withPorts ..)) fun _ => (h _ _).after (ops.quiet (modifyNode_isQuiet ..))

theorem serve_kept {α : Type} {u : RequestUnit} {r : Request} {parse : List Byte → Option α} {act : α → State → State}
    (h : ∀ a x, Kept Inv x (act a x)) (s : State) : Kept Inv s (serve u r parse act s) := by
  rcases serve_quiet_cases u r parse act s with refused | ⟨x, a, before, -, acted⟩
  · exact ops.quiet refused
  · rw [acted]
    exact (ops.quiet before).trans (h a x)

theorem passDownFrame_kept (k : DownKind) (f : NodeFrame) (s : State) : Kept Inv s (passDownFrame k f s) := by
  unfold passDownFrame
  split
  · exact arrive_kept ops (fun _ => ops.quiet (joinDown_isQuiet ..)) s
  · exact arrive_kept ops (fun _ => ops.quiet (.withPorts ..)) s
  all_goals exact .refl s

theorem takeUnserved_kept (p : List Byte) (s : State) : Kept Inv s (takeUnserved p s) := by
  unfold takeUnserved
  split
  · exact arrive_kept ops (fun _ => .refl _) s
  · exact arrive_kept ops (fun _ => ops.quiet (sendReply_isQuiet ..)) s
  · exact .refl s

/-! ### Every command -/

/-- Every command but CREATE and IMPORT ends in a next state and keeps the invariant. -/
theorem exec_kept (c : Instr) (s : State) (create : ∀ r, c ≠ .create r) (importTenant : ∀ r, c ≠ .importTenant r) :
    ∃ t, exec c s = .next t ∧ Kept Inv s t := by
  have answers {x : State} {u : RequestUnit} {tag : Byte} {w : Bool} {st : Status} {d : ReplyData} :
      Kept Inv x (answer u tag w st d x) := ops.quiet (answer_isQuiet ..)
  cases c with
  | coldReset => exact ⟨_, rfl, ops.coldReset s⟩
  | nodeReadings f => exact ⟨_, rfl, nodePortFrame_kept ops (fun n x => ops.quiet (takeReadings_isQuiet f n x)) s⟩
  | nodeJoin f => exact ⟨_, rfl, nodePortFrame_kept ops (fun n x => ops.quiet (takeJoin_isQuiet f n x)) s⟩
  | nodeOrderDone f => exact ⟨_, rfl, nodePortFrame_kept ops (takeOrderDone_kept ops f) s⟩
  | nodeThrough f => exact ⟨_, rfl, nodePortFrame_kept ops (fun _ _ => ops.quiet (joinTransit_isQuiet ..)) s⟩
  | passDown k f => exact ⟨_, rfl, passDownFrame_kept ops k f s⟩
  | frameDiscard p k f =>
    exact ⟨_, rfl, .ite (fun _ => arrive_kept ops (fun _ => ops.quiet (.withPorts ..)) s) fun _ => .refl s⟩
  | frameError p b => exact ⟨_, rfl, .ite (fun _ => .refl s) fun _ => ops.quiet (receiveBytes_isQuiet p b s)⟩
  | byteGapTimeout p b =>
    exact ⟨_, rfl, .ite (fun _ => .refl s)
      fun _ => ops.quiet ((abandonFrame_isQuiet p _).after (receiveBytes_isQuiet p b s))⟩
  | requestUnserved p => exact ⟨_, rfl, takeUnserved_kept ops p s⟩
  | nodeSendDone => exact ⟨_, rfl, ops.quiet ⟨rfl⟩⟩
  | limitNoteOwedSent => exact ⟨_, rfl, ops.quiet (sendOwedNote_isQuiet s)⟩
  | uplinkSendDone => exact ⟨_, rfl, ops.quiet (.withUp ..)⟩
  | visitRetry => exact ⟨_, rfl, .ite ops.retry fun _ => .refl s⟩
  | exportResume =>
    refine ⟨_, rfl, ?_⟩
    split
    · exact .refl s
    · exact .ite (fun _ => ops.quiet (resumeExport_isQuiet ..)) fun _ => .refl s
  | tickExpiry g => exact ⟨_, rfl, .ite (fun _ => ops.quiet (expireTick_isQuiet g s)) fun _ => .refl s⟩
  | reviewTick =>
    exact ⟨_, rfl, .ite (fun _ => (takeReviewTick_kept ops _).after (ops.quiet (.withTime ..))) fun _ => .refl s⟩
  | orderTimeout n => exact ⟨_, rfl, expireOrder_kept ops n s⟩
  | nodeSilence n => exact ⟨_, rfl, expireNode_kept ops n s⟩
  | reviewVisit => exact ⟨_, rfl, .ite ops.visit fun _ => .refl s⟩
  | passEnd => exact ⟨_, rfl, .ite ops.endPass fun _ => .refl s⟩
  | eventScan p => exact ⟨_, rfl, takeNextEvent_kept ops p s⟩
  | shedReport => exact ⟨_, rfl, ops.quiet (takeReport_isQuiet s)⟩
  | shedRequestTake => exact ⟨_, rfl, takeShedRequest_kept ops s⟩
  | shedSearchStep =>
    refine ⟨_, rfl, ?_⟩
    split
    · exact .refl s
    · exact ops.quiet (setSearch_isQuiet ..)
  | shedSearchEnd =>
    refine ⟨_, rfl, ?_⟩
    split
    · exact .refl s
    · exact .ite (fun _ => endSearch_kept ops ..) fun _ => .refl s
  | assignEntry =>
    refine ⟨_, rfl, ?_⟩
    split
    · exact assignStep_kept ops ..
    · exact .refl s
    · exact .refl s
  | alterFlagsEntry =>
    refine ⟨_, rfl, ?_⟩
    split
    · exact ops.quiet (alterStep_isQuiet ..)
    · exact .refl s
    · exact .refl s
  | readEntries r => exact ⟨_, rfl, serve_kept ops (fun _ _ => answers) s⟩
  | assign r => exact ⟨_, rfl, serve_kept ops (takeAssign_kept ops r) s⟩
  | setOutlet r =>
    exact ⟨_, rfl, serve_kept ops (fun _ _ => ops.answered (ops.quiet (setOutlet_isQuiet ..))) s⟩
  | alterFlags r => exact ⟨_, rfl, serve_kept ops (fun _ _ => ops.quiet (setMapJob_isQuiet ..)) s⟩
  | setProfile r => exact ⟨_, rfl, serve_kept ops (fun _ _ => ops.answered (ops.quiet (.withProfiles ..))) s⟩
  | readProfile r => exact ⟨_, rfl, serve_kept ops (fun _ _ => answers) s⟩
  | create r => exact absurd rfl (create r)
  | setContract r => exact ⟨_, rfl, serve_kept ops (fun a x => ops.quiet (takeSetContract_isQuiet r a x)) s⟩
  | activate r => exact ⟨_, rfl, serve_kept ops (takeActivate_kept ops r) s⟩
  | suspend r => exact ⟨_, rfl, serve_kept ops (takeSuspend_kept ops r) s⟩
  | remove r => exact ⟨_, rfl, serve_kept ops (takeRemove_kept ops r) s⟩
  | setPreset r => exact ⟨_, rfl, serve_kept ops (fun a x => ops.quiet (takeSetPreset_isQuiet r a x)) s⟩
  | readTenant r => exact ⟨_, rfl, serve_kept ops (fun _ _ => answers) s⟩
  | setLink r =>
    exact ⟨_, rfl, (serve_kept ops (fun _ _ => ops.answered (ops.quiet (modifyLink_isQuiet ..))) _).after
      (finishChain_kept ops s)⟩
  | readLink r => exact ⟨_, rfl, (serve_kept ops (fun _ _ => answers) _).after (finishChain_kept ops s)⟩
  | rearm r =>
    exact ⟨_, rfl, (serve_kept ops (fun _ _ => ops.answered (ops.quiet (modifyLink_isQuiet ..))) _).after
      (finishChain_kept ops s)⟩
  | switchOrder r => exact ⟨_, rfl, serve_kept ops (takeSwitchOrder_kept ops r) s⟩
  | shedTenant r => exact ⟨_, rfl, serve_kept ops (fun t x => ops.quiet (takeSwitchShed_isQuiet .shed r t x)) s⟩
  | restoreTenant r => exact ⟨_, rfl, serve_kept ops (fun t x => ops.quiet (takeSwitchShed_isQuiet .restore r t x)) s⟩
  | setNodeDisable r => exact ⟨_, rfl, serve_kept ops (takeSetNode_kept ops r) s⟩
  | setNodeEnable r => exact ⟨_, rfl, serve_kept ops (takeSetNode_kept ops r) s⟩
  | setLimit r => exact ⟨_, rfl, serve_kept ops (fun _ _ => ops.answered (ops.quiet (writeLimit_isQuiet ..))) s⟩
  | readNode r => exact ⟨_, rfl, serve_kept ops (fun a x => ops.quiet (takeReadNode_isQuiet r a x)) s⟩
  | readStates r => exact ⟨_, rfl, serve_kept ops (fun _ _ => answers) s⟩
  | close r => exact ⟨_, rfl, serve_kept ops (fun _ => takeClose_kept ops r) s⟩
  | exportTenant r => exact ⟨_, rfl, serve_kept ops (fun t x => ops.quiet (takeExport_isQuiet r t x)) s⟩
  | importTenant r => exact absurd rfl (importTenant r)
  | readIdent r => exact ⟨_, rfl, serve_kept ops (fun _ _ => answers) s⟩
  | setState r => exact ⟨_, rfl, serve_kept ops (fun x y => ops.answered (ops.changeState x y)) s⟩
  | setTiming r =>
    exact ⟨_, rfl, serve_kept ops (fun a x => ops.answered
      ((expireSilent_kept ops _).after (ops.quiet (writeTiming_isQuiet a x)))) s⟩
  | setForward r => exact ⟨_, rfl, serve_kept ops (fun _ _ => ops.answered (ops.quiet (.withPorts ..))) s⟩
  | readStatus r => exact ⟨_, rfl, serve_kept ops (fun clear x => ops.quiet (takeReadStatus_isQuiet r clear x)) s⟩
  | readTags r => exact ⟨_, rfl, serve_kept ops (fun _ _ => answers) s⟩
  | restart r => exact ⟨_, rfl, serve_kept ops (fun _ x => ops.answered (ops.warmRestart x)) s⟩
  | resetUnit r =>
    exact ⟨_, rfl, serve_kept ops (fun u x => ops.answered
      ((ops.quiet (setTag_isQuiet ..)).after (abandonUnit_kept ops u x))) s⟩

end

end Sys2Proof.Machine


/-! Every command keeps the periods, the budgets and the review engine in order, and no lifetime energy decreases (R42, R45,
R53, R63, R146). -/

namespace Sys2Proof.Machine

/-! ### One tenant record -/

/-- A slot in use after the step was in use before it, with no more lifetime energy (R42). -/
def TenantAged (k k' : Tenant) : Prop :=
  k'.state ≠ .free → k.state ≠ .free ∧ k.lifetime.a ≤ k'.lifetime.a ∧ k.lifetime.b ≤ k'.lifetime.b

theorem TenantAged.trans {k k' k'' : Tenant} (h : TenantAged k k') (g : TenantAged k' k'') : TenantAged k k'' := by
  intro used
  obtain ⟨used', a', b'⟩ := g used
  obtain ⟨used'', a, b⟩ := h used'
  exact ⟨used'', Nat.le_trans a a', Nat.le_trans b b'⟩

theorem TenantAged.of_same {k k' : Tenant} (state : k'.state ≠ .free → k.state ≠ .free)
    (lifetime : k'.lifetime = k.lifetime) : TenantAged k k' :=
  fun used => ⟨state used, by rw [lifetime], by rw [lifetime]⟩

theorem TenantAged.refl (k : Tenant) : TenantAged k k := .of_same id rfl

/-- The numbers decide whether a tenant is sound, and of the review engine the close number and the close mark. -/
theorem TenantSound.of_numbers {k k' : Tenant} {r r' : Review} (numbers : k'.numbers = k.numbers)
    (closeNumber : r'.closeNumber = r.closeNumber) (closePending : r'.closePending = r.closePending)
    (h : TenantSound k r) : TenantSound k' r' := by
  simp only [Tenant.numbers, TenantNumbers.mk.injEq] at numbers
  obtain ⟨state, contract, lifetime, baseline, budget, verdict, streak, lastClose⟩ := numbers
  obtain ⟨baselineA, baselineB, lifetimeA, lifetimeB, bounded, held, closed⟩ := h
  constructor
  · rw [baseline, lifetime]; exact baselineA
  · rw [baseline, lifetime]; exact baselineB
  · rw [lifetime]; exact lifetimeA
  · rw [lifetime]; exact lifetimeB
  · rw [budget, contract]; exact bounded
  · rw [state, verdict, streak]; exact held
  · rw [state, lastClose, closeNumber, closePending]; exact closed

theorem TenantSound.of_close {k : Tenant} {r r' : Review} (h : TenantSound k r)
    (closeNumber : r'.closeNumber = r.closeNumber) (closePending : r'.closePending = r.closePending) :
    TenantSound k r' := h.of_numbers rfl closeNumber closePending

theorem TenantAged.of_numbers {k k' : Tenant} (numbers : k'.numbers = k.numbers) : TenantAged k k' := by
  have state : k'.state = k.state := congrArg TenantNumbers.state numbers
  exact .of_same (fun used => state ▸ used) (congrArg TenantNumbers.lifetime numbers)

/-! ### A visit (R70 to R78) -/

theorem takeUp_lifetime (k : Tenant) : k.takeUp.lifetime = k.lifetime := by
  rw [takeUp_only k]

/-- A take-up caps the budget at the allowance it brings, and leaves a streak of 0 at 0 (R53). -/
theorem takeUp_budget {k : Tenant} (bounded : k.budget ≤ k.contract.allowance) :
    k.takeUp.budget ≤ k.takeUp.contract.allowance := by
  cases pending : k.pendingContract with
  | none => rw [takeUp_absent pending]; exact bounded
  | some c => rw [takeUp_present pending]; exact budgetAfter_le ..

theorem takeUp_streak {k : Tenant} (zero : k.streak = 0) : k.takeUp.streak = 0 := by
  cases pending : k.pendingContract with
  | none => rw [takeUp_absent pending]; exact zero
  | some c =>
    rw [takeUp_present pending]
    dsimp only
    rw [zero, ite_self]

theorem refilled_le (k : Tenant) (dt : Nat) : k.refilled dt ≤ k.contract.allowance := by
  cases burst : k.contract.burst with
  | none => rw [refilled_noBurst burst]; exact Nat.zero_le _
  | some b =>
    rw [refilled_burst burst]
    simp only [Contract.allowance, burst]
    exact Nat.min_le_right ..

/-- The judgement keeps the contract and a budget within its allowance (R75, R77). -/
theorem judge_budget {k : Tenant} (bounded : k.budget ≤ k.contract.allowance) (dt : Nat) :
    (k.judge dt).budget ≤ (k.judge dt).contract.allowance := by
  have contract : (k.judge dt).contract = k.contract := by
    obtain ⟨_, _, _, _, _, _, judged⟩ := judge_only k dt
    rw [judged]
  rw [contract]
  rcases Nat.lt_or_ge k.contract.tolerance k.stale with stale | fresh
  · rw [judge_stale stale]; exact bounded
  · cases exceeds : k.over with
    | true => rw [judge_over fresh exceeds]; exact Nat.le_trans (isOver_bounds k dt).2 bounded
    | false =>
      rw [judge_notOver fresh exceeds]
      exact (notOver_budget k dt).trans_le (refilled_le k dt)

theorem visit_budget {k : Tenant} (bounded : k.budget ≤ k.contract.allowance) (now : RowTime) :
    (k.visit now).budget ≤ (k.visit now).contract.allowance := by
  have start : (k.takeUp.integrate now).budget ≤ (k.takeUp.integrate now).contract.allowance := takeUp_budget bounded
  by_cases active : k.state = .active
  · rw [visit_active active]; exact judge_budget start _
  · rw [visit_notActive active]; exact start

/-- A visit ages a tenant: of what its soundness depends on it writes the energy and, for an ACTIVE tenant, the
judgement. -/
theorem visit_sound {k : Tenant} {r : Review} (h : TenantSound k r) (now : RowTime) :
    TenantSound (k.visit now) r ∧ TenantAged k (k.visit now) := by
  have budget := visit_budget h.budget now
  have held : k.state = .suspended → (k.visit now).verdict = .held ∧ (k.visit now).streak = 0 := fun suspended => by
    rw [visit_notActive (by rw [suspended]; exact TenantState.noConfusion), integrate_takeUp]
    exact ⟨(h.held suspended).1, takeUp_streak (h.held suspended).2⟩
  have growsA := Nat.le_min.mpr ⟨h.lifetimeA, Nat.le_add_right k.lifetime.a (k.draw.a * (now - k.lastVisit).toNat)⟩
  have growsB := Nat.le_min.mpr ⟨h.lifetimeB, Nat.le_add_right k.lifetime.b (k.draw.b * (now - k.lastVisit).toNat)⟩
  obtain ⟨v, n, b, p, x, y, frame⟩ := visit_only k now
  rw [integrate_takeUp] at frame
  rw [frame] at budget held ⊢
  exact ⟨⟨h.baselineA.trans growsA, h.baselineB.trans growsB, Nat.min_le_left .., Nat.min_le_left .., budget, held,
    h.lastClose⟩, fun used => ⟨used, growsA, growsB⟩⟩

/-! ### The invariant, with the tenants of a state at which they have been looked at -/

/-- The periods are sound, and since `s₀` no slot in use has lost lifetime energy. -/
structure PeriodsSince (s₀ s : State) : Prop where
  periods : Periods s
  aged : ∀ a, TenantAged (s₀.tenants.get a) (s.tenants.get a)

section
variable {s₀ s t : State}

/-- The engine as it was; every tenant sound where it was, and aged; no new pending change out of a pass. -/
theorem periodsKept_of_tenants (review : t.review = s.review) (opState : t.mgmt.opState = s.mgmt.opState)
    (pending : s.review.pass = .idle → ∀ i, (s.map.entries.get i).pending = none → (t.map.entries.get i).pending = none)
    (tenants : ∀ a, TenantSound (s.tenants.get a) s.review →
      TenantSound (t.tenants.get a) s.review ∧ TenantAged (s.tenants.get a) (t.tenants.get a)) :
    Kept (PeriodsSince s₀) s t := by
  refine ⟨fun ⟨h, aged⟩ => ⟨⟨fun a => ?_, ?_, ?_, ?_, ?_, ?_⟩, fun a => (aged a).trans (tenants a (h.tenants a)).2⟩⟩
  · rw [review]; exact (tenants a (h.tenants a)).1
  · rw [review]; exact h.idle
  · rw [review]; exact fun idle i => pending idle i (h.idleMap idle i)
  · rw [review]; exact h.walked
  · rw [review, opState]; exact h.running
  · rw [review]; exact h.closing

theorem periodsKept_of_numbers (review : t.review = s.review) (opState : t.mgmt.opState = s.mgmt.opState)
    (pending : s.review.pass = .idle → ∀ i, (s.map.entries.get i).pending = none → (t.map.entries.get i).pending = none)
    (numbers : ∀ a, (t.tenants.get a).numbers = (s.tenants.get a).numbers) : Kept (PeriodsSince s₀) s t :=
  periodsKept_of_tenants review opState pending
    fun a h => ⟨h.of_numbers (numbers a) rfl rfl, .of_numbers (numbers a)⟩

theorem Quiet.periodsKept (h : Quiet s t) : Kept (PeriodsSince s₀) s t :=
  periodsKept_of_numbers h.review h.opState
    (fun _ i none => (congrArg Placement.pending (h.placement i) :).trans none) h.numbers

/-- One tenant record replaced by a sound one. -/
theorem tenant_periodsKept {a : Slot} {k : Tenant} (h : TenantSound (s.tenants.get a) s.review →
    TenantSound k s.review ∧ TenantAged (s.tenants.get a) k) :
    Kept (PeriodsSince s₀) s (s.withTenants (s.tenants.set a k)) :=
  periodsKept_of_tenants rfl rfl (fun _ _ => id) fun b sound => by
    rw [State.withTenants_tenants, Table.get_set]
    split
    · next own => subst own; exact h sound
    · exact ⟨sound, .refl _⟩

theorem modifyOutlet_periodsKept {i : OutletIx} {f : Outlet → Outlet} (pending : ∀ e, (f e).pending = e.pending) :
    Kept (PeriodsSince s₀) s (modifyOutlet i f s) :=
  periodsKept_of_numbers rfl rfl (fun _ j none => by
    refine (congrArg Outlet.pending (Table.get_modify ..)).trans ?_
    split
    · next own => subst own; exact (pending _).trans none
    · exact none) fun _ => rfl

theorem modifyStack_periodsKept {a : Slot} {f : List StackEntry → List StackEntry} :
    Kept (PeriodsSince s₀) s (modifyTenant a (fun k => { k with stack := f k.stack }) s) :=
  tenant_periodsKept fun h => ⟨.of_numbers (k := s.tenants.get a) (r := s.review) rfl rfl rfl h, .of_numbers rfl⟩

/-! ### Orders -/

theorem endOrder_periodsKept (o : Order) (e : Ending) : Kept (PeriodsSince s₀) s (endOrder o e s) := by
  refine periodsKept_of_numbers ((endOrder_touches o e s).2 .review rfl)
    (congrArg BeyondNodes.opState (beyondNodes_endOrder o e s)) (fun _ i none => ?_) fun a => ?_
  · rw [endOrder_entries, Table.get_modify]
    split
    · next own => subst own; exact none
    · exact none
  · rw [endOrder_tenants, orderStackStep_tenant]
    rfl

theorem placeOrder_periodsKept (i : OutletIx) (r : RelayAction) (d : IndicatorAction) (o : OrderOrigin) :
    Kept (PeriodsSince s₀) s (placeOrder i r d o s) := periodsKept_of_numbers rfl rfl (fun _ _ => id) fun _ => rfl

theorem placeRestore_periodsKept (t : Slot) (g : RequestOrigin) (i : OutletIx) :
    Kept (PeriodsSince s₀) s (placeRestore t g i s) :=
  (placeOrder_periodsKept ..).trans
    ((modifyStack_periodsKept (f := List.dropLast)).trans (modifyOutlet_periodsKept fun _ => rfl))

theorem placeShed_periodsKept (t : Slot) (g : RequestOrigin) (i : OutletIx) :
    Kept (PeriodsSince s₀) s (placeShed t g i s) :=
  (placeOrder_periodsKept ..).trans (modifyStack_periodsKept (f := (· ++ [⟨i, false⟩])))

theorem placeSwitch_periodsKept (r : Request) (i : OutletIx) (a : RelayAction) (d : IndicatorAction) :
    Kept (PeriodsSince s₀) s (placeSwitch r i a d s) := by
  have placed : Kept (PeriodsSince s₀) s (holdSwitch r (placeOrder i a d (.management r.tag true) s)) :=
    (placeOrder_periodsKept ..).trans (Quiet.periodsKept ⟨rfl⟩)
  refine .ite (fun _ => placed.trans ?_) fun _ => placed
  unfold releaseShed
  dsimp only
  split
  · exact modifyOutlet_periodsKept fun _ => rfl
  · exact Kept.trans (modifyOutlet_periodsKept (i := i) (f := fun e => { e with relay := .off }) fun _ => rfl)
      (modifyStack_periodsKept (f := removeEntry i))

/-! ### Membership changes (R9, R11, R16) -/

theorem assignAt_periodsKept (i : OutletIx) (m : Membership) : Kept (PeriodsSince s₀) s (assignAt i m s) := by
  rcases assignAt_cases i m s with stopped | ⟨-, applied⟩ | ⟨busy, staged⟩
  · rw [stopped]; exact .refl s
  · obtain ⟨map, tenants⟩ := applyChange_spec i m s
    have touched := applyChange_touches i m s
    rw [applied]
    refine periodsKept_of_numbers (touched.2 .review rfl) (congrArg Management.opState (touched.2 .mgmt rfl))
      (fun _ j none => ?_) fun a => ?_
    · rw [map, Table.get_set]
      split
      · next own => subst own; exact none
      · exact none
    · rw [tenants]; rfl
  · have touched := assignAt_touches i m s
    rw [staged] at touched ⊢
    exact periodsKept_of_numbers (touched.2 .review rfl) (congrArg Management.opState (touched.2 .mgmt rfl))
      (fun idle => absurd idle busy) fun a => by rw [stageChange_tenant]; rfl

/-! ### The pass (R63, R66, R68, R80, R81) -/

theorem startPass_periodsKept (run : s.mgmt.opState = .run) : Kept (PeriodsSince s₀) s (startPass s) :=
  (post_isQuiet ..).periodsKept.after ⟨fun ⟨h, aged⟩ => ⟨{
    tenants := fun a => (h.tenants a).of_close rfl rfl
    idle := PassState.noConfusion
    idleMap := PassState.noConfusion
    walked := Bool.noConfusion
    running := fun _ => run
    closing := id }, aged⟩⟩

/-- The engine of a pass whose visits are not over is not IDLE and stands at no end (R68, R81). -/
theorem advance_periodsKept (visiting : s.review.pass = .visiting) (walking : s.review.walked = false) :
    Kept (PeriodsSince s₀) s (advance s) := by
  have notIdle : s.review.pass ≠ .idle := visiting ▸ PassState.noConfusion
  unfold advance
  split
  · next last =>
    exact ⟨fun ⟨h, aged⟩ => ⟨{
      tenants := fun a => (h.tenants a).of_close rfl rfl
      idle := fun idle => absurd idle notIdle
      idleMap := fun idle => absurd idle notIdle
      walked := fun _ => ⟨visiting, Fin.ext last⟩
      running := h.running
      closing := h.closing }, aged⟩⟩
  · exact ⟨fun ⟨h, aged⟩ => ⟨{
      tenants := fun a => (h.tenants a).of_close rfl rfl
      idle := fun idle => absurd idle notIdle
      idleMap := fun idle => absurd idle notIdle
      walked := fun ended => absurd ended (Bool.eq_false_iff.mp walking)
      running := h.running
      closing := h.closing }, aged⟩⟩

theorem waitForRoom_periodsKept (visiting : s.review.pass = .visiting) (walking : s.review.walked = false) :
    Kept (PeriodsSince s₀) s (waitForRoom s) :=
  ⟨fun ⟨h, aged⟩ => ⟨{
    tenants := fun a => (h.tenants a).of_close rfl rfl
    idle := PassState.noConfusion
    idleMap := PassState.noConfusion
    walked := fun ended => absurd ended (Bool.eq_false_iff.mp walking)
    running := fun _ => h.running (visiting ▸ PassState.noConfusion)
    closing := h.closing }, aged⟩⟩

/-- A waiting pass has not walked past slot 128, so that it may visit again (R80). -/
theorem resume_periodsKept (waiting : s.review.pass = .waiting) :
    Kept (PeriodsSince s₀) s (s.withReview { s.review with pass := .visiting }) :=
  ⟨fun ⟨h, aged⟩ => ⟨{
    tenants := fun a => (h.tenants a).of_close rfl rfl
    idle := PassState.noConfusion
    idleMap := PassState.noConfusion
    walked := fun ended => absurd (waiting.symm.trans (h.walked ended).1) PassState.noConfusion
    running := fun _ => h.running (waiting ▸ PassState.noConfusion)
    closing := h.closing }, aged⟩⟩

theorem walking_of_waiting (h : Periods s) (waiting : s.review.pass = .waiting) : s.review.walked = false :=
  Bool.eq_false_iff.mpr fun ended => absurd (waiting.symm.trans (h.walked ended).1) PassState.noConfusion

/-- A period close brings the baseline up to the lifetime energy and the last close number up to the engine's (R151). -/
theorem periodReset_periodsKept (i : Slot) (now : RowTime) :
    Kept (PeriodsSince s₀) s (modifyTenant i (fun k => k.periodReset s.review.closeNumber now) s) :=
  tenant_periodsKept fun h => ⟨⟨Nat.le_refl _, Nat.le_refl _, h.lifetimeA, h.lifetimeB, h.budget, h.held,
    fun _ => .inl rfl⟩, .of_same id rfl⟩

theorem closeStep_periodsKept (i : Slot) (visiting : s.review.pass = .visiting) (walking : s.review.walked = false) :
    Kept (PeriodsSince s₀) s (closeStep i s) := by
  refine .ite (fun _ => .ite (fun _ => ?_) fun _ => waitForRoom_periodsKept visiting walking)
    fun _ => advance_periodsKept visiting walking
  have placed (r : AccountRecord) : Kept (PeriodsSince s₀) s (placeRecord r s) := Quiet.periodsKept (.withUp ..)
  exact (placed _).trans ((periodReset_periodsKept (s := placeRecord _ s) i _).trans
    (advance_periodsKept visiting walking))

theorem afterVerdict_periodsKept (i : Slot) : Kept (PeriodsSince s₀) s (afterVerdict i s) := by
  have visited : Kept (PeriodsSince s₀) s
      (s.withTenants (s.tenants.set i ((s.tenants.get i).visit s.time.rowTime))) :=
    tenant_periodsKept fun h => visit_sound h _
  exact .ite (fun _ => visited) fun _ => visited.trans (post_isQuiet ..).periodsKept

theorem visitSlot_periodsKept (i : Slot) (visiting : s.review.pass = .visiting) (walking : s.review.walked = false) :
    Kept (PeriodsSince s₀) s (visitSlot i s) := by
  by_cases free : (s.tenants.get i).state = .free
  · rw [visitSlot_free free]; exact advance_periodsKept visiting walking
  · have review := afterVerdict_review i s
    rw [visitSlot_used free]
    exact (afterVerdict_periodsKept i).trans (closeStep_periodsKept i (review ▸ visiting) (review ▸ walking))

theorem retryVisit_periodsKept (waiting : s.review.pass = .waiting) : Kept (PeriodsSince s₀) s (retryVisit s) :=
  ⟨fun h => (visitSlot_periodsKept s.review.position (s := s.withReview { s.review with pass := .visiting }) rfl
    (walking_of_waiting (s := s) h.periods waiting)).sound ((resume_periodsKept waiting).sound h)⟩

/-! ### The end of a pass (R12, R81, R82, R154) -/

theorem endPass_numbers (s : State) (a : Slot) :
    ((endPass s).tenants.get a).numbers = (s.tenants.get a).numbers := by
  rw [endPass_tenant]
  rfl

/-- The pass end ends a close only when no slot in use still owes it. -/
theorem endPass_tenantSound {a : Slot} (h : TenantSound (s.tenants.get a) s.review) :
    TenantSound ((endPass s).tenants.get a) (endPass s).review := by
  rcases endPass_cases s with ⟨closing, all⟩ | still
  · have review : (endPass s).review = { s.review with closePending := false }.ended := by
      rw [endPass_closed closing all]; rfl
    rw [review]
    exact TenantSound.of_numbers (endPass_numbers s a) rfl rfl (r := { s.review with closePending := false })
      { h with lastClose := fun used => .inl (all a used) }
  · have review : (endPass s).review = s.review.ended := by rw [endPass_open still]; rfl
    rw [review]
    exact .of_numbers (r := s.review) (endPass_numbers s a) rfl rfl h

/-- Whatever the engine's fields were, a pass end leaves it at rest and the map without pending changes. -/
theorem endPass_periods (tenants : ∀ a, TenantSound (s.tenants.get a) s.review) : Periods (endPass s) := by
  obtain ⟨pass, position, walked, closing, -⟩ := endPass_review s
  exact {
    tenants := fun a => endPass_tenantSound (tenants a)
    idle := fun _ => ⟨position, walked, closing⟩
    idleMap := fun _ i => by rw [endPass_entry]; rfl
    walked := fun ended => absurd ended (Bool.eq_false_iff.mp walked)
    running := fun inFlight => absurd pass inFlight
    closing := fun still => absurd still (Bool.eq_false_iff.mp closing) }

theorem endPass_periodsKept : Kept (PeriodsSince s₀) s (endPass s) :=
  ⟨fun ⟨h, aged⟩ => ⟨endPass_periods h.tenants, fun a => (aged a).trans (.of_numbers (endPass_numbers s a))⟩⟩

/-! ### The operating state (R60, R82, R177) -/

/-- Out of RUN no pass is in flight, so that the state may be entered or changed with the engine at rest. -/
theorem setOpState_periodsKept {x : OpState} (rest : x = .run ∨ s.mgmt.opState ≠ .run ∨ s.review.pass = .idle) :
    Kept (PeriodsSince s₀) s (setOpState x s) :=
  ⟨fun ⟨h, aged⟩ => ⟨{ h with
    running := fun inFlight => rest.resolve_right fun out =>
      out.elim (fun notRun => notRun (h.running inFlight)) fun idle => inFlight idle }, aged⟩⟩

theorem enterRun_periodsKept : Kept (PeriodsSince s₀) s (enterRun s) :=
  periodsKept_of_numbers rfl rfl (fun _ _ => id) fun a => by
    refine (congrArg Tenant.numbers (Table.get_map ..)).trans ?_
    unfold Tenant.enterRun
    split <;> rfl

theorem changeState_periodsKept (x : OpState) : Kept (PeriodsSince s₀) s (changeState x s) := by
  refine .ite (fun _ => .refl s) fun other => .ite (fun run => ?_) fun out => .ite (fun leaves => ?_) fun stays => ?_
  · have outOfRun : s.mgmt.opState ≠ .run := fun same => other (same.trans run.symm)
    exact (takeWaiting_isQuiet outOfRun).periodsKept.trans
      ((setOpState_periodsKept (.inl run)).trans enterRun_periodsKept)
  · exact ⟨fun ⟨h, aged⟩ => ⟨endPass_periods (s := setOpState x s) h.tenants,
      fun a => (aged a).trans (.of_numbers (endPass_numbers (setOpState x s) a))⟩⟩
  · refine setOpState_periodsKept (.inr ?_)
    by_cases run : s.mgmt.opState = .run
    · exact .inr (Decidable.byContradiction fun busy => stays ⟨run, passInFlight_of_not_idle busy⟩)
    · exact .inl run

/-! ### The TENANT unit and the links' actions (R54 to R56, R59, R147) -/

theorem latch_periodsKept (t : Slot) : Kept (PeriodsSince s₀) s (modifyTenant t Tenant.latched s) :=
  tenant_periodsKept fun h => ⟨⟨Nat.le_refl _, Nat.le_refl _, h.lifetimeA, h.lifetimeB, h.budget, h.held, h.lastClose⟩,
    .of_same id rfl⟩

/-- With no close pending every slot in use has the old close number, one below the new one (R147). -/
theorem startClose_periodsKept (free : s.review.closePending = false) : Kept (PeriodsSince s₀) s (startClose s) := by
  refine ⟨fun ⟨h, aged⟩ => ⟨{ h with tenants := fun a => ?_, closing := fun _ => rfl }, aged⟩⟩
  have k := h.tenants a
  refine { k with lastClose := fun used => .inr ⟨rfl, ?_⟩ }
  have same : (s.tenants.get a).lastClose = s.review.closeNumber :=
    (k.lastClose used).resolve_right fun pending => Bool.false_ne_true (free.symm.trans pending.1)
  exact same.trans (BitVec.add_sub_cancel ..).symm

theorem activate_periodsKept {t : Slot} (suspended : (s.tenants.get t).state = .suspended) :
    Kept (PeriodsSince s₀) s (setTenant t { s.tenants.get t with state := .active } s) := by
  have used : (s.tenants.get t).state ≠ .free := suspended ▸ TenantState.noConfusion
  exact tenant_periodsKept fun h => ⟨{ h with held := TenantState.noConfusion, lastClose := fun _ => h.lastClose used },
    .of_same (fun _ => used) rfl⟩

theorem suspend_periodsKept {t : Slot} (active : (s.tenants.get t).state = .active) : Kept (PeriodsSince s₀) s
    (setTenant t { s.tenants.get t with state := .suspended, verdict := .held, streak := 0 } s) := by
  have used : (s.tenants.get t).state ≠ .free := active ▸ TenantState.noConfusion
  exact tenant_periodsKept fun h => ⟨{ h with held := fun _ => ⟨rfl, rfl⟩, lastClose := fun _ => h.lastClose used },
    .of_same (fun _ => used) rfl⟩

theorem remove_periodsKept (t : Slot) : Kept (PeriodsSince s₀) s (removeTenant t s) := by
  have cleared : Kept (PeriodsSince s₀) s (setTenant t .cleared s) :=
    tenant_periodsKept fun _ => ⟨cleared_sound _, fun used => absurd rfl used⟩
  refine .ite (fun waited => ⟨fun h => ?_⟩) fun _ => cleared
  have resumed := (resume_periodsKept (s := setTenant t .cleared s) waited.1).sound (cleared.sound h)
  exact (advance_periodsKept (s := (setTenant t .cleared s).withReview { s.review with pass := .visiting }) rfl
    (walking_of_waiting (s := s) h.periods waited.1)).sound resumed

/-! ### Resets (R83, R180, R182) -/

theorem warmRestart_periodsKept : Kept (PeriodsSince s₀) s (warmRestart s) := by
  have numbers (a : Slot) : ((warmRestart s).tenants.get a).numbers = (s.tenants.get a).numbers := by
    rw [warmRestart_tenant]; rfl
  refine ⟨fun ⟨h, aged⟩ => ⟨⟨fun a => ?_, ?_, fun _ i => ?_, ?_, ?_, ?_⟩,
    fun a => (aged a).trans (.of_numbers (numbers a))⟩⟩
  · rw [warmRestart_review]; exact .of_numbers (r := s.review) (numbers a) rfl rfl (h.tenants a)
  · rw [warmRestart_review]; exact fun _ => ⟨rfl, rfl, rfl⟩
  · exact congrArg Outlet.pending (warmRestart_entry_frame s i)
  · rw [warmRestart_review]; exact Bool.noConfusion
  · rw [warmRestart_review]; exact fun inFlight => absurd rfl inFlight
  · rw [warmRestart_review]; exact Bool.noConfusion

theorem coldReset_periodsKept : Kept (PeriodsSince s₀) s (coldReset s) :=
  ⟨fun _ => ⟨{ reset_periods with }, fun a used => absurd (congrArg Tenant.state (reset_tenant a)) used⟩⟩

end

/-! ### Every command -/

theorem visitDue_iff (s : State) : visitDue s = true ↔ s.review.pass = .visiting ∧ s.review.walked = false := by
  rw [visitDue, Bool.and_eq_true, decide_eq_true_iff, Bool.not_eq_true']

theorem operationsKeep_periods (s₀ : State) : OperationsKeep (PeriodsSince s₀) where
  quiet := Quiet.periodsKept
  endOrder e _ := endOrder_periodsKept _ e
  loseNode _ _ := .foldl (fun _ o => endOrder_periodsKept o .nodeLost) ..
  placeRestore g _ := placeRestore_periodsKept _ g _
  placeShed _ := (setSearch_isQuiet ..).periodsKept.trans (placeShed_periodsKept ..)
  placeSwitch r d _ := placeSwitch_periodsKept r _ _ d
  assignAt i m _ := assignAt_periodsKept i m
  startPass run _ := startPass_periodsKept run
  visit due := visitSlot_periodsKept _ ((visitDue_iff _).mp due).1 ((visitDue_iff _).mp due).2
  retry due := retryVisit_periodsKept ((retryDue_iff _).mp due).1
  endPass _ := endPass_periodsKept
  latch _ := latch_periodsKept _
  startClose := startClose_periodsKept
  activate := activate_periodsKept
  suspend := suspend_periodsKept
  remove _ := remove_periodsKept _
  changeState x _ := changeState_periodsKept x
  disownSwitch _ := periodsKept_of_numbers rfl rfl (fun _ _ => id) fun _ => rfl
  warmRestart _ := warmRestart_periodsKept
  coldReset _ := coldReset_periodsKept

/-! ### CREATE and IMPORT fill a FREE slot (R51, R159) -/

/-- What a step does to the periods, when it may fill a FREE slot. -/
structure PeriodsStep (s t : State) : Prop where
  sound : Periods s → Periods t
  grows : Periods s → ∀ a, (s.tenants.get a).state ≠ .free → (t.tenants.get a).state ≠ .free →
    (s.tenants.get a).lifetime.a ≤ (t.tenants.get a).lifetime.a ∧
      (s.tenants.get a).lifetime.b ≤ (t.tenants.get a).lifetime.b

theorem PeriodsStep.of_kept {s t : State} (h : Kept (PeriodsSince s) s t) : PeriodsStep s t := by
  have since (p : Periods s) : PeriodsSince s t := h.sound ⟨p, fun a => .refl _⟩
  exact ⟨fun p => (since p).periods, fun p a _ used => ((since p).aged a used).2⟩

theorem Quiet.periodsStep {s t : State} (h : Quiet s t) : PeriodsStep s t := .of_kept h.periodsKept

/-- A step between two quiet ones. -/
theorem PeriodsStep.within {s t u v : State} (h : PeriodsStep t u) (before : Quiet s t) (after : Quiet u v) :
    PeriodsStep s v := by
  have first : Periods s → Periods t := before.periodsStep.sound
  refine ⟨fun p => after.periodsStep.sound (h.sound (first p)), fun p a used used' => ?_⟩
  have state : (t.tenants.get a).state = (s.tenants.get a).state := congrArg TenantNumbers.state (before.numbers a)
  have state' : (v.tenants.get a).state = (u.tenants.get a).state := congrArg TenantNumbers.state (after.numbers a)
  have lifetime : (t.tenants.get a).lifetime = (s.tenants.get a).lifetime :=
    congrArg TenantNumbers.lifetime (before.numbers a)
  have lifetime' : (v.tenants.get a).lifetime = (u.tenants.get a).lifetime :=
    congrArg TenantNumbers.lifetime (after.numbers a)
  rw [← lifetime, lifetime']
  exact h.grows (first p) a (state ▸ used) (state' ▸ used')

theorem fillSlot_periodsStep {s : State} {a : Slot} {k : Tenant} (free : (s.tenants.get a).state = .free)
    (sound : TenantSound k s.review) : PeriodsStep s (setTenant a k s) := by
  refine ⟨fun h => { h with tenants := fun b => ?_ }, fun _ b used _ => ?_⟩
  · show TenantSound ((s.tenants.set a k).get b) s.review
    rw [Table.get_set]
    split
    · exact sound
    · exact h.tenants b
  · have other : b ≠ a := fun own => used (own ▸ free)
    have same : (setTenant a k s).tenants.get b = s.tenants.get b := Table.get_set_other _ _ other
    rw [same]
    exact ⟨Nat.le_refl _, Nat.le_refl _⟩

theorem created_sound (c : Contract) (r : Review) (now : RowTime) : TenantSound (.created c r.closeNumber now) r where
  baselineA := Nat.le_refl _
  baselineB := Nat.le_refl _
  lifetimeA := Nat.zero_le _
  lifetimeB := Nat.zero_le _
  budget := Nat.le_refl _
  held _ := ⟨rfl, rfl⟩
  lastClose _ := .inl rfl

theorem beNat_lt (bs : List Byte) : beNat bs < 256 ^ bs.length := by
  induction bs using List.reverseRecOn with
  | nil => exact Nat.one_pos
  | append_singleton bs b ih =>
    have unfolded : beNat (bs ++ [b]) = beNat bs * 256 + b.toNat := List.foldl_append ..
    have byte := b.isLt
    rw [unfolded, List.length_append, List.length_singleton, Nat.pow_succ]
    omega

theorem fieldAt_lt (bs : List Byte) (off len : Nat) : fieldAt bs off len < 256 ^ len :=
  (beNat_lt _).trans_le (Nat.pow_le_pow_right (by decide) (List.length_take_le ..))

/-- A lifetime energy read from 8 bytes is within 64 bits, and a baseline above it is refused (R159). -/
theorem transferOf_bounds {bs : List Byte} {x : TransferRecord} (read : transferOf bs = some x) :
    (x.baseline.a ≤ x.lifetime.a ∧ x.baseline.b ≤ x.lifetime.b) ∧
      x.lifetime.a ≤ Config.energyTop ∧ x.lifetime.b ≤ Config.energyTop := by
  simp only [transferOf, Option.bind_eq_bind, Option.bind_eq_some_iff, Option.ite_none_right_eq_some,
    Option.some.injEq] at read
  obtain ⟨_, _, _, _, _, _, _, _, _, _, ⟨_, _, _, baselineA, baselineB, _⟩, rfl⟩ := read
  exact ⟨⟨baselineA, baselineB⟩, Nat.le_sub_one_of_lt (fieldAt_lt bs 34 8), Nat.le_sub_one_of_lt (fieldAt_lt bs 42 8)⟩

theorem imported_sound {bs : List Byte} {x : TransferRecord} (read : transferOf bs = some x) (r : Review)
    (now : RowTime) : TenantSound (x.tenant r.closeNumber now) r := by
  obtain ⟨⟨baselineA, baselineB⟩, lifetimeA, lifetimeB⟩ := transferOf_bounds read
  exact ⟨baselineA, baselineB, lifetimeA, lifetimeB, Nat.min_le_right .., fun _ => ⟨rfl, rfl⟩, fun _ => .inl rfl⟩

/-- The record of an IMPORT's arguments is one that the reader of records takes. -/
theorem transferOf_of_importRecord {bs : List Byte} {a : Slot × TransferRecord}
    (read : Args.importRecord bs = some a) : transferOf (bs.drop 1) = some a.2 := by
  simp only [Args.importRecord, Option.bind_eq_bind, Option.bind_eq_some_iff, Option.some.injEq] at read
  obtain ⟨t, -, x, found, rfl⟩ := read
  exact found

/-- CREATE: a refusal is quiet, and a FREE slot gets a record as CREATE makes it (R51). -/
theorem create_periodsStep (r : Request) (s : State) :
    PeriodsStep s (serve .tenant r Args.slotContract (takeCreate r) s) := by
  rcases serve_quiet_cases .tenant r Args.slotContract (takeCreate r) s with refused | ⟨x, a, before, -, acted⟩
  · exact refused.periodsStep
  · rw [acted]
    by_cases free : (x.tenants.get a.1).state = .free
    · rw [takeCreate, if_pos free]
      exact (fillSlot_periodsStep free (created_sound ..)).within before (answer_isQuiet ..)
    · rw [takeCreate, if_neg free]
      exact before.answered.periodsStep

/-- IMPORT: a refusal is quiet, and a FREE slot gets the record's tenant (R159). -/
theorem import_periodsStep (r : Request) (s : State) :
    PeriodsStep s (serve .record r Args.importRecord (takeImport r) s) := by
  rcases serve_quiet_cases .record r Args.importRecord (takeImport r) s with refused | ⟨x, a, before, read, acted⟩
  · exact refused.periodsStep
  · rw [acted]
    by_cases free : (x.tenants.get a.1).state = .free
    · rw [takeImport, if_pos free]
      exact (fillSlot_periodsStep free (imported_sound (transferOf_of_importRecord read) ..)).within before
        (answer_isQuiet ..)
    · rw [takeImport, if_neg free]
      exact before.answered.periodsStep

/-! ### Every step -/

theorem exec_periodsStep (c : Instr) (s : State) : ∃ t, exec c s = .next t ∧ PeriodsStep s t := by
  by_cases create : ∃ r, c = .create r
  · obtain ⟨r, rfl⟩ := create
    exact ⟨_, rfl, create_periodsStep r s⟩
  · by_cases fills : ∃ r, c = .importTenant r
    · obtain ⟨r, rfl⟩ := fills
      exact ⟨_, rfl, import_periodsStep r s⟩
    · obtain ⟨t, run, kept⟩ := exec_kept (operationsKeep_periods s) c s (fun r own => create ⟨r, own⟩)
        fun r own => fills ⟨r, own⟩
      exact ⟨t, run, .of_kept kept⟩

theorem step_periodsStep {s t : State} (run : step s = .next t) : PeriodsStep s t := by
  unfold step at run
  split at run
  · cases run
    exact Quiet.periodsStep (.withTime ..)
  · next c rest _ =>
    obtain ⟨x, ends, stepped⟩ := exec_periodsStep c (s.withPending rest)
    cases ends.symm.trans run
    exact stepped.within (.withPending ..) (.refl _)

/-- Settles O56: each command is a chain of operations that keep the periods in order (`exec_periodsStep`). -/
theorem everyStepKeepsThePeriodsSound : Obligations.EveryStepKeepsThePeriodsSound :=
  fun _ _ sound run => (step_periodsStep run).sound sound

/-- Settles O30: the same chain, as no operation but the visit writes a lifetime energy of a slot in use. -/
theorem lifetimeEnergyNeverDecreases : Obligations.LifetimeEnergyNeverDecreases :=
  fun _ _ sound run => (step_periodsStep run).grows sound

end Sys2Proof.Machine


/-! Every step keeps the shed stacks and the order table in agreement (R49, R106, R111). -/

namespace Sys2Proof.Machine

/-! ### What Shedding says of the stacks, of the orders and of one outlet -/

/-- The outlets of a tenant's stack, from the bottom. -/
def State.stackOutlets (s : State) (a : Slot) : List OutletIx := (s.tenants.get a).stack.map (·.outlet)

/-- An order is outstanding for the outlet (R106). -/
def Ordered (s : State) (i : OutletIx) : Prop := ∃ o ∈ s.orders.orders, o.outlet = i

/-- A SHED order of the tenant is outstanding for the outlet (R106). -/
def OrderedFor (s : State) (a : Slot) (i : OutletIx) : Prop :=
  ∃ o ∈ s.orders.orders, o.outlet = i ∧ ∃ g, o.origin = .shed a g

/-- No stack has an entry of the outlet. -/
def Unstacked (s : State) (i : OutletIx) : Prop := ∀ a c, ⟨i, c⟩ ∉ (s.tenants.get a).stack

/-- The stacks hold at most 16 entries, of distinct outlets (R49). -/
structure StacksSound (s : State) : Prop where
  size : ∀ a, (s.stackOutlets a).length ≤ Config.stackDepth
  distinct : ∀ a, (s.stackOutlets a).Nodup

/-- At most 32 orders, one per outlet, with distinct numbers from 1 on (R106, R107). -/
structure OrdersSound (x : OrderTable) : Prop where
  count : x.orders.length ≤ Config.orderDepth
  numbers : (x.orders.map (·.number)).Nodup
  outlets : (x.orders.map (·.outlet)).Nodup
  valid : ∀ o ∈ x.orders, o.number ≠ 0
  next : x.next ≠ 0

/-- The map, the stacks and the orders agree on one outlet (R49, R106, R111). -/
structure OutletSound (s : State) (i : OutletIx) : Prop where
  member : ∀ a c, ⟨i, c⟩ ∈ (s.tenants.get a).stack → ∃ f, (s.map.entries.get i).effective.memberOf = some (a, f)
  offShed : (s.map.entries.get i).relay = .offShed ↔ ∃ a, ⟨i, true⟩ ∈ (s.tenants.get a).stack
  unconfirmed : ∀ a, ⟨i, false⟩ ∈ (s.tenants.get a).stack → OrderedFor s a i
  confirmed : ∀ a, ⟨i, true⟩ ∈ (s.tenants.get a).stack → ¬ Ordered s i

namespace Shedding

variable {s : State}

theorem of_parts (lists : StacksSound s) (orders : OrdersSound s.orders) (outlets : ∀ i, OutletSound s i) :
    Shedding s where
  stackSize a := (List.length_map (as := (s.tenants.get a).stack) (·.outlet)).symm.trans_le (lists.size a)
  stackDistinct := lists.distinct
  stackMembers a x mem := (outlets x.outlet).member a x.confirmed mem
  offShed i := (outlets i).offShed
  unconfirmed a i := (outlets i).unconfirmed a
  confirmed a i mem o placed own := (outlets i).confirmed a mem ⟨o, placed, own⟩
  orderCount := orders.count
  numbersDistinct := orders.numbers
  outletsDistinct := orders.outlets
  numbersValid := ⟨orders.valid, orders.next⟩

variable (h : Shedding s)
include h

theorem stackLists : StacksSound s where
  size a := (List.length_map (as := (s.tenants.get a).stack) (·.outlet)).trans_le (h.stackSize a)
  distinct := h.stackDistinct

theorem orderTable : OrdersSound s.orders :=
  ⟨h.orderCount, h.numbersDistinct, h.outletsDistinct, h.numbersValid.1, h.numbersValid.2⟩

theorem outlet (i : OutletIx) : OutletSound s i where
  member a c := h.stackMembers a ⟨i, c⟩
  offShed := h.offShed i
  unconfirmed a := h.unconfirmed a i
  confirmed a mem := fun ⟨o, placed, own⟩ => h.confirmed a i mem o placed own

end Shedding

/-- Stacks stay sound when outlets are taken out of them only. -/
theorem StacksSound.of_sublist {s t : State} (h : StacksSound s)
    (fewer : ∀ a, (t.stackOutlets a).Sublist (s.stackOutlets a)) : StacksSound t :=
  ⟨fun a => (fewer a).length_le.trans (h.size a), fun a => (h.distinct a).sublist (fewer a)⟩

/-- Orders stay sound when orders are taken out of the table only. -/
theorem OrdersSound.of_sublist {x y : OrderTable} (h : OrdersSound x) (fewer : y.orders.Sublist x.orders)
    (next : y.next = x.next) : OrdersSound y where
  count := fewer.length_le.trans h.count
  numbers := h.numbers.sublist (fewer.map _)
  outlets := h.outlets.sublist (fewer.map _)
  valid o placed := h.valid o (fewer.subset placed)
  next := next ▸ h.next

/-! ### Entries of an outlet -/

/-- A stack has one entry of an outlet at most. -/
theorem StacksSound.entry_unique {s : State} (h : StacksSound s) {a : Slot} {x y : StackEntry}
    (hx : x ∈ (s.tenants.get a).stack) (hy : y ∈ (s.tenants.get a).stack) (same : x.outlet = y.outlet) : x = y :=
  List.inj_on_of_nodup_map (h.distinct a) hx hy same

namespace OutletSound

variable {s t : State} {i : OutletIx}

/-- One tenant has an outlet in its stack at most. -/
theorem tenant_unique (h : OutletSound s i) {a b : Slot} {c d : Bool} (ha : ⟨i, c⟩ ∈ (s.tenants.get a).stack)
    (hb : ⟨i, d⟩ ∈ (s.tenants.get b).stack) : a = b := by
  obtain ⟨f, member⟩ := h.member a c ha
  obtain ⟨g, other⟩ := h.member b d hb
  exact (Prod.mk.inj (Option.some.inj (member.symm.trans other))).1

/-- An outlet that is not OFF_SHED and has no order is in no stack. -/
theorem unstacked (h : OutletSound s i) (status : (s.map.entries.get i).relay ≠ .offShed) (idle : ¬ Ordered s i) :
    Unstacked s i
  | a, true, entry => status (h.offShed.mpr ⟨a, entry⟩)
  | a, false, entry => by
    obtain ⟨o, placed, own, -⟩ := h.unconfirmed a entry
    exact idle ⟨o, placed, own⟩

theorem of_unstacked (out : Unstacked s i) (status : (s.map.entries.get i).relay ≠ .offShed) : OutletSound s i where
  member a c entry := absurd entry (out a c)
  offShed := ⟨fun off => absurd off status, fun ⟨a, entry⟩ => absurd entry (out a true)⟩
  unconfirmed a entry := absurd entry (out a false)
  confirmed a entry := absurd entry (out a true)

/-- An outlet stays sound when entries of it leave the stacks with its membership, and its status follows (R10). -/
theorem moved (h : OutletSound s i)
    (entry : ∀ a c, ⟨i, c⟩ ∈ (t.tenants.get a).stack → ⟨i, c⟩ ∈ (s.tenants.get a).stack ∧
      (t.map.entries.get i).effective.memberOf.map (·.1) = some a)
    (status : (t.map.entries.get i).relay = .offShed ↔ ∃ a, ⟨i, true⟩ ∈ (t.tenants.get a).stack)
    (ordered : Ordered t i → Ordered s i) (orderedFor : ∀ a, OrderedFor s a i → OrderedFor t a i) :
    OutletSound t i where
  member a c mem := by
    obtain ⟨⟨b, f⟩, found, rfl⟩ := Option.map_eq_some_iff.mp (entry a c mem).2
    exact ⟨f, found⟩
  offShed := status
  unconfirmed a mem := orderedFor a (h.unconfirmed a (entry a false mem).1)
  confirmed a mem := fun placed => h.confirmed a (entry a true mem).1 (ordered placed)

end OutletSound

/-- Two states have the same to say of an outlet. -/
structure SameAt (s t : State) (i : OutletIx) : Prop where
  effective : (t.map.entries.get i).effective = (s.map.entries.get i).effective
  relay : (t.map.entries.get i).relay = (s.map.entries.get i).relay
  entry : ∀ a c, ⟨i, c⟩ ∈ (t.tenants.get a).stack ↔ ⟨i, c⟩ ∈ (s.tenants.get a).stack
  ordered : Ordered t i → Ordered s i
  orderedFor : ∀ a, OrderedFor s a i → OrderedFor t a i

theorem OutletSound.of_same {s t : State} {i : OutletIx} (h : OutletSound s i) (same : SameAt s t i) :
    OutletSound t i := by
  refine h.moved (fun a c mem => ?_) ?_ same.ordered same.orderedFor
  · have before := (same.entry a c).mp mem
    obtain ⟨f, member⟩ := h.member a c before
    exact ⟨before, by rw [same.effective, member]; rfl⟩
  · rw [same.relay, h.offShed]
    exact exists_congr fun a => (same.entry a true).symm

/-! ### Steps that leave stacks and orders alone -/

section
variable {s t : State}

theorem ordered_of_orders (orders : t.orders.orders = s.orders.orders) (i : OutletIx) :
    (Ordered t i → Ordered s i) ∧ ∀ a, OrderedFor s a i → OrderedFor t a i := by
  unfold Ordered OrderedFor
  rw [orders]
  exact ⟨id, fun _ => id⟩

/-- The stacks, the orders and what the map says of memberships and relays decide Shedding. -/
theorem sheddingKept_of_same (orders : t.orders.orders = s.orders.orders) (next : t.orders.next = s.orders.next)
    (outlet : ∀ i, (t.map.entries.get i).effective = (s.map.entries.get i).effective ∧
      (t.map.entries.get i).relay = (s.map.entries.get i).relay)
    (stack : ∀ a, (t.tenants.get a).stack = (s.tenants.get a).stack) : Kept Shedding s t := by
  have lists (a : Slot) : t.stackOutlets a = s.stackOutlets a := congrArg (List.map StackEntry.outlet) (stack a)
  refine ⟨fun h => .of_parts (h.stackLists.of_sublist fun a => lists a ▸ .refl _)
    (h.orderTable.of_sublist (orders ▸ .refl _) next) fun i => (h.outlet i).of_same ?_⟩
  obtain ⟨ordered, orderedFor⟩ := ordered_of_orders orders i
  exact ⟨(outlet i).1, (outlet i).2, fun a c => by rw [stack], ordered, orderedFor⟩

theorem Quiet.sheddingKept (h : Quiet s t) : Kept Shedding s t :=
  sheddingKept_of_same h.orders h.next
    (fun i => ⟨congrArg Placement.effective (h.placement i), congrArg Placement.relay (h.placement i)⟩) h.stack

/-- One tenant record replaced by one with the same stack. -/
theorem tenant_sheddingKept {a : Slot} {k : Tenant} (stack : k.stack = (s.tenants.get a).stack) :
    Kept Shedding s (s.withTenants (s.tenants.set a k)) :=
  sheddingKept_of_same rfl rfl (fun _ => ⟨rfl, rfl⟩) fun b => by
    rw [State.withTenants_tenants, Table.get_set]
    split
    · next own => rw [own]; exact stack
    · rfl

theorem advance_sheddingKept : Kept Shedding s (advance s) := by
  unfold advance
  split <;> exact sheddingKept_of_same rfl rfl (fun _ => ⟨rfl, rfl⟩) fun _ => rfl

theorem withReview_sheddingKept (r : Review) : Kept Shedding s (s.withReview r) :=
  sheddingKept_of_same rfl rfl (fun _ => ⟨rfl, rfl⟩) fun _ => rfl

theorem visit_stack (k : Tenant) (now : RowTime) : (k.visit now).stack = k.stack := by
  obtain ⟨_, _, _, _, _, _, frame⟩ := visit_only k now
  rw [frame, integrate_takeUp]

theorem afterVerdict_sheddingKept (i : Slot) : Kept Shedding s (afterVerdict i s) := by
  have visited : Kept Shedding s (s.withTenants (s.tenants.set i ((s.tenants.get i).visit s.time.rowTime))) :=
    tenant_sheddingKept (visit_stack ..)
  exact .ite (fun _ => visited) fun _ => visited.trans (post_isQuiet ..).sheddingKept

theorem periodReset_sheddingKept (i : Slot) (n : Word16) (now : RowTime) :
    Kept Shedding s (modifyTenant i (fun k => k.periodReset n now) s) := tenant_sheddingKept rfl

theorem closeStep_sheddingKept (i : Slot) : Kept Shedding s (closeStep i s) := by
  refine .ite (fun _ => .ite (fun _ => ?_) fun _ => ?_) fun _ => advance_sheddingKept
  · have placed (r : AccountRecord) : Kept Shedding s (placeRecord r s) := Quiet.sheddingKept (.withUp ..)
    exact (placed _).trans ((periodReset_sheddingKept ..).trans advance_sheddingKept)
  · exact (Quiet.sheddingKept (.withUp ..)).trans (withReview_sheddingKept _)

theorem visitSlot_sheddingKept (i : Slot) : Kept Shedding s (visitSlot i s) := by
  by_cases free : (s.tenants.get i).state = .free
  · rw [visitSlot_free free]; exact advance_sheddingKept
  · rw [visitSlot_used free]; exact (afterVerdict_sheddingKept i).trans (closeStep_sheddingKept i)

theorem startPass_sheddingKept : Kept Shedding s (startPass s) :=
  (post_isQuiet ..).sheddingKept.after (withReview_sheddingKept _)

/-- A slot with an empty stack may get any record with an empty stack (R51, R56, R159). -/
theorem emptySlot_sheddingKept {a : Slot} {k : Tenant} (before : (s.tenants.get a).stack = []) (after : k.stack = []) :
    Kept Shedding s (setTenant a k s) := tenant_sheddingKept (after.trans before.symm)

theorem remove_sheddingKept {a : Slot} (unused : (s.tenants.get a).inUse = false) :
    Kept Shedding s (removeTenant a s) := by
  have empty : (s.tenants.get a).stack = [] := Decidable.byContradiction fun entries =>
    Bool.false_ne_true (unused.symm.trans ((inUse_iff _).mpr (.inr (.inr entries))))
  have cleared : Kept Shedding s (setTenant a .cleared s) := emptySlot_sheddingKept empty rfl
  exact .ite (fun _ => cleared.trans ((withReview_sheddingKept _).trans advance_sheddingKept)) fun _ => cleared

theorem stageChange_sheddingKept (i : OutletIx) (m : Membership) : Kept Shedding s (stageChange i m s) := by
  have orders : (stageChange i m s).orders = s.orders := by
    unfold stageChange
    dsimp only
    cases m.tenant <;> cases (s.map.entries.get i).pending.bind (·.tenant) <;> rfl
  refine sheddingKept_of_same (congrArg OrderTable.orders orders) (congrArg OrderTable.next orders) (fun j => ?_)
    fun a => by rw [stageChange_tenant]
  rw [stageChange_map, Table.get_set]
  split
  · next own => rw [own]; exact ⟨rfl, rfl⟩
  · exact ⟨rfl, rfl⟩

/-- With its answer no longer owed an order keeps number, outlet and tenant (R127). -/
theorem disownSwitch_sheddingKept : Kept Shedding s (disownSwitch s) := by
  refine ⟨fun h => .of_parts (h.stackLists.of_sublist fun _ => .refl _) ?_ fun i => (h.outlet i).of_same ?_⟩
  · have orders := h.orderTable
    refine ⟨(List.length_map _).trans_le orders.count, ?_, ?_, List.forall_mem_map.mpr orders.valid, orders.next⟩
    · exact (List.map_map ..).symm ▸ orders.numbers
    · exact (List.map_map ..).symm ▸ orders.outlets
  · refine ⟨rfl, rfl, fun _ _ => .rfl, ?_, ?_⟩
    · rintro ⟨o, placed, own⟩
      obtain ⟨p, before, rfl⟩ := List.mem_map.mp placed
      exact ⟨p, before, own⟩
    · rintro a ⟨o, placed, own, g, origin⟩
      exact ⟨_, List.mem_map_of_mem placed, own, g.disowned, congrArg OrderOrigin.disowned origin⟩

end

end Sys2Proof.Machine


/-! The operations that place or end orders or move entries keep Shedding, and with them every step (R10, R49, R106 to
R121). -/

namespace Sys2Proof.Machine

/-! ### The end of an order (R111, R114, R119) -/

theorem settled_sublist (o : Order) (e : Ending) (st : List StackEntry) :
    ((o.settled e st).map (·.outlet)).Sublist (st.map (·.outlet)) := by
  unfold Order.settled
  split
  · have same : (confirmEntry o.outlet st).map (·.outlet) = st.map (·.outlet) := by
      rw [confirmEntry_eq, List.map_map]
      refine List.map_congr_left fun x _ => ?_
      show (if x.outlet = o.outlet then (⟨o.outlet, true⟩ : StackEntry) else x).outlet = x.outlet
      split
      · next own => exact own.symm
      · rfl
    rw [same]
  · exact List.filter_sublist.map _

/-- No unconfirmed entry of the order's outlet is left in a stack that held it (R119). -/
theorem not_unconfirmed_settled (o : Order) (e : Ending) (st : List StackEntry) :
    ⟨o.outlet, false⟩ ∉ o.settled e st := by
  unfold Order.settled
  split
  · rw [confirmEntry_eq, List.mem_map]
    rintro ⟨x, -, became⟩
    split at became
    · cases became
    · next other => exact other (congrArg StackEntry.outlet became)
  · rw [removeEntry_eq, List.mem_filter]
    exact fun kept => of_decide_eq_true kept.2 rfl

theorem mem_settled_other {o : Order} {e : Ending} {st : List StackEntry} {x : StackEntry}
    (other : x.outlet ≠ o.outlet) :
    x ∈ o.settled e st ↔ x ∈ st := by
  unfold Order.settled
  split
  · rw [confirmEntry_eq, List.mem_map]
    constructor
    · rintro ⟨y, mem, rfl⟩
      split at other
      · exact absurd rfl other
      · next apart => rw [if_neg apart]; exact mem
    · exact fun mem => ⟨x, mem, if_neg other⟩
  · rw [removeEntry_eq, List.mem_filter, decide_eq_true_iff, and_iff_left other]

section
variable {s : State} {o : Order} (e : Ending)

/-- Every stack after the end of an order is as it was, or it held the order's entry and is settled. -/
theorem endOrder_stack_cases (o : Order) (s : State) (a : Slot) :
    ((endOrder o e s).tenants.get a).stack = (s.tenants.get a).stack ∨
      ((endOrder o e s).tenants.get a).stack = o.settled e (s.tenants.get a).stack := by
  rw [endOrder_tenants]
  by_cases waits : ∃ g, o.origin = .shed a g ∧ ⟨o.outlet, false⟩ ∈ (s.tenants.get a).stack
  · obtain ⟨g, origin, waits⟩ := waits
    exact .inr (orderStackStep_stack_waits origin waits)
  · refine .inl ?_
    by_cases own : ∃ g, o.origin = .shed a g
    · obtain ⟨g, origin⟩ := own
      exact orderStackStep_stack_absent origin fun mem => waits ⟨g, origin, mem⟩
    · exact orderStackStep_stack_other fun g origin => own ⟨g, origin⟩

theorem endOrder_stackOutlets (o : Order) (s : State) (a : Slot) :
    ((endOrder o e s).stackOutlets a).Sublist (s.stackOutlets a) := by
  unfold State.stackOutlets
  rcases endOrder_stack_cases e o s a with same | settles
  · rw [same]
  · rw [settles]; exact settled_sublist ..

theorem mem_endOrder_orders {o p : Order} {s : State} :
    p ∈ (endOrder o e s).orders.orders ↔ p ∈ s.orders.orders ∧ p.number ≠ o.number := by
  rw [endOrder_orders]
  exact List.mem_filter.trans (and_congr_right fun _ => bne_iff_ne)

/-- Another outlet keeps its entries, its status and its order. -/
theorem endOrder_sameAt (sound : Shedding s) (placed : o ∈ s.orders.orders) {i : OutletIx} (other : i ≠ o.outlet) :
    SameAt s (endOrder o e s) i := by
  have entry : (endOrder o e s).map.entries.get i = s.map.entries.get i := by
    rw [endOrder_entries]; exact Table.get_modify_other _ _ other
  refine ⟨by rw [entry], by rw [entry], fun a c => ?_, fun ⟨p, left, own⟩ => ?_, fun a ⟨p, before, own, g⟩ => ?_⟩
  · rcases endOrder_stack_cases e o s a with same | settles
    · rw [same]
    · rw [settles]; exact mem_settled_other other
  · exact ⟨p, ((mem_endOrder_orders e).mp left).1, own⟩
  · refine ⟨p, (mem_endOrder_orders e).mpr ⟨before, fun number => other ?_⟩, own, g⟩
    rw [← own, eq_of_same_number sound.numbersDistinct before placed number]

/-- The outlet of the order has no other order, and after its end no unconfirmed entry. -/
theorem endOrder_outletSound (sound : Shedding s) (placed : o ∈ s.orders.orders) :
    OutletSound (endOrder o e s) o.outlet := by
  have unique {p : Order} (before : p ∈ s.orders.orders) (own : p.outlet = o.outlet) : p = o :=
    List.inj_on_of_nodup_map sound.outletsDistinct before placed own
  have entry : (endOrder o e s).map.entries.get o.outlet = { s.map.entries.get o.outlet with
      relay := endedRelay o e s, indicator := endedIndicator o e s } := by
    rw [endOrder_entries]; exact Table.get_modify_same ..
  refine ⟨fun a c mem => ?_, ?_, fun a mem => ?_, fun _ _ ⟨p, left, own⟩ => ?_⟩
  · have outlets := (endOrder_stackOutlets e o s a).subset (List.mem_map_of_mem mem)
    obtain ⟨x, before, own⟩ := List.mem_map.mp outlets
    obtain ⟨f, member⟩ := sound.stackMembers a x before
    rw [show x.outlet = o.outlet from own] at member
    rw [entry]
    exact ⟨f, member⟩
  · have after := inConfirmedStack_after sound placed e
    have stacked : o.confirms e s ↔ ∃ a, ⟨o.outlet, true⟩ ∈ ((endOrder o e s).tenants.get a).stack := by
      rw [endOrder_tenants, ← after]
      exact inConfirmedStack_iff ..
    rw [entry, ← stacked]
    refine ⟨fun off => Classical.byContradiction fun fails => ?_, endedRelay_confirms sound placed⟩
    rcases reported : e.reported with _ | on
    · exact RelayStatus.noConfusion (off.symm.trans (relay_unreported reported))
    · cases on with
      | true => exact RelayStatus.noConfusion (off.symm.trans (relay_reportedOn reported))
      | false => exact RelayStatus.noConfusion (off.symm.trans (endedRelay_off sound placed reported fails))
  · exfalso
    by_cases waits : ⟨o.outlet, false⟩ ∈ (s.tenants.get a).stack
    · obtain ⟨p, before, own, g, origin⟩ := sound.unconfirmed a o.outlet waits
      rw [unique before own] at origin
      rw [endOrder_tenants, orderStackStep_stack_waits origin waits] at mem
      exact not_unconfirmed_settled o e _ mem
    · rcases endOrder_stack_cases e o s a with same | settles
      · exact waits (same ▸ mem)
      · exact not_unconfirmed_settled o e _ (settles ▸ mem)
  · obtain ⟨before, number⟩ := (mem_endOrder_orders e).mp left
    exact number (congrArg Order.number (unique before own))

theorem endOrder_sheddingKept (placed : o ∈ s.orders.orders) : Kept Shedding s (endOrder o e s) := by
  refine ⟨fun h => .of_parts (h.stackLists.of_sublist (endOrder_stackOutlets e o s)) ?_ fun i => ?_⟩
  · rw [endOrder_orders]
    exact h.orderTable.of_sublist List.filter_sublist rfl
  · by_cases own : i = o.outlet
    · rw [own]; exact endOrder_outletSound e h placed
    · exact (h.outlet i).of_same (endOrder_sameAt e h placed own)

end

/-- Outstanding orders with distinct numbers end one after the other: each is still there when its turn comes. -/
theorem loseOrders_sheddingKept : ∀ (l : List Order) (s : State), l ⊆ s.orders.orders →
    (l.map (·.number)).Nodup → Kept Shedding s (loseOrders l s)
  | [], s, _, _ => .refl s
  | o :: l, s, placed, distinct => by
    obtain ⟨placedFirst, placedRest⟩ := List.cons_subset.mp placed
    obtain ⟨fresh, rest⟩ := List.nodup_cons.mp distinct
    refine (endOrder_sheddingKept .nodeLost placedFirst).trans (loseOrders_sheddingKept l _ (fun p mem => ?_) rest)
    refine (mem_endOrder_orders .nodeLost).mpr ⟨placedRest mem, fun number => fresh ?_⟩
    exact List.mem_map.mpr ⟨p, mem, number⟩

theorem loseNode_sheddingKept (n : NodeIx) (s : State) : Kept Shedding s (loseNode n s) :=
  ⟨fun h => (loseOrders_sheddingKept (ordersOf n s) s (fun _ mem => (mem_ordersOf.mp mem).1)
    (h.numbersDistinct.sublist (List.filter_sublist.map _))).sound h⟩

/-! ### Placing an order (R107, R108) -/

/-- The checks of R108 let an order pass for an outlet without an order, and with room in the table. -/
theorem room_of_placeRefusal {i : OutletIx} {s : State} (passes : placeRefusal i s = none) :
    ¬ Ordered s i ∧ s.orders.orders.length < Config.orderDepth := by
  have up := up_of_placeRefusal passes
  have working : s.mgmt.opState ≠ .transparent := fun transparent =>
    Option.some_ne_none _ ((placeRefusal_transparent transparent).symm.trans passes)
  have idle : hasOrder i s = false := Bool.of_not_eq_true fun busy =>
    Option.some_ne_none _ ((placeRefusal_busy working up busy).symm.trans passes)
  refine ⟨fun ordered => Bool.false_ne_true (idle.symm.trans ((hasOrder_iff i s).mpr ordered)), ?_⟩
  exact Nat.lt_of_not_le fun full =>
    Option.some_ne_none _ ((placeRefusal_tableFull working up idle full).symm.trans passes)

theorem numberAfter_valid (n : Byte) : numberAfter n ≠ 0 := fun zero =>
  Nat.succ_ne_zero _ ((numberAfter_toNat n).symm.trans (congrArg BitVec.toNat zero))

/-- The next number is in use by no order, and it is not 0 (R107). -/
theorem nextNumber_fresh {s : State} (sound : Shedding s) :
    s.orders.nextNumber ∉ s.orders.numbers ∧ s.orders.nextNumber ≠ 0 := by
  obtain ⟨k, -, found, -, free⟩ := nextNumber_spec sound
  refine ⟨found ▸ free, fun zero => ?_⟩
  have place := repeat_numberAfter_toNat sound.numbersValid.2 k
  exact Nat.succ_ne_zero _ (place.symm.trans (congrArg BitVec.toNat (found.symm.trans zero)))

theorem nodup_map_concat {α β : Type} {f : α → β} {l : List α} {x : α} (h : (l.map f).Nodup) (fresh : f x ∉ l.map f) :
    ((l ++ [x]).map f).Nodup := by
  rw [List.map_append, List.map_singleton]
  exact List.nodup_append'.mpr ⟨h, List.nodup_singleton _, List.disjoint_singleton.mpr fresh⟩

section
variable {s : State} {i : OutletIx}

theorem placeOrder_ordersSound (sound : Shedding s) (passes : placeRefusal i s = none) (r : RelayAction)
    (d : IndicatorAction) (g : OrderOrigin) : OrdersSound (placeOrder i r d g s).orders := by
  obtain ⟨idle, room⟩ := room_of_placeRefusal passes
  obtain ⟨fresh, valid⟩ := nextNumber_fresh sound
  have orders := sound.orderTable
  refine ⟨?_, nodup_map_concat orders.numbers fresh, nodup_map_concat orders.outlets fun placed => ?_,
    List.forall_mem_append.mpr ⟨orders.valid, List.forall_mem_singleton.mpr valid⟩, numberAfter_valid _⟩
  · exact (List.length_append ..).trans_le room
  · exact idle (List.mem_map.mp placed)

/-- Another outlet keeps its order, whatever becomes of the one placed for. -/
theorem ordered_of_placed {x : State} {j : OutletIx} {o : Order} (orders : x.orders.orders = s.orders.orders ++ [o])
    (other : j ≠ o.outlet) : (Ordered x j → Ordered s j) ∧ ∀ a, OrderedFor s a j → OrderedFor x a j := by
  refine ⟨fun ⟨p, mem, own⟩ => ?_, fun a ⟨p, mem, own, g⟩ => ?_⟩
  · rw [orders] at mem
    refine ⟨p, (List.mem_append.mp mem).resolve_right fun placed => other ?_, own⟩
    rw [← own, List.mem_singleton.mp placed]
  · exact ⟨p, orders ▸ List.mem_append_left _ mem, own, g⟩

end

/-- A state in which an order has been placed for an outlet, with the stacks and the map written at this outlet only. -/
structure Placed (s t : State) (i : OutletIx) (r : RelayAction) (d : IndicatorAction) (g : OrderOrigin) : Prop where
  orders : t.orders = (placeOrder i r d g s).orders
  entries : ∀ j, j ≠ i → t.map.entries.get j = s.map.entries.get j
  stack : ∀ a x, x.outlet ≠ i → (x ∈ (t.tenants.get a).stack ↔ x ∈ (s.tenants.get a).stack)

/-- Shedding holds after an order has been placed when the stacks and the outlet are as it wants them. -/
theorem Placed.shedding {s t : State} {i : OutletIx} {r : RelayAction} {d : IndicatorAction} {g : OrderOrigin}
    (placed : Placed s t i r d g) (sound : Shedding s) (passes : placeRefusal i s = none) (lists : StacksSound t)
    (outlet : OutletSound t i) : Shedding t := by
  refine .of_parts lists (placed.orders ▸ placeOrder_ordersSound sound passes r d g) fun j => ?_
  by_cases own : j = i
  · exact own ▸ outlet
  · obtain ⟨ordered, orderedFor⟩ :=
      ordered_of_placed (s := s) (x := t) (o := newOrder i r d g s) (congrArg OrderTable.orders placed.orders) own
    have entry := placed.entries j own
    exact (sound.outlet j).of_same
      ⟨by rw [entry], by rw [entry], fun a c => placed.stack a _ own, ordered, orderedFor⟩

theorem mem_stackOutlets {s : State} {a : Slot} {i : OutletIx} :
    i ∈ s.stackOutlets a ↔ ∃ c, ⟨i, c⟩ ∈ (s.tenants.get a).stack := by
  refine List.mem_map.trans ⟨?_, fun ⟨c, mem⟩ => ⟨_, mem, rfl⟩⟩
  rintro ⟨x, mem, rfl⟩
  exact ⟨x.confirmed, mem⟩

/-! ### The three operations that place an order (R118, R120, R124) -/

/-- The target of a RESTORE is the top entry of the tenant's stack, confirmed (R120). -/
theorem top_of_restoreTarget {t : Slot} {i : OutletIx} {s : State} (target : restoreTarget t s = .ok i) :
    ∃ below, (s.tenants.get t).stack = below ++ [⟨i, true⟩] := by
  unfold restoreTarget at target
  dsimp only at target
  split at target
  · cases target
  · split at target
    · cases target
    · next top found =>
      obtain ⟨below, stack⟩ := List.getLast?_eq_some_iff.mp found
      split at target
      · cases target
      · next confirmed =>
        split at target
        · cases target
        · cases target
          obtain ⟨outlet, c⟩ := top
          cases c with
          | false => exact absurd rfl confirmed
          | true => exact ⟨below, stack⟩

/-- The target of a SHED is a candidate, and the tenant's stack has room for it (R118). -/
theorem candidate_of_shedTarget {q : Search} {i : OutletIx} {s : State} (target : shedTarget q s = .ok i) :
    isCandidate q.tenant i s = true ∧ (s.tenants.get q.tenant).stack.length < Config.stackDepth := by
  unfold shedTarget at target
  dsimp only at target
  split at target
  · cases target
  · split at target
    · cases target
    · split at target
      · cases target
      · next candidate =>
        split at target
        · cases target
        · next notFull =>
          split at target
          · cases target
          · cases target
            exact ⟨Bool.of_not_eq_false fun none => candidate (congrArg Bool.not none),
              Nat.lt_of_not_le fun full => notFull ((stackFull_iff _).mpr full)⟩

/-- Without its last entry, a stack of distinct outlets is the stack without this entry's outlet. -/
theorem dropLast_eq_removeEntry {st below : List StackEntry} {i : OutletIx} {c : Bool}
    (distinct : (st.map (·.outlet)).Nodup) (top : st = below ++ [⟨i, c⟩]) : st.dropLast = removeEntry i st := by
  subst top
  rw [List.map_append, List.nodup_append'] at distinct
  obtain ⟨-, -, apart⟩ := distinct
  have kept : below.filter (fun x => decide (x.outlet ≠ i)) = below :=
    List.filter_eq_self.mpr fun x mem => decide_eq_true fun own =>
      apart (List.mem_map_of_mem mem) (List.mem_singleton.mpr own)
  rw [List.dropLast_concat, removeEntry_eq, List.filter_append, kept, List.filter_singleton]
  simp

section
variable {s t : State} {i : OutletIx} {r : RelayAction} {d : IndicatorAction} {g : OrderOrigin}

/-- An order has been placed and the outlet's entry has left its stack, with the relay status OFF (R120, R124). -/
theorem shedding_of_released {a : Slot} (sound : Shedding s) (passes : placeRefusal i s = none)
    (entry : ⟨i, true⟩ ∈ (s.tenants.get a).stack) (orders : t.orders = (placeOrder i r d g s).orders)
    (map : t.map.entries = s.map.entries.set i { s.map.entries.get i with relay := .off })
    (stack : ∀ b, (t.tenants.get b).stack =
      if b = a then removeEntry i (s.tenants.get b).stack else (s.tenants.get b).stack) : Shedding t := by
  have out : Unstacked t i := fun b c mem => by
    rw [stack] at mem
    split at mem
    · rw [removeEntry_eq, List.mem_filter] at mem
      exact of_decide_eq_true mem.2 rfl
    · next other => exact other ((sound.outlet i).tenant_unique mem entry)
  have status : (t.map.entries.get i).relay ≠ .offShed := by
    rw [map, Table.get_set_same]; exact RelayStatus.noConfusion
  refine Placed.shedding ⟨orders, fun j other => ?_, fun b x other => ?_⟩ sound passes
    (sound.stackLists.of_sublist fun b => ?_) (.of_unstacked out status)
  · rw [map]; exact Table.get_set_other _ _ other
  · rw [stack]
    split
    · rw [removeEntry_eq, List.mem_filter, decide_eq_true_iff, and_iff_left other]
    · rfl
  · unfold State.stackOutlets
    rw [stack]
    split
    · exact List.filter_sublist.map _
    · exact .refl _

end

section
variable {s : State} {i : OutletIx}

theorem placeRestore_sheddingKept {a : Slot} (g : RequestOrigin) (target : restoreTarget a s = .ok i) :
    Kept Shedding s (placeRestore a g i s) := by
  obtain ⟨below, top⟩ := top_of_restoreTarget target
  have entry : ⟨i, true⟩ ∈ (s.tenants.get a).stack := top ▸ List.mem_concat_self
  refine ⟨fun h => shedding_of_released h (placeRefusal_of_restoreTarget target) entry rfl rfl fun b => ?_⟩
  refine (congrArg Tenant.stack (Table.get_modify ..)).trans ?_
  split
  · next own => subst own; exact dropLast_eq_removeEntry (h.stackDistinct _) top
  · rfl

theorem placeSwitch_sheddingKept {a : RelayAction} (r : Request) (d : IndicatorAction)
    (passes : switchRefusal i a s = none) : Kept Shedding s (placeSwitch r i a d s) := by
  have placeable := placeRefusal_of_switchRefusal passes
  refine ⟨fun h => ?_⟩
  by_cases shed : (s.map.entries.get i).relay = .offShed
  · obtain ⟨b, entry⟩ := (h.offShed i).mp shed
    obtain ⟨f, member⟩ := h.stackMembers b _ entry
    rw [placeSwitch_shed shed member]
    refine shedding_of_released h placeable entry rfl rfl fun x => ?_
    refine (congrArg Tenant.stack (Table.get_set ..)).trans ?_
    split
    · next own => rw [own]
    · rfl
  · have out := (h.outlet i).unstacked shed (room_of_placeRefusal placeable).1
    rw [placeSwitch_plain shed]
    exact Placed.shedding ⟨rfl, fun _ _ => rfl, fun _ _ _ => .rfl⟩ h placeable
      (h.stackLists.of_sublist fun _ => .refl _) (.of_unstacked out shed)

/-- The outlet is pushed unconfirmed on its tenant's stack, with its SHED order outstanding (R118). -/
theorem placeShed_sheddingKept {q : Search} (g : RequestOrigin) (target : shedTarget q s = .ok i) :
    Kept Shedding s (placeShed q.tenant g i s) := by
  have passes := placeRefusal_of_shedTarget target
  obtain ⟨candidate, room⟩ := candidate_of_shedTarget target
  obtain ⟨member, -, on, -, -⟩ := (isCandidate_iff ..).mp candidate
  have notShed : (s.map.entries.get i).relay ≠ .offShed := on ▸ RelayStatus.noConfusion
  have stack (b : Slot) : ((placeShed q.tenant g i s).tenants.get b).stack =
      if b = q.tenant then (s.tenants.get b).stack ++ [⟨i, false⟩] else (s.tenants.get b).stack := by
    refine (congrArg Tenant.stack (Table.get_modify ..)).trans ?_
    split
    · next own => rw [own]; rfl
    · rfl
  refine ⟨fun h => ?_⟩
  have out := (h.outlet i).unstacked notShed (room_of_placeRefusal passes).1
  have pushed (b : Slot) (c : Bool) :
      ⟨i, c⟩ ∈ ((placeShed q.tenant g i s).tenants.get b).stack ↔ b = q.tenant ∧ c = false := by
    rw [stack]
    split
    · next own =>
      rw [List.mem_append, List.mem_singleton, or_iff_right (out b c), and_iff_right own, StackEntry.mk.injEq,
        and_iff_right rfl]
    · next other => exact ⟨fun mem => absurd mem (out b c), fun same => absurd same.1 other⟩
  refine Placed.shedding (r := .off) (d := .blink) (g := .shed q.tenant g)
    ⟨rfl, fun _ _ => rfl, fun b x other => ?_⟩ h passes ⟨fun b => ?_, fun b => ?_⟩
    ⟨fun b c mem => ?_, ?_, fun b mem => ?_, fun b mem => ?_⟩
  · rw [stack]
    split
    · rw [List.mem_append, List.mem_singleton, or_iff_left fun own => other (congrArg StackEntry.outlet own)]
    · rfl
  · rw [State.stackOutlets, List.length_map, stack]
    split
    · next own => rw [List.length_append, own]; exact room
    · exact h.stackSize b
  · rw [State.stackOutlets, stack]
    split
    · exact nodup_map_concat (h.stackDistinct b) fun mem => by
        obtain ⟨c, entry⟩ := mem_stackOutlets.mp mem
        exact out b c entry
    · exact h.stackDistinct b
  · obtain ⟨rfl, -⟩ := (pushed b c).mp mem
    exact member
  · exact ⟨fun off => absurd off notShed, fun ⟨b, mem⟩ => Bool.noConfusion ((pushed b true).mp mem).2⟩
  · obtain ⟨rfl, -⟩ := (pushed b false).mp mem
    exact ⟨_, List.mem_concat_self, rfl, g, rfl⟩
  · exact Bool.noConfusion ((pushed b true).mp mem).2

end

/-! ### Membership changes (R9, R10, R12, R81) -/

section
variable {s : State}

theorem applyChange_sheddingKept (i : OutletIx) (m : Membership) : Kept Shedding s (applyChange i m s) := by
  have orders : (applyChange i m s).orders = s.orders := (applyChange_touches i m s).2 .orders rfl
  have stack := applyChange_stack i m s
  refine ⟨fun h => .of_parts (h.stackLists.of_sublist fun a => ?_) (orders ▸ h.orderTable) fun j => ?_⟩
  · unfold State.stackOutlets
    rw [stack]
    split
    · exact List.filter_sublist.map _
    · exact .refl _
  · obtain ⟨ordered, orderedFor⟩ := ordered_of_orders (congrArg OrderTable.orders orders) j
    by_cases own : j = i
    · subst own
      have entry (a : Slot) (c : Bool) : ⟨j, c⟩ ∈ ((applyChange j m s).tenants.get a).stack ↔
          ⟨j, c⟩ ∈ (s.tenants.get a).stack ∧ m.memberOf.map (·.1) = some a := by
        rw [stack]
        split
        · next leaves =>
          rw [removeEntry_eq, List.mem_filter]
          exact ⟨fun kept => absurd rfl (of_decide_eq_true kept.2), fun stays => absurd stays.2 leaves.2⟩
        · next stays =>
          refine ⟨fun mem => ⟨mem, Decidable.byContradiction fun gone => stays ⟨?_, gone⟩⟩, And.left⟩
          obtain ⟨f, member⟩ := h.stackMembers a _ mem
          exact congrArg (Option.map (·.1)) member
      refine (h.outlet j).moved (fun a c mem => ?_) ?_ ordered orderedFor
      · rw [applyChange_entry]; exact (entry a c).mp mem
      · rw [applyChange_entry]
        exact (relayApplied_offShed_iff h j m).trans (exists_congr fun a => (entry a true).symm)
    · have entry := applyChange_other own m s
      refine (h.outlet j).of_same ⟨by rw [entry], by rw [entry], fun a c => ?_, ordered, orderedFor⟩
      rw [stack]
      split
      · rw [removeEntry_eq, List.mem_filter, decide_eq_true_iff, and_iff_left own]
      · rfl

theorem endPass_sheddingKept : Kept Shedding s (endPass s) := by
  have orders : (endPass s).orders = s.orders := (endPass_touches s).2 .orders rfl
  refine ⟨fun h => ?_⟩
  have stack := (endPass_stacks h).1
  refine .of_parts (h.stackLists.of_sublist fun a => ?_) (orders ▸ h.orderTable) fun i => ?_
  · unfold State.stackOutlets
    rw [stack]
    exact List.filter_sublist.map _
  · obtain ⟨ordered, orderedFor⟩ := ordered_of_orders (congrArg OrderTable.orders orders) i
    have entry (a : Slot) (c : Bool) : ⟨i, c⟩ ∈ ((endPass s).tenants.get a).stack ↔ ⟨i, c⟩ ∈ (s.tenants.get a).stack ∧
        ((endPass s).map.entries.get i).effective.memberOf.map (·.1) = some a := by
      rw [stack, List.mem_filter, decide_eq_true_iff]
    refine (h.outlet i).moved (fun a c => (entry a c).mp) ?_ ordered orderedFor
    simp only [entry, endPass_entry]
    exact relayApplied_offShed_iff h i _

theorem assignAt_sheddingKept (i : OutletIx) (m : Membership) : Kept Shedding s (assignAt i m s) := by
  rcases assignAt_cases i m s with stopped | ⟨-, applied⟩ | ⟨-, staged⟩
  · rw [stopped]; exact .refl s
  · rw [applied]; exact applyChange_sheddingKept i m
  · rw [staged]; exact stageChange_sheddingKept i m

/-! ### The operating state and the resets (R60, R82, R177, R180, R182) -/

theorem setOpState_sheddingKept (x : OpState) : Kept Shedding s (setOpState x s) :=
  sheddingKept_of_same rfl rfl (fun _ => ⟨rfl, rfl⟩) fun _ => rfl

theorem enterRun_sheddingKept : Kept Shedding s (enterRun s) :=
  sheddingKept_of_same rfl rfl (fun _ => ⟨rfl, rfl⟩) fun a => by
    refine (congrArg Tenant.stack (Table.get_map ..)).trans ?_
    unfold Tenant.enterRun
    split <;> rfl

theorem changeState_sheddingKept (x : OpState) : Kept Shedding s (changeState x s) := by
  refine .ite (fun _ => .refl s) fun other => .ite (fun run => ?_) fun _ => .ite (fun _ => ?_) fun _ => ?_
  · have outOfRun : s.mgmt.opState ≠ .run := fun same => other (same.trans run.symm)
    exact (takeWaiting_isQuiet outOfRun).sheddingKept.trans ((setOpState_sheddingKept x).trans enterRun_sheddingKept)
  · exact (setOpState_sheddingKept x).trans endPass_sheddingKept
  · exact setOpState_sheddingKept x

/-- A restart leaves no order, and of the stacks the confirmed entries of members. -/
theorem warmRestart_sheddingKept : Kept Shedding s (warmRestart s) := by
  refine ⟨fun h => .of_parts (h.stackLists.of_sublist fun a => ?_) ?_ fun i => ?_⟩
  · unfold State.stackOutlets
    rw [warmRestart_stack, restartedStack_members h]
    exact List.filter_sublist.map _
  · rw [warmRestart_orders]
    exact h.orderTable.of_sublist (List.nil_sublist _) rfl
  · refine ⟨fun a c mem => ?_, ?_, fun a mem => ?_, fun a _ ⟨o, placed, _⟩ => ?_⟩
    · rw [warmRestart_stack, restartedStack_members h, List.mem_filter, Bool.and_eq_true, decide_eq_true_iff] at mem
      obtain ⟨⟨b, f⟩, member, rfl⟩ := Option.map_eq_some_iff.mp mem.2.2
      exact ⟨f, (congrArg Membership.memberOf (warmRestart_effective s i)).trans member⟩
    · simp only [warmRestart_stack]
      exact warmRestart_offShed_iff h i
    · rw [warmRestart_stack, restartedStack, List.mem_filter] at mem
      exact absurd mem.2 Bool.false_ne_true
    · rw [warmRestart_orders] at placed
      exact absurd placed List.not_mem_nil

end

/-! ### Every command -/

theorem operationsKeep_shedding : OperationsKeep Shedding where
  quiet := Quiet.sheddingKept
  endOrder e placed := endOrder_sheddingKept e placed
  loseNode := loseNode_sheddingKept
  placeRestore g target := placeRestore_sheddingKept g target
  placeShed {q _ _} target := (setSearch_isQuiet ..).sheddingKept.trans (placeShed_sheddingKept q.origin target)
  placeSwitch r d passes := placeSwitch_sheddingKept r d passes
  assignAt i m _ := assignAt_sheddingKept i m
  startPass _ _ := startPass_sheddingKept
  visit _ := visitSlot_sheddingKept _
  retry _ := (withReview_sheddingKept _).trans (visitSlot_sheddingKept _)
  endPass _ := endPass_sheddingKept
  latch _ := tenant_sheddingKept rfl
  startClose _ := withReview_sheddingKept _
  activate _ := tenant_sheddingKept rfl
  suspend _ := tenant_sheddingKept rfl
  remove := remove_sheddingKept
  changeState x _ := changeState_sheddingKept x
  disownSwitch _ := disownSwitch_sheddingKept
  warmRestart _ := warmRestart_sheddingKept
  coldReset _ := ⟨fun _ => { reset_shedding with }⟩

section
variable {s : State} (free : ∀ a, (s.tenants.get a).state = .free → (s.tenants.get a).stack = [])
include free

/-- A request that fills its slot when it is FREE with a record that has an empty stack. -/
theorem fill_sheddingKept {α : Type} {u : RequestUnit} {r : Request} {parse : List Byte → Option α}
    {act : α → State → State} {slot : α → Slot} {record : α → State → Tenant} {reply : α → ReplyData}
    (empty : ∀ a x, (record a x).stack = [])
    (fills : ∀ a x, act a x = if (x.tenants.get (slot a)).state = .free
      then answerOk u r (reply a) (setTenant (slot a) (record a x) x) else refuse u r .wrongState x) :
    Kept Shedding s (serve u r parse act s) := by
  rcases serve_quiet_cases u r parse act s with refused | ⟨x, a, before, -, acted⟩
  · exact refused.sheddingKept
  · rw [acted, fills]
    split
    · next unused =>
      have state : (s.tenants.get (slot a)).state = .free :=
        (congrArg TenantNumbers.state (before.numbers (slot a)) :).symm.trans unused
      have filled : Kept Shedding x (setTenant (slot a) (record a x) x) :=
        emptySlot_sheddingKept ((before.stack _).trans (free _ state)) (empty a x)
      exact before.sheddingKept.trans (filled.trans (answer_isQuiet ..).sheddingKept)
    · exact before.answered.sheddingKept

theorem exec_sheddingKept (c : Instr) : ∃ t, exec c s = .next t ∧ Kept Shedding s t := by
  by_cases create : ∃ r, c = .create r
  · obtain ⟨r, rfl⟩ := create
    exact ⟨_, rfl, fill_sheddingKept free (slot := Prod.fst) (reply := fun _ => .none)
      (record := fun a x => .created a.2 x.review.closeNumber x.time.rowTime) (fun _ _ => rfl) fun _ _ => rfl⟩
  · by_cases imports : ∃ r, c = .importTenant r
    · obtain ⟨r, rfl⟩ := imports
      exact ⟨_, rfl, fill_sheddingKept free (slot := Prod.fst) (reply := fun a => .slotPeriod a.1 a.2.periodNumber)
        (record := fun a x => a.2.tenant x.review.closeNumber x.time.rowTime) (fun _ _ => rfl) fun _ _ => rfl⟩
    · exact exec_kept operationsKeep_shedding c s (fun r own => create ⟨r, own⟩) fun r own => imports ⟨r, own⟩

end

/-- Settles O55: each command is a chain of operations that keep Shedding (`exec_kept`); the slots that CREATE and
IMPORT fill have empty stacks, as exact accounts hold cleared records in FREE slots. -/
theorem everyStepKeepsSheddingSound : Obligations.EveryStepKeepsSheddingSound := by
  intro s t accounts sound run
  have free (a : Slot) (unused : (s.tenants.get a).state = .free) : (s.tenants.get a).stack = [] :=
    congrArg Tenant.stack (accounts.freeCleared a unused)
  unfold step at run
  split at run
  · cases run
    exact (Quiet.withTime ..).sheddingKept.sound sound
  · next c rest _ =>
    obtain ⟨x, ends, kept⟩ := exec_sheddingKept (s := s.withPending rest) free c
    cases ends.symm.trans run
    exact kept.sound ((Quiet.withPending ..).sheddingKept.sound sound)

end Sys2Proof.Machine
